-- ==== Sys2Proof/Word.lean ====
section
/-! DEFINITION. The words the manual's fields are made of (spec/00_scope.md, Conventions). -/

namespace Sys2Proof

/-- One byte of the bus or of a record. -/
abbrev Byte := BitVec 8

/-- One data beat of the Floor Bus or the Store Port (R150). -/
abbrev Beat := BitVec 64

/-- A 32-bit count, index, code or tag. -/
abbrev Word32 := BitVec 32

/-- An address of the 36-bit address space. -/
abbrev Address := BitVec 36

/-- A lane of the hall, 0 to 5. -/
abbrev Lane := Fin 6

/-- A Floor Bus master, 0 to 7. -/
abbrev Master := Fin 8

/-- A window, 0 to 15; 0 is the Anchor. -/
abbrev Window := Fin 16

/-- A set of lanes, lane n at bit n (R195). -/
abbrev LaneSet := BitVec 6

end Sys2Proof
end

