-- ==== Sys2Proof/Syntax.lean ====
section
/-! DEFINITION. The commands the part takes: one constructor for each row of spec/opcode_table.json, with the row's operands.
A row that is the taking of an accepted write, or of the read in progress, has no operand of its own: the write or read stands
in State with its classification (spec/00_scope.md, Acceptance and taking; log 1). -/

namespace Sys2Proof

/-- One beat of a WRITE: its data and its byte mask (R150). -/
structure WriteBeat where
  data : Beat
  mask : BitVec 8
  deriving DecidableEq, Repr

/-- What the memory controller answers when it ends a transaction (R169); RETRY has its own commands. -/
inductive FinalAnswer where
  | ok
  | okCorrected
  | uncorrectable
  deriving DecidableEq, Repr

/-- The pins sampled when a reset is released (R157, R185, R74): the straps, and the level of each stop input. -/
structure SampledPins where
  anchorSel : BitVec 3
  refSel : Bool
  stopLevels : BitVec 6
  deriving DecidableEq, Repr

/-- The commands, in the table's order. -/
inductive Instr where
  | powerOn (pins : SampledPins)
  | resetn (pins : SampledPins)
  | fbRstn
  | stopInputChange (lane : Lane) (level : Bool)
  | hallTick
  | grantChoice (requests : BitVec 8)
  | floorBusWrite (address : Address) (beats : List WriteBeat)
  | floorBusRead (address : Address) (beatCount : Nat)
  | forwardedWrite
  | lotWrite
  | listRequest
  | withdrawRequest
  | press
  | gatePass
  | displayPass
  | exitPass
  | start
  | hold
  | resumeDiscard
  | resumeFlush
  | withdrawCommand
  | enable
  | disable
  | unknownLaneCommand
  | laneParameterWrite
  | stopModeWrite
  | deskWrite
  | buyerWrite
  | payment
  | invoiceCloseWord
  | consumerIndexWord
  | ringLowThresholdWrite
  | dayOpen
  | dayClose
  | unknownDayCommand
  | windowCommit
  | windowRemoval
  | masterCommit
  | flagClear
  | captureRelease
  | eventMapWrite
  | reportCorrectedSwitchWrite
  | anchorWrite
  | refusedWindowWrite
  | lotRead
  | buyerRead
  | deskRead
  | replyRead
  | displayRead
  | rightsProbe
  | forwardedRead
  | storePortGrant
  | storePortRetry
  | retryExhausted
  | forwardedReadCompletion (answer : FinalAnswer) (data : Vector Beat 8)
  | forwardedWriteCompletion (answer : FinalAnswer)
  | fetchReadCompletion (answer : FinalAnswer) (data : Vector Beat 8)
  | writeBackCompletion (corrected : Bool)
  | ringRecordCompletion (corrected : Bool)
  | preRollExpiry (lane : Lane)
  | restartPauseExpiry (lane : Lane)
  | stepTimerExpiry (lane : Lane)
  | contenderWindowExpiry (lane : Lane)
  | partMadeWriteUncorrectable
  | readAnsweredFault
  | fbRstnRelease (requests : BitVec 8)
  deriving DecidableEq, Repr

end Sys2Proof
end

