-- ==== Sys2Proof/Decode.lean ====
section
/-! DEFINITION. The words that spell commands. spec/opcode_table.json gives no row any bits ("fields" is empty in every row and
no row has "fixed"), so no word spells a command. -/

namespace Sys2Proof

/-- The command that the table's bits make of a word of `nbits` bits: none, since no row of the table has bits. -/
def decodeTableWord (nbits w : Nat) : Option Instr :=
  match nbits, w with
  | _, _ => none

end Sys2Proof
end

