-- ==== Sys2Proof/Config.lean ====
section
/-! DEFINITION. The part's fixed capacities, each from the rule named, and the one free value of the model. -/

namespace Sys2Proof.Config

/-- Writes the Posted Write Buffer holds (R153). -/
def postedWrites : Nat := 8
/-- Entries of the Listing Queue (R7). -/
def listingEntries : Nat := 8
/-- Lots of one lane's Expected Queue (R10, R15). -/
def expectedLots : Nat := 64
/-- Lots of one lane's Late List (R22). -/
def lateLots : Nat := 16
/-- Trolleys of one lane's Staging List (R22). -/
def stagingTrolleys : Nat := 3
/-- Trolleys the GATE lookahead reaches (R26). -/
def lookahead : Nat := 4
/-- Passes of one lane's Pass Backlog (R35). -/
def backlogPasses : Nat := 8
/-- Entries of one lane's Contender List (R88). -/
def contenders : Nat := 4
/-- Slots of a round reservation (R50). -/
def roundSlots : Nat := 5
/-- Lines at which an invoice closes (R107). -/
def invoiceLines : Nat := 64
/-- Records at which the Record Queue is full and taking pauses (R129). -/
def fullQueue : Nat := 32
/-- Consecutive RETRY answers at which a transaction's retries are exhausted (R169). -/
def retryLimit : Nat := 64
/-- The largest round number kept (R50). -/
def maxRound : Nat := 65535
/-- The largest lost count (R175). -/
def maxLost : Nat := 255

/-- FREE VALUE (logs 7 and 10). Where the spec gives no order among several acts of one step, the order is drawn
from this function of the part's draw counter and the place to fill. It has no body: nothing can be proved of its values. -/
opaque freeOrder : Nat → Nat → Nat

end Sys2Proof.Config
end

