-- ==== Sys2Proof/Machine/Values.lean ====
section
/-! DEFINITION. The enumerated values of the manual (spec/11_memory_formats.md, 11.2), under the manual's names. Their numeric
encodings are in Machine/Formats.lean. -/

namespace Sys2Proof.Machine

/-- Lot states (R2). -/
inductive LotState where
  | empty | listing | expected | late | staged | atClock | live | closed | withdrawn | refused
  deriving DecidableEq, Repr

/-- Reasons of a refused listing (R10, R13); ALREADY-KNOWN stands only in the last-refusal record. -/
inductive RefusalReason where
  | none | dayNotOpen | badField | laneDisabled | trolleyMoved | duplicateSequence | positionTaken | trolleySplit
  | queueFull | busy | dataError | alreadyKnown
  deriving DecidableEq, Repr

/-- A lot's result (R55). -/
inductive LotResult where
  | none | soldOut | partSold | unsold
  deriving DecidableEq, Repr

/-- Lane states (R44). -/
inductive LaneState where
  | idle | primed | running | struck | paused | closing | held
  deriving DecidableEq, Repr

/-- Return states of a HELD lane (spec/03, the Lane Unit's state). -/
inductive ReturnState where
  | idle | primed | paused
  deriving DecidableEq, Repr

/-- Hold reasons (R59). -/
inductive HoldReason where
  | host | stop | track | ring
  deriving DecidableEq, Repr

/-- The lane timers (R45). -/
inductive TimerKind where
  | preRoll | step | contenderWindow | restartPause
  deriving DecidableEq, Repr

/-- A lane command as read from the command and disposition bytes (R66). -/
inductive LaneCommand where
  | start | hold | resumeDiscard | resumeFlush | withdraw | enable | disable | unknown
  deriving DecidableEq, Repr

/-- Track dispositions of RESUME (R36). -/
inductive Disposition where
  | discard | flush
  deriving DecidableEq, Repr

/-- Stop modes (R70, R71). -/
inductive StopMode where
  | falling | rising | both | levelLow | levelHigh
  deriving DecidableEq, Repr

/-- Results of command words and commits (spec/11, 11.2). -/
inductive WordResult where
  | none | done | pending | refusedState | noLot | refusedStopActive | unknown | refusedRange | refusedBuyer | noInvoice
  | refusedRing | refusedIndex | noRing | refusedMap | notLocked
  deriving DecidableEq, Repr

/-- Reasons of a refused commit (R159, R165, R166). -/
inductive CommitReason where
  | none | badKind | align | size | limit | overlap | duplicateKind | dayNotClosed | ringBusy | badEntry
  deriving DecidableEq, Repr

/-- Window kinds (R160). -/
inductive WindowKind where
  | anchor | guard | lot | buyer | desk | press | reply | track | display | ring
  deriving DecidableEq, Repr

/-- Master roles (R159). -/
inductive Role where
  | plain | control | desk | track | display
  deriving DecidableEq, Repr

/-- Grant classes (R151, R159). -/
inductive GrantClass where
  | normal | high
  deriving DecidableEq, Repr

/-- Outcomes of a reply slot (R93). -/
inductive ReplyOutcome where
  | none | accepted | contending | refused
  deriving DecidableEq, Repr

/-- Reasons of a refused press or contender (R93). -/
inductive PressReason where
  | none | noBuyer | buyerBlocked | notRunning | noLot | held | belowMinimum | credit | ringFull | late | soldOut
  deriving DecidableEq, Repr

/-- Stations of a lane's track. -/
inductive Station where
  | gate | display | exit
  deriving DecidableEq, Repr

/-- Track fault reasons (R33). -/
inductive TrackFault where
  | none | stray | lateFull | stagingFull | order | overrun | earlyExit
  deriving DecidableEq, Repr

/-- A buyer's status (R98). -/
inductive BuyerStatus where
  | blocked | active
  deriving DecidableEq, Repr

/-- Day states (R188). -/
inductive DayState where
  | closed | opened | closing
  deriving DecidableEq, Repr

/-- Day commands (R189). -/
inductive DayCommand where
  | openDay | closeDay | unknown
  deriving DecidableEq, Repr

/-- The mark of a DAY-MARK record (R130). -/
inductive DayMark where
  | opening | closing
  deriving DecidableEq, Repr

/-- The eighteen event kinds (R179); the first nine are the error kinds (R176). -/
inductive EventKind where
  | rights | limit | format | owned | map | ringIndex | dramCorrected | dramUncorrectable | retryExhausted
  | trackFault | stop | ringHold | ringLow | listingRefused | lotClosed | invoiceClosed | paymentExcess | dayClosed
  deriving DecidableEq, Repr

/-- Event map entries, and the two attention lines among them (R180). -/
inductive MapEntry where
  | none | attnU | attnR
  deriving DecidableEq, Repr

/-- Part-made marks of the Error Capture (R174). -/
inductive PartMade where
  | none | fetch | writeBack | ringRecord
  deriving DecidableEq, Repr

/-- Direction of an access (R174). -/
inductive Direction where
  | read | write
  deriving DecidableEq, Repr

/-- Check results of a classification (R161). -/
inductive CheckResult where
  | pass | rights | limit | format
  deriving DecidableEq, Repr

/-- Store Port requesters (R168). -/
inductive Requester where
  | forward | catalogue | ringWriter
  deriving DecidableEq, Repr

/-- The kind of the Catalogue requester's last grant (R168). -/
inductive CatalogueTurn where
  | fetchRead | writeBack
  deriving DecidableEq, Repr

end Sys2Proof.Machine
end

