-- ==== Sys2Proof/Machine/Blocks.lean ====
section
/-! DEFINITION. The state of each of the part's twelve blocks, as plain data (spec/00_scope.md, Blocks of the part). Every field
cites the rule that names it. Money, units, prices and counts that never wrap are Nat; indices and counts that wrap, addresses,
tags and codes are bit vectors of their width. -/

namespace Sys2Proof.Machine

/-! ### Catalogue Unit (spec/01) -/

/-- The owned fields of a lot record (R2). -/
structure Owned where
  state : LotState
  reason : RefusalReason
  result : LotResult
  remaining : Nat
  sold : Nat
  withdrawn : Nat
  strikes : Nat
  lastPrice : Nat
  closeTick : Word32
  deriving DecidableEq, Repr

/-- The host fields of a lot record as fetched (R1). -/
structure HostFields where
  lane : Nat
  position : Nat
  request : Byte
  sequence : Nat
  tag : Word32
  units : Nat
  pieces : Nat
  startPrice : Nat
  floorPrice : Nat
  step : Nat
  minimum : Nat
  bump : Nat
  grower : Word32
  product : Word32
  pages : Vector (BitVec 64) 8
  deriving DecidableEq, Repr

/-- A known lot's digest (R3). `ended` is set once its reason for being known has ended (R19). -/
structure Digest where
  owned : Owned
  host : Option HostFields
  address : Address
  ended : Bool
  deriving DecidableEq, Repr

/-- An entry of the Listing Queue (R7, R9). -/
structure ListingEntry where
  lot : Nat
  withdrawPending : Bool
  deriving DecidableEq, Repr

/-- An entry of the write-back queue (R18); `forClose` is set when the lot's close requested it. -/
structure WriteBackEntry where
  lot : Nat
  forClose : Bool
  deriving DecidableEq, Repr

/-- The last-refusal record (R7, R13). -/
structure LastRefusal where
  lot : Nat
  reason : RefusalReason
  tick : Word32
  deriving DecidableEq, Repr

/-- The Catalogue Unit. `known` is a table in rising lot-index order; `writeBackOut` is the write-back issued and not yet
completed, in flight or waiting to be issued afresh (R170). -/
structure CatalogueUnit where
  known : List (Nat × Digest)
  listing : List ListingEntry
  fetchLower : Option (Vector Beat 8)
  expected : Vector (List Nat) 6
  writeBacks : List WriteBackEntry
  writeBackOut : Option WriteBackEntry
  lastRefusal : LastRefusal
  placedCount : Word32
  refusedCount : Word32
  withdrawRefusals : Word32
  deriving DecidableEq, Repr

/-! ### Track Unit (spec/02) -/

/-- A trolley: its tag and its lots in sequence order (R22). -/
structure Trolley where
  tag : Word32
  lots : List Nat
  deriving DecidableEq, Repr

/-- A pass report: station and tag (R24). -/
structure Pass where
  station : Station
  tag : Word32
  deriving DecidableEq, Repr

/-- The track fault record (R33). -/
structure FaultRecord where
  stopped : Bool
  station : Station
  tagSeen : Word32
  tagExpected : Word32
  reason : TrackFault
  tick : Word32
  deriving DecidableEq, Repr

/-- The Track Unit's state for one lane. -/
structure TrackLane where
  late : List Trolley
  staging : List Trolley
  display : Option Trolley
  fault : FaultRecord
  backlog : List Pass
  discarded : Word32
  deriving DecidableEq, Repr

/-! ### Lane Units (spec/03) -/

/-- A set of hold reasons (R59). -/
structure HoldSet where
  host : Bool
  stop : Bool
  track : Bool
  ring : Bool
  deriving DecidableEq, Repr

/-- A lane's timers, of which at most one counts (R44, R45). `counting k n` has n hall ticks to go; at 0 its expiry is due. -/
inductive Timer where
  | stopped
  | counting (kind : TimerKind) (left : Nat)
  deriving DecidableEq, Repr

/-- An entry of a Contender List (R88). -/
structure Contender where
  desk : Nat
  buyer : Nat
  units : Nat
  sequence : Byte
  deriving DecidableEq, Repr

/-- The lane parameters (R46). -/
structure LaneParams where
  stepInterval : Nat
  defaultStep : Nat
  defaultBump : Nat
  contenderWindow : Nat
  preRoll : Nat
  restartPause : Nat
  stopMode : StopMode
  deriving DecidableEq, Repr

/-- One Lane Unit. `roundReserved` counts the slots of the round reservation not yet used (R120). -/
structure LaneUnit where
  state : LaneState
  ret : ReturnState
  holds : HoldSet
  pendingHolds : HoldSet
  pendingWithdraw : Bool
  live : Option Nat
  price : Nat
  nextPrice : Nat
  round : Nat
  timer : Timer
  closeReserved : Bool
  roundReserved : Nat
  contenders : List Contender
  params : LaneParams
  enabled : Bool
  stopLevel : Bool
  commandResult : WordResult
  parameterResult : WordResult
  deriving DecidableEq, Repr

/-! ### Press Unit (spec/04) -/

/-- A desk's reply slot (R93). -/
structure ReplySlot where
  count : Byte
  lastAccepted : Byte
  reported : Byte
  outcome : ReplyOutcome
  reason : PressReason
  lane : Nat
  lot : Nat
  units : Nat
  position : Nat
  price : Nat
  amount : Nat
  credit : Nat
  deriving DecidableEq, Repr

/-- What the Press Unit holds for one desk (R77, R80, R93). -/
structure DeskEntry where
  buyer : Nat
  lastSequence : Option Byte
  duplicates : BitVec 16
  reply : ReplySlot
  deriving DecidableEq, Repr

/-- The Press Unit. `desks` lists the desks that differ from the reset entry. -/
structure PressUnit where
  desks : List (Nat × DeskEntry)
  taken : Word32
  accepted : Word32
  refused : Word32
  duplicates : Word32
  deriving DecidableEq, Repr

/-! ### Account Unit (spec/05) -/

/-- A buyer entry (R98, R99). An invoice number of 0 means no open invoice. -/
structure BuyerEntry where
  external : Nat
  status : BuyerStatus
  laneMask : LaneSet
  limit : Nat
  exposure : Nat
  invoice : Word32
  lines : Nat
  total : Nat
  deriving DecidableEq, Repr

/-- The payment result (R114). -/
structure PaymentResult where
  outcome : WordResult
  applied : Nat
  exposureAfter : Nat
  deriving DecidableEq, Repr

/-- The invoice-close result (R110). -/
structure InvoiceCloseResult where
  outcome : WordResult
  number : Word32
  lines : Nat
  total : Nat
  deriving DecidableEq, Repr

/-- The Account Unit. `buyers` lists the buyers that differ from the reset entry, in rising index order. -/
structure AccountUnit where
  buyers : List (Nat × BuyerEntry)
  invoiceCounter : Word32
  paymentResult : PaymentResult
  closeResult : InvoiceCloseResult
  deriving DecidableEq, Repr

/-! ### Ring Unit (spec/06) -/

/-- The committed ring's base and capacity in records (R118). -/
structure Geometry where
  base : Nat
  capacity : Nat
  deriving DecidableEq, Repr

/-- A Ring Waiter: a lane and its need (R121). -/
structure Waiter where
  lane : Lane
  need : Nat
  deriving DecidableEq, Repr

/-- The fields of a PURCHASE record (R130). -/
structure PurchaseFields where
  lane : Lane
  position : Nat
  lot : Nat
  round : Nat
  desk : Nat
  buyer : Nat
  external : Nat
  units : Nat
  pieces : Nat
  price : Nat
  invoice : Word32
  amount : Nat
  grower : Word32
  product : Word32
  deriving DecidableEq, Repr

/-- The fields of a LOT-CLOSE record (R130). -/
structure LotCloseFields where
  lane : Lane
  result : LotResult
  lot : Nat
  sold : Nat
  withdrawn : Nat
  strikes : Nat
  grower : Word32
  product : Word32
  deriving DecidableEq, Repr

/-- The record kinds with their fields (R130). -/
inductive RecordBody where
  | purchase (fields : PurchaseFields)
  | lotClose (fields : LotCloseFields)
  | invoiceClose (lines buyer external : Nat) (invoice : Word32) (total : Nat)
  | payment (buyer requested applied exposureAfter : Nat)
  | dayMark (mark : DayMark) (dayNumber : Nat) (purchases payments : Word32)
  deriving DecidableEq, Repr

/-- A record: its index, its tick and its kind's fields (R127). -/
structure RingRecord where
  index : Word32
  tick : Word32
  body : RecordBody
  deriving DecidableEq, Repr

/-- The Ring Unit. -/
structure RingUnit where
  geometry : Option Geometry
  assigned : Word32
  published : Word32
  consumer : Word32
  waiters : List Waiter
  queue : List RingRecord
  threshold : Nat
  purchases : Word32
  payments : Word32
  closingMark : Bool
  consumerResult : WordResult
  deriving DecidableEq, Repr

/-! ### Display Mapper (spec/07) -/

/-- A filled map slot: a lot and its page list (R140). -/
structure MapSlot where
  lot : Nat
  pages : Vector (BitVec 64) 8
  deriving DecidableEq, Repr

/-- The Display Mapper's state for one lane. `notified` holds the notices of the event in progress (R141); it is clear between
events. -/
structure DisplayLane where
  current : Option MapSlot
  next1 : Option MapSlot
  next2 : Option MapSlot
  generation : Word32
  holeCount : Word32
  lastUnits : Nat
  lastBuyer : Nat
  notified : Bool
  deriving DecidableEq, Repr

/-! ### Floor Port and Window Unit (spec/08) -/

/-- What an access's offset names (R161). -/
inductive Place where
  | none
  | record (index : Nat)
  | press (lane desk : Nat)
  | track (lane station : Nat)
  | reply (desk : Nat)
  | display (lane slot page inPage : Nat)
  deriving DecidableEq, Repr

/-- A classification (R161). -/
structure Classification where
  window : Option Window
  kind : Option WindowKind
  check : CheckResult
  place : Place
  deriving DecidableEq, Repr

/-- An accepted write with its classification (R153). -/
structure PostedWrite where
  master : Master
  address : Address
  beats : List WriteBeat
  cls : Classification
  deriving DecidableEq, Repr

/-- The granted read (R155). `forwarded` is set once it is taken and placed in the forward path. -/
structure ReadInProgress where
  master : Master
  address : Address
  beatCount : Nat
  cls : Classification
  forwarded : Bool
  deriving DecidableEq, Repr

/-- What the Floor Port answers (R150). -/
inductive Answer where
  | accept
  | backoff
  | done (data : List Beat)
  | fault
  deriving DecidableEq, Repr

/-- A response on FB_RSP and FB_DATA, with the master it answers. -/
structure Response where
  master : Master
  answer : Answer
  deriving DecidableEq, Repr

/-- The Floor Port. -/
structure FloorPort where
  grant : Option Master
  fbResetLow : Bool
  lastHigh : Master
  lastNormal : Master
  streak : Nat
  buffer : List PostedWrite
  read : Option ReadInProgress
  response : Option Response
  deriving DecidableEq, Repr

/-- A Window Cache entry (R160). -/
structure WindowEntry where
  valid : Bool
  kind : WindowKind
  base : Nat
  pages : Nat
  readLevel : Nat
  writeLevel : Nat
  recordLimit : Nat
  deriving DecidableEq, Repr

/-- A Master Table entry (R159). -/
structure MasterEntry where
  role : Role
  privilege : Nat
  grantClass : GrantClass
  firstDesk : Nat
  deskCount : Nat
  laneMask : LaneSet
  deriving DecidableEq, Repr

/-- A commit's result and reason (R159, R165, R166). -/
structure CommitResult where
  result : WordResult
  reason : CommitReason
  deriving DecidableEq, Repr

/-- The Window Unit, with the day state it keeps (spec/10). The shadow is a canonical list of cells; an unlisted offset is 0. -/
structure WindowUnit where
  cache : Vector WindowEntry 16
  masters : Vector MasterEntry 8
  shadow : List Host.Cell
  windowResults : Vector CommitResult 16
  masterResults : Vector CommitResult 8
  anchorSel : BitVec 3
  dayState : DayState
  dayNumber : Nat
  dayResult : WordResult
  deriving DecidableEq, Repr

/-! ### Store Port (spec/08) -/

/-- A forwarded write (R154). `listedLot` names the lot whose LIST request the write carried, if it did (R6, R8). -/
structure ForwardedWrite where
  master : Master
  window : Option Window
  address : Address
  beats : List WriteBeat
  listedLot : Option Nat
  deriving DecidableEq, Repr

/-- A forwarded read (R155). `merge` holds the owned values captured for a LOT read (R4). -/
structure ForwardedRead where
  master : Master
  window : Option Window
  address : Address
  beatCount : Nat
  merge : Option Owned
  deriving DecidableEq, Repr

/-- The transaction in flight, by the requester it belongs to (R168, R177). An abandoned read is one whose grant FB_RSTn took
(R172). -/
inductive Transaction where
  | forwardWrite (write : ForwardedWrite)
  | forwardRead (read : ForwardedRead) (abandoned : Bool)
  | fetch (lot : Nat) (address : Address)
  | writeBack (entry : WriteBackEntry) (address : Address) (data : List Beat)
  | ringRecord (record : RingRecord) (address : Address) (data : List Beat)
  deriving DecidableEq, Repr

/-- The transaction in flight with its consecutive RETRY count (R169). -/
structure InFlight where
  transaction : Transaction
  retries : Nat
  deriving DecidableEq, Repr

/-- The Store Port. -/
structure StorePort where
  lastGranted : Requester
  forwardWrite : Option ForwardedWrite
  forwardRead : Option ForwardedRead
  inFlight : Option InFlight
  turn : CatalogueTurn
  deriving DecidableEq, Repr

/-! ### Attention Unit and Tick Generator (spec/09) -/

/-- The Error Capture (R174). -/
structure ErrorCapture where
  kind : Option EventKind
  master : Option Master
  mark : PartMade
  window : Option Window
  address : Address
  direction : Direction
  tick : Word32
  locked : Bool
  lost : Nat
  deriving DecidableEq, Repr

/-- The flag-clear result (R182). -/
structure FlagClearResult where
  outcome : WordResult
  cleared : BitVec 18
  deriving DecidableEq, Repr

/-- The capture-release result (R178). -/
structure ReleaseResult where
  outcome : WordResult
  lost : Nat
  deriving DecidableEq, Repr

/-- The Attention Unit. A flag, map entry or count of an event kind stands at the kind's number. -/
structure AttentionUnit where
  capture : ErrorCapture
  flags : BitVec 18
  map : Vector MapEntry 18
  reportCorrected : Bool
  counts : Vector Word32 18
  corrected : Word32
  clearResult : FlagClearResult
  releaseResult : ReleaseResult
  deriving DecidableEq, Repr

/-- The Tick Generator (R185): the tick count, and REFSEL as sampled. -/
structure TickGenerator where
  count : Word32
  refSel : Bool
  deriving DecidableEq, Repr

/-! ### The part -/

/-- The whole part. `freeDraws` is the model's own: how many free orders have been drawn (logs 7 and 10). -/
structure Part where
  floor : FloorPort
  window : WindowUnit
  catalogue : CatalogueUnit
  tracks : Vector TrackLane 6
  lanes : Vector LaneUnit 6
  press : PressUnit
  account : AccountUnit
  ring : RingUnit
  displays : Vector DisplayLane 6
  store : StorePort
  attention : AttentionUnit
  ticks : TickGenerator
  freeDraws : Nat
  deriving DecidableEq, Repr

end Sys2Proof.Machine
end

