-- ==== Sys2Proof/Machine/Operands.lean ====
section
/-! DEFINITION. Bytes and fields: how a write's masks and beats name bytes, how a field is built from bytes and taken apart, and
how a read's beats are made (R150, R195). Every multi-byte field is little-endian. -/

namespace Sys2Proof.Machine

/-- The value of bytes in little-endian order (R195). -/
def leNat : List Byte → Nat
  | [] => 0
  | b :: bs => b.toNat + 256 * leNat bs

/-- Byte `k` of a little-endian value (R195). -/
def byteOf (value k : Nat) : Byte := BitVec.ofNat 8 (value / 256 ^ k)

/-- Byte `k` of a beat. -/
def beatByte (beat : Beat) (k : Nat) : Byte := byteOf beat.toNat k

/-- A beat made of eight bytes given by their offsets from `start`. -/
def beatAt (f : Nat → Byte) (start : Nat) : Beat :=
  BitVec.ofNat 64 (leNat [f start, f (start + 1), f (start + 2), f (start + 3), f (start + 4), f (start + 5), f (start + 6),
    f (start + 7)])

/-- `n` beats of the bytes that `f` gives, from `start` on. -/
def beatsAt (f : Nat → Byte) (start : Nat) : Nat → List Beat
  | 0 => []
  | n + 1 => beatAt f start :: beatsAt f (start + 8) n

/-- The bytes a beat of a WRITE enables, each with its address (R150). -/
def enabledOfBeat (address : Nat) (beat : WriteBeat) : List (Nat × Byte) :=
  [0, 1, 2, 3, 4, 5, 6, 7].filterMap fun k =>
    if beat.mask.getLsbD k then some (address + k, beatByte beat.data k) else none

/-- The bytes a WRITE enables, each with its address, in rising order of address (R150). -/
def enabledBytes (address : Nat) : List WriteBeat → List (Nat × Byte)
  | [] => []
  | beat :: rest => enabledOfBeat address beat ++ enabledBytes (address + 8) rest

/-- The bytes of a posted write that its masks enable. -/
def PostedWrite.bytes (write : PostedWrite) : List (Nat × Byte) := enabledBytes write.address.toNat write.beats

/-- The bytes moved down by `base`: offsets within a window or record. -/
def offsetsFrom (base : Nat) (bytes : List (Nat × Byte)) : List (Nat × Byte) := bytes.map fun b => (b.1 - base, b.2)

/-- Whether the bytes include any of the `size` bytes from `start` (log 8). -/
def covers (bytes : List (Nat × Byte)) (start size : Nat) : Bool :=
  bytes.any fun b => decide (start ≤ b.1) && decide (b.1 < start + size)

/-- The byte written at an offset, or the held one where none is written. -/
def writtenOr (bytes : List (Nat × Byte)) (offset : Nat) (held : Byte) : Byte :=
  match bytes.find? fun b => b.1 == offset with
  | some b => b.2
  | none => held

/-- R98: a field's candidate value: the value held, with the written bytes in place of the held ones. -/
def candidate (bytes : List (Nat × Byte)) (start size held : Nat) : Nat :=
  leNat ((List.range size).map fun k => writtenOr bytes (start + k) (byteOf held k))

/-- A field of a layout: its first offset, its size in bytes and its value. -/
structure FieldAt where
  offset : Nat
  size : Nat
  value : Nat
  deriving DecidableEq, Repr

/-- The byte that a layout shows at an offset; zero where no field stands (R195). -/
def layoutByte (fields : List FieldAt) (k : Nat) : Byte :=
  match fields.find? fun f => decide (f.offset ≤ k) && decide (k < f.offset + f.size) with
  | some f => byteOf f.value (k - f.offset)
  | none => 0

/-- A layout moved up by `start`. -/
def layoutFrom (start : Nat) (fields : List FieldAt) : List FieldAt :=
  fields.map fun f => { f with offset := f.offset + start }

/-- The value of a flag in a byte field, 1 for set, as 11.3 writes it for the attention lines and the probe words; for the flag bytes whose
values no table names it is the model's choice (log 35). -/
def flagNat (b : Bool) : Nat := if b then 1 else 0

/-- The first `n` beats of a line answered by the memory controller. -/
def firstBeats (data : Vector Beat 8) (n : Nat) : List Beat := data.toList.take n

/-- Byte `k` of a list of beats. -/
def byteOfBeats (beats : List Beat) (k : Nat) : Byte := beatByte (beats.getD (k / 8) 0) (k % 8)

/-- The value of a field in a record held as beats. -/
def fieldOfBeats (beats : List Beat) (start size : Nat) : Nat :=
  leNat ((List.range size).map fun k => byteOfBeats beats (start + k))

end Sys2Proof.Machine
end

