-- ==== Sys2Proof/Machine/ResetValues.lean ====
section
/-! DEFINITION. The state each block takes at power-on and at RESETn (R21, R43, R74, R97, R117, R136, R149, R173, R186, R187). -/

namespace Sys2Proof.Machine

/-- R2: the owned fields a lot has when its LIST request is taken. -/
def Owned.atListing : Owned :=
  { state := .listing, reason := .none, result := .none, remaining := 0, sold := 0, withdrawn := 0, strikes := 0,
    lastPrice := 0, closeTick := 0 }

/-- The empty set of hold reasons. -/
def HoldSet.none : HoldSet := { host := false, stop := false, track := false, ring := false }

/-- R21: the Catalogue Unit starts empty. -/
def CatalogueUnit.afterReset : CatalogueUnit :=
  { known := [], listing := [], fetchLower := none, expected := Vector.replicate 6 [], writeBacks := [], writeBackOut := none,
    lastRefusal := { lot := 0, reason := .none, tick := 0 }, placedCount := 0, refusedCount := 0, withdrawRefusals := 0 }

/-- R43: each lane's Track Unit state starts empty, with its track running. -/
def TrackLane.afterReset : TrackLane :=
  { late := [], staging := [], display := none,
    fault := { stopped := false, station := .gate, tagSeen := 0, tagExpected := 0, reason := .none, tick := 0 },
    backlog := [], discarded := 0 }

/-- R46: the lane parameters after either reset. -/
def LaneParams.afterReset : LaneParams :=
  { stepInterval := 10, defaultStep := 10, defaultBump := 0, contenderWindow := 5, preRoll := 0, restartPause := 20,
    stopMode := .falling }

/-- R74: a Lane Unit after either reset, its bounce filter at the stop input's level at the release. -/
def LaneUnit.afterReset (stopLevel : Bool) : LaneUnit :=
  { state := .idle, ret := .idle, holds := .none, pendingHolds := .none, pendingWithdraw := false, live := none, price := 0,
    nextPrice := 0, round := 0, timer := .stopped, closeReserved := false, roundReserved := 0, contenders := [],
    params := .afterReset, enabled := false, stopLevel := stopLevel, commandResult := .none, parameterResult := .none }

/-- R97: a reply slot after either reset. -/
def ReplySlot.afterReset : ReplySlot :=
  { count := 0, lastAccepted := 0, reported := 0, outcome := .none, reason := .none, lane := 0, lot := 0, units := 0,
    position := 0, price := 0, amount := 0, credit := 0 }

/-- R97: a desk after either reset. -/
def DeskEntry.afterReset : DeskEntry :=
  { buyer := 0, lastSequence := none, duplicates := 0, reply := .afterReset }

/-- R97: the Press Unit after either reset. -/
def PressUnit.afterReset : PressUnit :=
  { desks := [], taken := 0, accepted := 0, refused := 0, duplicates := 0 }

/-- R117: a buyer entry after either reset. -/
def BuyerEntry.afterReset : BuyerEntry :=
  { external := 0, status := .blocked, laneMask := 0, limit := 0, exposure := 0, invoice := 0, lines := 0, total := 0 }

/-- R117: the Account Unit after either reset. -/
def AccountUnit.afterReset : AccountUnit :=
  { buyers := [], invoiceCounter := 1, paymentResult := { outcome := .none, applied := 0, exposureAfter := 0 },
    closeResult := { outcome := .none, number := 0, lines := 0, total := 0 } }

/-- R136: the Ring Unit after either reset has no ring. -/
def RingUnit.afterReset : RingUnit :=
  { geometry := none, assigned := 0, published := 0, consumer := 0, waiters := [], queue := [], threshold := 0,
    purchases := 0, payments := 0, closingMark := false, consumerResult := .none }

/-- R149: a lane's display state after either reset. -/
def DisplayLane.afterReset : DisplayLane :=
  { current := none, next1 := none, next2 := none, generation := 0, holeCount := 0, lastUnits := 0, lastBuyer := 0,
    notified := false }

/-- R173: the Floor Port after either reset. FB_RSTn is a pin of its own and keeps the level driven on it (log 29). -/
def FloorPort.afterReset (fbResetLow : Bool) : FloorPort :=
  { grant := none, fbResetLow := fbResetLow, lastHigh := 0, lastNormal := 0, streak := 0, buffer := [], read := none,
    response := none }

/-- R157: the base of the Anchor, by the straps sampled: the gigabyte's start plus 2^30 - 65,536. -/
def anchorBase (sel : BitVec 3) : Nat := sel.toNat * 0x40000000 + 0x3FFF0000

/-- R173: an entry of the Window Cache that is not valid, its fields 0. -/
def WindowEntry.afterReset : WindowEntry :=
  { valid := false, kind := .anchor, base := 0, pages := 0, readLevel := 0, writeLevel := 0, recordLimit := 0 }

/-- R157, R160: the Anchor's entry, 16 pages of 4 KiB. No rule gives its read level and write level, which no access uses (R157); that
they are 0 is the model's choice (log 37). -/
def WindowEntry.anchor (sel : BitVec 3) : WindowEntry :=
  { WindowEntry.afterReset with valid := true, kind := .anchor, base := anchorBase sel, pages := 16 }

/-- R159: Master Table entry 0, fixed. -/
def MasterEntry.zero : MasterEntry :=
  { role := .control, privilege := 0, grantClass := .high, firstDesk := 0, deskCount := 0, laneMask := 0 }

/-- R173: Master Table entries 1 to 7 after either reset. -/
def MasterEntry.afterReset : MasterEntry :=
  { role := .plain, privilege := 3, grantClass := .normal, firstDesk := 0, deskCount := 0, laneMask := 0 }

/-- A commit result that reads NONE. -/
def CommitResult.afterReset : CommitResult := { result := .none, reason := .none }

/-- R173 and the table of spec/10: the Window Unit after either reset, and the day state it keeps. -/
def WindowUnit.afterReset (sel : BitVec 3) : WindowUnit :=
  { cache := (Vector.replicate 16 WindowEntry.afterReset).set 0 (WindowEntry.anchor sel),
    masters := (Vector.replicate 8 MasterEntry.afterReset).set 0 MasterEntry.zero,
    shadow := [], windowResults := Vector.replicate 16 .afterReset, masterResults := Vector.replicate 8 .afterReset,
    anchorSel := sel, dayState := .closed, dayNumber := 0, dayResult := .none }

/-- R173: the Store Port after either reset. -/
def StorePort.afterReset : StorePort :=
  { lastGranted := .ringWriter, forwardWrite := none, forwardRead := none, inFlight := none, turn := .fetchRead }

/-- R186: the event map after either reset: NONE, but DRAM-UNCORRECTABLE (kind number 7) ATTN_U. -/
def eventMapAfterReset : Vector MapEntry 18 := (Vector.replicate 18 MapEntry.none).set 7 .attnU

/-- R186: the Attention Unit after either reset. -/
def AttentionUnit.afterReset : AttentionUnit :=
  { capture := { kind := none, master := none, mark := .none, window := none, address := 0, direction := .read, tick := 0,
                 locked := false, lost := 0 },
    flags := 0, map := eventMapAfterReset, reportCorrected := false, counts := Vector.replicate 18 0, corrected := 0,
    clearResult := { outcome := .none, cleared := 0 }, releaseResult := { outcome := .none, lost := 0 } }

/-- R187: the part after power-on or RESETn, with the pins sampled at the release. -/
def Part.afterReset (pins : SampledPins) (fbResetLow : Bool) (freeDraws : Nat) : Part :=
  { floor := .afterReset fbResetLow, window := .afterReset pins.anchorSel, catalogue := .afterReset,
    tracks := Vector.replicate 6 .afterReset,
    lanes := #v[.afterReset pins.stopLevels[0], .afterReset pins.stopLevels[1], .afterReset pins.stopLevels[2],
      .afterReset pins.stopLevels[3], .afterReset pins.stopLevels[4], .afterReset pins.stopLevels[5]],
    press := .afterReset, account := .afterReset, ring := .afterReset, displays := Vector.replicate 6 .afterReset,
    store := .afterReset, attention := .afterReset, ticks := { count := 0, refSel := pins.refSel }, freeDraws := freeDraws }

end Sys2Proof.Machine
end

