-- ==== Sys2Proof/Machine/Ops.lean ====
section
/-! DEFINITION. Tables in canonical form, the Anchor shadow, and the named updates of the part's state that every block uses. -/

namespace Sys2Proof.Machine

/-! ### Tables: key and value pairs in strictly rising key order -/

/-- The value a table lists for a key. -/
def tableFind {α : Type} : List (Nat × α) → Nat → Option α
  | [], _ => none
  | (k, v) :: rest, n => if k = n then some v else tableFind rest n

/-- The table with the value for a key set, kept in rising order. -/
def tableInsert {α : Type} : List (Nat × α) → Nat → α → List (Nat × α)
  | [], n, v => [(n, v)]
  | (k, w) :: rest, n, v =>
    if n < k then (n, v) :: (k, w) :: rest
    else if n = k then (n, v) :: rest
    else (k, w) :: tableInsert rest n v

/-- The table without a key. -/
def tableErase {α : Type} : List (Nat × α) → Nat → List (Nat × α)
  | [], _ => []
  | (k, w) :: rest, n => if k = n then tableErase rest n else (k, w) :: tableErase rest n

/-- The value for a key in a table whose unlisted keys hold `d`. -/
def tableGet {α : Type} (d : α) (table : List (Nat × α)) (n : Nat) : α := (tableFind table n).getD d

/-- The table with a key set, where unlisted keys hold `d`: writing `d` removes the entry. -/
def tableSet {α : Type} [DecidableEq α] (d : α) (table : List (Nat × α)) (n : Nat) (v : α) : List (Nat × α) :=
  if v = d then tableErase table n else tableInsert table n v

/-- The keys of a table rise strictly. -/
abbrev tableSorted {α : Type} (table : List (Nat × α)) : Prop := (table.map Prod.fst).Pairwise (· < ·)

/-- The canonical form of a table whose unlisted keys hold `d`. -/
abbrev tableWf {α : Type} (d : α) (table : List (Nat × α)) : Prop :=
  tableSorted table ∧ ∀ e ∈ table, e.2 ≠ d

/-! ### The Anchor shadow (R157) -/

/-- What an offset of the shadow that nothing has written reads as: the spec's reset value, zero (R173). -/
def Memory.unlisted : Byte := 0

/-- The shadow's byte at an offset. -/
def Memory.read (shadow : List Host.Cell) (offset : Nat) : Byte := tableGet Memory.unlisted shadow offset

/-- The shadow with bytes written, in order. -/
def Memory.write (shadow : List Host.Cell) (bytes : List (Nat × Byte)) : List Host.Cell :=
  bytes.foldl (fun m b => tableSet Memory.unlisted m b.1 b.2) shadow

/-- The canonical form of the shadow. -/
abbrev Memory.wf (shadow : List Host.Cell) : Prop := tableWf Memory.unlisted shadow

/-- A field of the shadow (R195). -/
def Memory.field (shadow : List Host.Cell) (start size : Nat) : Nat :=
  leNat ((List.range size).map fun k => Memory.read shadow (start + k))

/-! ### Free orders (logs 7 and 10) -/

/-- The list with the element at a place taken out, and that element; the place counts round. -/
def pickOut {α : Type} (x : α) (rest : List α) (place : Nat) : α × List α :=
  match place % (rest.length + 1) with
  | 0 => (x, rest)
  | k + 1 => (rest.getD k x, x :: rest.eraseIdx k)

/-- A list in the order that `pick` names, `fuel` elements long at most. -/
def reorder {α : Type} (pick : Nat → Nat) : Nat → List α → List α
  | 0, xs => xs
  | _ + 1, [] => []
  | _ + 1, [x] => [x]
  | fuel + 1, x :: y :: rest =>
    let picked := pickOut x (y :: rest) (pick fuel)
    picked.1 :: reorder pick fuel picked.2

/-- A list of acts of one step between which the spec gives no order, in a free order. A list of fewer than two acts has one order
only, and draws nothing. -/
def freelyOrdered {α : Type} (draw : Nat) (xs : List α) : List α := reorder (Config.freeOrder draw) xs.length xs

/-! ### Named updates of the part -/

def Part.lane (p : Part) (i : Lane) : LaneUnit := p.lanes[i]
def Part.setLane (p : Part) (i : Lane) (l : LaneUnit) : Part := { p with lanes := p.lanes.set i l }
def Part.track (p : Part) (i : Lane) : TrackLane := p.tracks[i]
def Part.setTrack (p : Part) (i : Lane) (t : TrackLane) : Part := { p with tracks := p.tracks.set i t }
def Part.display (p : Part) (i : Lane) : DisplayLane := p.displays[i]
def Part.setDisplay (p : Part) (i : Lane) (d : DisplayLane) : Part := { p with displays := p.displays.set i d }
def Part.setFloor (p : Part) (f : FloorPort) : Part := { p with floor := f }
def Part.setWindow (p : Part) (w : WindowUnit) : Part := { p with window := w }
def Part.setCatalogue (p : Part) (c : CatalogueUnit) : Part := { p with catalogue := c }
def Part.setPress (p : Part) (u : PressUnit) : Part := { p with press := u }
def Part.setAccount (p : Part) (a : AccountUnit) : Part := { p with account := a }
def Part.setRing (p : Part) (r : RingUnit) : Part := { p with ring := r }
def Part.setStore (p : Part) (s : StorePort) : Part := { p with store := s }
def Part.setAttention (p : Part) (a : AttentionUnit) : Part := { p with attention := a }

/-- The current hall tick (R185). -/
def Part.tick (p : Part) : Word32 := p.ticks.count

/-- A lane's Expected Queue (R15). -/
def Part.expected (p : Part) (i : Lane) : List Nat := p.catalogue.expected[i]
def Part.setExpected (p : Part) (i : Lane) (queue : List Nat) : Part :=
  p.setCatalogue { p.catalogue with expected := p.catalogue.expected.set i queue }

/-- The digest of a known lot (R3). -/
def Part.digest (p : Part) (lot : Nat) : Option Digest := tableFind p.catalogue.known lot
def Part.known (p : Part) (lot : Nat) : Bool := (p.digest lot).isSome
def Part.setDigest (p : Part) (lot : Nat) (d : Digest) : Part :=
  p.setCatalogue { p.catalogue with known := tableInsert p.catalogue.known lot d }
def Part.dropDigest (p : Part) (lot : Nat) : Part :=
  p.setCatalogue { p.catalogue with known := tableErase p.catalogue.known lot }

/-- A known lot's digest changed; a lot that is not known is left. -/
def Part.updateDigest (p : Part) (lot : Nat) (f : Digest → Digest) : Part :=
  match p.digest lot with
  | some d => p.setDigest lot (f d)
  | none => p

/-- A known lot's owned fields changed. -/
def Part.updateOwned (p : Part) (lot : Nat) (f : Owned → Owned) : Part :=
  p.updateDigest lot fun d => { d with owned := f d.owned }

/-- The state of a known lot. -/
def Part.lotState (p : Part) (lot : Nat) : Option LotState := (p.digest lot).map fun d => d.owned.state

/-- The host fields of a placed lot (R3). -/
def Part.host (p : Part) (lot : Nat) : Option HostFields := (p.digest lot).bind fun d => d.host

/-- A placed lot's trolley tag, catalogue sequence and position. -/
def Part.tagOf (p : Part) (lot : Nat) : Word32 := match p.host lot with | some h => h.tag | none => 0
def Part.sequenceOf (p : Part) (lot : Nat) : Nat := match p.host lot with | some h => h.sequence | none => 0
def Part.positionOf (p : Part) (lot : Nat) : Nat := match p.host lot with | some h => h.position | none => 0

/-- A desk's entry, and the entry set. -/
def Part.desk (p : Part) (desk : Nat) : DeskEntry := tableGet .afterReset p.press.desks desk
def Part.setDesk (p : Part) (desk : Nat) (d : DeskEntry) : Part :=
  p.setPress { p.press with desks := tableSet .afterReset p.press.desks desk d }

/-- A buyer's entry, and the entry set. -/
def Part.buyer (p : Part) (buyer : Nat) : BuyerEntry := tableGet .afterReset p.account.buyers buyer
def Part.setBuyer (p : Part) (buyer : Nat) (b : BuyerEntry) : Part :=
  p.setAccount { p.account with buyers := tableSet .afterReset p.account.buyers buyer b }

/-- The Display Mapper is told of a change in a lane (R141). -/
def Part.notify (p : Part) (i : Lane) : Part := p.setDisplay i { p.display i with notified := true }

/-- The six lanes. -/
def allLanes : List Lane := [0, 1, 2, 3, 4, 5]

/-- The lane a number names. -/
def toLane (n : Nat) : Option Lane := if h : n < 6 then some ⟨n, h⟩ else none

end Sys2Proof.Machine
end

