-- ==== Sys2Proof/Machine/Flags.lean ====
section
/-! DEFINITION. The Attention Unit's shared operations: raising an event, capturing an error, and the attention lines
(R174 to R184). -/

namespace Sys2Proof.Machine

/-- The number of an event kind (spec/11, 11.2). -/
def EventKind.num : EventKind → Fin 18
  | .rights => 0 | .limit => 1 | .format => 2 | .owned => 3 | .map => 4 | .ringIndex => 5 | .dramCorrected => 6
  | .dramUncorrectable => 7 | .retryExhausted => 8 | .trackFault => 9 | .stop => 10 | .ringHold => 11 | .ringLow => 12
  | .listingRefused => 13 | .lotClosed => 14 | .invoiceClosed => 15 | .paymentExcess => 16 | .dayClosed => 17

/-- The flag of one event kind, as a set (R195). -/
def EventKind.flag (kind : EventKind) : BitVec 18 := 1#18 <<< kind.num.val

/-- R179: raising an event kind sets its flag and adds 1 to its count, wrapping. -/
def AttentionUnit.raise (a : AttentionUnit) (kind : EventKind) : AttentionUnit :=
  { a with flags := a.flags ||| kind.flag, counts := a.counts.set kind.num (a.counts[kind.num] + 1) }

/-- R179: an event kind raised by a block. -/
def Part.raise (p : Part) (kind : EventKind) : Part := p.setAttention (p.attention.raise kind)

/-- The origin of an error (R176, R177). -/
structure ErrorReport where
  kind : EventKind
  master : Option Master
  mark : PartMade
  window : Option Window
  address : Address
  direction : Direction
  deriving DecidableEq, Repr

/-- R174, R175: an error fills and locks an unlocked capture; a locked one keeps its fields and counts the error as lost. -/
def ErrorCapture.take (c : ErrorCapture) (r : ErrorReport) (tick : Word32) : ErrorCapture :=
  if c.locked then { c with lost := min Config.maxLost (c.lost + 1) }
  else { kind := some r.kind, master := r.master, mark := r.mark, window := r.window, address := r.address,
         direction := r.direction, tick := tick, locked := true, lost := 0 }

/-- R174, R179: an error reported: offered to the capture and raised as an event in the same step. -/
def Part.report (p : Part) (r : ErrorReport) : Part :=
  p.setAttention ({ p.attention with capture := p.attention.capture.take r p.tick }.raise r.kind)

/-- R181: whether a line is asserted: some set flag's map entry names it. -/
def AttentionUnit.attnLine (a : AttentionUnit) (line : MapEntry) : Bool :=
  (List.finRange 18).any fun k => a.flags.getLsbD k.val && a.map[k] == line

end Sys2Proof.Machine
end

