-- ==== Sys2Proof/Machine/Digests.lean ====
section
/-! DEFINITION. Shared operations on known lots: write-back requests, the end of a lot's reason for being known, and a lot made a
passenger (R16 to R19). -/

namespace Sys2Proof.Machine

/-- R18: a request joins the tail of the write-back queue, unless an entry for the lot is waiting there; that entry then stands for
both requests. -/
def joinWriteBacks (lot : Nat) (forClose : Bool) : List WriteBackEntry → List WriteBackEntry
  | [] => [⟨lot, forClose⟩]
  | e :: rest => if e.lot = lot then ⟨lot, e.forClose || forClose⟩ :: rest else e :: joinWriteBacks lot forClose rest

/-- R18: a write-back of a lot requested. -/
def requestWriteBack (p : Part) (lot : Nat) (forClose : Bool) : Part :=
  p.setCatalogue { p.catalogue with writeBacks := joinWriteBacks lot forClose p.catalogue.writeBacks }

/-- R19: whether a write-back of the lot is waiting or in flight. -/
def writeBackOutstanding (p : Part) (lot : Nat) : Bool :=
  (p.catalogue.writeBacks.any fun e => e.lot == lot) ||
    (match p.catalogue.writeBackOut with | some e => e.lot == lot | none => false)

/-- R19: a digest is freed once its reason for being known has ended and no write-back of it is outstanding. -/
def freeIfDone (p : Part) (lot : Nat) : Part :=
  match p.digest lot with
  | some d => if d.ended && !writeBackOutstanding p lot then p.dropDigest lot else p
  | none => p

/-- R19: a lot's reason for being known ends. -/
def endReason (p : Part) (lot : Nat) : Part :=
  freeIfDone (p.updateDigest lot fun d => { d with ended := true }) lot

/-- R19: the reasons of several lots end. -/
def endReasons (p : Part) (lots : List Nat) : Part := lots.foldl endReason p

/-- R16: the owned fields of a lot made a passenger. -/
def Owned.asPassenger (o : Owned) (tick : Word32) : Owned :=
  { o with withdrawn := o.remaining, remaining := 0, state := .withdrawn, closeTick := tick }

/-- R16: a lot that is not yet live is made a passenger, and a write-back of it is queued. -/
def makePassenger (p : Part) (lot : Nat) : Part :=
  requestWriteBack (p.updateOwned lot fun o => o.asPassenger p.tick) lot false

/-- R23: the state of each of a trolley's lots that is not WITHDRAWN set to the state of its new place. -/
def setLotStates (p : Part) (lots : List Nat) (state : LotState) : Part :=
  lots.foldl (fun q lot => q.updateOwned lot fun o => if o.state = .withdrawn then o else { o with state := state }) p

/-- Whether a lot's state is one of those before its going live (R16, R20). -/
def LotState.notYetLive : LotState → Bool
  | .expected => true | .late => true | .staged => true | .atClock => true
  | .empty => false | .listing => false | .live => false | .closed => false | .withdrawn => false | .refused => false

/-- The lane whose Display Position, list or queue a placed lot belongs to: its lane field (R1). -/
def laneOfLot (p : Part) (lot : Nat) : Option Lane := (p.host lot).bind fun h => toLane h.lane

end Sys2Proof.Machine
end

