-- ==== Sys2Proof/Machine/DisplayMap.lean ====
section
/-! DEFINITION. The Display Mapper's maps: what the three slots hold and when a rebuild changes the generation (R139 to R142). -/

namespace Sys2Proof.Machine

/-- R140: a lane's display order: Display Position, Staging List, Late List, Expected Queue. -/
def displayOrder (p : Part) (i : Lane) : List Nat :=
  let t := p.track i
  (match t.display with | some y => y.lots | none => []) ++ t.staging.flatMap (fun y => y.lots) ++
    t.late.flatMap (fun y => y.lots) ++ p.expected i

/-- R140: the lots of the display order that are neither CLOSED nor WITHDRAWN and are not the live lot. -/
def comingLots (p : Part) (i : Lane) : List Nat :=
  (displayOrder p i).filter fun lot =>
    p.lotState lot != some .closed && p.lotState lot != some .withdrawn && (p.lane i).live != some lot

/-- R140: a filled slot: the lot and a copy of its page list. -/
def mapSlot (p : Part) (lot : Nat) : MapSlot :=
  { lot := lot, pages := match p.host lot with | some h => h.pages | none => Vector.replicate 8 0 }

/-- The lot of a slot, or none. -/
def slotLot (s : Option MapSlot) : Option Nat := s.map fun m => m.lot

/-- R139 to R142: a lane's map chosen afresh; the generation rises by 1 if any slot holds a different lot, or has changed between
empty and filled. -/
def rebuildMap (p : Part) (i : Lane) : Part :=
  let d := p.display i
  let coming := comingLots p i
  let current := (p.lane i).live.map (mapSlot p)
  let next1 := coming[0]?.map (mapSlot p)
  let next2 := coming[1]?.map (mapSlot p)
  let same := slotLot d.current == slotLot current && slotLot d.next1 == slotLot next1 && slotLot d.next2 == slotLot next2
  p.setDisplay i { d with current := current, next1 := next1, next2 := next2,
                          generation := if same then d.generation else d.generation + 1, notified := false }

/-- R141: at the end of an event each lane that was notified is rebuilt once. -/
def rebuildIfNotified (p : Part) (i : Lane) : Part := if (p.display i).notified then rebuildMap p i else p

/-- R141: the rebuilds of one event. -/
def rebuildNotified (p : Part) : Part := allLanes.foldl rebuildIfNotified p

end Sys2Proof.Machine
end

