-- ==== Sys2Proof/Machine/Slots.lean ====
section
/-! DEFINITION. The settlement ring's slots and records: the free count, reservations and waiters, and the creation of a record
(R118 to R131). -/

namespace Sys2Proof.Machine

/-- The ring's capacity in records; 0 while no RING window is committed (R118). -/
def ringCapacity (p : Part) : Nat := match p.ring.geometry with | some g => g.capacity | none => 0

/-- R119: assigned minus consumer, modulo 2^32. -/
def occupiedCount (p : Part) : Nat := (p.ring.assigned - p.ring.consumer).toNat

/-- R105: the buyers whose open invoice number is not absent. -/
def openInvoiceCount (p : Part) : Nat := (p.account.buyers.filter fun e => e.2.invoice ≠ 0).length

/-- The slots held as lanes' close reservations (R120). -/
def closeSlots (p : Part) : Nat := (allLanes.map fun i => flagNat (p.lane i).closeReserved).sum

/-- The unused slots of lanes' round reservations (R120). -/
def roundSlots (p : Part) : Nat := (allLanes.map fun i => (p.lane i).roundReserved).sum

/-- R120: the reserved count, the sum of the slots held by the reservations. -/
def reservedCount (p : Part) : Nat := closeSlots p + roundSlots p + openInvoiceCount p + flagNat p.ring.closingMark

/-- R120: the free count, capacity minus occupied minus reserved. -/
def freeCount (p : Part) : Nat := ringCapacity p - (occupiedCount p + reservedCount p)

/-- R121: a lane's reservation is granted when no lane waits and the free count holds the need. -/
def grantable (p : Part) (need : Nat) : Bool := p.ring.waiters.isEmpty && decide (need ≤ freeCount p)

/-- R121: a lane refused its slots joins the tail of the Ring Waiters, and RING-HOLD is raised. -/
def joinWaiters (p : Part) (i : Lane) (need : Nat) : Part :=
  (p.setRing { p.ring with waiters := p.ring.waiters ++ [⟨i, need⟩] }).raise .ringHold

/-- R123: a lane's place among the Ring Waiters removed. -/
def leaveWaiters (p : Part) (i : Lane) : Part :=
  p.setRing { p.ring with waiters := p.ring.waiters.filter fun w => w.lane ≠ i }

/-- Whether a lane is a Ring Waiter (R62, R73). -/
def isWaiter (p : Part) (i : Lane) : Bool := p.ring.waiters.any fun w => w.lane == i

/-- R131: the day counts after a record of a kind is created. -/
def RingUnit.counted (r : RingUnit) : RecordBody → RingUnit
  | .purchase _ => { r with purchases := r.purchases + 1 }
  | .payment _ _ _ _ => { r with payments := r.payments + 1 }
  | .dayMark _ _ _ _ => { r with purchases := 0, payments := 0 }
  | .lotClose _ => r
  | .invoiceClose _ _ _ _ _ => r

/-- R127: a record created takes the assigned index and the current tick, joins the tail of the Record Queue, and the assigned
index advances by 1. -/
def createRecord (p : Part) (body : RecordBody) : Part :=
  p.setRing (RingUnit.counted { p.ring with
    queue := p.ring.queue ++ [{ index := p.ring.assigned, tick := p.tick, body := body }],
    assigned := p.ring.assigned + 1 } body)

/-- R131: a DAY-MARK carries the day's number and the two day counts as they stand at its creation. -/
def createDayMark (p : Part) (mark : DayMark) : Part :=
  createRecord p (.dayMark mark p.window.dayNumber p.ring.purchases p.ring.payments)

/-- R129, R156: taking is paused while the Record Queue holds 32 records or more. -/
def takingPaused (p : Part) : Bool := decide (Config.fullQueue ≤ p.ring.queue.length)

/-- R118: the address of the slot of a record index. -/
def slotAddress (g : Geometry) (index : Word32) : Address := BitVec.ofNat 36 (g.base + index.toNat % g.capacity * 64)

/-- R133: RING-LOW is raised when a step carries the free count from at or above the threshold to below it. -/
def judgeRingLow (before p : Part) : Part :=
  if p.ring.threshold ≤ freeCount before ∧ freeCount p < p.ring.threshold then p.raise .ringLow else p

/-- R133: RING-LOW is raised at a threshold write that leaves the free count below the new threshold. -/
def judgeThreshold (p : Part) : Part := if freeCount p < p.ring.threshold then p.raise .ringLow else p

end Sys2Proof.Machine
end

