-- ==== Sys2Proof/Machine/Clock.lean ====
section
/-! DEFINITION. The Lane Unit's own steps, shared by the commands and events that cause them: putting a lot up, entering RUNNING,
hold reasons, leaving HELD, closing a lot, and the service of the Ring Waiters (R44 to R65). -/

namespace Sys2Proof.Machine

/-! ### Hold sets (R59) -/

def HoldSet.has (h : HoldSet) : HoldReason → Bool
  | .host => h.host | .stop => h.stop | .track => h.track | .ring => h.ring

def HoldSet.add (h : HoldSet) : HoldReason → HoldSet
  | .host => { h with host := true } | .stop => { h with stop := true }
  | .track => { h with track := true } | .ring => { h with ring := true }

def HoldSet.union (a b : HoldSet) : HoldSet :=
  { host := a.host || b.host, stop := a.stop || b.stop, track := a.track || b.track, ring := a.ring || b.ring }

def HoldSet.isEmpty (h : HoldSet) : Bool := !(h.host || h.stop || h.track || h.ring)

/-! ### Lane helpers -/

def modLane (p : Part) (i : Lane) (f : LaneUnit → LaneUnit) : Part := p.setLane i (f (p.lane i))

/-- R45: a timer started with a count. -/
def Timer.start (kind : TimerKind) (n : Nat) : Timer := .counting kind n

/-- R48, R61: the pre-roll timer of a lane that enters PRIMED; a pre-roll of 0 waits for START. -/
def preRollTimer (l : LaneUnit) : Timer := if l.params.preRoll = 0 then .stopped else .start .preRoll l.params.preRoll

/-- R192: whether a lane holds a live lot, by the states R44 names. -/
def LaneUnit.holdsLive (l : LaneUnit) : Bool :=
  match l.state with
  | .idle => false
  | .held => l.ret != .idle
  | .primed => true | .running => true | .struck => true | .paused => true | .closing => true

/-- R45: one hall tick taken by the lane's timer. -/
def Timer.tick : Timer → Timer
  | .stopped => .stopped
  | .counting k n => .counting k (n - 1)

/-- R45: whether a timer's expiry is due. -/
def Timer.due (t : Timer) (kind : TimerKind) : Bool := t == .counting kind 0

/-! ### Putting a lot up (R47, R48) -/

/-- R47: the AT-CLOCK lot of the Display Position trolley with the lowest sequence; the trolley's lots stand in sequence order
(R22). -/
def atClockLot (p : Part) (i : Lane) : Option Nat :=
  match (p.track i).display with
  | some y => y.lots.find? fun lot => p.lotState lot == some .atClock
  | none => none

/-- R47: what a look finds: nothing unless the lane is IDLE with no hold reason and no pending hold. -/
def lookLot (p : Part) (i : Lane) : Option Nat :=
  let l := p.lane i
  if l.state = .idle ∧ l.holds.isEmpty ∧ l.pendingHolds.isEmpty then atClockLot p i else none

/-- R48: the lot put up with the lane's close slot, and the lane's last-strike record set to 0 (R146). -/
def putUp (p : Part) (i : Lane) (lot : Nat) : Part :=
  let start := match p.host lot with | some h => h.startPrice | none => 0
  let q := modLane p i fun l =>
    { l with live := some lot, price := start, nextPrice := start, round := 0, timer := preRollTimer l, state := .primed,
             closeReserved := true }
  let q := q.updateOwned lot fun o => { o with state := .live }
  (q.setDisplay i { q.display i with lastUnits := 0, lastBuyer := 0 }).notify i

/-- R48, R50: a lane refused its slots enters HELD with RING and joins the Ring Waiters. -/
def waitOnRing (p : Part) (i : Lane) (ret : ReturnState) (need : Nat) : Part :=
  joinWaiters (modLane p i fun l => { l with state := .held, ret := ret, timer := .stopped, holds := l.holds.add .ring }) i need

/-- R48: a lot primed: with the slot already held, or with one asked for. -/
def prime (p : Part) (i : Lane) (lot : Nat) : Part :=
  if (p.lane i).closeReserved || grantable p 1 then putUp p i lot else waitOnRing p i .idle 1

/-- R47: the look for a lot to put up. -/
def look (p : Part) (i : Lane) : Part :=
  match lookLot p i with
  | some lot => prime p i lot
  | none => p

/-- A lane enters IDLE: the Display Mapper is told, and the lane looks (R47, R61, R141). -/
def enterIdle (p : Part) (i : Lane) : Part :=
  look ((modLane p i fun l => { l with state := .idle, timer := .stopped }).notify i) i

/-! ### Rounds (R50) -/

/-- R50: a round begun with the lane's five slots. -/
def beginRound (l : LaneUnit) : LaneUnit :=
  { l with round := min Config.maxRound (l.round + 1), price := l.nextPrice, timer := .start .step l.params.stepInterval,
           state := .running, roundReserved := if l.roundReserved = 0 then Config.roundSlots else l.roundReserved }

/-- R50: the RUNNING entry from PRIMED or PAUSED. -/
def enterRunning (p : Part) (i : Lane) (leaving : ReturnState) : Part :=
  if (p.lane i).roundReserved ≠ 0 ∨ grantable p Config.roundSlots then modLane p i beginRound
  else waitOnRing p i leaving Config.roundSlots

/-- R50: the end of a round: the step timer stops and the unused slots return. -/
def LaneUnit.endRound (l : LaneUnit) : LaneUnit := { l with timer := .stopped, roundReserved := 0 }

/-- R53, R61: PAUSED entered: current price at the next-round price, restart-pause timer started. -/
def LaneUnit.enterPaused (l : LaneUnit) : LaneUnit :=
  { l with state := .paused, price := l.nextPrice, timer := .start .restartPause l.params.restartPause }

/-! ### Hold reasons (R59, R60, R61) -/

/-- R59, R60: a hold reason added to a lane. -/
def LaneUnit.addHold (l : LaneUnit) (r : HoldReason) : LaneUnit :=
  match l.state with
  | .struck => { l with pendingHolds := l.pendingHolds.add r }
  | .closing => { l with pendingHolds := l.pendingHolds.add r }
  | .held => { l with holds := l.holds.add r }
  | .idle => { l with holds := l.holds.add r, state := .held, ret := .idle, timer := .stopped }
  | .primed => { l with holds := l.holds.add r, state := .held, ret := .primed, timer := .stopped }
  | .paused => { l with holds := l.holds.add r, state := .held, ret := .paused, timer := .stopped }
  | .running => { l.endRound with holds := l.holds.add r, state := .held, ret := .paused, nextPrice := l.price }

/-- R59, R60: a hold reason added to a lane. -/
def addHold (p : Part) (i : Lane) (r : HoldReason) : Part := modLane p i fun l => l.addHold r

/-- R65: a lane that waited with need 1 makes its look with the granted slot, and returns the slot when it finds no lot. -/
def lookWithSlot (p : Part) (i : Lane) : Part :=
  let q := modLane p i fun l => { l with state := .idle, timer := .stopped }
  match lookLot q i with
  | some lot => putUp q i lot
  | none => (modLane q i fun l => { l with closeReserved := false }).notify i

/-- R61, R65: a HELD lane whose set of hold reasons is empty enters its return state, or goes straight to the step it waited for
with a reservation granted meanwhile. The return state is kept while the lane is not HELD, and its status shows it: the model's choice
(log 36). -/
def leaveHeld (p : Part) (i : Lane) : Part :=
  let l := p.lane i
  match l.ret with
  | .idle => if l.closeReserved then lookWithSlot p i else enterIdle p i
  | .primed =>
    if l.roundReserved ≠ 0 then enterRunning p i .primed
    else modLane p i fun l => { l with state := .primed, timer := preRollTimer l }
  | .paused =>
    if l.roundReserved ≠ 0 then enterRunning p i .paused
    else modLane p i LaneUnit.enterPaused

/-- R61: a HELD lane with no hold reason leaves HELD. -/
def leaveHeldIfFree (p : Part) (i : Lane) : Part :=
  if (p.lane i).state = .held ∧ (p.lane i).holds.isEmpty then leaveHeld p i else p

/-! ### Ring Waiters' service (R64, R65, R122) -/

/-- R64, R65: a served lane removes RING, holds the granted slots as its reservation, and acts once no hold reason remains. -/
def serveLane (p : Part) (w : Waiter) : Part :=
  let q := modLane p w.lane fun l =>
    { l with holds := { l.holds with ring := false },
             closeReserved := l.closeReserved || decide (w.need = 1),
             roundReserved := if w.need = 1 then l.roundReserved else w.need }
  leaveHeldIfFree q w.lane

/-- R122: head first, each waiter whose need the free count holds is served; service stops at the first whose need it does not. -/
def serveWaiters : Nat → Part → Part
  | 0, p => p
  | fuel + 1, p =>
    match p.ring.waiters with
    | [] => p
    | w :: rest =>
      if w.need ≤ freeCount p then serveWaiters fuel (serveLane (p.setRing { p.ring with waiters := rest }) w) else p

/-- R122: service is made at every event after which the free count has risen or a different lane stands at the head. -/
def serveIfDue (before p : Part) : Part :=
  if freeCount before < freeCount p ∨ before.ring.waiters.head? ≠ p.ring.waiters.head? then
    serveWaiters p.ring.waiters.length p
  else p

/-- The end of an event: the Ring Waiters are served (R122), RING-LOW is judged over the whole step (R133), and each notified
lane's map is rebuilt once (R141). -/
def settle (before p : Part) : Part := rebuildNotified (judgeRingLow before (serveIfDue before p))

/-- The end of an event that took a ring-low threshold: as `settle`, but RING-LOW is raised wherever the step leaves the free count
below the threshold (R133). The free count is the one after the waiters' service, and the event is raised once (log 33). -/
def settleThreshold (before p : Part) : Part := rebuildNotified (judgeThreshold (serveIfDue before p))

/-! ### Closing a lot (R55) -/

/-- R55: a lot's result from its units as they stand before the closing step. -/
def Owned.closeResult (o : Owned) : LotResult :=
  if o.remaining = 0 then .soldOut else if o.sold = 0 then .unsold else .partSold

/-- R55: the owned fields of a lot that is closed. -/
def Owned.closedAt (o : Owned) (tick : Word32) : Owned :=
  { o with result := o.closeResult, withdrawn := o.remaining, remaining := 0, closeTick := tick }

/-- R55, R130: the LOT-CLOSE record of a lot, from its digest after the closing step. -/
def lotCloseRecord (p : Part) (i : Lane) (lot : Nat) (o : Owned) : RecordBody :=
  .lotClose { lane := i, result := o.result, lot := lot, sold := o.sold, withdrawn := o.withdrawn, strikes := o.strikes,
              grower := match p.host lot with | some h => h.grower | none => 0,
              product := match p.host lot with | some h => h.product | none => 0 }

/-- R55: the live lot closed: timers stopped, a running round ended, CLOSING entered, the outcome recorded in the digest and the
LOT-CLOSE record created in the close slot. -/
def closeLot (p : Part) (i : Lane) : Part :=
  match (p.lane i).live with
  | none => p
  | some lot =>
    let q := modLane p i fun l => { l.endRound with state := .closing, closeReserved := false }
    match p.digest lot with
    | none => q
    | some d =>
      let o := d.owned.closedAt p.tick
      createRecord (q.setDigest lot { d with owned := o }) (lotCloseRecord p i lot o)

/-- The bump of the live lot, or the lane's default when it is absent (R53). -/
def bumpOf (l : LaneUnit) (h : HostFields) : Nat := if h.bump = 0 then l.params.defaultBump else h.bump

/-- The step of the live lot, or the lane's default when it is absent (R51). -/
def stepOf (l : LaneUnit) (h : HostFields) : Nat := if h.step = 0 then l.params.defaultStep else h.step

/-- R53: the next-round price: the strike price plus the bump, capped at the lot's start price. -/
def nextRoundPrice (l : LaneUnit) (h : HostFields) : Nat := min h.startPrice (l.price + bumpOf l h)

end Sys2Proof.Machine
end

