-- ==== Sys2Proof/Machine/Formats.lean ====
section
/-! DEFINITION. The byte formats of spec/11_memory_formats.md: the numeric encoding of each enumerated value (11.2), the owned-field
area and host fields of the lot record (11.4), the buyer and desk entries (11.5), the reply slot and live block (11.6) and the ring
records (11.7). The Anchor's layout is in Machine/AnchorReads.lean. -/

namespace Sys2Proof.Machine

/-! ### 11.2 Value encodings -/

def LotState.code : LotState → Nat
  | .empty => 0 | .listing => 1 | .expected => 2 | .late => 3 | .staged => 4 | .atClock => 5 | .live => 6 | .closed => 7
  | .withdrawn => 8 | .refused => 9

def RefusalReason.code : RefusalReason → Nat
  | .none => 0 | .dayNotOpen => 1 | .badField => 2 | .laneDisabled => 3 | .trolleyMoved => 4 | .duplicateSequence => 5
  | .positionTaken => 6 | .trolleySplit => 7 | .queueFull => 8 | .busy => 9 | .dataError => 10 | .alreadyKnown => 11

def LotResult.code : LotResult → Nat
  | .none => 0 | .soldOut => 1 | .partSold => 2 | .unsold => 3

def LaneState.code : LaneState → Nat
  | .idle => 0 | .primed => 1 | .running => 2 | .struck => 3 | .paused => 4 | .closing => 5 | .held => 6

def ReturnState.code : ReturnState → Nat
  | .idle => 0 | .primed => 1 | .paused => 4

def HoldSet.code (h : HoldSet) : Nat := flagNat h.host + 2 * flagNat h.stop + 4 * flagNat h.track + 8 * flagNat h.ring

def TimerKind.code : TimerKind → Nat
  | .preRoll => 1 | .step => 2 | .contenderWindow => 3 | .restartPause => 4

/-- The timer a lane counts, 0 when none does. -/
def Timer.code : Timer → Nat
  | .stopped => 0
  | .counting k _ => k.code

/-- The count left on the timer that counts, 0 when none does (log 23). -/
def Timer.left : Timer → Nat
  | .stopped => 0
  | .counting _ n => n

def StopMode.code : StopMode → Nat
  | .falling => 0 | .rising => 1 | .both => 2 | .levelLow => 3 | .levelHigh => 4

def StopMode.ofCode : Nat → Option StopMode
  | 0 => some .falling | 1 => some .rising | 2 => some .both | 3 => some .levelLow | 4 => some .levelHigh | _ => none

def WordResult.code : WordResult → Nat
  | .none => 0 | .done => 1 | .pending => 2 | .refusedState => 3 | .noLot => 4 | .refusedStopActive => 5 | .unknown => 6
  | .refusedRange => 7 | .refusedBuyer => 8 | .noInvoice => 9 | .refusedRing => 10 | .refusedIndex => 11 | .noRing => 12
  | .refusedMap => 13 | .notLocked => 14

def CommitReason.code : CommitReason → Nat
  | .none => 0 | .badKind => 1 | .align => 2 | .size => 3 | .limit => 4 | .overlap => 5 | .duplicateKind => 6
  | .dayNotClosed => 7 | .ringBusy => 8 | .badEntry => 9

def WindowKind.ofCode : Nat → Option WindowKind
  | 0 => some .anchor | 1 => some .guard | 2 => some .lot | 3 => some .buyer | 4 => some .desk | 5 => some .press
  | 6 => some .reply | 7 => some .track | 8 => some .display | 9 => some .ring | _ => none

def Role.ofCode : Nat → Option Role
  | 0 => some .plain | 1 => some .control | 2 => some .desk | 3 => some .track | 4 => some .display | _ => none

def GrantClass.ofCode : Nat → Option GrantClass
  | 0 => some .normal | 1 => some .high | _ => none

def ReplyOutcome.code : ReplyOutcome → Nat
  | .none => 0 | .accepted => 1 | .contending => 2 | .refused => 3

def PressReason.code : PressReason → Nat
  | .none => 0 | .noBuyer => 1 | .buyerBlocked => 2 | .notRunning => 3 | .noLot => 4 | .held => 5 | .belowMinimum => 6
  | .credit => 7 | .ringFull => 8 | .late => 9 | .soldOut => 10

def Station.code : Station → Nat
  | .gate => 0 | .display => 1 | .exit => 2

def Station.ofCode : Nat → Option Station
  | 0 => some .gate | 1 => some .display | 2 => some .exit | _ => none

def TrackFault.code : TrackFault → Nat
  | .none => 0 | .stray => 1 | .lateFull => 2 | .stagingFull => 3 | .order => 4 | .overrun => 5 | .earlyExit => 6

def BuyerStatus.code : BuyerStatus → Nat
  | .blocked => 0 | .active => 1

/-- R98: any value other than ACTIVE is taken as BLOCKED. -/
def BuyerStatus.ofCode (n : Nat) : BuyerStatus := if n = 1 then .active else .blocked

def DayState.code : DayState → Nat
  | .closed => 0 | .opened => 1 | .closing => 2

def DayCommand.ofCode : Nat → DayCommand
  | 1 => .openDay | 2 => .closeDay | _ => .unknown

def DayMark.code : DayMark → Nat
  | .opening => 1 | .closing => 2

def MapEntry.code : MapEntry → Nat
  | .none => 0 | .attnU => 1 | .attnR => 2

def MapEntry.ofCode : Nat → Option MapEntry
  | 0 => some .none | 1 => some .attnU | 2 => some .attnR | _ => .none

def PartMade.code : PartMade → Nat
  | .none => 0 | .fetch => 1 | .writeBack => 2 | .ringRecord => 3

def Direction.code : Direction → Nat
  | .read => 0 | .write => 1

/-- "None" in a lot-index field (R195). -/
def noLot : Nat := 65535

/-- "None" in a one-byte master or window field (R195). -/
def noneByte : Nat := 255

def lotOrNone : Option Nat → Nat
  | some lot => lot
  | none => noLot

/-- Lane command and disposition bytes (R66): a RESUME with neither disposition is not recognised. -/
def LaneCommand.ofCodes (command disposition : Nat) : LaneCommand :=
  match command, disposition with
  | 1, _ => .start
  | 2, _ => .hold
  | 3, 1 => .resumeDiscard
  | 3, 2 => .resumeFlush
  | 4, _ => .withdraw
  | 5, _ => .enable
  | 6, _ => .disable
  | _, _ => .unknown

/-! ### 11.4 Lot record -/

/-- Bytes of a lot record (R160). -/
def lotRecordSize : Nat := 128

/-- The request byte's place in a lot record. -/
def requestOffset : Nat := 0x02

/-- The owned-field area: bytes 68 to 7F of the record. -/
def ownedStart : Nat := 0x68
def ownedSize : Nat := 0x18

/-- The owned-field area's fields, by their offsets in the record. -/
def Owned.layout (o : Owned) : List FieldAt :=
  [⟨0x68, 1, o.state.code⟩, ⟨0x69, 1, o.reason.code⟩, ⟨0x6A, 1, o.result.code⟩, ⟨0x6C, 4, o.closeTick.toNat⟩,
   ⟨0x70, 2, o.remaining⟩, ⟨0x72, 2, o.sold⟩, ⟨0x74, 2, o.withdrawn⟩, ⟨0x76, 2, o.strikes⟩, ⟨0x78, 4, o.lastPrice⟩]

/-- A write-back's three beats (R18). -/
def Owned.beats (o : Owned) : List Beat := beatsAt (layoutByte o.layout) ownedStart 3

/-- The host fields of a record's sixteen beats (R1, 11.4). -/
def hostOfBeats (beats : List Beat) : HostFields :=
  let f := fieldOfBeats beats
  { lane := f 0x00 1, position := f 0x01 1, request := byteOfBeats beats requestOffset, sequence := f 0x04 4,
    tag := BitVec.ofNat 32 (f 0x08 4), units := f 0x0C 2, pieces := f 0x0E 2, startPrice := f 0x10 4, floorPrice := f 0x14 4,
    step := f 0x18 2, minimum := f 0x1A 2, bump := f 0x1C 4, grower := BitVec.ofNat 32 (f 0x20 4),
    product := BitVec.ofNat 32 (f 0x24 4),
    pages := Vector.ofFn fun k => BitVec.ofNat 64 (f (0x28 + 8 * k.val) 8) }

/-- R4: a LOT read's beats with the owned bytes replaced by the captured owned fields. `start` is the read's place in the record. -/
def mergeOwned (o : Owned) (start : Nat) (data : List Beat) : List Beat :=
  beatsAt (fun k => if ownedStart ≤ start + k ∧ start + k < ownedStart + ownedSize then layoutByte o.layout (start + k)
    else byteOfBeats data k) 0 data.length

/-! ### 11.5 Buyer and desk entries -/

/-- A buyer entry's fields. -/
def BuyerEntry.layout (b : BuyerEntry) : List FieldAt :=
  [⟨0x00, 3, b.external⟩, ⟨0x03, 1, b.status.code⟩, ⟨0x04, 1, b.laneMask.toNat⟩, ⟨0x05, 1, b.lines⟩, ⟨0x08, 8, b.limit⟩,
   ⟨0x10, 8, b.exposure⟩, ⟨0x18, 4, b.invoice.toNat⟩, ⟨0x20, 8, b.total⟩]

/-- R99: whether bytes of a buyer record include an owned one. -/
def coversBuyerOwned (bytes : List (Nat × Byte)) : Bool :=
  covers bytes 0x05 1 || covers bytes 0x10 8 || covers bytes 0x18 4 || covers bytes 0x20 8

/-- A desk entry's fields (R78). -/
def DeskEntry.layout (d : DeskEntry) : List FieldAt :=
  [⟨0, 2, d.buyer⟩, ⟨2, 1, (d.lastSequence.getD 0).toNat⟩, ⟨3, 1, flagNat d.lastSequence.isSome⟩, ⟨4, 2, d.duplicates.toNat⟩]

/-! ### 11.6 Reply slot and live block -/

/-- A reply slot's fields (R93). -/
def ReplySlot.layout (r : ReplySlot) : List FieldAt :=
  [⟨0x00, 1, r.count.toNat⟩, ⟨0x01, 1, r.lastAccepted.toNat⟩, ⟨0x02, 1, r.reported.toNat⟩, ⟨0x03, 1, r.outcome.code⟩,
   ⟨0x04, 1, r.reason.code⟩, ⟨0x05, 1, r.lane⟩, ⟨0x06, 2, r.lot⟩, ⟨0x08, 2, r.units⟩, ⟨0x0A, 1, r.position⟩,
   ⟨0x0C, 4, r.price⟩, ⟨0x10, 8, r.amount⟩, ⟨0x18, 8, r.credit⟩]

/-- R145: the live block of a lane whose CURRENT slot holds `lot`. -/
def liveBlockLayout (p : Part) (i : Lane) (lot : Nat) : List FieldAt :=
  let l := p.lane i
  let d := p.display i
  let owned := match p.digest lot with | some g => g.owned | none => Owned.atListing
  let step := match p.host lot with | some h => if h.step = 0 then l.params.defaultStep else h.step | none => l.params.defaultStep
  let floor := match p.host lot with | some h => h.floorPrice | none => 0
  [⟨0x00, 1, l.state.code⟩, ⟨0x01, 1, l.holds.code⟩, ⟨0x02, 2, lot⟩, ⟨0x04, 4, d.generation.toNat⟩, ⟨0x08, 4, l.price⟩,
   ⟨0x0C, 2, owned.remaining⟩, ⟨0x0E, 2, l.round⟩, ⟨0x10, 2, step⟩, ⟨0x14, 4, floor⟩, ⟨0x18, 4, owned.lastPrice⟩,
   ⟨0x1C, 2, d.lastUnits⟩, ⟨0x20, 4, d.lastBuyer⟩]

/-! ### 11.7 Ring records -/

/-- The number of a record's kind. -/
def RecordBody.kindCode : RecordBody → Nat
  | .purchase _ => 1 | .lotClose _ => 2 | .invoiceClose _ _ _ _ _ => 3 | .payment _ _ _ _ => 4 | .dayMark _ _ _ _ => 5

/-- The fields of a record's kind (R130). -/
def RecordBody.layout : RecordBody → List FieldAt
  | .purchase f =>
    [⟨0x09, 1, f.lane.val⟩, ⟨0x0A, 1, f.position⟩, ⟨0x0C, 2, f.lot⟩, ⟨0x0E, 2, f.round⟩, ⟨0x10, 2, f.desk⟩, ⟨0x12, 2, f.buyer⟩,
     ⟨0x14, 4, f.external⟩, ⟨0x18, 2, f.units⟩, ⟨0x1C, 4, f.pieces⟩, ⟨0x20, 4, f.price⟩, ⟨0x24, 4, f.invoice.toNat⟩,
     ⟨0x28, 8, f.amount⟩, ⟨0x30, 4, f.grower.toNat⟩, ⟨0x34, 4, f.product.toNat⟩]
  | .lotClose f =>
    [⟨0x09, 1, f.lane.val⟩, ⟨0x0A, 1, f.result.code⟩, ⟨0x0C, 2, f.lot⟩, ⟨0x0E, 2, f.sold⟩, ⟨0x10, 2, f.withdrawn⟩,
     ⟨0x12, 2, f.strikes⟩, ⟨0x14, 4, f.grower.toNat⟩, ⟨0x18, 4, f.product.toNat⟩]
  | .invoiceClose lines buyer external invoice total =>
    [⟨0x0A, 1, lines⟩, ⟨0x0C, 2, buyer⟩, ⟨0x10, 4, external⟩, ⟨0x14, 4, invoice.toNat⟩, ⟨0x18, 8, total⟩]
  | .payment buyer requested applied exposureAfter =>
    [⟨0x0C, 2, buyer⟩, ⟨0x10, 8, requested⟩, ⟨0x18, 8, applied⟩, ⟨0x20, 8, exposureAfter⟩]
  | .dayMark mark dayNumber purchases payments =>
    [⟨0x09, 1, mark.code⟩, ⟨0x0C, 2, dayNumber⟩, ⟨0x10, 4, purchases.toNat⟩, ⟨0x14, 4, payments.toNat⟩]

/-- A record's fields: index, tick, kind, then its kind's own. -/
def RingRecord.layout (r : RingRecord) : List FieldAt :=
  [⟨0x00, 4, r.index.toNat⟩, ⟨0x04, 4, r.tick.toNat⟩, ⟨0x08, 1, r.body.kindCode⟩] ++ r.body.layout

/-- A record's eight beats (R128). -/
def RingRecord.beats (r : RingRecord) : List Beat := beatsAt (layoutByte r.layout) 0 8

end Sys2Proof.Machine
end

