-- ==== Sys2Proof/Machine/Account.lean ====
section
/-! DEFINITION. The Account Unit: the credit test of a claim, purchases, invoices, payments and invoice-close words
(R83 to R86, R101 to R114). -/

namespace Sys2Proof.Machine

/-! ### Buyers in range (R101) -/

/-- The record limit of the committed BUYER window; 0 while none is committed. -/
def buyerWindowLimit (p : Part) : Nat :=
  match p.window.cache.toList.find? fun e => e.valid && e.kind == .buyer with
  | some e => e.recordLimit
  | none => 0

/-- R101: whether a buyer index is below the BUYER window's record limit. -/
def inRange (p : Part) (buyer : Nat) : Bool := decide (buyer < buyerWindowLimit p)

/-- R81, R90, R101: whether the Account Unit reports that the buyer may buy in the lane. -/
def buyerMayBuy (p : Part) (buyer : Nat) (i : Lane) : Bool :=
  inRange p buyer && (p.buyer buyer).status == .active && (p.buyer buyer).laneMask.getLsbD i.val

/-- R84: the available credit, 0 when the exposure is at or above the limit. -/
def BuyerEntry.available (b : BuyerEntry) : Nat := b.limit - b.exposure

/-! ### The claim (R83 to R85) -/

/-- What a claim asks for: the price, the lot's pieces per unit, minimum and remaining units, and the units asked (0 for all). -/
structure ClaimRequest where
  price : Nat
  pieces : Nat
  minimum : Nat
  remaining : Nat
  units : Nat
  deriving DecidableEq, Repr

/-- The judgement of a claim: refused with a reason and the units to report, or granted with units and amount. -/
inductive Claim where
  | refused (reason : PressReason) (units : Nat)
  | granted (units amount : Nat)
  deriving DecidableEq, Repr

/-- R83: the granted units before the credit test. -/
def ClaimRequest.clipped (c : ClaimRequest) : Nat := min (if c.units = 0 then c.remaining else c.units) c.remaining

/-- R84: the unit amount. -/
def ClaimRequest.unitAmount (c : ClaimRequest) : Nat := c.price * c.pieces

/-- R84: the units after the credit cut. -/
def ClaimRequest.cut (c : ClaimRequest) (available : Nat) : Nat :=
  if available < c.unitAmount * c.clipped then available / c.unitAmount else c.clipped

/-- R83 to R85, in that order: units and minimum, credit and its cut, the slot of an invoice to open. -/
def judgeClaim (c : ClaimRequest) (b : BuyerEntry) (free : Nat) : Claim :=
  let units := c.cut b.available
  if c.clipped < c.minimum ∧ c.clipped < c.remaining then .refused .belowMinimum c.clipped
  else if units < min c.minimum c.remaining then .refused .credit units
  else if b.invoice = 0 ∧ free = 0 then .refused .ringFull 0
  else .granted units (c.unitAmount * units)

/-! ### Invoices (R106 to R109) -/

/-- R109: the invoice counter advances by 1, from 2^32 - 1 to 1. -/
def nextInvoice (counter : Word32) : Word32 := if counter + 1 = 0 then 1 else counter + 1

/-- R106: an invoice opened for a buyer that has none, with the counter's number; a free slot becomes its reservation. -/
def openInvoice (p : Part) (buyer : Nat) : Part :=
  let b := p.buyer buyer
  if b.invoice = 0 then
    let q := p.setBuyer buyer { b with invoice := p.account.invoiceCounter }
    q.setAccount { q.account with invoiceCounter := nextInvoice p.account.invoiceCounter }
  else p

/-- R108: an invoice closed: its record in the slot it reserved, the open fields 0, and INVOICE-CLOSED raised. -/
def closeInvoice (p : Part) (buyer : Nat) : Part :=
  let b := p.buyer buyer
  let q := createRecord p (.invoiceClose b.lines buyer b.external b.invoice b.total)
  (q.setBuyer buyer { b with invoice := 0, lines := 0, total := 0 }).raise .invoiceClosed

/-- R107: a purchase listed on the open invoice, which is closed at its 64th line. -/
def addLine (p : Part) (buyer amount : Nat) : Part :=
  let b := p.buyer buyer
  let q := p.setBuyer buyer { b with lines := b.lines + 1, total := b.total + amount }
  if b.lines + 1 = Config.invoiceLines then closeInvoice q buyer else q

/-! ### Purchases (R86, R91) -/

/-- A purchase to be made: the desk and buyer, the lot and its host fields, the position, units, price and amount. -/
structure Purchase where
  desk : Nat
  buyer : Nat
  lot : Nat
  host : HostFields
  position : Nat
  units : Nat
  price : Nat
  amount : Nat
  deriving DecidableEq, Repr

/-- R86, step 2: the lot's owned fields after a purchase. -/
def Owned.sell (o : Owned) (units price : Nat) : Owned :=
  { o with remaining := o.remaining - units, sold := o.sold + units, strikes := o.strikes + 1, lastPrice := price }

/-- R86, step 1: the amount added to exposure, and an invoice opened if none is open. -/
def chargeBuyer (p : Part) (buyer amount : Nat) : Part :=
  openInvoice (p.setBuyer buyer { p.buyer buyer with exposure := (p.buyer buyer).exposure + amount }) buyer

/-- R86, step 3, and R130: the fields of the PURCHASE record. -/
def purchaseRecord (p : Part) (i : Lane) (c : Purchase) : RecordBody :=
  .purchase { lane := i, position := c.position, lot := c.lot, round := (p.lane i).round, desk := c.desk, buyer := c.buyer,
              external := (p.buyer c.buyer).external, units := c.units, pieces := c.units * c.host.pieces, price := c.price,
              invoice := (p.buyer c.buyer).invoice, amount := c.amount, grower := c.host.grower, product := c.host.product }

/-- R124, R146: the PURCHASE record created in a slot of the round reservation, with the last-strike record set. -/
def recordPurchase (p : Part) (i : Lane) (c : Purchase) : Part :=
  let q := createRecord p (purchaseRecord p i c)
  let q := modLane q i fun l => { l with roundReserved := l.roundReserved - 1 }
  q.setDisplay i { q.display i with lastUnits := c.units, lastBuyer := (p.buyer c.buyer).external }

/-- R86, steps 1 to 4: a purchase made. -/
def makePurchase (p : Part) (i : Lane) (c : Purchase) : Part :=
  let p1 := chargeBuyer p c.buyer c.amount
  let p2 := p1.updateOwned c.lot fun o => o.sell c.units c.price
  addLine (recordPurchase p2 i c) c.buyer c.amount

/-! ### Payment and invoice-close words (R110 to R114) -/

/-- R114: the payment result set. -/
def setPaymentResult (p : Part) (outcome : WordResult) (applied after : Nat) : Part :=
  p.setAccount { p.account with paymentResult := { outcome := outcome, applied := applied, exposureAfter := after } }

/-- R113: a payment applied. -/
def applyPayment (p : Part) (buyer amount : Nat) : Part :=
  let b := p.buyer buyer
  let applied := min amount b.exposure
  let after := b.exposure - applied
  let q := createRecord (p.setBuyer buyer { b with exposure := after }) (.payment buyer amount applied after)
  let q := if b.exposure < amount then q.raise .paymentExcess else q
  setPaymentResult q .done applied after

/-- R112: a payment word's checks, in order, and its application. -/
def takePayment (p : Part) (buyer amount : Nat) : Part :=
  if buyer = 0 ∨ !inRange p buyer then setPaymentResult p .refusedBuyer 0 0
  else if amount = 0 ∨ 2 ^ 47 ≤ amount then setPaymentResult p .refusedRange 0 0
  else if freeCount p = 0 then setPaymentResult p .refusedRing 0 0
  else applyPayment p buyer amount

/-- R110: the invoice-close result set. -/
def setCloseResult (p : Part) (r : InvoiceCloseResult) : Part := p.setAccount { p.account with closeResult := r }

/-- R110: an invoice-close word. -/
def takeInvoiceClose (p : Part) (buyer : Nat) : Part :=
  let b := p.buyer buyer
  if buyer = 0 ∨ !inRange p buyer then setCloseResult p { outcome := .refusedBuyer, number := 0, lines := 0, total := 0 }
  else if b.invoice = 0 then setCloseResult p { outcome := .noInvoice, number := 0, lines := 0, total := 0 }
  else setCloseResult (closeInvoice p buyer) { outcome := .done, number := b.invoice, lines := b.lines, total := b.total }

/-- R116: the buyers with an open invoice, in rising order of index. -/
def openBuyers (p : Part) : List Nat := (p.account.buyers.filter fun e => e.2.invoice ≠ 0).map Prod.fst

/-- R116: every open invoice closed, in rising order of buyer index. -/
def closeAllInvoices (p : Part) : Part := (openBuyers p).foldl closeInvoice p

/-! ### BUYER writes (R98, R99) -/

/-- R98: the host fields of a buyer entry after a write, field by field, each from its candidate value. -/
def BuyerEntry.written (b : BuyerEntry) (bytes : List (Nat × Byte)) : BuyerEntry :=
  let external := candidate bytes 0x00 3 b.external
  let status := candidate bytes 0x03 1 b.status.code
  let mask := candidate bytes 0x04 1 b.laneMask.toNat
  let limit := candidate bytes 0x08 8 b.limit
  { b with
    external := if covers bytes 0x00 3 && decide (external ≤ 999999) then external else b.external
    status := if covers bytes 0x03 1 then BuyerStatus.ofCode status else b.status
    laneMask := if covers bytes 0x04 1 then BitVec.ofNat 6 mask else b.laneMask
    limit := if covers bytes 0x08 8 && decide (limit < 2 ^ 47) then limit else b.limit }

end Sys2Proof.Machine
end

