-- ==== Sys2Proof/Machine/Track.lean ====
section
/-! DEFINITION. The Track Unit: passes at the three stations, track faults, the Pass Backlog and its replay (R22 to R42). -/

namespace Sys2Proof.Machine

/-- R15: the trolleys of an Expected Queue, the runs of adjacent lots that share a tag. -/
def trolleysOf (p : Part) : List Nat → List Trolley
  | [] => []
  | lot :: rest =>
    match trolleysOf p rest with
    | [] => [⟨p.tagOf lot, [lot]⟩]
    | y :: ys => if y.tag = p.tagOf lot then ⟨y.tag, lot :: y.lots⟩ :: ys else ⟨p.tagOf lot, [lot]⟩ :: y :: ys

/-- R26: the lookahead, the first four trolleys of the Expected Queue. -/
def lookaheadOf (p : Part) (i : Lane) : List Trolley := (trolleysOf p (p.expected i)).take Config.lookahead

/-- A trolley's first-lot sequence, its lots standing in sequence order. -/
def firstSequence (p : Part) (y : Trolley) : Nat := p.sequenceOf (y.lots.headD 0)

/-- R28: a trolley inserted into the Late List by its first-lot sequence. -/
def insertLate (p : Part) (y : Trolley) : List Trolley → List Trolley
  | [] => [y]
  | a :: rest => if firstSequence p a < firstSequence p y then a :: insertLate p y rest else y :: a :: rest

/-- The lots a list of trolleys holds. -/
def lotCount (trolleys : List Trolley) : Nat := (trolleys.map fun y => y.lots.length).sum

/-- The tag of the first trolley of a list, or 0. -/
def headTag (trolleys : List Trolley) : Word32 := match trolleys with | y :: _ => y.tag | [] => 0

/-- What carrying a pass out does: the part after it, whether a trolley arrived at the Display Position (R29), and whether the
pass faulted (R33). -/
structure PassOutcome where
  part : Part
  arrived : Bool
  faulted : Bool
  deriving DecidableEq, Repr

/-- R33: a pass that faults fills the record, sets the stopped mark and raises TRACK-FAULT. -/
def faultPass (p : Part) (i : Lane) (pass : Pass) (expected : Word32) (reason : TrackFault) : PassOutcome :=
  { part := (p.setTrack i { p.track i with
      fault := { stopped := true, station := pass.station, tagSeen := pass.tag, tagExpected := expected, reason := reason,
                 tick := p.tick } }).raise .trackFault,
    arrived := false, faulted := true }

/-- R33: the tag expected at a STRAY pass. -/
def strayExpected (p : Part) (i : Lane) : Word32 :=
  if (p.track i).late.isEmpty then headTag (trolleysOf p (p.expected i)) else headTag (p.track i).late

/-- R25: the match of a GATE pass moved from the Late List to the Staging List. -/
def stageFromLate (p : Part) (i : Lane) (y : Trolley) : Part :=
  let t := p.track i
  let q := p.setTrack i { t with late := t.late.filter fun a => a.tag ≠ y.tag, staging := t.staging ++ [y] }
  (setLotStates q y.lots .staged).notify i

/-- R26: the trolleys passed over moved to the Late List and the trolley found to the Staging List. -/
def stageFromLookahead (p : Part) (i : Lane) (passed : List Trolley) (y : Trolley) : Part :=
  let t := p.track i
  let q := p.setTrack i { t with late := passed.foldl (fun late a => insertLate p a late) t.late, staging := t.staging ++ [y] }
  let q := q.setExpected i ((p.expected i).drop (lotCount passed + y.lots.length))
  (setLotStates (setLotStates q (passed.flatMap fun a => a.lots) .late) y.lots .staged).notify i

/-- R26, R27: a GATE pass whose tag is not in the Late List. -/
def gateLookahead (p : Part) (i : Lane) (pass : Pass) : PassOutcome :=
  let t := p.track i
  let passed := (lookaheadOf p i).takeWhile fun y => y.tag ≠ pass.tag
  match (lookaheadOf p i).dropWhile fun y => y.tag ≠ pass.tag with
  | [] => faultPass p i pass (strayExpected p i) .stray
  | y :: _ =>
    if Config.lateLots < lotCount t.late + lotCount passed then
      faultPass p i pass (headTag (trolleysOf p (p.expected i))) .lateFull
    else if Config.stagingTrolleys ≤ t.staging.length then faultPass p i pass (headTag t.staging) .stagingFull
    else { part := stageFromLookahead p i passed y, arrived := false, faulted := false }

/-- R25 to R27: a GATE pass carried out. -/
def gatePass (p : Part) (i : Lane) (pass : Pass) : PassOutcome :=
  let t := p.track i
  match t.late.find? fun y => y.tag == pass.tag with
  | some y =>
    if Config.stagingTrolleys ≤ t.staging.length then faultPass p i pass (headTag t.staging) .stagingFull
    else { part := stageFromLate p i y, arrived := false, faulted := false }
  | none => gateLookahead p i pass

/-- R29: a DISPLAY pass carried out. -/
def displayPass (p : Part) (i : Lane) (pass : Pass) : PassOutcome :=
  let t := p.track i
  match t.staging with
  | [] => faultPass p i pass 0 .order
  | y :: rest =>
    if y.tag ≠ pass.tag then faultPass p i pass y.tag .order
    else
      match t.display with
      | some z => faultPass p i pass z.tag .overrun
      | none =>
        let q := p.setTrack i { t with staging := rest, display := some y }
        { part := (setLotStates q y.lots .atClock).notify i, arrived := true, faulted := false }

/-- R31: whether a lot is finished for the EXIT check. -/
def lotFinished (p : Part) (lot : Nat) : Bool := p.lotState lot == some .closed || p.lotState lot == some .withdrawn

/-- R31, R41: the Display Position emptied, its lots' reason for being known ended. -/
def emptyDisplay (p : Part) (i : Lane) : Part :=
  match (p.track i).display with
  | some y => (endReasons (p.setTrack i { p.track i with display := none }) y.lots).notify i
  | none => p

/-- R31: an EXIT pass carried out. -/
def exitPass (p : Part) (i : Lane) (pass : Pass) : PassOutcome :=
  match (p.track i).display with
  | none => faultPass p i pass 0 .order
  | some y =>
    if y.tag ≠ pass.tag then faultPass p i pass y.tag .order
    else if y.lots.all (lotFinished p) then { part := emptyDisplay p i, arrived := false, faulted := false }
    else faultPass p i pass y.tag .earlyExit

/-- R24: a pass carried out for its station. -/
def carryOut (p : Part) (i : Lane) (pass : Pass) : PassOutcome :=
  match pass.station with
  | .gate => gatePass p i pass
  | .display => displayPass p i pass
  | .exit => exitPass p i pass

/-- R42: a pass discarded and counted. -/
def discardPass (p : Part) (i : Lane) : Part := p.setTrack i { p.track i with discarded := (p.track i).discarded + 1 }

/-- R35: a pass taken while the track is stopped. -/
def backlogPass (p : Part) (i : Lane) (pass : Pass) : Part :=
  if (p.track i).backlog.length < Config.backlogPasses then
    p.setTrack i { p.track i with backlog := (p.track i).backlog ++ [pass] }
  else discardPass p i

/-- R29, R33: the Lane Unit told of a pass carried out: the look at an arrival, TRACK at a fault. -/
def tellLane (o : PassOutcome) (i : Lane) : Part :=
  if o.faulted then addHold o.part i .track else if o.arrived then look o.part i else o.part

/-- R24: a pass dealt with according to the day state and the lane's track. -/
def takePass (p : Part) (i : Lane) (pass : Pass) : Part :=
  if p.window.dayState ≠ .opened then discardPass p i
  else if (p.track i).fault.stopped then backlogPass p i pass
  else tellLane (carryOut p i pass) i

/-- R36: the backlog replayed from its head until a pass faults or it is empty. `arrived` gathers the arrivals of the replay. -/
def replay (i : Lane) : List Pass → Bool → Part → PassOutcome
  | [], arrived, p => { part := p.setTrack i { p.track i with backlog := [] }, arrived := arrived, faulted := false }
  | pass :: rest, arrived, p =>
    let o := carryOut p i pass
    if o.faulted then
      { part := o.part.setTrack i { o.part.track i with backlog := rest }, arrived := arrived, faulted := true }
    else replay i rest (arrived || o.arrived) o.part

/-- The stopped mark cleared; the other fields of the record are kept (R34). -/
def TrackLane.run (t : TrackLane) : TrackLane := { t with fault := { t.fault with stopped := false } }

/-- R36: a RESUME's track disposition, carried out while the track is stopped. -/
def disposeTrack (p : Part) (i : Lane) : Disposition → PassOutcome
  | .discard =>
    if (p.track i).fault.stopped then replay i (p.track i).backlog false (p.setTrack i (p.track i).run)
    else { part := p, arrived := false, faulted := false }
  | .flush =>
    if (p.track i).fault.stopped then
      { part := p.setTrack i { (p.track i).run with backlog := [] }, arrived := false, faulted := false }
    else { part := p, arrived := false, faulted := false }

end Sys2Proof.Machine
end

