-- ==== Sys2Proof/Machine/Day.lean ====
section
/-! DEFINITION. The auction day: DAY-OPEN, DAY-CLOSE with its flush, and the end of the day close; with the lane's leaving CLOSING
and the completion of a lot's close (R20, R40, R41, R57, R58, R189 to R193). -/

namespace Sys2Proof.Machine

/-- R189: the day-word result set. -/
def setDayResult (p : Part) (r : WordResult) : Part := p.setWindow { p.window with dayResult := r }

/-! ### Opening (R190) -/

/-- R190: a DAY-OPEN that passes its checks. -/
def openDay (p : Part) (number : Nat) : Part :=
  let q := createDayMark (p.setWindow { p.window with dayNumber := number }) .opening
  let q := q.setRing { q.ring with closingMark := true }
  setDayResult (q.setWindow { q.window with dayState := .opened }) .done

/-- R190: DAY-OPEN's checks, in order. -/
def takeDayOpen (p : Part) (number : Nat) : Part :=
  if p.window.dayState ≠ .closed then setDayResult p .refusedState
  else if number = 0 then setDayResult p .refusedRange
  else if p.ring.geometry.isNone then setDayResult p .noRing
  else if freeCount p < 2 then setDayResult p .refusedRing
  else openDay p number

/-! ### Closing (R191, R20, R40) -/

/-- R20: every Listing Queue entry marked withdraw-pending. -/
def markAllWithdraw (p : Part) : Part :=
  p.setCatalogue { p.catalogue with listing := p.catalogue.listing.map fun e => { e with withdrawPending := true } }

/-- R20: the known lots that are not yet live. -/
def lotsNotYetLive (p : Part) : List Nat := (p.catalogue.known.filter fun e => e.2.owned.state.notYetLive).map Prod.fst

/-- R20: every lot not yet live made WITHDRAWN; the order of their write-backs is free (log 10). -/
def withdrawAll (p : Part) : Part :=
  let lots := lotsNotYetLive p
  let q := (freelyOrdered p.freeDraws lots).foldl makePassenger p
  if lots.length < 2 then q else { q with freeDraws := q.freeDraws + 1 }

/-- R20, R40: whether a Display Position is kept: it holds the lane's live lot, and that lot's close has not completed. -/
def keepsDisplay (p : Part) (i : Lane) (y : Trolley) : Bool :=
  match (p.lane i).live with
  | some lot => y.lots.contains lot && p.lotState lot == some .live
  | none => false

/-- R20, R40: the lots that the flush removes from a lane's places. -/
def flushedLots (p : Part) (i : Lane) : List Nat :=
  let t := p.track i
  p.expected i ++ t.late.flatMap (fun y => y.lots) ++ t.staging.flatMap (fun y => y.lots) ++
    (match t.display with | some y => if keepsDisplay p i y then [] else y.lots | none => [])

/-- R40: a lane's Track Unit state after the flush. -/
def TrackLane.flushed (t : TrackLane) (keep : Trolley → Bool) : TrackLane :=
  { t.run with late := [], staging := [], backlog := [], display := t.display.filter keep }

/-- R20, R40: a lane's places flushed, its lots' reasons for being known ended, and the Display Mapper told. The flush of all lanes is
one step: what it keeps and what it removes are judged on `before`, the part as that step finds it. -/
def flushLane (before p : Part) (i : Lane) : Part :=
  let q := p.setTrack i ((p.track i).flushed (keepsDisplay before i))
  (endReasons (q.setExpected i []) (flushedLots before i)).notify i

/-- R20, R40: every lane flushed. -/
def flushLanes (p : Part) : Part := allLanes.foldl (flushLane p) p

/-- R192: the lanes that hold a live lot. -/
def liveLanes (p : Part) : Nat := (allLanes.filter fun i => (p.lane i).holdsLive).length

/-- R193: the end of the day close. -/
def endDay (p : Part) : Part :=
  let q := createDayMark (closeAllInvoices p) .closing
  let q := q.setRing { q.ring with closingMark := false }
  (q.setWindow { q.window with dayState := .closed }).raise .dayClosed

/-- R192, R193: the end of the day close, made in the step in which no lane holds a live lot any longer. -/
def endDayIfDue (p : Part) : Part := if p.window.dayState = .closing ∧ liveLanes p = 0 then endDay p else p

/-- R191: a DAY-CLOSE of an OPEN day. -/
def closeDay (p : Part) : Part :=
  let q := setDayResult (p.setWindow { p.window with dayState := .closing }) .done
  endDayIfDue (flushLanes (withdrawAll (markAllWithdraw q)))

/-- R188: DAY-CLOSE. -/
def takeDayClose (p : Part) : Part := if p.window.dayState = .opened then closeDay p else setDayResult p .refusedState

/-- R189: the day word taken. -/
def takeDayWord (p : Part) (number : Nat) : DayCommand → Part
  | .openDay => takeDayOpen p number
  | .closeDay => takeDayClose p
  | .unknown => setDayResult p .unknown

/-! ### The completion of a lot's close (R57) and the lane's leaving CLOSING (R58) -/

/-- R41: a Display Position kept at DAY-CLOSE emptied when the close completes on a CLOSING day. -/
def emptyKeptDisplay (p : Part) (i : Lane) : Part := if p.window.dayState = .closing then emptyDisplay p i else p

/-- R57: a lot's close completes. -/
def completeClose (p : Part) (i : Lane) (lot : Nat) : Part :=
  let q := requestWriteBack (p.updateOwned lot fun o => { o with state := .closed }) lot true
  (emptyKeptDisplay q i).raise .lotClosed

/-- R58: the lane's live lot and pending withdraw cleared, and its pending holds made hold reasons. -/
def LaneUnit.clearLive (l : LaneUnit) : LaneUnit :=
  { l with live := none, pendingWithdraw := false, holds := l.holds.union l.pendingHolds, pendingHolds := .none,
           state := .idle, timer := .stopped }

/-- R58: the lane leaves CLOSING. -/
def leaveClosing (p : Part) (i : Lane) : Part :=
  let q := (modLane p i LaneUnit.clearLive).notify i
  if (q.lane i).holds.isEmpty then look q i
  else modLane q i fun l => { l with state := .held, ret := .idle }

/-- R18, R58: the lane whose live lot a close write-back carried. -/
def closingLane (p : Part) (lot : Nat) : Option Lane :=
  allLanes.find? fun i => (p.lane i).live == some lot && (p.lane i).state == .closing

/-- R18: a write-back's completion reported to the Catalogue Unit: the lot's lane told, if its close requested it, and the digest
freed where R19 calls for that; the end of the day close follows where it is due (R193). -/
def completeWriteBack (p : Part) (e : WriteBackEntry) : Part :=
  let q := p.setCatalogue { p.catalogue with writeBackOut := none }
  let q :=
    if e.forClose then match closingLane q e.lot with | some i => leaveClosing q i | none => q
    else q
  endDayIfDue (freeIfDone q e.lot)

end Sys2Proof.Machine
end

