-- ==== Sys2Proof/Machine/Press.lean ====
section
/-! DEFINITION. The Press Unit: the checks on a press, the winner path, the Contender List, contender service and the reply slot
(R75 to R94). -/

namespace Sys2Proof.Machine

/-- A press as it reaches the Press Unit (R75). -/
structure PressIn where
  lane : Lane
  desk : Nat
  sequence : Byte
  units : Nat
  deriving DecidableEq, Repr

/-- What a report writes into the reply slot, beside the counts the Press Unit keeps (R93). -/
structure Report where
  sequence : Byte
  outcome : ReplyOutcome
  reason : PressReason
  lane : Lane
  lot : Option Nat
  units : Nat
  position : Nat
  price : Nat
  amount : Nat
  credit : Nat
  deriving DecidableEq, Repr

/-- R93: the reply slot as a report leaves it. -/
def DeskEntry.reported (d : DeskEntry) (r : Report) : DeskEntry :=
  { d with reply :=
    { count := d.reply.count + 1, lastAccepted := d.lastSequence.getD 0, reported := r.sequence, outcome := r.outcome,
      reason := r.reason, lane := r.lane.val, lot := lotOrNone r.lot, units := r.units, position := r.position, price := r.price,
      amount := r.amount, credit := r.credit } }

/-- R94, R96: the press counters at a report. -/
def PressUnit.counted (u : PressUnit) : ReplyOutcome → PressUnit
  | .accepted => { u with accepted := u.accepted + 1 }
  | .refused => { u with refused := u.refused + 1 }
  | .contending => u
  | .none => u

/-- R93, R94: a report made to a desk. -/
def reportToDesk (p : Part) (desk : Nat) (r : Report) : Part :=
  let q := p.setDesk desk ((p.desk desk).reported r)
  q.setPress (q.press.counted r.outcome)

/-- R80, R88: the desk's last accepted sequence set. -/
def acceptSequence (p : Part) (desk : Nat) (sequence : Byte) : Part :=
  p.setDesk desk { p.desk desk with lastSequence := some sequence }

/-- R93: the price a refusal at taking reports: the lane's current price, or 0 with no live lot. -/
def LaneUnit.shownPrice (l : LaneUnit) : Nat := if l.live.isSome then l.price else 0

/-- R93: a press refused at its taking. -/
def refusePress (p : Part) (c : PressIn) (reason : PressReason) (units credit : Nat) : Part :=
  reportToDesk p c.desk
    { sequence := c.sequence, outcome := .refused, reason := reason, lane := c.lane, lot := (p.lane c.lane).live,
      units := units, position := 0, price := (p.lane c.lane).shownPrice, amount := 0, credit := credit }

/-- R80: a duplicate. -/
def countDuplicate (p : Part) (desk : Nat) : Part :=
  let q := p.setDesk desk { p.desk desk with duplicates := (p.desk desk).duplicates + 1 }
  q.setPress { q.press with duplicates := q.press.duplicates + 1 }

/-- What a lane's claim is judged on: its live lot with its digest's host and owned fields. -/
def liveLot (p : Part) (i : Lane) : Option (Nat × HostFields × Owned) :=
  match (p.lane i).live with
  | some lot =>
    match p.digest lot with
    | some d => match d.host with | some h => some (lot, h, d.owned) | none => none
    | none => none
  | none => none

/-- R83, R84: the request of a claim on a lane's live lot at the lane's current price. -/
def claimRequest (p : Part) (i : Lane) (h : HostFields) (o : Owned) (units : Nat) : ClaimRequest :=
  { price := (p.lane i).price, pieces := h.pieces, minimum := h.minimum, remaining := o.remaining, units := units }

/-- R52: the lane struck at its current price, with its contender window opened. -/
def LaneUnit.strike (l : LaneUnit) : LaneUnit :=
  { l with state := .struck, timer := .start .contenderWindow l.params.contenderWindow }

/-- R86: a press that succeeds on the winner path. -/
def strikeWith (p : Part) (c : PressIn) (buyer lot : Nat) (h : HostFields) (units amount : Nat) : Part :=
  let price := (p.lane c.lane).price
  let q := makePurchase p c.lane
    { desk := c.desk, buyer := buyer, lot := lot, host := h, position := 0, units := units, price := price, amount := amount }
  let q := acceptSequence (modLane q c.lane LaneUnit.strike) c.desk c.sequence
  reportToDesk q c.desk
    { sequence := c.sequence, outcome := .accepted, reason := .none, lane := c.lane, lot := some lot,
      units := units, position := 0, price := price, amount := amount, credit := (q.buyer buyer).available }

/-- R83 to R86: the winner path. A lane that runs with no known live lot is out of reach; its press is refused NO-LOT (log 30). -/
def winnerPath (p : Part) (c : PressIn) (buyer : Nat) : Part :=
  let b := p.buyer buyer
  match liveLot p c.lane with
  | none => refusePress p c .noLot 0 b.available
  | some (lot, h, o) =>
    match judgeClaim (claimRequest p c.lane h o c.units) b (freeCount p) with
    | .refused reason units => refusePress p c reason units b.available
    | .granted units amount => strikeWith p c buyer lot h units amount

/-- R88: whether a press may join the Contender List. -/
def LaneUnit.mayJoin (l : LaneUnit) (desk : Nat) : Bool :=
  decide (l.contenders.length < Config.contenders) && !(l.contenders.any fun e => e.desk == desk)

/-- R88: the contender path. -/
def contenderPath (p : Part) (c : PressIn) (buyer : Nat) : Part :=
  let credit := (p.buyer buyer).available
  if (p.lane c.lane).mayJoin c.desk then
    let q := modLane p c.lane fun l => { l with contenders := l.contenders ++ [⟨c.desk, buyer, c.units, c.sequence⟩] }
    let q := acceptSequence q c.desk c.sequence
    reportToDesk q c.desk
      { sequence := c.sequence, outcome := .contending, reason := .none, lane := c.lane, lot := (q.lane c.lane).live,
        units := 0, position := (q.lane c.lane).contenders.length, price := (q.lane c.lane).price, amount := 0,
        credit := credit }
  else refusePress p c .late 0 credit

/-- R82: the lane's state sends the press on. -/
def pressByState (p : Part) (c : PressIn) (buyer : Nat) : Part :=
  let credit := (p.buyer buyer).available
  match (p.lane c.lane).state with
  | .running => winnerPath p c buyer
  | .struck => contenderPath p c buyer
  | .primed => refusePress p c .notRunning 0 credit
  | .paused => refusePress p c .notRunning 0 credit
  | .idle => refusePress p c .noLot 0 credit
  | .closing => refusePress p c .noLot 0 credit
  | .held => refusePress p c .held 0 credit

/-- R79 to R82: the four checks of a press, in order. -/
def judgePress (p : Part) (c : PressIn) : Part :=
  let d := p.desk c.desk
  if d.buyer = 0 then refusePress p c .noBuyer 0 0
  else if d.lastSequence = some c.sequence then countDuplicate p c.desk
  else if buyerMayBuy p d.buyer c.lane then pressByState p c d.buyer
  else refusePress p c .buyerBlocked 0 (p.buyer d.buyer).available

/-- R76, R96: a press counted as taken, and judged. -/
def takePress (p : Part) (c : PressIn) : Part :=
  judgePress (p.setPress { p.press with taken := p.press.taken + 1 }) c

/-! ### Contender service (R90, R91) -/

/-- R91: a contender's service reported. -/
def reportService (p : Part) (i : Lane) (e : Contender) (position : Nat) (outcome : ReplyOutcome) (reason : PressReason)
    (units amount : Nat) : Part :=
  reportToDesk p e.desk
    { sequence := e.sequence, outcome := outcome, reason := reason, lane := i, lot := (p.lane i).live,
      units := units, position := position, price := (p.lane i).price, amount := amount,
      credit := (p.buyer e.buyer).available }

/-- R90, R91: one entry served. -/
def serveContender (p : Part) (i : Lane) (position : Nat) (e : Contender) : Part :=
  match liveLot p i with
  | none => reportService p i e position .refused .soldOut 0 0
  | some (lot, h, o) =>
    if o.remaining = 0 then reportService p i e position .refused .soldOut 0 0
    else if !buyerMayBuy p e.buyer i then reportService p i e position .refused .buyerBlocked 0 0
    else
      match judgeClaim (claimRequest p i h o e.units) (p.buyer e.buyer) (freeCount p) with
      | .refused reason units => reportService p i e position .refused reason units 0
      | .granted units amount =>
        let q := makePurchase p i
          { desk := e.desk, buyer := e.buyer, lot := lot, host := h, position := position, units := units,
            price := (p.lane i).price, amount := amount }
        reportService q i e position .accepted .none units amount

/-- R90: the entries served in list order, from a position on. -/
def serveContenders (i : Lane) : Nat → List Contender → Part → Part
  | _, [], p => p
  | position, e :: rest, p => serveContenders i (position + 1) rest (serveContender p i position e)

/-- R53: the next-round price of a lane's live lot set. -/
def setNextRound (p : Part) (i : Lane) : Part :=
  match liveLot p i with
  | some (_, h, _) => modLane p i fun l => { l with nextPrice := nextRoundPrice l h }
  | none => p

/-- The remaining units of a lane's live lot. -/
def liveRemaining (p : Part) (i : Lane) : Nat := match liveLot p i with | some (_, _, o) => o.remaining | none => 0

/-- R53: pending holds become hold reasons, in HELD with return state PAUSED. The current price stays the strike price, as R53 sets only
the next-round price in this case and R59 speaks of the PAUSED entry: the model's choice (log 41). -/
def LaneUnit.holdPending (l : LaneUnit) : LaneUnit :=
  { l with holds := l.holds.union l.pendingHolds, pendingHolds := .none, state := .held, ret := .paused, timer := .stopped }

/-- R53: the lane goes on after its contenders have been served. -/
def afterService (p : Part) (i : Lane) : Part :=
  if liveRemaining p i = 0 ∨ (p.lane i).pendingWithdraw then
    closeLot (modLane p i fun l => { l with pendingWithdraw := false }) i
  else if (p.lane i).pendingHolds.isEmpty then modLane (setNextRound p i) i LaneUnit.enterPaused
  else modLane (setNextRound p i) i LaneUnit.holdPending

/-- R53: the expiry of the contender window. -/
def contenderExpiry (p : Part) (i : Lane) : Part :=
  let q := serveContenders i 1 (p.lane i).contenders p
  afterService (modLane q i fun l => { l.endRound with contenders := [] }) i

end Sys2Proof.Machine
end

