-- ==== Sys2Proof/Machine/Lanes.lean ====
section
/-! DEFINITION. The lane commands, the lane parameters, the stop inputs, the hall tick and the timer expiries
(R45 to R53, R66 to R72, R185). -/

namespace Sys2Proof.Machine

/-! ### Stop inputs (R70 to R72) -/

/-- R70, R71: whether a change of the stop input to a level acts in a mode. -/
def StopMode.acts : StopMode → Bool → Bool
  | .falling, level => !level
  | .rising, level => level
  | .both, _ => true
  | .levelLow, level => !level
  | .levelHigh, level => level

/-- Whether the stop input is active: in a level mode, at the level the mode names. -/
def LaneUnit.stopActive (l : LaneUnit) : Bool :=
  match l.params.stopMode with
  | .levelLow => !l.stopLevel
  | .levelHigh => l.stopLevel
  | .falling => false
  | .rising => false
  | .both => false

/-- R70 to R72: STOP added, with the STOP event. -/
def addStop (p : Part) (i : Lane) : Part := (addHold p i .stop).raise .stop

/-- R70, R71: a change of the stop input's filtered level. The same level again is no change (log 28). -/
def changeStop (p : Part) (i : Lane) (level : Bool) : Part :=
  if (p.lane i).stopLevel = level then p
  else
    let q := modLane p i fun l => { l with stopLevel := level }
    if (p.lane i).params.stopMode.acts level then addStop q i else q

/-! ### Lane commands (R66 to R69) -/

/-- R66: a lane's command result set. -/
def setCommandResult (p : Part) (i : Lane) (r : WordResult) : Part := modLane p i fun l => { l with commandResult := r }

/-- R67: START. -/
def startLane (p : Part) (i : Lane) : Part :=
  if (p.lane i).state = .primed then setCommandResult (enterRunning p i .primed) i .done
  else setCommandResult p i .refusedState

/-- R59: whether a hold reason that arrives becomes pending. -/
def LaneUnit.defersHolds (l : LaneUnit) : Bool := l.state == .struck || l.state == .closing

/-- R67: HOLD. In STRUCK or CLOSING with HOST already present two sentences of R67 differ on the result; that it is PENDING is the
model's choice (log 40). -/
def holdLane (p : Part) (i : Lane) : Part :=
  setCommandResult (addHold p i .host) i (if (p.lane i).defersHolds then .pending else .done)

/-- R67: the reasons that RESUME leaves in a set: RING, and STOP while the input is active in a level mode. -/
def HoldSet.resumed (h : HoldSet) (stopStays : Bool) : HoldSet :=
  { host := false, stop := h.stop && stopStays, track := false, ring := h.ring }

/-- R67: a lane's hold sets and result at RESUME. -/
def LaneUnit.resumed (l : LaneUnit) : LaneUnit :=
  { l with holds := l.holds.resumed l.stopActive, pendingHolds := l.pendingHolds.resumed l.stopActive,
           commandResult := if l.stopActive then .refusedStopActive else .done }

/-- R36, R37, R67: RESUME. The reasons go, the track disposition is carried out, the lane leaves HELD when nothing holds it, an
arrival of the replay gives its look, and a fault of the replay adds TRACK after that (log 15). -/
def resumeLane (p : Part) (i : Lane) (disposition : Disposition) : Part :=
  let o := disposeTrack (modLane p i LaneUnit.resumed) i disposition
  let q := leaveHeldIfFree o.part i
  let q := if o.arrived then look q i else q
  if o.faulted then addHold q i .track else q

/-- R68: a live lot closed from HELD: RING goes, and with it the lane's place among the Ring Waiters. -/
def withdrawHeld (p : Part) (i : Lane) : Part :=
  closeLot (leaveWaiters (modLane p i fun l => { l with holds := { l.holds with ring := false } }) i) i

/-- R68: WITHDRAW. -/
def withdrawLane (p : Part) (i : Lane) : Part :=
  match (p.lane i).state, (p.lane i).ret with
  | .primed, _ => setCommandResult (closeLot p i) i .done
  | .running, _ => setCommandResult (closeLot p i) i .done
  | .paused, _ => setCommandResult (closeLot p i) i .done
  | .struck, _ => setCommandResult (modLane p i fun l => { l with pendingWithdraw := true }) i .pending
  | .held, .primed => setCommandResult (withdrawHeld p i) i .done
  | .held, .paused => setCommandResult (withdrawHeld p i) i .done
  | .held, .idle => setCommandResult p i .noLot
  | .idle, _ => setCommandResult p i .noLot
  | .closing, _ => setCommandResult p i .noLot

/-- R69: ENABLE. -/
def enableLane (p : Part) (i : Lane) : Part := setCommandResult (modLane p i fun l => { l with enabled := true }) i .done

/-- R69: whether DISABLE can be carried out. -/
def mayDisable (p : Part) (i : Lane) : Bool :=
  (p.lane i).state == .idle && (p.expected i).isEmpty && (p.track i).late.isEmpty && (p.track i).staging.isEmpty &&
    (p.track i).display.isNone

/-- R69: DISABLE. -/
def disableLane (p : Part) (i : Lane) : Part :=
  if mayDisable p i then setCommandResult (modLane p i fun l => { l with enabled := false }) i .done
  else setCommandResult p i .refusedState

/-- R66: a lane command taken. -/
def takeLaneCommand (p : Part) (i : Lane) : LaneCommand → Part
  | .start => startLane p i
  | .hold => holdLane p i
  | .resumeDiscard => resumeLane p i .discard
  | .resumeFlush => resumeLane p i .flush
  | .withdraw => withdrawLane p i
  | .enable => enableLane p i
  | .disable => disableLane p i
  | .unknown => setCommandResult p i .unknown

/-! ### Lane parameters (R46, R72) -/

/-- The parameters that are written. -/
inductive LaneParam where
  | stepInterval | stopMode | defaultStep | defaultBump | contenderWindow | preRoll | restartPause
  deriving DecidableEq, Repr

/-- The written parameters, in the order of their places. -/
def LaneParam.all : List LaneParam :=
  [.stepInterval, .stopMode, .defaultStep, .defaultBump, .contenderWindow, .preRoll, .restartPause]

/-- A parameter's place in the lane area (11.3). -/
def LaneParam.offset : LaneParam → Nat
  | .stepInterval => 0x04 | .stopMode => 0x05 | .defaultStep => 0x06 | .defaultBump => 0x08 | .contenderWindow => 0x0C
  | .preRoll => 0x0E | .restartPause => 0x10

/-- A parameter's size in bytes (11.3). -/
def LaneParam.size : LaneParam → Nat
  | .stepInterval => 1 | .stopMode => 1 | .defaultStep => 2 | .defaultBump => 4 | .contenderWindow => 1 | .preRoll => 2
  | .restartPause => 2

/-- R46: a parameter's range. -/
def LaneParam.inRange (k : LaneParam) (v : Nat) : Bool :=
  match k with
  | .stepInterval => decide (1 ≤ v) && decide (v ≤ 255)
  | .stopMode => decide (v ≤ 4)
  | .defaultStep => decide (1 ≤ v) && decide (v ≤ 9999)
  | .defaultBump => decide (v ≤ 99999)
  | .contenderWindow => decide (1 ≤ v) && decide (v ≤ 63)
  | .preRoll => decide (v ≤ 4095)
  | .restartPause => decide (1 ≤ v) && decide (v ≤ 4095)

/-- A parameter replaced. -/
def LaneParams.put (l : LaneParams) (v : Nat) : LaneParam → LaneParams
  | .stepInterval => { l with stepInterval := v }
  | .stopMode => match StopMode.ofCode v with | some m => { l with stopMode := m } | none => l
  | .defaultStep => { l with defaultStep := v }
  | .defaultBump => { l with defaultBump := v }
  | .contenderWindow => { l with contenderWindow := v }
  | .preRoll => { l with preRoll := v }
  | .restartPause => { l with restartPause := v }

/-- The offset of a lane's area in the Anchor. -/
def laneAt (i : Lane) : Nat := 0x0800 + i.val * 0x100

/-- R46: the parameters of a lane that a write covers, `bytes` its enabled bytes by Anchor offset. -/
def coveredParams (bytes : List (Nat × Byte)) (i : Lane) : List LaneParam :=
  LaneParam.all.filter fun k => covers bytes (laneAt i + k.offset) k.size

/-- A parameter's value in the shadow. -/
def paramValue (p : Part) (i : Lane) (k : LaneParam) : Nat := Memory.field p.window.shadow (laneAt i + k.offset) k.size

/-- R46: the parameter result of a write: REFUSED-RANGE if any covered parameter is out of range. -/
def paramVerdict (p : Part) (i : Lane) (bytes : List (Nat × Byte)) : WordResult :=
  if (coveredParams bytes i).all fun k => k.inRange (paramValue p i k) then .done else .refusedRange

/-- R46: a parameter taken when its value is in range. -/
def takeParam (i : Lane) (p : Part) (k : LaneParam) : Part :=
  if k.inRange (paramValue p i k) then modLane p i fun l => { l with params := l.params.put (paramValue p i k) k } else p

/-- R46: a lane's parameter result set. -/
def setParamResult (p : Part) (i : Lane) (r : WordResult) : Part := modLane p i fun l => { l with parameterResult := r }

/-- R46: a write of lane parameters other than the stop mode. -/
def takeLaneParams (p : Part) (i : Lane) (bytes : List (Nat × Byte)) : Part :=
  setParamResult (((coveredParams bytes i).filter fun k => k ≠ .stopMode).foldl (takeParam i) p) i (paramVerdict p i bytes)

/-- R72: the input judged under a mode just written. -/
def judgeStop (p : Part) (i : Lane) : Part := if (p.lane i).stopActive then addStop p i else p

/-- R46, R72: a write of the stop mode. -/
def takeStopMode (p : Part) (i : Lane) (bytes : List (Nat × Byte)) : Part :=
  let q := if LaneParam.stopMode.inRange (paramValue p i .stopMode) then judgeStop (takeParam i p .stopMode) i else p
  setParamResult q i (paramVerdict p i bytes)

/-! ### The hall tick (R45, R185) -/

/-- R45, R185: the tick count advances and each lane's counting timer takes the tick. -/
def takeTick (p : Part) : Part :=
  { p with ticks := { p.ticks with count := p.ticks.count + 1 },
           lanes := p.lanes.map fun l => { l with timer := l.timer.tick } }

/-! ### Timer expiries (R49 to R53) -/

/-- R49: the pre-roll timer's expiry. -/
def preRollExpiry (p : Part) (i : Lane) : Part := enterRunning p i .primed

/-- R49: the restart-pause timer's expiry. -/
def restartPauseExpiry (p : Part) (i : Lane) : Part := enterRunning p i .paused

/-- R51: the price a step lower, or the floor price if that would be below the floor. -/
def lowered (price step floor : Nat) : Nat := if floor + step ≤ price then price - step else floor

/-- R45, R51: the step timer's expiry: the price steps down and the timer reloads, or the lot is closed at a floor event. -/
def stepExpiry (p : Part) (i : Lane) : Part :=
  match liveLot p i with
  | none => p
  | some (_, h, _) =>
    if h.floorPrice < (p.lane i).price then
      modLane p i fun l =>
        { l with price := lowered l.price (stepOf l h) h.floorPrice, timer := .start .step l.params.stepInterval }
    else closeLot p i

/-- A timer expiry as one event, when it is due; otherwise it cannot occur, and nothing happens (logs 2 and 5). -/
def takeExpiry (p : Part) (i : Lane) (kind : TimerKind) (act : Part → Lane → Part) : Part :=
  if (p.lane i).timer.due kind then settle p (act p i) else p

end Sys2Proof.Machine
end

