-- ==== Sys2Proof/Machine/State.lean ====
section
/-! DEFINITION. The machine's state: the part (Machine/Blocks.lean) and the queue of the commands waiting; the reasons a step can
stop; the state after reset. -/

namespace Sys2Proof.Machine

/-- Why a step stops with a fault. -/
inductive Fault where
  /-- Raised by FLOOR_BUS_WRITE and FLOOR_BUS_READ whose operands form no Floor Bus transaction (R150: 1 to 8 beats at an address
  whose lowest three bits are zero). Safe: the bus cannot carry such operands, and the model stops (log 3). -/
  | notATransaction
  deriving DecidableEq, Repr

/-- Why a step has no meaning. -/
inductive Refusal where
  /-- Raised by exec for a command that has no meaning yet. Safe. No command is left so. -/
  | notModelled (mnemonic : String)
  deriving DecidableEq, Repr

/-- The machine: the part, and the commands waiting, first in, first out. -/
structure State where
  part : Part
  pending : List Instr
  deriving DecidableEq, Repr

/-- The pins that State.reset takes as sampled: straps low and every stop input low. DESIGN CHOICE, unsafe (log 16). -/
def State.resetPins : SampledPins := { anchorSel := 0, refSel := false, stopLevels := 0 }

/-- The machine right after reset (R187), with no command waiting. FB_RSTn is high. DESIGN CHOICE for the pins (log 16). -/
def State.reset : State := { part := .afterReset State.resetPins false 0, pending := [] }

end Sys2Proof.Machine
end

