-- ==== Sys2Proof/Machine/Takings.lean ====
section
/-! DEFINITION. Taking: the head of the Posted Write Buffer taken, the read in progress taken and answered, and the forward path
(R152 to R157, R163). Every row that is a taking acts through `takeWrite` or `takeRead`. -/

namespace Sys2Proof.Machine

/-- A command that acts on the part. -/
def actOn (s : State) (f : Part → Part) : Host.Outcome State Fault Refusal := .next { s with part := f s.part }

/-! ### Writes -/

/-- R154: whether a classification calls for forwarding, and so waits for the forward path even when its taking drops the write. -/
def Classification.callsForForwarding (c : Classification) : Bool :=
  match c.kind with
  | none => true
  | some .guard => true
  | some .lot => true
  | some .buyer => true
  | some .desk => true
  | some .anchor => true
  | some .press => false
  | some .track => false
  | some .reply => false
  | some .display => false
  | some .ring => false

/-- R154, R156: the head of the buffer, when it may be taken: taking is not paused, and the forward path holds no write if the
head's classification calls for forwarding. -/
def takeableWrite (p : Part) : Option PostedWrite :=
  match p.floor.buffer with
  | [] => none
  | w :: _ => if takingPaused p || (w.cls.callsForForwarding && p.store.forwardWrite.isSome) then none else some w

/-- R154: the head leaves the buffer. -/
def popWrite (p : Part) : Part := p.setFloor { p.floor with buffer := p.floor.buffer.tail }

/-- A taking of the buffer's head as one event that ends as `finish` says: when the head may be taken and is of the row, it leaves
the buffer and its owner acts; otherwise the command's event cannot occur, and nothing happens (log 2). -/
def takeWriteThen (finish : PostedWrite → Part → Part → Part) (row : Part → PostedWrite → Bool) (act : PostedWrite → Part → Part)
    (p : Part) : Part :=
  match takeableWrite p with
  | some w => if row p w then finish w p (act w (popWrite p)) else p
  | none => p

/-- A taking of the buffer's head that ends as every event does. -/
def takeWrite (row : Part → PostedWrite → Bool) (act : PostedWrite → Part → Part) (p : Part) : Part :=
  takeWriteThen (fun _ => settle) row act p

/-- R154, R150: a write placed in the forward path; a write whose masks enable no byte is not forwarded. -/
def forward (w : PostedWrite) (listed : Option Nat) (p : Part) : Part :=
  let write : ForwardedWrite :=
    { master := w.master, window := w.cls.window, address := w.address, beats := w.beats, listedLot := listed }
  if w.bytes.isEmpty then p else p.setStore { p.store with forwardWrite := some write }

/-- The error report of a write (R163, R176). -/
def writeError (w : PostedWrite) (kind : EventKind) : ErrorReport :=
  { kind := kind, master := some w.master, mark := .none, window := w.cls.window, address := w.address, direction := .write }

/-- R161, R162: the error kind of a failed check. -/
def CheckResult.kind : CheckResult → EventKind
  | .rights => .rights
  | .limit => .limit
  | .format => .format
  | .pass => .format

/-- Whether a write passed its checks into a window of a kind. -/
def PostedWrite.into (w : PostedWrite) (kind : WindowKind) : Bool := w.cls.check == .pass && w.cls.kind == some kind

/-- The base of the aligned block of `size` bytes that a write's address lies in. -/
def PostedWrite.blockBase (w : PostedWrite) (size : Nat) : Nat := w.address.toNat / size * size

/-- The bytes of a write by their offsets in its aligned block of `size` bytes. -/
def PostedWrite.inBlock (w : PostedWrite) (size : Nat) : List (Nat × Byte) := offsetsFrom (w.blockBase size) w.bytes

/-! ### Reads -/

/-- R155: the read in progress, when it may be taken: it is not yet taken, and no write is ahead of it. -/
def takeableRead (p : Part) : Option ReadInProgress :=
  match p.floor.read with
  | some r => if r.forwarded || !p.floor.buffer.isEmpty then none else some r
  | none => none

/-- A taking of the read in progress as one event (log 2). -/
def takeRead (row : ReadInProgress → Bool) (act : ReadInProgress → Part → Part) (p : Part) : Part :=
  match takeableRead p with
  | some r => if row r then act r p else p
  | none => p

/-- R150, R152: the read answered; its grant ends with the answer. -/
def answerRead (r : ReadInProgress) (answer : Answer) (p : Part) : Part :=
  p.setFloor { p.floor with grant := none, read := none, response := some { master := r.master, answer := answer } }

/-- R150: DONE with the read's beats, byte `k` of the read given by `f`. -/
def answerBytes (r : ReadInProgress) (f : Nat → Byte) (p : Part) : Part := answerRead r (.done (beatsAt f 0 r.beatCount)) p

/-- R155: the read placed in the forward path at an address, with the owned values to merge. -/
def forwardReadAt (r : ReadInProgress) (address : Address) (merge : Option Owned) (p : Part) : Part :=
  let q := p.setFloor { p.floor with read := some { r with forwarded := true } }
  let read : ForwardedRead :=
    { master := r.master, window := r.cls.window, address := address, beatCount := r.beatCount, merge := merge }
  q.setStore { q.store with forwardRead := some read }

/-- Whether a read passed its checks into a window of a kind. -/
def ReadInProgress.into (r : ReadInProgress) (kind : WindowKind) : Bool := r.cls.check == .pass && r.cls.kind == some kind

end Sys2Proof.Machine
end

