-- ==== Sys2Proof/Machine/Windows.lean ====
section
/-! DEFINITION. The Window Unit: classification and checks of an access, window commits and removals, and master commits
(R159 to R167, R134). -/

namespace Sys2Proof.Machine

/-! ### Matching (R160) -/

/-- R160: whether an address lies in a valid entry's range. -/
def WindowEntry.covers (e : WindowEntry) (address : Nat) : Bool :=
  e.valid && decide (e.base ≤ address) && decide (address < e.base + e.pages * 4096)

/-- R160: the window an address matches. -/
def matchWindow (p : Part) (address : Nat) : Option Window := (List.finRange 16).find? fun w => p.window.cache[w].covers address

/-! ### Checks (R162, R157) -/

/-- R150: whether a transaction's beats run past the end of its 64-byte line. -/
def crossesLine (address beats : Nat) : Bool := decide (64 < address % 64 + 8 * beats)

/-- R162, check 1, and the table of check 2, with the Anchor's own rule (R157): level, direction and role. -/
def accessAllowed (m : MasterEntry) (e : WindowEntry) : Direction → Bool
  | .read =>
    match e.kind with
    | .anchor => m.role == .control
    | .guard => decide (m.privilege ≤ e.readLevel)
    | .ring => decide (m.privilege ≤ e.readLevel)
    | .lot => decide (m.privilege ≤ e.readLevel)
    | .buyer => decide (m.privilege ≤ e.readLevel)
    | .desk => decide (m.privilege ≤ e.readLevel)
    | .press => false
    | .reply => decide (m.privilege ≤ e.readLevel) && (m.role == .control || m.role == .desk)
    | .track => false
    | .display => decide (m.privilege ≤ e.readLevel) && (m.role == .control || m.role == .display)
  | .write =>
    match e.kind with
    | .anchor => m.role == .control && m.privilege == 0
    | .guard => decide (m.privilege ≤ e.writeLevel)
    | .ring => false
    | .lot => decide (m.privilege ≤ e.writeLevel) && m.role == .control
    | .buyer => decide (m.privilege ≤ e.writeLevel) && m.role == .control
    | .desk => decide (m.privilege ≤ e.writeLevel) && m.role == .control
    | .press => decide (m.privilege ≤ e.writeLevel) && m.role == .desk
    | .reply => false
    | .track => decide (m.privilege ≤ e.writeLevel) && m.role == .track
    | .display => false

/-- R164: whether the enabled bytes are exactly the first four of one 16-byte slot. -/
def oneSlot (bytes : List (Nat × Byte)) : Bool :=
  match bytes.map Prod.fst with
  | [a, b, c, d] => a % 16 == 0 && b == a + 1 && c == a + 2 && d == a + 3
  | _ => false

/-- The offset of the first enabled byte, or of the access's first byte when none is enabled (log 9). -/
def firstEnabled (bytes : List (Nat × Byte)) (offset : Nat) : Nat := match bytes with | b :: _ => b.1 | [] => offset

/-- The value of four enabled bytes: a tag, or a press's fields. -/
def enabledValue (bytes : List (Nat × Byte)) : Nat := leNat (bytes.map Prod.snd)

/-- R162, check 3, and R164: the form of an access, `bytes` its enabled bytes by offset in the window. -/
def formPasses (kind : WindowKind) (direction : Direction) (bytes : List (Nat × Byte)) (crosses : Bool) : Bool :=
  !crosses &&
    match kind, direction with
    | .press, .write => oneSlot bytes
    | .track, .write =>
      let slot := firstEnabled bytes 0
      oneSlot bytes && decide (slot / 64 < 6) && slot % 64 / 16 != 3 && enabledValue bytes != 0
    | _, _ => true

/-- R162: whether a desk lies in the master's range. -/
def MasterEntry.hasDesk (m : MasterEntry) (desk : Nat) : Bool :=
  decide (m.firstDesk ≤ desk) && decide (desk < m.firstDesk + m.deskCount)

/-- R162: whether a lane is in the master's lane mask. -/
def MasterEntry.hasLane (m : MasterEntry) (lane : Nat) : Bool := m.laneMask.getLsbD lane

/-- R162, check 4: the range of an access, from its offset, its length in bytes and its enabled bytes. -/
def rangePasses (m : MasterEntry) (kind : WindowKind) (direction : Direction) (offset size : Nat) (bytes : List (Nat × Byte)) : Bool :=
  match kind, direction with
  | .press, .write => m.hasDesk (firstEnabled bytes offset % 8192 / 16)
  | .reply, .read => m.role != .desk || (m.hasDesk (offset / 32) && m.hasDesk ((offset + size - 1) / 32))
  | .track, .write => m.hasLane (firstEnabled bytes offset / 64)
  | .display, .read => m.role != .display || m.hasLane (offset / 131072)
  | _, _ => true

/-- R160: the bytes of a record of a record window. -/
def WindowKind.recordSize : WindowKind → Option Nat
  | .lot => some 128
  | .buyer => some 64
  | .desk => some 8
  | .anchor => none
  | .guard => none
  | .press => none
  | .reply => none
  | .track => none
  | .display => none
  | .ring => none

/-- R162, check 5: the record index of the access's last byte is below the window's record limit. -/
def limitPasses (e : WindowEntry) (offset size : Nat) : Bool :=
  match e.kind.recordSize with
  | some n => decide ((offset + size - 1) / n < e.recordLimit)
  | none => true

/-- R161: what the access's offset names. -/
def placeOf (kind : WindowKind) (offset : Nat) (bytes : List (Nat × Byte)) : Place :=
  match kind with
  | .lot => .record (offset / 128)
  | .buyer => .record (offset / 64)
  | .desk => .record (offset / 8)
  | .press => let slot := firstEnabled bytes offset; .press (slot / 8192) (slot % 8192 / 16)
  | .track => let slot := firstEnabled bytes offset; .track (slot / 64) (slot % 64 / 16)
  | .reply => .reply (offset / 32)
  | .display => .display (offset / 131072) (offset % 131072 / 32768) (offset % 32768 / 4096) (offset % 4096)
  | .anchor => .none
  | .guard => .none
  | .ring => .none

/-- R162: the checks of an access into a window, in order. -/
def checkAccess (m : MasterEntry) (e : WindowEntry) (direction : Direction) (address beats : Nat) (bytes : List (Nat × Byte)) :
    CheckResult :=
  let offset := address - e.base
  if !accessAllowed m e direction then .rights
  else if !formPasses e.kind direction bytes (crossesLine address beats) then .format
  else if !rangePasses m e.kind direction offset (8 * beats) bytes then .rights
  else if !limitPasses e offset (8 * beats) then .limit
  else .pass

/-- R161: the classification of an access, `bytes` its enabled bytes by address. -/
def classify (p : Part) (master : Master) (direction : Direction) (address : Address) (beats : Nat) (bytes : List (Nat × Byte)) :
    Classification :=
  match matchWindow p address.toNat with
  | none =>
    { window := none, kind := none, check := if crossesLine address.toNat beats then .format else .pass, place := .none }
  | some w =>
    let e := p.window.cache[w]
    let inside := offsetsFrom e.base bytes
    { window := some w, kind := some e.kind, check := checkAccess p.window.masters[master] e direction address.toNat beats inside,
      place := placeOf e.kind (address.toNat - e.base) inside }

/-! ### The rights probe (R167) -/

/-- R167: whether a master's access to a window would pass the level and role checks, or the Anchor rule. -/
def probeAllowed (p : Part) (m : Master) (w : Window) (direction : Direction) : Bool :=
  p.window.cache[w].valid && accessAllowed p.window.masters[m] p.window.cache[w] direction

/-! ### Window commits (R165, R166, R134) -/

/-- R165: a window's descriptor as it stands in the shadow. -/
structure Descriptor where
  kindCode : Nat
  base : Nat
  pages : Nat
  readLevel : Nat
  writeLevel : Nat
  recordLimit : Nat
  deriving DecidableEq, Repr

/-- The offset of a window's descriptor in the Anchor. -/
def descriptorAt (w : Window) : Nat := 0x1000 + w.val * 0x20

/-- The offset of a master's descriptor in the Anchor. -/
def masterAt (m : Master) : Nat := 0x1200 + m.val * 0x10

/-- R165: the descriptor read from the shadow (11.3). Bits 36 and up of the base are taken as part of its value, so that a base with one
set is refused ALIGN: the model's choice (log 39). -/
def readDescriptor (shadow : List Host.Cell) (w : Window) : Descriptor :=
  let f := fun start size => Memory.field shadow (descriptorAt w + start) size
  { kindCode := f 0x0E 1, base := f 0x00 8, pages := f 0x08 4, readLevel := f 0x0F 1, writeLevel := f 0x10 1,
    recordLimit := f 0x0C 2 }

/-- R160: whether a size in pages is one the kind allows. -/
def WindowKind.sizeAllowed (kind : WindowKind) (pages : Nat) : Bool :=
  match kind with
  | .anchor => false
  | .guard => decide (1 ≤ pages) && decide (pages ≤ 65536)
  | .lot => pages == 256
  | .buyer => pages == 32
  | .desk => pages == 1
  | .press => pages == 12
  | .reply => pages == 4
  | .track => pages == 1
  | .display => pages == 192
  | .ring => pages == 64 || pages == 128 || pages == 256 || pages == 512 || pages == 1024

/-- R160: whether a record limit is one the kind allows. -/
def WindowKind.limitAllowed (kind : WindowKind) (limit : Nat) : Bool :=
  match kind with
  | .lot => decide (1 ≤ limit) && decide (limit ≤ 8192)
  | .buyer => decide (2 ≤ limit) && decide (limit ≤ 2048)
  | .desk => decide (1 ≤ limit) && decide (limit ≤ 512)
  | .anchor => true
  | .guard => true
  | .press => true
  | .reply => true
  | .track => true
  | .display => true
  | .ring => true

/-- R188: the kinds committed and removed only while the day is CLOSED. -/
def WindowKind.dayBound : WindowKind → Bool
  | .lot => true
  | .buyer => true
  | .desk => true
  | .ring => true
  | .anchor => false
  | .guard => false
  | .press => false
  | .reply => false
  | .track => false
  | .display => false

/-- Whether another valid window satisfies a condition. -/
def otherWindow (p : Part) (w : Window) (f : WindowEntry → Bool) : Bool :=
  (List.finRange 16).any fun v => decide (v ≠ w) && p.window.cache[v].valid && f p.window.cache[v]

/-- R134: the Ring Unit's conditions for a removal or replacement: a reserved slot, a waiter, or a queued record refuses it. -/
def ringBusy (p : Part) : Bool := decide (0 < reservedCount p) || !p.ring.waiters.isEmpty || !p.ring.queue.isEmpty

/-- Whether an entry is a valid window of a kind that a condition names. -/
def WindowEntry.isValid (e : WindowEntry) (f : WindowKind → Bool) : Bool := e.valid && f e.kind

/-- R165: the reason that refuses a commit of a recognised kind, or NONE, in the table's order. -/
def commitReason (p : Part) (w : Window) (kind : WindowKind) (d : Descriptor) : CommitReason :=
  let held := p.window.cache[w]
  if d.base % 4096 ≠ 0 ∨ 2 ^ 36 < d.base + d.pages * 4096 then .align
  else if !kind.sizeAllowed d.pages then .size
  else if !kind.limitAllowed d.recordLimit then .limit
  else if otherWindow p w fun e =>
      decide (d.base < e.base + e.pages * 4096) && decide (e.base < d.base + d.pages * 4096) then .overlap
  else if kind ≠ .guard ∧ otherWindow p w fun e => e.kind == kind then .duplicateKind
  else if (kind.dayBound || held.isValid WindowKind.dayBound) ∧ p.window.dayState ≠ .closed then .dayNotClosed
  else if held.isValid (· == .ring) ∧ ringBusy p then .ringBusy
  else .none

/-- R165, R166: a window's commit result set. -/
def setWindowResult (p : Part) (w : Window) (result : WordResult) (reason : CommitReason) : Part :=
  p.setWindow { p.window with windowResults := p.window.windowResults.set w { result := result, reason := reason } }

/-- R176: the MAP report of a refused commit: window 0, and the address of the commit word. -/
def mapError (p : Part) (master : Master) (commitOffset : Nat) : ErrorReport :=
  { kind := .map, master := some master, mark := .none, window := some 0,
    address := BitVec.ofNat 36 (anchorBase p.window.anchorSel + commitOffset), direction := .write }

/-- R165, R166: a refused commit or removal. -/
def refuseWindow (p : Part) (master : Master) (w : Window) (reason : CommitReason) : Part :=
  (setWindowResult p w .refusedMap reason).report (mapError p master (descriptorAt w + 0x18))

/-- R134: the ring as a commit or a removal leaves it. -/
def RingUnit.restarted (r : RingUnit) (geometry : Option Geometry) : RingUnit :=
  { r with geometry := geometry, assigned := 0, published := 0, consumer := 0, purchases := 0, payments := 0 }

/-- R134: what a commit does to the ring: a RING window starts it; another kind in a RING window's place ends it. -/
def commitRing (p : Part) (held : WindowEntry) (kind : WindowKind) (d : Descriptor) : Part :=
  if kind = .ring then p.setRing (p.ring.restarted (some { base := d.base, capacity := d.pages * 64 }))
  else if held.isValid (· == .ring) then p.setRing (p.ring.restarted none)
  else p

/-- R165: the entry that a commit installs. -/
def Descriptor.entry (d : Descriptor) (kind : WindowKind) : WindowEntry :=
  { valid := true, kind := kind, base := d.base, pages := d.pages, readLevel := d.readLevel, writeLevel := d.writeLevel,
    recordLimit := if kind.recordSize.isSome then d.recordLimit else 0 }

/-- R165: a window installed. -/
def installWindow (p : Part) (w : Window) (kind : WindowKind) (d : Descriptor) : Part :=
  let q := commitRing p p.window.cache[w] kind d
  setWindowResult (q.setWindow { q.window with cache := q.window.cache.set w (d.entry kind) }) w .done .none

/-- R165: a window commit word with the valid request set. -/
def commitWindow (p : Part) (master : Master) (w : Window) : Part :=
  let d := readDescriptor p.window.shadow w
  match WindowKind.ofCode d.kindCode with
  | none => refuseWindow p master w .badKind
  | some .anchor => refuseWindow p master w .badKind
  | some kind =>
    if commitReason p w kind d = .none then installWindow p w kind d
    else refuseWindow p master w (commitReason p w kind d)

/-- R166: a window marked not valid; its other fields are kept. -/
def clearWindow (p : Part) (w : Window) : Part :=
  let held := p.window.cache[w]
  let q := if held.kind = .ring then p.setRing (p.ring.restarted none) else p
  setWindowResult (q.setWindow { q.window with cache := q.window.cache.set w { held with valid := false } }) w .done .none

/-- R166: a window commit word with the valid request clear. -/
def removeWindow (p : Part) (master : Master) (w : Window) : Part :=
  let held := p.window.cache[w]
  if held.valid = false then setWindowResult p w .done .none
  else if held.kind.dayBound ∧ p.window.dayState ≠ .closed then refuseWindow p master w .dayNotClosed
  else if held.kind = .ring ∧ ringBusy p then refuseWindow p master w .ringBusy
  else clearWindow p w

/-! ### Master commits (R159) -/

/-- R159: a master's descriptor in the shadow, as an entry, or none when a field is not one of its values. -/
def readMaster (shadow : List Host.Cell) (m : Master) : Option MasterEntry :=
  let f := fun start size => Memory.field shadow (masterAt m + start) size
  match Role.ofCode (f 0x00 1), GrantClass.ofCode (f 0x02 1) with
  | some role, some grantClass =>
    let first := f 0x04 2
    let count := f 0x06 2
    let desks := decide (first ≤ 511) && decide (1 ≤ count) && decide (count ≤ 512) && decide (first + count ≤ 512)
    if 3 < f 0x01 1 ∨ (role = .desk ∧ !desks) then none
    else some
      { role := role, privilege := f 0x01 1, grantClass := grantClass,
        firstDesk := if role = .desk then first else 0, deskCount := if role = .desk then count else 0,
        laneMask := if role = .track ∨ role = .display then BitVec.ofNat 6 (f 0x03 1) else 0 }
  | _, _ => none

/-- R159: a master's commit result set. -/
def setMasterResult (p : Part) (m : Master) (result : WordResult) (reason : CommitReason) : Part :=
  p.setWindow { p.window with masterResults := p.window.masterResults.set m { result := result, reason := reason } }

/-- R159: a refused master commit. -/
def refuseMaster (p : Part) (master m : Master) : Part :=
  (setMasterResult p m .refusedMap .badEntry).report (mapError p master (masterAt m + 0x08))

/-- R159: a master commit word. -/
def commitMaster (p : Part) (master m : Master) : Part :=
  if m = 0 then refuseMaster p master m
  else
    match readMaster p.window.shadow m with
    | none => refuseMaster p master m
    | some e => setMasterResult (p.setWindow { p.window with masters := p.window.masters.set m e }) m .done .none

end Sys2Proof.Machine
end

