-- ==== Sys2Proof/Machine/Anchor.lean ====
section
/-! DEFINITION. Anchor writes: the commands a write sets off, the words of the ring and attention areas, and the taking of an
Anchor write (R157, R132, R133, R178, R180, R182, R183). -/

namespace Sys2Proof.Machine

/-! ### What a write sets off (R157, 11.3) -/

/-- The commands that an Anchor write can set off, each by the field it covers. -/
inductive AnchorAction where
  | day
  | payment
  | invoiceClose
  | consumerIndex
  | threshold
  | flagClear
  | captureRelease
  | eventMap
  | correctedSwitch
  | laneCommand (lane : Lane)
  | laneParams (lane : Lane)
  | stopMode (lane : Lane)
  | windowWord (window : Window)
  | masterWord (entry : Master)
  deriving DecidableEq, Repr

/-- The words of the command area that a write covers, `bytes` its enabled bytes by Anchor offset. -/
def wordActions (bytes : List (Nat × Byte)) : List AnchorAction :=
  (if covers bytes 0x0000 1 then [.day] else []) ++
  (if covers bytes 0x0100 2 then [.payment] else []) ++
  (if covers bytes 0x0128 2 then [.invoiceClose] else []) ++
  (if covers bytes 0x0200 4 then [.consumerIndex] else []) ++
  (if covers bytes 0x0206 2 then [.threshold] else []) ++
  (if covers bytes 0x0324 4 then [.flagClear] else []) ++
  (if covers bytes 0x0331 1 then [.captureRelease] else []) ++
  (if covers bytes 0x0340 18 then [.eventMap] else []) ++
  (if covers bytes 0x0339 1 then [.correctedSwitch] else [])

/-- The lane words that a write covers. -/
def laneActions (bytes : List (Nat × Byte)) (i : Lane) : List AnchorAction :=
  (if covers bytes (laneAt i) 1 then [.laneCommand i] else []) ++
  (if ((coveredParams bytes i).any fun k => k ≠ .stopMode) then [.laneParams i] else []) ++
  (if (coveredParams bytes i).contains .stopMode then [.stopMode i] else [])

/-- The window commit words that a write covers; window 0 has none (R166). -/
def windowActions (bytes : List (Nat × Byte)) (w : Window) : List AnchorAction :=
  if w ≠ 0 ∧ covers bytes (descriptorAt w + 0x18) 1 then [.windowWord w] else []

/-- The master commit words that a write covers. -/
def masterActions (bytes : List (Nat × Byte)) (m : Master) : List AnchorAction :=
  if covers bytes (masterAt m + 0x08) 1 then [.masterWord m] else []

/-- R157: every command that an Anchor write sets off. -/
def anchorActions (bytes : List (Nat × Byte)) : List AnchorAction :=
  wordActions bytes ++ allLanes.flatMap (laneActions bytes) ++ (List.finRange 16).flatMap (windowActions bytes) ++
    (List.finRange 8).flatMap (masterActions bytes)

/-! ### The words of the ring area (R132, R133) -/

/-- R132: the consumer-index result set. -/
def setConsumerResult (p : Part) (r : WordResult) : Part := p.setRing { p.ring with consumerResult := r }

/-- R132: a consumer-index word. The Ring Waiters are served at the end of the step (R122). -/
def takeConsumerIndex (w : PostedWrite) (p : Part) (value : Word32) : Part :=
  if value - p.ring.consumer ≤ p.ring.assigned - p.ring.consumer then
    setConsumerResult (p.setRing { p.ring with consumer := value }) .done
  else
    (setConsumerResult p .refusedIndex).report { writeError w .ringIndex with window := some 0 }

/-- R133: the values of the ring-low threshold that are taken. -/
def thresholdFits (value : Nat) : Bool := decide (value ≤ 4095)

/-- R133: a write of the ring-low threshold. RING-LOW is judged at the end of the step (`settleThreshold`). -/
def takeThreshold (p : Part) (value : Nat) : Part :=
  if thresholdFits value then p.setRing { p.ring with threshold := value } else p

/-! ### The words of the attention area (R178, R180, R182, R183) -/

/-- R182: a flag-clear word naming a set. -/
def AttentionUnit.clearFlags (a : AttentionUnit) (set : BitVec 18) : AttentionUnit :=
  { a with flags := a.flags &&& ~~~set, clearResult := { outcome := .done, cleared := a.flags &&& set } }

/-- R178: a capture-release word. -/
def AttentionUnit.release (a : AttentionUnit) : AttentionUnit :=
  if a.capture.locked then
    { a with capture := { a.capture with locked := false, lost := 0 },
             releaseResult := { outcome := .done, lost := a.capture.lost } }
  else { a with releaseResult := { outcome := .notLocked, lost := 0 } }

/-- R180: one covered entry of the event map; DRAM-UNCORRECTABLE (7) is fixed. -/
def AttentionUnit.mapEntry (bytes : List (Nat × Byte)) (shadow : List Host.Cell) (a : AttentionUnit) (k : Fin 18) : AttentionUnit :=
  if k ≠ 7 ∧ covers bytes (0x0340 + k.val) 1 then
    match MapEntry.ofCode (Memory.field shadow (0x0340 + k.val) 1) with
    | some e => { a with map := a.map.set k e }
    | none => a
  else a

/-- R180: a write of the event map. -/
def takeEventMap (p : Part) (bytes : List (Nat × Byte)) : Part :=
  p.setAttention ((List.finRange 18).foldl (AttentionUnit.mapEntry bytes p.window.shadow) p.attention)

/-- R183: a write of the report-corrected switch. -/
def takeSwitch (p : Part) : Part :=
  p.setAttention { p.attention with reportCorrected := Memory.field p.window.shadow 0x0339 1 == 1 }

/-! ### Acting (R157) -/

/-- R66: the command that a lane's command word names in the shadow. -/
def shadowLaneCommand (shadow : List Host.Cell) (i : Lane) : LaneCommand :=
  LaneCommand.ofCodes (Memory.field shadow (laneAt i) 1) (Memory.field shadow (laneAt i + 1) 1)

/-- R189: the command that the day word names in the shadow. -/
def shadowDayCommand (shadow : List Host.Cell) : DayCommand := DayCommand.ofCode (Memory.field shadow 0x0000 1)

/-- R165, R166: whether a window's commit word has the valid request set in the shadow. -/
def shadowValid (shadow : List Host.Cell) (w : Window) : Bool := Memory.field shadow (descriptorAt w + 0x18) 1 != 0

/-- R157, step 3: the owner acts on the fields of the shadow. -/
def perform (w : PostedWrite) (bytes : List (Nat × Byte)) (p : Part) (action : AnchorAction) : Part :=
  let shadow := p.window.shadow
  match action with
  | .day => takeDayWord p (Memory.field shadow 0x0002 2) (shadowDayCommand shadow)
  | .payment => takePayment p (Memory.field shadow 0x0100 2) (Memory.field shadow 0x0108 8)
  | .invoiceClose => takeInvoiceClose p (Memory.field shadow 0x0128 2)
  | .consumerIndex => takeConsumerIndex w p (BitVec.ofNat 32 (Memory.field shadow 0x0200 4))
  | .threshold => takeThreshold p (Memory.field shadow 0x0206 2)
  | .flagClear => p.setAttention (p.attention.clearFlags (BitVec.ofNat 18 (Memory.field shadow 0x0324 4)))
  | .captureRelease => p.setAttention p.attention.release
  | .eventMap => takeEventMap p bytes
  | .correctedSwitch => takeSwitch p
  | .laneCommand i => takeLaneCommand p i (shadowLaneCommand shadow i)
  | .laneParams i => takeLaneParams p i bytes
  | .stopMode i => takeStopMode p i bytes
  | .windowWord v => if shadowValid shadow v then commitWindow p w.master v else removeWindow p w.master v
  | .masterWord m => commitMaster p w.master m

/-- The bytes of an Anchor write by their offsets in the Anchor. -/
def anchorBytes (p : Part) (w : PostedWrite) : List (Nat × Byte) := offsetsFrom (anchorBase p.window.anchorSel) w.bytes

/-- R157, step 1: the shadow after a write. -/
def shadowAfter (p : Part) (w : PostedWrite) : List Host.Cell := Memory.write p.window.shadow (anchorBytes p w)

/-- R157: an Anchor write taken: shadowed, forwarded, and acted on. The order of several commands of one write is free (log 7). -/
def takeAnchorWrite (w : PostedWrite) (p : Part) : Part :=
  let bytes := anchorBytes p w
  let actions := anchorActions bytes
  let q := forward w none (p.setWindow { p.window with shadow := shadowAfter p w })
  let q := (freelyOrdered p.freeDraws actions).foldl (perform w bytes) q
  if actions.length < 2 then q else { q with freeDraws := q.freeDraws + 1 }

/-- Whether the head is an allowed Anchor write that sets off a command that a row names; the row judges the command by the shadow
after the write. -/
def anchorRow (row : List Host.Cell → AnchorAction → Bool) (p : Part) (w : PostedWrite) : Bool :=
  w.into .anchor && (anchorActions (anchorBytes p w)).any (row (shadowAfter p w))

/-- R133: whether an Anchor write covers the ring-low threshold with a value that is taken. -/
def thresholdTaken (p : Part) (w : PostedWrite) : Bool :=
  (anchorActions (anchorBytes p w)).contains .threshold && thresholdFits (Memory.field (shadowAfter p w) 0x0206 2)

/-- The end of the taking of an Anchor write. -/
def settleAnchor (w : PostedWrite) (before p : Part) : Part :=
  if thresholdTaken before w then settleThreshold before p else settle before p

/-- The taking of an Anchor write that sets off a command of a row. -/
def takeAnchor (row : List Host.Cell → AnchorAction → Bool) (p : Part) : Part :=
  takeWriteThen settleAnchor (anchorRow row) takeAnchorWrite p

/-- Whether an action is a lane command of a kind. -/
def isLaneCommand (c : LaneCommand) (shadow : List Host.Cell) (action : AnchorAction) : Bool :=
  match action with
  | .laneCommand i => shadowLaneCommand shadow i == c
  | _ => false

/-- Whether an action is a day command of a kind. -/
def isDayCommand (c : DayCommand) (shadow : List Host.Cell) (action : AnchorAction) : Bool :=
  action == .day && shadowDayCommand shadow == c

/-- Whether an action is a write of lane parameters. -/
def isLaneParams (_ : List Host.Cell) (action : AnchorAction) : Bool := match action with | .laneParams _ => true | _ => false

/-- Whether an action is a write of a stop mode. -/
def isStopMode (_ : List Host.Cell) (action : AnchorAction) : Bool := match action with | .stopMode _ => true | _ => false

/-- Whether an action is a window commit word with the valid request as given. -/
def isWindowWord (valid : Bool) (shadow : List Host.Cell) (action : AnchorAction) : Bool :=
  match action with
  | .windowWord w => shadowValid shadow w == valid
  | _ => false

/-- Whether an action is a master commit word. -/
def isMasterWord (_ : List Host.Cell) (action : AnchorAction) : Bool := match action with | .masterWord _ => true | _ => false

/-- Whether an action is one given action. -/
def isAction (a : AnchorAction) (_ : List Host.Cell) (action : AnchorAction) : Bool := action == a

end Sys2Proof.Machine
end

