-- ==== Sys2Proof/Machine/AnchorWrites.lean ====
section
/-! DEFINITION. The commands that are Anchor writes: one meaning for each row, each the taking of an allowed Anchor write that sets
off the row's command (R157). -/

namespace Sys2Proof.Machine

/-- START (R67). -/
def execStart (s : State) : Host.Outcome State Fault Refusal := actOn s (takeAnchor (isLaneCommand .start))

/-- HOLD (R67). -/
def execHold (s : State) : Host.Outcome State Fault Refusal := actOn s (takeAnchor (isLaneCommand .hold))

/-- RESUME_DISCARD (R36, R67). -/
def execResumeDiscard (s : State) : Host.Outcome State Fault Refusal := actOn s (takeAnchor (isLaneCommand .resumeDiscard))

/-- RESUME_FLUSH (R36, R67). -/
def execResumeFlush (s : State) : Host.Outcome State Fault Refusal := actOn s (takeAnchor (isLaneCommand .resumeFlush))

/-- WITHDRAW_COMMAND (R68). -/
def execWithdrawCommand (s : State) : Host.Outcome State Fault Refusal := actOn s (takeAnchor (isLaneCommand .withdraw))

/-- ENABLE (R69). -/
def execEnable (s : State) : Host.Outcome State Fault Refusal := actOn s (takeAnchor (isLaneCommand .enable))

/-- DISABLE (R69). -/
def execDisable (s : State) : Host.Outcome State Fault Refusal := actOn s (takeAnchor (isLaneCommand .disable))

/-- UNKNOWN_LANE_COMMAND (R66). -/
def execUnknownLaneCommand (s : State) : Host.Outcome State Fault Refusal := actOn s (takeAnchor (isLaneCommand .unknown))

/-- LANE_PARAMETER_WRITE (R46). -/
def execLaneParameterWrite (s : State) : Host.Outcome State Fault Refusal := actOn s (takeAnchor isLaneParams)

/-- STOP_MODE_WRITE (R72). -/
def execStopModeWrite (s : State) : Host.Outcome State Fault Refusal := actOn s (takeAnchor isStopMode)

/-- PAYMENT (R112). -/
def execPayment (s : State) : Host.Outcome State Fault Refusal := actOn s (takeAnchor (isAction .payment))

/-- INVOICE_CLOSE_WORD (R110). -/
def execInvoiceCloseWord (s : State) : Host.Outcome State Fault Refusal := actOn s (takeAnchor (isAction .invoiceClose))

/-- CONSUMER_INDEX_WORD (R132). -/
def execConsumerIndexWord (s : State) : Host.Outcome State Fault Refusal := actOn s (takeAnchor (isAction .consumerIndex))

/-- RING_LOW_THRESHOLD_WRITE (R133). -/
def execRingLowThresholdWrite (s : State) : Host.Outcome State Fault Refusal := actOn s (takeAnchor (isAction .threshold))

/-- DAY_OPEN (R190). -/
def execDayOpen (s : State) : Host.Outcome State Fault Refusal := actOn s (takeAnchor (isDayCommand .openDay))

/-- DAY_CLOSE (R191). -/
def execDayClose (s : State) : Host.Outcome State Fault Refusal := actOn s (takeAnchor (isDayCommand .closeDay))

/-- UNKNOWN_DAY_COMMAND (R189). -/
def execUnknownDayCommand (s : State) : Host.Outcome State Fault Refusal := actOn s (takeAnchor (isDayCommand .unknown))

/-- WINDOW_COMMIT (R165). -/
def execWindowCommit (s : State) : Host.Outcome State Fault Refusal := actOn s (takeAnchor (isWindowWord true))

/-- WINDOW_REMOVAL (R166). -/
def execWindowRemoval (s : State) : Host.Outcome State Fault Refusal := actOn s (takeAnchor (isWindowWord false))

/-- MASTER_COMMIT (R159). -/
def execMasterCommit (s : State) : Host.Outcome State Fault Refusal := actOn s (takeAnchor isMasterWord)

/-- FLAG_CLEAR (R182). -/
def execFlagClear (s : State) : Host.Outcome State Fault Refusal := actOn s (takeAnchor (isAction .flagClear))

/-- CAPTURE_RELEASE (R178). -/
def execCaptureRelease (s : State) : Host.Outcome State Fault Refusal := actOn s (takeAnchor (isAction .captureRelease))

/-- EVENT_MAP_WRITE (R180). -/
def execEventMapWrite (s : State) : Host.Outcome State Fault Refusal := actOn s (takeAnchor (isAction .eventMap))

/-- REPORT_CORRECTED_SWITCH_WRITE (R183). -/
def execReportCorrectedSwitchWrite (s : State) : Host.Outcome State Fault Refusal :=
  actOn s (takeAnchor (isAction .correctedSwitch))

/-- An allowed Anchor write that sets off no command. -/
def isPlainAnchor (p : Part) (w : PostedWrite) : Bool := w.into .anchor && (anchorActions (anchorBytes p w)).isEmpty

/-- ANCHOR_WRITE (R157): shadowed and forwarded. -/
def execAnchorWrite (s : State) : Host.Outcome State Fault Refusal := actOn s (takeWrite isPlainAnchor takeAnchorWrite)

end Sys2Proof.Machine
end

