-- ==== Sys2Proof/Machine/Events.lean ====
section
/-! DEFINITION. The events that reach the Lane Units from outside the Floor Bus: stop-input changes, hall ticks and timer expiries
(R45, R49, R51, R53, R70, R71, R185). -/

namespace Sys2Proof.Machine

/-- STOP_INPUT_CHANGE (R70, R71). -/
def execStopInputChange (lane : Lane) (level : Bool) (s : State) : Host.Outcome State Fault Refusal :=
  actOn s fun p => settle p (changeStop p lane level)

/-- HALL_TICK (R185). -/
def execHallTick (s : State) : Host.Outcome State Fault Refusal := actOn s takeTick

/-- PRE_ROLL_EXPIRY (R49). -/
def execPreRollExpiry (lane : Lane) (s : State) : Host.Outcome State Fault Refusal :=
  actOn s fun p => takeExpiry p lane .preRoll preRollExpiry

/-- RESTART_PAUSE_EXPIRY (R49). -/
def execRestartPauseExpiry (lane : Lane) (s : State) : Host.Outcome State Fault Refusal :=
  actOn s fun p => takeExpiry p lane .restartPause restartPauseExpiry

/-- STEP_TIMER_EXPIRY (R51). -/
def execStepTimerExpiry (lane : Lane) (s : State) : Host.Outcome State Fault Refusal :=
  actOn s fun p => takeExpiry p lane .step stepExpiry

/-- CONTENDER_WINDOW_EXPIRY (R53). -/
def execContenderWindowExpiry (lane : Lane) (s : State) : Host.Outcome State Fault Refusal :=
  actOn s fun p => takeExpiry p lane .contenderWindow contenderExpiry

end Sys2Proof.Machine
end

