-- ==== Sys2Proof/WellFormed.lean ====
section
/-! DEFINITION. Which commands are ones the Floor Bus can carry (R150). Every other operand is well formed by its type. -/

namespace Sys2Proof

/-- R150: a transaction has 1 to 8 beats at an address whose lowest three bits are zero. -/
def transactionForm (address : Address) (beatCount : Nat) : Bool :=
  address.toNat % 8 == 0 && decide (1 ≤ beatCount) && decide (beatCount ≤ 8)

/-- A command is well formed when its transaction, if it presents one, has the form of R150. -/
def Instr.wellFormed : Instr → Bool
  | .floorBusWrite address beats => transactionForm address beats.length
  | .floorBusRead address beatCount => transactionForm address beatCount
  | _ => true

end Sys2Proof
end

