-- ==== Sys2Proof/Machine/FloorPort.lean ====
section
/-! DEFINITION. The Floor Port: the grant arbiter, the acceptance of a write and of a read, and FB_RSTn; with the resets of the
part (R150 to R156, R172, R173, R187). -/

namespace Sys2Proof.Machine

/-! ### The grant arbiter (R151) -/

/-- R151: the masters in counting order upward from one, from 7 on to 0, that one last. -/
def countingUp (last : Master) : List Master := (List.finRange 8).map fun k => last + 1 + k

/-- R151: the next master of a class among those requesting. -/
def nextMaster (p : Part) (requests : BitVec 8) (c : GrantClass) (last : Master) : Option Master :=
  (countingUp last).find? fun m => requests.getLsbD m.val && p.window.masters[m].grantClass == c

/-- R151: a HIGH master granted. -/
def grantHigh (p : Part) (m : Master) (normalWaits : Bool) : Part :=
  p.setFloor { p.floor with grant := some m, lastHigh := m, streak := if normalWaits then p.floor.streak + 1 else 0 }

/-- R151: a NORMAL master granted. -/
def grantNormal (p : Part) (m : Master) : Part := p.setFloor { p.floor with grant := some m, lastNormal := m, streak := 0 }

/-- R151: the arbiter's choice, by the first case that applies; no request, no choice. -/
def chooseGrant (p : Part) (requests : BitVec 8) : Part :=
  match nextMaster p requests .high p.floor.lastHigh, nextMaster p requests .normal p.floor.lastNormal with
  | some h, some n => if p.floor.streak = 4 then grantNormal p n else grantHigh p h true
  | some h, none => grantHigh p h false
  | none, some n => grantNormal p n
  | none, none => p

/-- R151, R152, R172: whether the bus is free for a choice. -/
def busFree (p : Part) : Bool := p.floor.grant.isNone && !p.floor.fbResetLow

/-- GRANT_CHOICE (R151): the arbiter's choice among the request lines raised, when the bus is free. -/
def execGrantChoice (requests : BitVec 8) (s : State) : Host.Outcome State Fault Refusal :=
  actOn s fun p => if busFree p then chooseGrant p requests else p

/-! ### Acceptance (R153, R155) -/

/-- R152: the master that may present a transaction: it holds the grant, no read holds the bus, and FB_RSTn is high. -/
def presenter (p : Part) : Option Master :=
  if p.floor.fbResetLow || p.floor.read.isSome then none else p.floor.grant

/-- R152: a WRITE answered; its grant ends at once. -/
def answerWrite (p : Part) (m : Master) (answer : Answer) : Part :=
  p.setFloor { p.floor with grant := none, response := some { master := m, answer := answer } }

/-- R153, R161: the write as it stands in the buffer. -/
def postedWrite (p : Part) (m : Master) (address : Address) (beats : List WriteBeat) : PostedWrite :=
  { master := m, address := address, beats := beats,
    cls := classify p m .write address beats.length (enabledBytes address.toNat beats) }

/-- R153: a WRITE presented: accepted into the buffer, or answered BACKOFF when the buffer is full. -/
def presentWrite (p : Part) (m : Master) (address : Address) (beats : List WriteBeat) : Part :=
  if p.floor.buffer.length < Config.postedWrites then
    let q := p.setFloor { p.floor with buffer := p.floor.buffer ++ [postedWrite p m address beats] }
    answerWrite q m .accept
  else answerWrite p m .backoff

/-- FLOOR_BUS_WRITE (R153). Operands that are no transaction stop the model (log 3). -/
def execFloorBusWrite (address : Address) (beats : List WriteBeat) (s : State) : Host.Outcome State Fault Refusal :=
  if transactionForm address beats.length then
    actOn s fun p => match presenter p with | some m => presentWrite p m address beats | none => p
  else .fault .notATransaction

/-- R155: a READ presented: classified, and in progress until it is answered. -/
def presentRead (p : Part) (m : Master) (address : Address) (beatCount : Nat) : Part :=
  let read : ReadInProgress :=
    { master := m, address := address, beatCount := beatCount, cls := classify p m .read address beatCount [], forwarded := false }
  p.setFloor { p.floor with read := some read }

/-- FLOOR_BUS_READ (R155). Operands that are no transaction stop the model (log 3). -/
def execFloorBusRead (address : Address) (beatCount : Nat) (s : State) : Host.Outcome State Fault Refusal :=
  if transactionForm address beatCount then
    actOn s fun p => match presenter p with | some m => presentRead p m address beatCount | none => p
  else .fault .notATransaction

/-! ### FB_RSTn (R172) -/

/-- R172: the Store Port's side of a read abandoned: a read not issued is removed from the forward path; an issued one goes on, its
answer to be discarded (log 13). -/
def StorePort.abandonRead (sp : StorePort) : StorePort :=
  match sp.inFlight with
  | some { transaction := .forwardRead r false, retries } =>
    { sp with forwardRead := none, inFlight := some { transaction := .forwardRead r true, retries := retries } }
  | _ => { sp with forwardRead := none }

/-- R172: FB_RSTn driven low. -/
def resetFloorBus (p : Part) : Part :=
  let q := p.setFloor { p.floor with grant := none, read := none, fbResetLow := true, lastHigh := 0, lastNormal := 0, streak := 0 }
  q.setStore q.store.abandonRead

/-- FB_RSTN (R172). -/
def execFbRstn (s : State) : Host.Outcome State Fault Refusal := actOn s resetFloorBus

/-- R172: FB_RSTn high again. -/
def releaseFloorBus (p : Part) : Part := p.setFloor { p.floor with fbResetLow := false }

/-- FB_RSTN_RELEASE (R172): the pin returns high and the arbiter chooses among the requests then raised. -/
def execFbRstnRelease (requests : BitVec 8) (s : State) : Host.Outcome State Fault Refusal :=
  actOn s fun p => if p.floor.fbResetLow then chooseGrant (releaseFloorBus p) requests else p

/-! ### Power-on and RESETn (R187) -/

/-- R187: every block takes its reset state, with the pins sampled at the release (log 29). -/
def resetPart (pins : SampledPins) (p : Part) : Part := Part.afterReset pins p.floor.fbResetLow p.freeDraws

/-- POWER_ON (R187). -/
def execPowerOn (pins : SampledPins) (s : State) : Host.Outcome State Fault Refusal := actOn s (resetPart pins)

/-- RESETN (R187). -/
def execResetn (pins : SampledPins) (s : State) : Host.Outcome State Fault Refusal := actOn s (resetPart pins)

end Sys2Proof.Machine
end

