-- ==== Sys2Proof/Machine/AnchorReads.lean ====
section
/-! DEFINITION. What an Anchor read answers, byte by byte (R158, R73, R42, R148, R135, R184, R96, R189 and the layout of 11.3). -/

namespace Sys2Proof.Machine

/-- A field answered from the shadow (R158). -/
def shadowField (p : Part) (offset size : Nat) : FieldAt := ⟨offset, size, Memory.field p.window.shadow offset size⟩

/-- The day area (R189). The day number is answered from the shadow, as last written, and not from the number kept of the day, where
software has written the field since: the model's choice between R158 and R193 (log 38). -/
def dayLayout (p : Part) : List FieldAt :=
  [shadowField p 0x0000 1, shadowField p 0x0002 2, ⟨0x0004, 1, p.window.dayResult.code⟩, ⟨0x0005, 1, p.window.dayState.code⟩,
   ⟨0x0006, 1, liveLanes p⟩]

/-- The account area (R109, R110, R114). -/
def accountLayout (p : Part) : List FieldAt :=
  let a := p.account
  [shadowField p 0x0100 2, shadowField p 0x0108 8, ⟨0x0110, 1, a.paymentResult.outcome.code⟩,
   ⟨0x0118, 8, a.paymentResult.applied⟩, ⟨0x0120, 8, a.paymentResult.exposureAfter⟩, shadowField p 0x0128 2,
   ⟨0x012A, 1, a.closeResult.outcome.code⟩, ⟨0x012C, 4, a.invoiceCounter.toNat⟩, ⟨0x0130, 1, a.closeResult.lines⟩,
   ⟨0x0134, 2, openInvoiceCount p⟩, ⟨0x0138, 8, a.closeResult.total⟩, ⟨0x0140, 4, a.closeResult.number.toNat⟩]

/-- The code of a waiter: lane + 16 × need (11.3). -/
def Waiter.code (w : Waiter) : Nat := w.lane.val + 16 * w.need

/-- The waiters' bytes, 0 where no lane waits (log 23). -/
def waiterLayout (p : Part) : List FieldAt :=
  [0, 1, 2, 3, 4, 5].map fun k => ⟨0x023C + k, 1, match p.ring.waiters[k]? with | some w => w.code | none => 0⟩

/-- The ring area (R135). -/
def ringLayout (p : Part) : List FieldAt :=
  let r := p.ring
  [shadowField p 0x0200 4, ⟨0x0204, 1, r.consumerResult.code⟩, ⟨0x0206, 2, r.threshold⟩, ⟨0x0208, 1, flagNat r.geometry.isSome⟩,
   ⟨0x0209, 1, r.waiters.length⟩, ⟨0x020A, 2, r.queue.length⟩, ⟨0x020C, 1, flagNat (takingPaused p)⟩,
   ⟨0x0210, 8, match r.geometry with | some g => g.base | none => 0⟩, ⟨0x0218, 4, ringCapacity p⟩,
   ⟨0x021C, 4, r.assigned.toNat⟩, ⟨0x0220, 4, r.published.toNat⟩, ⟨0x0224, 4, r.consumer.toNat⟩,
   ⟨0x0228, 4, occupiedCount p⟩, ⟨0x022C, 4, reservedCount p⟩, ⟨0x0230, 4, freeCount p⟩, ⟨0x0234, 2, closeSlots p⟩,
   ⟨0x0236, 2, roundSlots p⟩, ⟨0x0238, 2, openInvoiceCount p⟩, ⟨0x023A, 2, flagNat r.closingMark⟩] ++ waiterLayout p ++
  [⟨0x0244, 4, r.purchases.toNat⟩, ⟨0x0248, 4, r.payments.toNat⟩]

/-- The code of the Error Capture's kind: the kind's number, or 255 for NONE (11.2). -/
def kindOrNone : Option EventKind → Nat
  | some k => k.num.val
  | none => noneByte

/-- A master or window number, or 255 for none (R195). -/
def numberOrNone {n : Nat} : Option (Fin n) → Nat
  | some k => k.val
  | none => noneByte

/-- The attention area (R184). -/
def attentionLayout (p : Part) : List FieldAt :=
  let a := p.attention
  let c := a.capture
  [⟨0x0300, 1, kindOrNone c.kind⟩, ⟨0x0301, 1, numberOrNone c.master⟩, ⟨0x0302, 1, c.mark.code⟩,
   ⟨0x0303, 1, numberOrNone c.window⟩, ⟨0x0304, 1, c.direction.code⟩, ⟨0x0305, 1, flagNat c.locked⟩, ⟨0x0306, 1, c.lost⟩,
   ⟨0x0308, 8, c.address.toNat⟩, ⟨0x0310, 4, c.tick.toNat⟩, ⟨0x0320, 4, a.flags.toNat⟩, shadowField p 0x0324 4,
   ⟨0x0328, 4, a.clearResult.cleared.toNat⟩, ⟨0x032C, 4, p.ticks.count.toNat⟩, ⟨0x0330, 1, a.clearResult.outcome.code⟩,
   shadowField p 0x0331 1, ⟨0x0334, 4, a.releaseResult.lost⟩, ⟨0x0338, 1, a.releaseResult.outcome.code⟩,
   ⟨0x0339, 1, flagNat a.reportCorrected⟩, ⟨0x033A, 1, flagNat (a.attnLine .attnU)⟩, ⟨0x033B, 1, flagNat (a.attnLine .attnR)⟩] ++
  (List.finRange 18).map (fun k => ⟨0x0340 + k.val, 1, a.map[k].code⟩) ++
  (List.finRange 18).map (fun k => ⟨0x0360 + 4 * k.val, 4, a.counts[k].toNat⟩) ++ [⟨0x03A8, 4, a.corrected.toNat⟩]

/-- A lane's command and parameter words (R46, R66, R158). -/
def laneWords (p : Part) (i : Lane) : List FieldAt :=
  let l := p.lane i
  [⟨0x00, 1, Memory.field p.window.shadow (laneAt i) 1⟩, ⟨0x01, 1, Memory.field p.window.shadow (laneAt i + 1) 1⟩,
   ⟨0x02, 1, l.commandResult.code⟩, ⟨0x03, 1, l.parameterResult.code⟩, ⟨0x04, 1, l.params.stepInterval⟩,
   ⟨0x05, 1, l.params.stopMode.code⟩, ⟨0x06, 2, l.params.defaultStep⟩, ⟨0x08, 4, l.params.defaultBump⟩,
   ⟨0x0C, 1, l.params.contenderWindow⟩, ⟨0x0D, 1, flagNat l.enabled⟩, ⟨0x0E, 2, l.params.preRoll⟩,
   ⟨0x10, 2, l.params.restartPause⟩]

/-- R73: the round reservation as the status shows it, 0 or 5 (log 22). -/
def LaneUnit.roundShown (l : LaneUnit) : Nat := if l.roundReserved = 0 then 0 else Config.roundSlots

/-- A lane's status (R73, R96). That the stop-level byte, as every yes-or-no byte of a status, shows 1 for high or yes and 0 for low or
no is the model's choice (log 35); the return state of a lane that is not HELD is the one of its last hold (log 36). -/
def laneStatus (p : Part) (i : Lane) : List FieldAt :=
  let l := p.lane i
  [⟨0x20, 1, l.state.code⟩, ⟨0x21, 1, l.ret.code⟩, ⟨0x22, 1, l.holds.code⟩, ⟨0x23, 1, l.pendingHolds.code⟩,
   ⟨0x24, 1, flagNat l.pendingWithdraw⟩, ⟨0x25, 1, flagNat l.stopLevel⟩, ⟨0x26, 1, l.timer.code⟩, ⟨0x27, 1, l.contenders.length⟩,
   ⟨0x28, 2, lotOrNone l.live⟩, ⟨0x2A, 2, l.round⟩, ⟨0x2C, 2, l.timer.left⟩, ⟨0x2E, 1, flagNat l.closeReserved⟩,
   ⟨0x2F, 1, l.roundShown⟩, ⟨0x30, 1, flagNat (isWaiter p i)⟩, ⟨0x34, 4, l.price⟩, ⟨0x38, 4, l.nextPrice⟩]

/-- A lane's track status (R42). -/
def trackStatus (p : Part) (i : Lane) : List FieldAt :=
  let t := p.track i
  [⟨0x40, 1, flagNat t.fault.stopped⟩, ⟨0x41, 1, t.fault.station.code⟩, ⟨0x42, 1, t.fault.reason.code⟩,
   ⟨0x43, 1, t.backlog.length⟩, ⟨0x44, 1, lotCount t.late⟩, ⟨0x45, 1, t.late.length⟩, ⟨0x46, 1, t.staging.length⟩,
   ⟨0x48, 4, t.fault.tick.toNat⟩, ⟨0x4C, 4, t.fault.tagSeen.toNat⟩, ⟨0x50, 4, t.fault.tagExpected.toNat⟩,
   ⟨0x54, 4, (headTag t.staging).toNat⟩, ⟨0x58, 4, (headTag t.display.toList).toNat⟩, ⟨0x5C, 4, t.discarded.toNat⟩]

/-- A lane's display status (R148). -/
def displayStatus (p : Part) (i : Lane) : List FieldAt :=
  let d := p.display i
  [⟨0x60, 2, lotOrNone (slotLot d.current)⟩, ⟨0x62, 2, lotOrNone (slotLot d.next1)⟩, ⟨0x64, 2, lotOrNone (slotLot d.next2)⟩,
   ⟨0x68, 4, d.generation.toNat⟩, ⟨0x6C, 4, d.holeCount.toNat⟩, ⟨0x70, 2, d.lastUnits⟩, ⟨0x74, 4, d.lastBuyer⟩]

/-- A lane's area. -/
def laneLayout (p : Part) (i : Lane) : List FieldAt :=
  layoutFrom (laneAt i) (laneWords p i ++ laneStatus p i ++ trackStatus p i ++ displayStatus p i)

/-- A window's descriptor, commit word and installed fields (R158, R166); window 0's bytes read zero. Bits 36 and up of the base read
back as written: the model's choice (log 39). -/
def windowLayout (p : Part) (w : Window) : List FieldAt :=
  if w = 0 then [] else
    let at_ := descriptorAt w
    [shadowField p at_ 8, shadowField p (at_ + 0x08) 4, shadowField p (at_ + 0x0C) 2, shadowField p (at_ + 0x0E) 1,
     shadowField p (at_ + 0x0F) 1, shadowField p (at_ + 0x10) 1, shadowField p (at_ + 0x18) 1,
     ⟨at_ + 0x19, 1, p.window.windowResults[w].result.code⟩, ⟨at_ + 0x1A, 1, p.window.windowResults[w].reason.code⟩,
     ⟨at_ + 0x1B, 1, flagNat p.window.cache[w].valid⟩, ⟨at_ + 0x1C, 4, p.window.cache[w].pages⟩]

/-- A master's descriptor and commit word (R158, R159). -/
def masterLayout (p : Part) (m : Master) : List FieldAt :=
  let at_ := masterAt m
  [shadowField p at_ 1, shadowField p (at_ + 0x01) 1, shadowField p (at_ + 0x02) 1, shadowField p (at_ + 0x03) 1,
   shadowField p (at_ + 0x04) 2, shadowField p (at_ + 0x06) 2, shadowField p (at_ + 0x08) 1,
   ⟨at_ + 0x09, 1, p.window.masterResults[m].result.code⟩, ⟨at_ + 0x0A, 1, p.window.masterResults[m].reason.code⟩]

/-- The offset of a probe word. -/
def probeAt (m : Master) (w : Window) : Nat := 0x1400 + m.val * 0x80 + w.val * 0x08

/-- A probe word (R167). -/
def probeLayout (p : Part) (m : Master) (w : Window) : List FieldAt :=
  [⟨probeAt m w, 1, flagNat p.window.cache[w].valid⟩, ⟨probeAt m w + 1, 1, flagNat (probeAllowed p m w .read)⟩,
   ⟨probeAt m w + 2, 1, flagNat (probeAllowed p m w .write)⟩]

/-- The catalogue status (R7, R13, R14, R16). -/
def catalogueLayout (p : Part) : List FieldAt :=
  let c := p.catalogue
  [⟨0x1800, 2, c.lastRefusal.lot⟩, ⟨0x1802, 1, c.lastRefusal.reason.code⟩, ⟨0x1804, 4, c.lastRefusal.tick.toNat⟩,
   ⟨0x1808, 4, c.placedCount.toNat⟩, ⟨0x180C, 4, c.refusedCount.toNat⟩, ⟨0x1810, 4, c.withdrawRefusals.toNat⟩]

/-- The press counters (R96). -/
def pressLayout (p : Part) : List FieldAt :=
  [⟨0x1900, 4, p.press.taken.toNat⟩, ⟨0x1904, 4, p.press.accepted.toNat⟩, ⟨0x1908, 4, p.press.refused.toNat⟩,
   ⟨0x190C, 4, p.press.duplicates.toNat⟩]

/-- The lane areas, by the lane an offset names. -/
def laneAreaLayout (p : Part) (offset : Nat) : List FieldAt :=
  match toLane ((offset - 0x0800) / 0x100) with
  | some i => laneLayout p i
  | none => []

/-- The fields of the area that an offset lies in (11.3); bytes outside every area read zero. -/
def anchorLayout (p : Part) (offset : Nat) : List FieldAt :=
  if offset < 0x0100 then dayLayout p
  else if offset < 0x0200 then accountLayout p
  else if offset < 0x0300 then ringLayout p
  else if offset < 0x0800 then attentionLayout p
  else if offset < 0x1000 then laneAreaLayout p offset
  else if offset < 0x1200 then windowLayout p (Fin.ofNat 16 ((offset - 0x1000) / 0x20))
  else if offset < 0x1280 then masterLayout p (Fin.ofNat 8 ((offset - 0x1200) / 0x10))
  else if offset < 0x1400 then []
  else if offset < 0x1800 then
    probeLayout p (Fin.ofNat 8 ((offset - 0x1400) / 0x80)) (Fin.ofNat 16 ((offset - 0x1400) % 0x80 / 0x08))
  else if offset < 0x1900 then catalogueLayout p
  else pressLayout p

/-- R158: the byte that an Anchor read shows at an offset. -/
def anchorByte (p : Part) (offset : Nat) : Byte := layoutByte (anchorLayout p offset) offset

end Sys2Proof.Machine
end

