-- ==== Sys2Proof/Machine/Reads.lean ====
section
/-! DEFINITION. The takings of reads: those the part answers, those it forwards, and those it refuses (R4, R78, R95, R100, R138 to
R145, R155, R158, R163, R167). -/

namespace Sys2Proof.Machine

/-- The record index of a read's classification. -/
def ReadInProgress.record (r : ReadInProgress) : Nat := match r.cls.place with | .record k => k | _ => 0

/-! ### Reads the part answers -/

/-- R100: the byte a BUYER read shows; record 0 reads as zero. -/
def buyerByte (p : Part) (address : Nat) (record : Nat) : Byte :=
  if record = 0 then 0 else layoutByte (p.buyer record).layout (address % 64)

/-- R100: a BUYER read answered by the Account Unit. -/
def answerBuyer (r : ReadInProgress) (p : Part) : Part :=
  answerBytes r (fun k => buyerByte p (r.address.toNat + k) r.record) p

/-- BUYER_READ (R100). -/
def execBuyerRead (s : State) : Host.Outcome State Fault Refusal := actOn s (takeRead (·.into .buyer) answerBuyer)

/-- R78: a DESK read answered by the Press Unit, entry by entry. -/
def answerDesk (r : ReadInProgress) (p : Part) : Part :=
  answerBytes r (fun k => layoutByte (p.desk (r.record + k / 8)).layout (k % 8)) p

/-- DESK_READ (R78). -/
def execDeskRead (s : State) : Host.Outcome State Fault Refusal := actOn s (takeRead (·.into .desk) answerDesk)

/-- The first desk of a REPLY read. -/
def ReadInProgress.replyDesk (r : ReadInProgress) : Nat := match r.cls.place with | .reply desk => desk | _ => 0

/-- R95: a REPLY read answered by the Press Unit. A slot is 32 bytes. -/
def answerReply (r : ReadInProgress) (p : Part) : Part :=
  let into := r.address.toNat % 32
  answerBytes r (fun k => layoutByte (p.desk (r.replyDesk + (into + k) / 32)).reply.layout ((into + k) % 32)) p

/-- REPLY_READ (R95). -/
def execReplyRead (s : State) : Host.Outcome State Fault Refusal := actOn s (takeRead (·.into .reply) answerReply)

/-- R157, R158: an Anchor read answered by the Window Unit. -/
def answerAnchor (r : ReadInProgress) (p : Part) : Part :=
  answerBytes r (fun k => anchorByte p (r.address.toNat - anchorBase p.window.anchorSel + k)) p

/-- RIGHTS_PROBE (R167), and every other allowed Anchor read (R157, log 6). -/
def execRightsProbe (s : State) : Host.Outcome State Fault Refusal := actOn s (takeRead (·.into .anchor) answerAnchor)

/-! ### Reads the part forwards -/

/-- R4: a LOT read forwarded, with the owned fields of a known lot captured. -/
def forwardLot (r : ReadInProgress) (p : Part) : Part :=
  forwardReadAt r r.address ((p.digest r.record).map fun d => d.owned) p

/-- LOT_READ (R4). -/
def execLotRead (s : State) : Host.Outcome State Fault Refusal := actOn s (takeRead (·.into .lot) forwardLot)

/-- R155: a read of a RING or GUARD window, or of no window. -/
def isForwardedRead (r : ReadInProgress) : Bool :=
  r.cls.check == .pass && (r.cls.kind.isNone || r.cls.kind == some .guard || r.cls.kind == some .ring)

/-- R155: forwarded plain. -/
def forwardPlain (r : ReadInProgress) (p : Part) : Part := forwardReadAt r r.address none p

/-- FORWARDED_READ (R155). -/
def execForwardedRead (s : State) : Host.Outcome State Fault Refusal := actOn s (takeRead isForwardedRead forwardPlain)

/-! ### DISPLAY reads (R137 to R145) -/

/-- R143: a blank: zeros, and the hole count one higher. -/
def answerBlank (r : ReadInProgress) (i : Lane) (p : Part) : Part :=
  answerBytes r (fun _ => 0) (p.setDisplay i { p.display i with holeCount := (p.display i).holeCount + 1 })

/-- R139: a map slot by its number; slot 3 names none. -/
def DisplayLane.slot (d : DisplayLane) (n : Nat) : Option MapSlot :=
  match n with
  | 0 => d.current
  | 1 => d.next1
  | 2 => d.next2
  | _ => none

/-- R145: the live block answered. -/
def answerLive (r : ReadInProgress) (i : Lane) (lot inPage : Nat) (p : Part) : Part :=
  answerBytes r (fun k => layoutByte (liveBlockLayout p i lot) (inPage + k)) p

/-- R144: a read translated to its page and forwarded, or a blank when the page is absent. -/
def translate (r : ReadInProgress) (i : Lane) (m : MapSlot) (page inPage : Nat) (p : Part) : Part :=
  let address := m.pages.toList.getD page 0
  if address = 0 then answerBlank r i p else forwardReadAt r (BitVec.ofNat 36 (address.toNat + inPage)) none p

/-- R143 to R145: a DISPLAY read answered from the lane's map. -/
def answerDisplay (r : ReadInProgress) (p : Part) : Part :=
  match r.cls.place with
  | .display lane slot page inPage =>
    match toLane lane with
    | some i =>
      match (p.display i).slot slot with
      | none => answerBlank r i p
      | some m =>
        if slot = 0 ∧ page = 0 ∧ inPage < 64 then answerLive r i m.lot inPage p else translate r i m page inPage p
    | none => p
  | _ => p

/-- DISPLAY_READ (R138). -/
def execDisplayRead (s : State) : Host.Outcome State Fault Refusal := actOn s (takeRead (·.into .display) answerDisplay)

/-! ### Reads that failed a check (R163) -/

/-- The error report of a read (R163, R176). -/
def readError (r : ReadInProgress) (kind : EventKind) : ErrorReport :=
  { kind := kind, master := some r.master, mark := .none, window := r.cls.window, address := r.address, direction := .read }

/-- R163: answered FAULT, and its error captured. -/
def answerFault (r : ReadInProgress) (p : Part) : Part := answerRead r .fault (p.report (readError r r.cls.check.kind))

/-- READ_ANSWERED_FAULT (R163). -/
def execReadAnsweredFault (s : State) : Host.Outcome State Fault Refusal :=
  actOn s (takeRead (fun r => r.cls.check != .pass) answerFault)

end Sys2Proof.Machine
end

