-- ==== Sys2Proof/Machine/Catalogue.lean ====
section
/-! DEFINITION. The Catalogue Unit: listing requests, fetch completion, validation, refusal, placement and withdrawal
(R7 to R16). -/

namespace Sys2Proof.Machine

/-! ### Refusal (R13) -/

/-- R7, R13: the last-refusal record, the counter and the event of a refused listing. -/
def noteRefusal (p : Part) (lot : Nat) (reason : RefusalReason) : Part :=
  (p.setCatalogue { p.catalogue with
    lastRefusal := { lot := lot, reason := reason, tick := p.tick }, refusedCount := p.catalogue.refusedCount + 1 }).raise
    .listingRefused

/-- R13: a listing refused for a reason other than ALREADY-KNOWN. -/
def refuseListing (p : Part) (lot : Nat) (reason : RefusalReason) : Part :=
  let q := p.updateOwned lot fun _ => { Owned.atListing with state := .refused, reason := reason }
  let q := noteRefusal (requestWriteBack q lot false) lot reason
  endReason q lot

/-! ### LIST and WITHDRAW requests (R7, R16) -/

/-- R3: the digest a lot gets when its LIST request is taken. -/
def Digest.atListing (address : Address) : Digest := { owned := .atListing, host := none, address := address, ended := false }

/-- R7: whether a LIST request of a lot would join the Listing Queue. -/
def listJoins (p : Part) (lot : Nat) : Bool := !p.known lot && decide (p.catalogue.listing.length < Config.listingEntries)

/-- R7: a LIST request taken. -/
def takeList (p : Part) (lot : Nat) (address : Address) : Part :=
  if p.known lot then noteRefusal p lot .alreadyKnown
  else
    let q := p.setDigest lot (.atListing address)
    if p.catalogue.listing.length < Config.listingEntries then
      q.setCatalogue { q.catalogue with listing := q.catalogue.listing ++ [⟨lot, false⟩] }
    else refuseListing q lot .busy

/-- R16: the withdraw-pending mark of a lot's Listing Queue entry set. -/
def markWithdraw (p : Part) (lot : Nat) : Part :=
  p.setCatalogue { p.catalogue with
    listing := p.catalogue.listing.map fun e => if e.lot = lot then { e with withdrawPending := true } else e }

/-- The Display Mapper told of a lot's change, in the lot's lane. -/
def notifyLot (p : Part) (lot : Nat) : Part := match laneOfLot p lot with | some i => p.notify i | none => p

/-- R16: a WITHDRAW request taken. -/
def takeWithdraw (p : Part) (lot : Nat) : Part :=
  match p.lotState lot with
  | none => p
  | some .listing => markWithdraw p lot
  | some .expected => notifyLot (makePassenger p lot) lot
  | some .late => notifyLot (makePassenger p lot) lot
  | some .staged => notifyLot (makePassenger p lot) lot
  | some .atClock => notifyLot (makePassenger p lot) lot
  | some .live => p.setCatalogue { p.catalogue with withdrawRefusals := p.catalogue.withdrawRefusals + 1 }
  | some .closed => p
  | some .withdrawn => p
  | some .refused => p
  | some .empty => p

/-! ### Validation (R10 to R12) -/

/-- R11: a page address is absent or a multiple of 4,096 below 2^36. -/
def pageValid (page : BitVec 64) : Bool := page.toNat % 4096 == 0 && decide (page.toNat < 2 ^ 36)

/-- R11: whether a host field lies outside its range. -/
def HostFields.bad (h : HostFields) : Bool :=
  decide (5 < h.lane) || h.sequence == 0 || h.tag == 0 || h.position == 0 || decide (4 < h.position) ||
  h.units == 0 || decide (999 < h.units) || h.pieces == 0 || decide (1000 < h.pieces) ||
  h.floorPrice == 0 || decide (999999 < h.startPrice) || decide (h.startPrice < h.floorPrice) ||
  decide (9999 < h.step) || h.minimum == 0 || decide (h.units < h.minimum) || decide (99999 < h.bump) ||
  !(h.pages.toList.all pageValid)

/-- The trolleys of a lane's Late List, Staging List and Display Position. -/
def trackTrolleys (p : Part) (i : Lane) : List Trolley :=
  (p.track i).late ++ (p.track i).staging ++ (p.track i).display.toList

/-- R12, TROLLEY-MOVED. -/
def trolleyMoved (p : Part) (i : Lane) (tag : Word32) : Bool :=
  allLanes.any fun j =>
    ((trackTrolleys p j).any fun y => y.tag == tag) ||
      (decide (j ≠ i) && (p.expected j).any fun lot => p.tagOf lot == tag)

/-- R12, DUPLICATE-SEQUENCE. -/
def duplicateSequence (p : Part) (i : Lane) (sequence : Nat) : Bool :=
  (p.expected i ++ (trackTrolleys p i).flatMap fun y => y.lots).any fun lot => p.sequenceOf lot == sequence

/-- R12, POSITION-TAKEN. -/
def positionTaken (p : Part) (i : Lane) (tag : Word32) (position : Nat) : Bool :=
  (p.expected i).any fun lot => p.tagOf lot == tag && p.positionOf lot == position

/-- R12, TROLLEY-SPLIT, for a tag that the queue holds: a lot of another tag stands between the lowest and highest sequences. -/
def splitsOwn (p : Part) (queue group : List Nat) (tag : Word32) (sequence : Nat) : Bool :=
  let low := group.foldl (fun m lot => min m (p.sequenceOf lot)) sequence
  let high := group.foldl (fun m lot => max m (p.sequenceOf lot)) sequence
  queue.any fun lot => p.tagOf lot != tag && decide (low < p.sequenceOf lot) && decide (p.sequenceOf lot < high)

/-- R12, TROLLEY-SPLIT, for a tag that the queue does not hold: the sequence stands between two lots that share a tag. -/
def splitsOther (p : Part) (queue : List Nat) (sequence : Nat) : Bool :=
  queue.any fun a => queue.any fun b =>
    p.tagOf a == p.tagOf b && decide (p.sequenceOf a < sequence) && decide (sequence < p.sequenceOf b)

/-- R12, TROLLEY-SPLIT. -/
def trolleySplit (p : Part) (i : Lane) (tag : Word32) (sequence : Nat) : Bool :=
  let group := (p.expected i).filter fun lot => p.tagOf lot == tag
  if group.isEmpty then splitsOther p (p.expected i) sequence else splitsOwn p (p.expected i) group tag sequence

/-- R10, conditions 3 to 8, for a lot of lane `i`. -/
def laneRefusal (p : Part) (i : Lane) (h : HostFields) : RefusalReason :=
  if (p.lane i).enabled = false then .laneDisabled
  else if trolleyMoved p i h.tag then .trolleyMoved
  else if duplicateSequence p i h.sequence then .duplicateSequence
  else if positionTaken p i h.tag h.position then .positionTaken
  else if trolleySplit p i h.tag h.sequence then .trolleySplit
  else if Config.expectedLots ≤ (p.expected i).length then .queueFull
  else .none

/-- R14: a lot inserted in rising order of catalogue sequence. -/
def insertBySequence (p : Part) (lot sequence : Nat) : List Nat → List Nat
  | [] => [lot]
  | a :: rest => if p.sequenceOf a < sequence then a :: insertBySequence p lot sequence rest else lot :: a :: rest

/-- R14: the owned fields of a placed lot. -/
def Owned.placed (h : HostFields) : Owned := { Owned.atListing with state := .expected, remaining := h.units }

/-- R14: a lot placed in its lane's Expected Queue. -/
def placeLot (p : Part) (i : Lane) (lot : Nat) (h : HostFields) : Part :=
  let q := p.updateDigest lot fun d => { d with host := some h, owned := .placed h }
  let q := q.setExpected i (insertBySequence p lot h.sequence (p.expected i))
  let q := requestWriteBack q lot false
  (q.setCatalogue { q.catalogue with placedCount := q.catalogue.placedCount + 1 }).notify i

/-- R10: a fetched lot validated, and placed or refused with the first reason that fails. -/
def validate (p : Part) (lot : Nat) (h : HostFields) : Part :=
  if p.window.dayState ≠ .opened then refuseListing p lot .dayNotOpen
  else if h.bad then refuseListing p lot .badField
  else
    match toLane h.lane with
    | none => refuseListing p lot .badField
    | some i => if laneRefusal p i h = .none then placeLot p i lot h else refuseListing p lot (laneRefusal p i h)

/-! ### Fetch completion (R8, R9) -/

/-- R9: a listing whose withdraw-pending mark is set ends WITHDRAWN. -/
def withdrawListing (p : Part) (lot : Nat) : Part :=
  let q := p.updateOwned lot fun o => { o with state := .withdrawn, closeTick := p.tick }
  endReason (requestWriteBack q lot false) lot

/-- R8, R9: the fetch of the Listing Queue's head complete, with the record's beats, or with none for DATA-ERROR. -/
def completeFetch (p : Part) (record : Option (List Beat)) : Part :=
  match p.catalogue.listing with
  | [] => p
  | e :: rest =>
    let q := p.setCatalogue { p.catalogue with listing := rest, fetchLower := none }
    if e.withdrawPending then withdrawListing q e.lot
    else
      match record with
      | none => refuseListing q e.lot .dataError
      | some beats => validate q e.lot (hostOfBeats beats)

end Sys2Proof.Machine
end

