-- ==== Sys2Proof/Machine/StorePort.lean ====
section
/-! DEFINITION. The Store Port: the grant of a requester, RETRY and its exhaustion, and the end of each kind of transaction
(R8, R18, R128, R168 to R171, R177, R183). -/

namespace Sys2Proof.Machine

/-! ### What each requester presents (R168) -/

/-- R168: the forward path presents its write before its read. -/
def forwardReady (p : Part) : Option Transaction :=
  match p.store.forwardWrite, p.store.forwardRead with
  | some w, _ => some (.forwardWrite w)
  | none, some r => some (.forwardRead r false)
  | none, none => none

/-- The 64-byte line of an address. -/
def lineOf (address : Address) : Nat := address.toNat / 64

/-- R8: whether the write that carried the lot's LIST request still stands on the line to fetch (log 12). -/
def fetchBlocked (p : Part) (lot : Nat) (address : Address) : Bool :=
  match p.store.forwardWrite with
  | some w => w.listedLot == some lot && lineOf w.address == lineOf address
  | none => false

/-- R8: the next fetch read of the Listing Queue's head: the lower line, then the upper. -/
def fetchReady (p : Part) : Option Transaction :=
  match p.catalogue.listing with
  | [] => none
  | e :: _ =>
    match p.digest e.lot with
    | none => none
    | some d =>
      let address := if p.catalogue.fetchLower.isSome then d.address + 64 else d.address
      if fetchBlocked p e.lot address then none else some (.fetch e.lot address)

/-- R18: a write-back as it is issued, with the digest's owned fields as they stand. -/
def writeBackOf (p : Part) (e : WriteBackEntry) : Option Transaction :=
  (p.digest e.lot).map fun d => .writeBack e (d.address + BitVec.ofNat 36 ownedStart) d.owned.beats

/-- R18: the write-back at the head of the queue. -/
def writeBackReady (p : Part) : Option Transaction :=
  match p.catalogue.writeBacks with
  | [] => none
  | e :: _ => writeBackOf p e

/-- R168, R170: the Catalogue requester presents a write-back to be issued afresh before anything else (log 11), else the kind other
than its last grant's when both are ready. -/
def catalogueReady (p : Part) : Option Transaction :=
  match p.catalogue.writeBackOut with
  | some e => writeBackOf p e
  | none =>
    match fetchReady p, writeBackReady p with
    | some f, some b => some (match p.store.turn with | .fetchRead => b | .writeBack => f)
    | some f, none => some f
    | none, b => b

/-- R128: the Ring writer presents the head of the Record Queue, at its slot. -/
def ringReady (p : Part) : Option Transaction :=
  match p.ring.queue, p.ring.geometry with
  | r :: _, some g => some (.ringRecord r (slotAddress g r.index) r.beats)
  | _, _ => none

/-- What a requester presents. -/
def ready (p : Part) : Requester → Option Transaction
  | .forward => forwardReady p
  | .catalogue => catalogueReady p
  | .ringWriter => ringReady p

/-! ### The grant (R168) -/

/-- R168: the round order, starting after a requester. -/
def roundAfter : Requester → List Requester
  | .forward => [.catalogue, .ringWriter, .forward]
  | .catalogue => [.ringWriter, .forward, .catalogue]
  | .ringWriter => [.forward, .catalogue, .ringWriter]

/-- R168: the requester granted and its transaction. -/
def chosen (p : Part) : Option (Requester × Transaction) :=
  (roundAfter p.store.lastGranted).findSome? fun r => (ready p r).map fun t => (r, t)

/-- R168: the Catalogue turn after a grant. -/
def turnAfter (turn : CatalogueTurn) : Transaction → CatalogueTurn
  | .fetch _ _ => .fetchRead
  | .writeBack _ _ _ => .writeBack
  | .forwardWrite _ => turn
  | .forwardRead _ _ => turn
  | .ringRecord _ _ _ => turn

/-- R18: a write-back leaves the queue when it is issued, unless it is one issued afresh. -/
def CatalogueUnit.issue (c : CatalogueUnit) : Transaction → CatalogueUnit
  | .writeBack e _ _ =>
    { c with writeBackOut := some e, writeBacks := if c.writeBackOut.isSome then c.writeBacks else c.writeBacks.tail }
  | .fetch _ _ => c
  | .forwardWrite _ => c
  | .forwardRead _ _ => c
  | .ringRecord _ _ _ => c

/-- R168: a transaction issued, its RETRY count 0. -/
def issue (p : Part) (r : Requester) (t : Transaction) : Part :=
  let q := p.setCatalogue (p.catalogue.issue t)
  q.setStore { q.store with lastGranted := r, inFlight := some { transaction := t, retries := 0 },
                            turn := turnAfter q.store.turn t }

/-- R168: the arbiter's grant, when no transaction is in flight and a requester has one ready. -/
def grantStorePort (p : Part) : Part :=
  if p.store.inFlight.isSome then p
  else match chosen p with | some (r, t) => issue p r t | none => p

/-! ### Reports of Store Port answers (R177, R183) -/

/-- R177: the origin of a transaction, reported with an error kind. -/
def Transaction.error (t : Transaction) (kind : EventKind) : ErrorReport :=
  match t with
  | .forwardWrite w =>
    { kind := kind, master := some w.master, mark := .none, window := w.window, address := w.address, direction := .write }
  | .forwardRead r _ =>
    { kind := kind, master := some r.master, mark := .none, window := r.window, address := r.address, direction := .read }
  | .fetch _ address =>
    { kind := kind, master := none, mark := .fetch, window := none, address := address, direction := .read }
  | .writeBack _ address _ =>
    { kind := kind, master := none, mark := .writeBack, window := none, address := address, direction := .write }
  | .ringRecord _ address _ =>
    { kind := kind, master := none, mark := .ringRecord, window := none, address := address, direction := .write }

/-- R183: an OK-CORRECTED answer counted, and reported when the switch is ON. -/
def noteCorrected (p : Part) (t : Transaction) : Part :=
  let q := p.setAttention { p.attention with corrected := p.attention.corrected + 1 }
  if p.attention.reportCorrected then q.report (t.error .dramCorrected) else q

/-- R169, R170: what an answer that ends a transaction reports. -/
def noteAnswer (p : Part) (t : Transaction) : FinalAnswer → Part
  | .ok => p
  | .okCorrected => noteCorrected p t
  | .uncorrectable => p.report (t.error .dramUncorrectable)

/-- R169: the port free again. -/
def freePort (p : Part) : Part := p.setStore { p.store with inFlight := none }

/-! ### Forwarded reads (R169, R4, R172) -/

/-- R4, R169: the data of a forwarded read answered OK or OK-CORRECTED, with owned bytes merged for a LOT read. -/
def ForwardedRead.data (r : ForwardedRead) (data : Vector Beat 8) : List Beat :=
  match r.merge with
  | some o => mergeOwned o (r.address.toNat % lotRecordSize) (firstBeats data r.beatCount)
  | none => firstBeats data r.beatCount

/-- R152, R169: the Floor Bus read answered and its grant ended. -/
def answerFloor (p : Part) (master : Master) (answer : Answer) : Part :=
  p.setFloor { p.floor with grant := none, read := none, response := some { master := master, answer := answer } }

/-- R169: a forwarded read's end frees the read place and answers the master; an abandoned read's answer is discarded (R172). -/
def endForwardedRead (p : Part) (r : ForwardedRead) (abandoned : Bool) (answer : Answer) : Part :=
  if abandoned then p else answerFloor (p.setStore { p.store with forwardRead := none }) r.master answer

/-- R169: the answer a final answer gives the master. -/
def ForwardedRead.answer (r : ForwardedRead) (data : Vector Beat 8) : FinalAnswer → Answer
  | .ok => .done (r.data data)
  | .okCorrected => .done (r.data data)
  | .uncorrectable => .fault

/-- R169: the final answer to a forwarded read. -/
def completeForwardedRead (p : Part) (answer : FinalAnswer) (data : Vector Beat 8) : Part :=
  match p.store.inFlight with
  | some { transaction := .forwardRead r abandoned, .. } =>
    endForwardedRead (noteAnswer (freePort p) (.forwardRead r abandoned) answer) r abandoned (r.answer data answer)
  | _ => p

/-! ### Forwarded writes (R170) -/

/-- R170: a forwarded write ends and frees the write place. -/
def freeWritePlace (p : Part) : Part := p.setStore { p.store with forwardWrite := none }

/-- R170: the final answer to a forwarded write. -/
def completeForwardedWrite (p : Part) (answer : FinalAnswer) : Part :=
  match p.store.inFlight with
  | some { transaction := .forwardWrite w, .. } => freeWritePlace (noteAnswer (freePort p) (.forwardWrite w) answer)
  | _ => p

/-! ### Fetch reads (R8) -/

/-- R8: a line kept: the lower line is stored, and the upper line completes the fetch. -/
def keepLine (p : Part) (data : Vector Beat 8) : Part :=
  match p.catalogue.fetchLower with
  | none => p.setCatalogue { p.catalogue with fetchLower := some data }
  | some lower => completeFetch p (some (lower.toList ++ data.toList))

/-- R8: a good answer keeps the line; UNCORRECTABLE ends the fetch with DATA-ERROR. -/
def endFetchRead (p : Part) (data : Vector Beat 8) : FinalAnswer → Part
  | .ok => keepLine p data
  | .okCorrected => keepLine p data
  | .uncorrectable => completeFetch p none

/-- R8, R169: the final answer to a listing fetch read. -/
def completeFetchRead (p : Part) (answer : FinalAnswer) (data : Vector Beat 8) : Part :=
  match p.store.inFlight with
  | some { transaction := .fetch lot address, .. } =>
    settle p (endFetchRead (noteAnswer (freePort p) (.fetch lot address) answer) data answer)
  | _ => p

/-! ### Write-backs (R18) and ring records (R128) -/

/-- An OK answer, or an OK-CORRECTED one. -/
def goodAnswer (corrected : Bool) : FinalAnswer := if corrected then .okCorrected else .ok

/-- R18, R170: a write-back answered OK or OK-CORRECTED. -/
def finishWriteBack (p : Part) (corrected : Bool) : Part :=
  match p.store.inFlight with
  | some { transaction := .writeBack e address data, .. } =>
    settle p (completeWriteBack (noteAnswer (freePort p) (.writeBack e address data) (goodAnswer corrected)) e)
  | _ => p

/-- R128: a record leaves the queue and is published; a LOT-CLOSE completes its lot's close. -/
def publishRecord (p : Part) (r : RingRecord) : Part :=
  let q := p.setRing { p.ring with queue := p.ring.queue.tail, published := p.ring.published + 1 }
  match r.body with
  | .lotClose f => completeClose q f.lane f.lot
  | .purchase _ => q
  | .invoiceClose _ _ _ _ _ => q
  | .payment _ _ _ _ => q
  | .dayMark _ _ _ _ => q

/-- R128, R170: a ring record write answered OK or OK-CORRECTED. -/
def finishRingRecord (p : Part) (corrected : Bool) : Part :=
  match p.store.inFlight with
  | some { transaction := .ringRecord r address data, .. } =>
    settle p (publishRecord (noteAnswer (freePort p) (.ringRecord r address data) (goodAnswer corrected)) r)
  | _ => p

/-- R170: an UNCORRECTABLE answer to a part-made write: captured, and the write gives the port back to be issued afresh. -/
def partMadeUncorrectable (p : Part) : Part :=
  match p.store.inFlight with
  | some { transaction := .writeBack e address data, .. } =>
    (freePort p).report ((Transaction.writeBack e address data).error .dramUncorrectable)
  | some { transaction := .ringRecord r address data, .. } =>
    (freePort p).report ((Transaction.ringRecord r address data).error .dramUncorrectable)
  | _ => p

/-! ### RETRY (R169, R170) -/

/-- R169, R170: what the exhaustion of a transaction's retries does besides its capture. -/
def endExhausted (p : Part) : Transaction → Part
  | .forwardWrite _ => freeWritePlace p
  | .forwardRead r abandoned => endForwardedRead p r abandoned .fault
  | .fetch _ _ => settle p (completeFetch p none)
  | .writeBack _ _ _ => p
  | .ringRecord _ _ _ => p

/-- R169: a transaction's retries exhausted. -/
def exhaust (p : Part) (t : Transaction) : Part := endExhausted ((freePort p).report (t.error .retryExhausted)) t

/-- R169: a RETRY answer: the same transaction is issued again, its count one higher; the 64th exhausts it (log 14). -/
def takeRetry (p : Part) : Part :=
  match p.store.inFlight with
  | some f =>
    if f.retries + 1 < Config.retryLimit then
      p.setStore { p.store with inFlight := some { f with retries := f.retries + 1 } }
    else exhaust p f.transaction
  | none => p

/-- R169: the 64th consecutive RETRY. -/
def takeExhaustion (p : Part) : Part :=
  match p.store.inFlight with
  | some f => if f.retries + 1 < Config.retryLimit then p else exhaust p f.transaction
  | none => p

/-! ### The commands -/

/-- STORE_PORT_GRANT (R168). -/
def execStorePortGrant (s : State) : Host.Outcome State Fault Refusal := actOn s grantStorePort

/-- STORE_PORT_RETRY (R169). -/
def execStorePortRetry (s : State) : Host.Outcome State Fault Refusal := actOn s takeRetry

/-- RETRY_EXHAUSTED (R169). -/
def execRetryExhausted (s : State) : Host.Outcome State Fault Refusal := actOn s takeExhaustion

/-- FORWARDED_READ_COMPLETION (R169). -/
def execForwardedReadCompletion (answer : FinalAnswer) (data : Vector Beat 8) (s : State) : Host.Outcome State Fault Refusal :=
  actOn s fun p => completeForwardedRead p answer data

/-- FORWARDED_WRITE_COMPLETION (R170). -/
def execForwardedWriteCompletion (answer : FinalAnswer) (s : State) : Host.Outcome State Fault Refusal :=
  actOn s fun p => completeForwardedWrite p answer

/-- FETCH_READ_COMPLETION (R8). -/
def execFetchReadCompletion (answer : FinalAnswer) (data : Vector Beat 8) (s : State) : Host.Outcome State Fault Refusal :=
  actOn s fun p => completeFetchRead p answer data

/-- WRITE_BACK_COMPLETION (R18). -/
def execWriteBackCompletion (corrected : Bool) (s : State) : Host.Outcome State Fault Refusal :=
  actOn s fun p => finishWriteBack p corrected

/-- RING_RECORD_COMPLETION (R128). -/
def execRingRecordCompletion (corrected : Bool) (s : State) : Host.Outcome State Fault Refusal :=
  actOn s fun p => finishRingRecord p corrected

/-- PART_MADE_WRITE_UNCORRECTABLE (R170). -/
def execPartMadeWriteUncorrectable (s : State) : Host.Outcome State Fault Refusal := actOn s partMadeUncorrectable

end Sys2Proof.Machine
end

