-- ==== Sys2Proof/Machine/Writes.lean ====
section
/-! DEFINITION. The takings of writes outside the Anchor: forwarded writes, LOT, PRESS, TRACK, DESK and BUYER writes, and the writes
that failed a check (R5, R6, R24, R76, R77, R98, R99, R154, R163). -/

namespace Sys2Proof.Machine

/-! ### Forwarded and refused writes -/

/-- R154: a write that matches no window, or a GUARD write, that passed its checks. -/
def isForwarded (_ : Part) (w : PostedWrite) : Bool :=
  w.cls.check == .pass && (w.cls.kind.isNone || w.cls.kind == some .guard)

/-- R154: placed in the forward path as a forwarded write. -/
def takeForwarded (w : PostedWrite) (p : Part) : Part := forward w none p

/-- FORWARDED_WRITE (R154). -/
def execForwardedWrite (s : State) : Host.Outcome State Fault Refusal := actOn s (takeWrite isForwarded takeForwarded)

/-- R163: a write whose check failed. -/
def isRefused (_ : Part) (w : PostedWrite) : Bool := w.cls.check != .pass

/-- R163: dropped, and its error captured. -/
def takeRefused (w : PostedWrite) (p : Part) : Part := p.report (writeError w w.cls.check.kind)

/-- REFUSED_WINDOW_WRITE (R163). -/
def execRefusedWindowWrite (s : State) : Host.Outcome State Fault Refusal := actOn s (takeWrite isRefused takeRefused)

/-! ### LOT writes (R5, R6) -/

/-- R6: what a LOT write asks. -/
inductive LotRequest where
  | none | list | withdraw
  deriving DecidableEq, Repr

/-- R6: the request a LOT write carries, if its masks cover the request byte. -/
def lotRequest (w : PostedWrite) : LotRequest :=
  let bytes := w.inBlock lotRecordSize
  if covers bytes requestOffset 1 then
    match (writtenOr bytes requestOffset 0).toNat with
    | 1 => .list
    | 2 => .withdraw
    | _ => .none
  else .none

/-- The record index of a write's classification. -/
def PostedWrite.record (w : PostedWrite) : Nat := match w.cls.place with | .record k => k | _ => 0

/-- R5: whether a LOT write covers owned bytes of a lot that is known. -/
def lotOwned (p : Part) (w : PostedWrite) : Bool :=
  p.known w.record && covers (w.inBlock lotRecordSize) ownedStart ownedSize

/-- R6: a LOT write that is forwarded, with its request acted on. -/
def takeLotRequest (w : PostedWrite) (p : Part) : Part :=
  match lotRequest w with
  | .none => forward w none p
  | .list => takeList (forward w (if listJoins p w.record then some w.record else none) p) w.record
      (BitVec.ofNat 36 (w.blockBase lotRecordSize))
  | .withdraw => takeWithdraw (forward w none p) w.record

/-- R5: a LOT write refused OWNED, or forwarded with its request acted on. -/
def takeLot (w : PostedWrite) (p : Part) : Part :=
  if lotOwned p w then p.report (writeError w .owned) else takeLotRequest w p

/-- A LOT write that carries a given request. -/
def isLot (r : LotRequest) (_ : Part) (w : PostedWrite) : Bool := w.into .lot && lotRequest w == r

/-- LOT_WRITE (R5). -/
def execLotWrite (s : State) : Host.Outcome State Fault Refusal := actOn s (takeWrite (isLot .none) takeLot)

/-- LIST_REQUEST (R7). -/
def execListRequest (s : State) : Host.Outcome State Fault Refusal := actOn s (takeWrite (isLot .list) takeLot)

/-- WITHDRAW_REQUEST (R16). -/
def execWithdrawRequest (s : State) : Host.Outcome State Fault Refusal := actOn s (takeWrite (isLot .withdraw) takeLot)

/-! ### PRESS writes (R75, R76) -/

/-- R75: the press that a write carries. -/
def pressOf (w : PostedWrite) : Option PressIn :=
  match w.cls.place with
  | .press lane desk =>
    match toLane lane with
    | some i =>
      let value := BitVec.ofNat 32 (enabledValue w.bytes)
      some { lane := i, desk := desk, sequence := value.extractLsb' 0 8, units := (value.extractLsb' 16 16).toNat }
    | none => none
  | _ => none

/-- A press. -/
def isPress (_ : Part) (w : PostedWrite) : Bool := w.into .press && (pressOf w).isSome

/-- R76: a press consumed by the Press Unit. -/
def takePressWrite (w : PostedWrite) (p : Part) : Part := match pressOf w with | some c => takePress p c | none => p

/-- PRESS (R76). -/
def execPress (s : State) : Host.Outcome State Fault Refusal := actOn s (takeWrite isPress takePressWrite)

/-! ### TRACK writes (R24) -/

/-- R24: the pass that a write reports, with its lane. -/
def passOf (w : PostedWrite) : Option (Lane × Pass) :=
  match w.cls.place with
  | .track lane station =>
    match toLane lane, Station.ofCode station with
    | some i, some st => some (i, { station := st, tag := BitVec.ofNat 32 (enabledValue w.bytes) })
    | _, _ => none
  | _ => none

/-- A pass at a station. -/
def isPass (st : Station) (_ : Part) (w : PostedWrite) : Bool :=
  w.into .track && match passOf w with | some (_, pass) => pass.station == st | none => false

/-- R24: a pass report consumed by the Track Unit. -/
def takePassWrite (w : PostedWrite) (p : Part) : Part := match passOf w with | some (i, pass) => takePass p i pass | none => p

/-- GATE_PASS (R25 to R27). -/
def execGatePass (s : State) : Host.Outcome State Fault Refusal := actOn s (takeWrite (isPass .gate) takePassWrite)

/-- DISPLAY_PASS (R29). -/
def execDisplayPass (s : State) : Host.Outcome State Fault Refusal := actOn s (takeWrite (isPass .display) takePassWrite)

/-- EXIT_PASS (R31). -/
def execExitPass (s : State) : Host.Outcome State Fault Refusal := actOn s (takeWrite (isPass .exit) takePassWrite)

/-! ### DESK writes (R77) -/

/-- R77: the buyer index that a value taken gives a desk. -/
def deskBuyer (value : Nat) : Nat := if value ≤ 2047 then value else 0

/-- R77: the entry `k` beats into a DESK write, taken if the write covers its buyer index field (log 24). -/
def takeDeskEntry (w : PostedWrite) (p : Part) (k : Nat) : Part :=
  let bytes := offsetsFrom w.address.toNat w.bytes
  let desk := w.record + k
  if covers bytes (8 * k) 2 then
    p.setDesk desk { p.desk desk with buyer := deskBuyer (candidate bytes (8 * k) 2 (p.desk desk).buyer) }
  else p

/-- R77: a DESK write forwarded, with its buyer indices taken. -/
def takeDesk (w : PostedWrite) (p : Part) : Part := (List.range w.beats.length).foldl (takeDeskEntry w) (forward w none p)

/-- A DESK write. -/
def isDesk (_ : Part) (w : PostedWrite) : Bool := w.into .desk

/-- DESK_WRITE (R77). -/
def execDeskWrite (s : State) : Host.Outcome State Fault Refusal := actOn s (takeWrite isDesk takeDesk)

/-! ### BUYER writes (R98, R99) -/

/-- The bytes of a buyer record (R160). -/
def buyerRecordSize : Nat := 64

/-- R98: a BUYER write's host fields taken; record 0 names no buyer. -/
def takeBuyerFields (w : PostedWrite) (p : Part) : Part :=
  if w.record = 0 then p else p.setBuyer w.record ((p.buyer w.record).written (w.inBlock buyerRecordSize))

/-- R98, R99: a BUYER write refused OWNED, or forwarded with its host fields taken. -/
def takeBuyer (w : PostedWrite) (p : Part) : Part :=
  if coversBuyerOwned (w.inBlock buyerRecordSize) then p.report (writeError w .owned)
  else takeBuyerFields w (forward w none p)

/-- A BUYER write. -/
def isBuyer (_ : Part) (w : PostedWrite) : Bool := w.into .buyer

/-- BUYER_WRITE (R98). -/
def execBuyerWrite (s : State) : Host.Outcome State Fault Refusal := actOn s (takeWrite isBuyer takeBuyer)

end Sys2Proof.Machine
end

