-- ==== Sys2Proof/Machine/Dispatch.lean ====
section
/-! DEFINITION. The meaning of each command: one arm for each constructor of Instr, in the table's order. -/

namespace Sys2Proof.Machine

/-- What a command does to everything but the queue. -/
def exec (i : Instr) (s : State) : Host.Outcome State Fault Refusal :=
  match i with
  | .powerOn pins => Sys2Proof.Machine.execPowerOn pins s
  | .resetn pins => Sys2Proof.Machine.execResetn pins s
  | .fbRstn => Sys2Proof.Machine.execFbRstn s
  | .stopInputChange lane level => Sys2Proof.Machine.execStopInputChange lane level s
  | .hallTick => Sys2Proof.Machine.execHallTick s
  | .grantChoice requests => Sys2Proof.Machine.execGrantChoice requests s
  | .floorBusWrite address beats => Sys2Proof.Machine.execFloorBusWrite address beats s
  | .floorBusRead address beatCount => Sys2Proof.Machine.execFloorBusRead address beatCount s
  | .forwardedWrite => Sys2Proof.Machine.execForwardedWrite s
  | .lotWrite => Sys2Proof.Machine.execLotWrite s
  | .listRequest => Sys2Proof.Machine.execListRequest s
  | .withdrawRequest => Sys2Proof.Machine.execWithdrawRequest s
  | .press => Sys2Proof.Machine.execPress s
  | .gatePass => Sys2Proof.Machine.execGatePass s
  | .displayPass => Sys2Proof.Machine.execDisplayPass s
  | .exitPass => Sys2Proof.Machine.execExitPass s
  | .start => Sys2Proof.Machine.execStart s
  | .hold => Sys2Proof.Machine.execHold s
  | .resumeDiscard => Sys2Proof.Machine.execResumeDiscard s
  | .resumeFlush => Sys2Proof.Machine.execResumeFlush s
  | .withdrawCommand => Sys2Proof.Machine.execWithdrawCommand s
  | .enable => Sys2Proof.Machine.execEnable s
  | .disable => Sys2Proof.Machine.execDisable s
  | .unknownLaneCommand => Sys2Proof.Machine.execUnknownLaneCommand s
  | .laneParameterWrite => Sys2Proof.Machine.execLaneParameterWrite s
  | .stopModeWrite => Sys2Proof.Machine.execStopModeWrite s
  | .deskWrite => Sys2Proof.Machine.execDeskWrite s
  | .buyerWrite => Sys2Proof.Machine.execBuyerWrite s
  | .payment => Sys2Proof.Machine.execPayment s
  | .invoiceCloseWord => Sys2Proof.Machine.execInvoiceCloseWord s
  | .consumerIndexWord => Sys2Proof.Machine.execConsumerIndexWord s
  | .ringLowThresholdWrite => Sys2Proof.Machine.execRingLowThresholdWrite s
  | .dayOpen => Sys2Proof.Machine.execDayOpen s
  | .dayClose => Sys2Proof.Machine.execDayClose s
  | .unknownDayCommand => Sys2Proof.Machine.execUnknownDayCommand s
  | .windowCommit => Sys2Proof.Machine.execWindowCommit s
  | .windowRemoval => Sys2Proof.Machine.execWindowRemoval s
  | .masterCommit => Sys2Proof.Machine.execMasterCommit s
  | .flagClear => Sys2Proof.Machine.execFlagClear s
  | .captureRelease => Sys2Proof.Machine.execCaptureRelease s
  | .eventMapWrite => Sys2Proof.Machine.execEventMapWrite s
  | .reportCorrectedSwitchWrite => Sys2Proof.Machine.execReportCorrectedSwitchWrite s
  | .anchorWrite => Sys2Proof.Machine.execAnchorWrite s
  | .refusedWindowWrite => Sys2Proof.Machine.execRefusedWindowWrite s
  | .lotRead => Sys2Proof.Machine.execLotRead s
  | .buyerRead => Sys2Proof.Machine.execBuyerRead s
  | .deskRead => Sys2Proof.Machine.execDeskRead s
  | .replyRead => Sys2Proof.Machine.execReplyRead s
  | .displayRead => Sys2Proof.Machine.execDisplayRead s
  | .rightsProbe => Sys2Proof.Machine.execRightsProbe s
  | .forwardedRead => Sys2Proof.Machine.execForwardedRead s
  | .storePortGrant => Sys2Proof.Machine.execStorePortGrant s
  | .storePortRetry => Sys2Proof.Machine.execStorePortRetry s
  | .retryExhausted => Sys2Proof.Machine.execRetryExhausted s
  | .forwardedReadCompletion answer data => Sys2Proof.Machine.execForwardedReadCompletion answer data s
  | .forwardedWriteCompletion answer => Sys2Proof.Machine.execForwardedWriteCompletion answer s
  | .fetchReadCompletion answer data => Sys2Proof.Machine.execFetchReadCompletion answer data s
  | .writeBackCompletion corrected => Sys2Proof.Machine.execWriteBackCompletion corrected s
  | .ringRecordCompletion corrected => Sys2Proof.Machine.execRingRecordCompletion corrected s
  | .preRollExpiry lane => Sys2Proof.Machine.execPreRollExpiry lane s
  | .restartPauseExpiry lane => Sys2Proof.Machine.execRestartPauseExpiry lane s
  | .stepTimerExpiry lane => Sys2Proof.Machine.execStepTimerExpiry lane s
  | .contenderWindowExpiry lane => Sys2Proof.Machine.execContenderWindowExpiry lane s
  | .partMadeWriteUncorrectable => Sys2Proof.Machine.execPartMadeWriteUncorrectable s
  | .readAnsweredFault => Sys2Proof.Machine.execReadAnsweredFault s
  | .fbRstnRelease requests => Sys2Proof.Machine.execFbRstnRelease requests s

end Sys2Proof.Machine
end

