-- ==== Sys2Proof/Safety.lean ====
section
/-! DEFINITION. What the statements name: the invariants that every step keeps, and the effects, block by block, each from the rules cited. -/

namespace Sys2Proof.Safety

open Sys2Proof.Machine

/-- A predicate on states that every step which answers a next state keeps. -/
def Kept (inv : State → Prop) : Prop := ∀ s t, inv s → step s = .next t → inv t

/-- R157, R159, R160: the Anchor's entry and master entry 0 are fixed, and the shadow keeps its canonical form. -/
def WindowsSound (s : State) : Prop :=
  s.part.window.cache[0] = WindowEntry.anchor s.part.window.anchorSel ∧ s.part.window.masters[0] = MasterEntry.zero ∧
    Memory.wf s.part.window.shadow

/-- R151, R153: the Posted Write Buffer holds at most 8 writes, and the high streak is at most 4. -/
def FloorSound (s : State) : Prop := s.part.floor.buffer.length ≤ 8 ∧ s.part.floor.streak ≤ 4

/-- R175, R180: the lost count is at most 255, an unlocked capture reads 0, and DRAM-UNCORRECTABLE stays mapped to ATTN_U. -/
def AttentionSound (s : State) : Prop :=
  s.part.attention.capture.lost ≤ 255 ∧
    (s.part.attention.capture.locked = false → s.part.attention.capture.lost = 0) ∧ s.part.attention.map[7] = .attnU

/-- R169: the consecutive RETRY count of the transaction in flight is at most 63. -/
def RetriesSound (s : State) : Prop := ∀ f, s.part.store.inFlight = some f → f.retries ≤ 63

/-- R141: no notice to the Display Mapper stands between events. -/
def Quiet (s : State) : Prop := ∀ i, (s.part.display i).notified = false

/-- R7, R35: the Listing Queue holds at most 8 entries, and every Pass Backlog at most 8 passes. -/
def QueuesSound (s : State) : Prop :=
  s.part.catalogue.listing.length ≤ 8 ∧ ∀ i, (s.part.track i).backlog.length ≤ 8

/-- R44, R45: the timer that a lane counts is the one of its state. -/
def timerFits (l : LaneUnit) : Prop :=
  match l.timer with
  | .stopped => True
  | .counting .preRoll _ => l.state = .primed
  | .counting .step _ => l.state = .running
  | .counting .contenderWindow _ => l.state = .struck
  | .counting .restartPause _ => l.state = .paused

/-- R44, R50, R89: a lane's timer fits its state, its Contender List holds entries only while it is STRUCK and at most 4, never two
from one desk, and its round is at most 65,535. -/
def LaneSound (l : LaneUnit) : Prop :=
  timerFits l ∧ (l.contenders ≠ [] → l.state = .struck) ∧ l.contenders.length ≤ 4 ∧
    (l.contenders.map fun e => e.desk).Nodup ∧ l.round ≤ 65535

/-- R44, R89: every lane is sound. -/
def LanesSound (s : State) : Prop := ∀ i, LaneSound (s.part.lane i)

/-- R3, R77, R98: the tables of known lots, desks and buyers keep their canonical form: keys rising, no desk or buyer listed that holds
its reset entry. -/
def TablesSound (s : State) : Prop :=
  tableSorted s.part.catalogue.known ∧ tableWf DeskEntry.afterReset s.part.press.desks ∧
    tableWf BuyerEntry.afterReset s.part.account.buyers

/-! ### What the statements name -/

/-- R154, R156: `w` is the head of the Posted Write Buffer and may be taken: the Record Queue is not full, and the forward path holds
no write if the head's classification calls for forwarding. -/
def HeadTakeable (p : Part) (w : PostedWrite) : Prop :=
  (∃ rest, p.floor.buffer = w :: rest) ∧ p.ring.queue.length < 32 ∧
    (w.cls.callsForForwarding = true → p.store.forwardWrite = none)

/-- R155: `r` is the read in progress, not yet taken, and no write is ahead of it. -/
def ReadTakeable (p : Part) (r : ReadInProgress) : Prop :=
  p.floor.read = some r ∧ r.forwarded = false ∧ p.floor.buffer = []

/-- The Floor Port with its buffer's head gone (R154). -/
def headGone (p : Part) : FloorPort := { p.floor with buffer := p.floor.buffer.tail }

/-- The Floor Port with its read answered and its grant ended (R152). -/
def readAnswered (p : Part) (r : ReadInProgress) (answer : Answer) : FloorPort :=
  { p.floor with grant := none, read := none, response := some { master := r.master, answer := answer } }

/-- The write as the forward path holds it (R154). -/
def forwardedOf (w : PostedWrite) (listed : Option Nat) : ForwardedWrite :=
  { master := w.master, window := w.cls.window, address := w.address, beats := w.beats, listedLot := listed }

/-- R150, R154: the Store Port with a write placed in its forward path; one whose masks enable no byte is not forwarded. -/
def forwardedInto (p : Part) (w : PostedWrite) (listed : Option Nat) : StorePort :=
  if w.bytes = [] then p.store else { p.store with forwardWrite := some (forwardedOf w listed) }

/-- R174, R175: the capture offered an error. -/
def Captured (c c' : ErrorCapture) (r : ErrorReport) (tick : Word32) : Prop :=
  (c.locked = false → c' = { kind := some r.kind, master := r.master, mark := r.mark, window := r.window, address := r.address,
                             direction := r.direction, tick := tick, locked := true, lost := 0 }) ∧
  (c.locked = true → c' = { c with lost := min 255 (c.lost + 1) })

/-- R179: an event kind's flag set and its count one higher, wrapping; the other flags and counts as they were. -/
def Counted (a a' : AttentionUnit) (k : EventKind) : Prop :=
  (∀ j : Fin 18, a'.flags.getLsbD j.val = (decide (j = k.num) || a.flags.getLsbD j.val)) ∧
    ∀ j : Fin 18, a'.counts[j] = if j = k.num then a.counts[j] + 1 else a.counts[j]

/-- R179: an event raised, and nothing else of the Attention Unit changed. -/
def Raised (a a' : AttentionUnit) (k : EventKind) : Prop :=
  Counted a a' k ∧ a' = { a with flags := a'.flags, counts := a'.counts }

/-- R174, R175, R179: an error reported, and nothing else of the Attention Unit changed. -/
def Reported (a a' : AttentionUnit) (r : ErrorReport) (tick : Word32) : Prop :=
  Captured a.capture a'.capture r tick ∧ Counted a a' r.kind ∧
    a' = { a with capture := a'.capture, flags := a'.flags, counts := a'.counts }

/-- The error of a write (R176). -/
def errorOfWrite (w : PostedWrite) (kind : EventKind) (window : Option Window) : ErrorReport :=
  { kind := kind, master := some w.master, mark := .none, window := window, address := w.address, direction := .write }

/-- The error of a read (R176). -/
def errorOfRead (r : ReadInProgress) (kind : EventKind) : ErrorReport :=
  { kind := kind, master := some r.master, mark := .none, window := r.cls.window, address := r.address, direction := .read }

/-- R157: `w` is an allowed Anchor write that sets off one command and no other. -/
def SetsOff (p : Part) (w : PostedWrite) (a : AnchorAction) : Prop :=
  w.cls.check = .pass ∧ w.cls.kind = some .anchor ∧ anchorActions (anchorBytes p w) = [a]

/-- R157: what the taking of an Anchor write does whatever command it sets off: the head gone, the written bytes shadowed, the write
in the forward path; the Press Unit and the Tick Generator not touched. -/
def AnchorTaken (p q : Part) (w : PostedWrite) : Prop :=
  q.floor = headGone p ∧ q.window.shadow = shadowAfter p w ∧
    q.store = { p.store with forwardWrite := some (forwardedOf w none) } ∧ q.press = p.press ∧ q.ticks = p.ticks

/-- A field of the Anchor as an Anchor write leaves it in the shadow (R157). -/
def fieldAfter (p : Part) (w : PostedWrite) (start size : Nat) : Nat := Memory.field (shadowAfter p w) start size

/-- R141: no lane's map waits for its rebuild. -/
def QuietPart (p : Part) : Prop := ∀ i, (p.display i).notified = false

/-- R59, R60: what adding a hold reason makes of a lane. -/
def HoldAdded (l l' : LaneUnit) (r : HoldReason) : Prop :=
  (l.state = .struck ∨ l.state = .closing → l' = { l with pendingHolds := l.pendingHolds.add r }) ∧
  (l.state = .held → l' = { l with holds := l.holds.add r }) ∧
  (l.state = .idle → l' = { l with holds := l.holds.add r, state := .held, ret := .idle, timer := .stopped }) ∧
  (l.state = .primed → l' = { l with holds := l.holds.add r, state := .held, ret := .primed, timer := .stopped }) ∧
  (l.state = .paused → l' = { l with holds := l.holds.add r, state := .held, ret := .paused, timer := .stopped }) ∧
  (l.state = .running → l' = { l with holds := l.holds.add r, state := .held, ret := .paused, timer := .stopped,
                                      roundReserved := 0, nextPrice := l.price })

/-- R70, R71: the changes of a stop input, to a level, that act in a mode. -/
def stopChangeActs (mode : StopMode) (level : Bool) : Prop :=
  ((mode = .falling ∨ mode = .levelLow) ∧ level = false) ∨ ((mode = .rising ∨ mode = .levelHigh) ∧ level = true) ∨ mode = .both

/-- R151: some master of a class requests. -/
def Requested (p : Part) (requests : BitVec 8) (c : GrantClass) : Prop :=
  ∃ m : Master, requests.getLsbD m.val = true ∧ p.window.masters[m].grantClass = c

/-- R151: `m` is the next master of a class: it requests, and counting upward from the last granted, from 7 on to 0, that one last, no
requesting master of the class comes before it. -/
def NextOf (p : Part) (requests : BitVec 8) (c : GrantClass) (last m : Master) : Prop :=
  requests.getLsbD m.val = true ∧ p.window.masters[m].grantClass = c ∧
    ∀ k : Master, requests.getLsbD k.val = true → p.window.masters[k].grantClass = c → m - last - 1 ≤ k - last - 1

/-- R98: the host fields of a buyer entry as a BUYER write leaves them, `bytes` the bytes written by their place in the record. -/
def BuyerTaken (bytes : List (Nat × Byte)) (b b' : BuyerEntry) : Prop :=
  let external := candidate bytes 0x00 3 b.external
  let limit := candidate bytes 0x08 8 b.limit
  (b'.external = if covers bytes 0x00 3 = true ∧ external ≤ 999999 then external else b.external) ∧
  (b'.status = if covers bytes 0x03 1 = true then
      (if candidate bytes 0x03 1 b.status.code = 1 then .active else .blocked) else b.status) ∧
  (∀ i : Lane, b'.laneMask.getLsbD i.val = if covers bytes 0x04 1 = true then
      (candidate bytes 0x04 1 b.laneMask.toNat).testBit i.val else b.laneMask.getLsbD i.val) ∧
  (b'.limit = if covers bytes 0x08 8 = true ∧ limit < 2 ^ 47 then limit else b.limit) ∧
  b' = { b with external := b'.external, status := b'.status, laneMask := b'.laneMask, limit := b'.limit }

/-! ### Presses -/

/-- R76: the buffer's head is the press `c`, and may be taken. -/
def PressTakeable (p : Part) (w : PostedWrite) (c : PressIn) : Prop :=
  HeadTakeable p w ∧ w.cls.check = .pass ∧ w.cls.kind = some .press ∧ pressOf w = some c

/-- R93: the reply slot that a refusal at taking writes. -/
def refusalReply (p : Part) (c : PressIn) (reason : PressReason) (units credit : Nat) : ReplySlot :=
  { count := (p.desk c.desk).reply.count + 1, lastAccepted := (p.desk c.desk).lastSequence.getD 0, reported := c.sequence,
    outcome := .refused, reason := reason, lane := c.lane.val, lot := (p.lane c.lane).live.getD 65535, units := units, position := 0,
    price := if (p.lane c.lane).live = none then 0 else (p.lane c.lane).price, amount := 0, credit := credit }

/-- R93, R94, R96: a press refused at its taking: the desk's reply slot written, the press counted as taken and as refused. -/
def PressRefused (p q : Part) (c : PressIn) (reason : PressReason) (units credit : Nat) : Prop :=
  q = { p with floor := headGone p, press := q.press } ∧
    q.press = { p.press with desks := q.press.desks, taken := p.press.taken + 1, refused := p.press.refused + 1 } ∧
    q.desk c.desk = { p.desk c.desk with reply := refusalReply p c reason units credit } ∧ ∀ k, k ≠ c.desk → q.desk k = p.desk k

/-- R79 to R81: a press that passes the first three checks, its desk's buyer being `buyer`. -/
def PressPasses (p : Part) (c : PressIn) (buyer : Nat) : Prop :=
  (p.desk c.desk).buyer = buyer ∧ buyer ≠ 0 ∧ (p.desk c.desk).lastSequence ≠ some c.sequence ∧ buyerMayBuy p buyer c.lane = true

/-- R86, step 1, and R106: the number of the invoice that a buyer's purchase joins: the open one's, or the counter's. -/
def invoiceJoined (p : Part) (buyer : Nat) : Word32 :=
  if (p.buyer buyer).invoice = 0 then p.account.invoiceCounter else (p.buyer buyer).invoice

/-- R86, R106 to R108: a buyer's entry after a purchase: the exposure higher, a line and the amount on its invoice, or no invoice where
that was the 64th line. -/
def entryCharged (p : Part) (buyer amount : Nat) : BuyerEntry :=
  let b := p.buyer buyer
  if b.lines + 1 = 64 then { b with exposure := b.exposure + amount, invoice := 0, lines := 0, total := 0 }
  else { b with exposure := b.exposure + amount, invoice := invoiceJoined p buyer, lines := b.lines + 1, total := b.total + amount }

/-- R86, step 3, and R130: the PURCHASE record of a purchase in lane `i`, with the assigned index and the tick (R127). -/
def purchaseMade (p : Part) (i : Lane) (c : Purchase) : RingRecord :=
  { index := p.ring.assigned, tick := p.ticks.count,
    body := .purchase
      { lane := i, position := c.position, lot := c.lot, round := (p.lane i).round, desk := c.desk, buyer := c.buyer,
        external := (p.buyer c.buyer).external, units := c.units, pieces := c.units * c.host.pieces, price := c.price,
        invoice := invoiceJoined p c.buyer, amount := c.amount, grower := c.host.grower, product := c.host.product } }

/-- R108: the INVOICE-CLOSE record of an invoice closed at its 64th line, created after the purchase's record. -/
def invoiceFilled (p : Part) (c : Purchase) : RingRecord :=
  { index := p.ring.assigned + 1, tick := p.ticks.count,
    body := .invoiceClose 64 c.buyer (p.buyer c.buyer).external (invoiceJoined p c.buyer) ((p.buyer c.buyer).total + c.amount) }

/-- R86, steps 1 to 4: what a purchase does: the buyer charged, the units moved in the lot's digest, the records created, a slot of the
round reservation used, the last strike shown (R146), and INVOICE-CLOSED raised where the 64th line closes the invoice. -/
def Purchased (p q : Part) (i : Lane) (c : Purchase) : Prop :=
  q = { p with account := q.account, catalogue := q.catalogue, ring := q.ring, lanes := q.lanes, displays := q.displays,
               attention := q.attention } ∧
    q.buyer c.buyer = entryCharged p c.buyer c.amount ∧ (∀ k, k ≠ c.buyer → q.buyer k = p.buyer k) ∧
    q.account = { p.account with
      buyers := q.account.buyers,
      invoiceCounter := if (p.buyer c.buyer).invoice = 0 then nextInvoice p.account.invoiceCounter else p.account.invoiceCounter } ∧
    q.digest c.lot = (p.digest c.lot).map (fun d => { d with owned := { d.owned with
      remaining := d.owned.remaining - c.units, sold := d.owned.sold + c.units, strikes := d.owned.strikes + 1,
      lastPrice := c.price } }) ∧
    (∀ lot, lot ≠ c.lot → q.digest lot = p.digest lot) ∧ q.catalogue = { p.catalogue with known := q.catalogue.known } ∧
    q.lane i = { p.lane i with roundReserved := (p.lane i).roundReserved - 1 } ∧ (∀ j, j ≠ i → q.lane j = p.lane j) ∧
    q.display i = { p.display i with lastUnits := c.units, lastBuyer := (p.buyer c.buyer).external } ∧
    (∀ j, j ≠ i → q.display j = p.display j) ∧
    ((p.buyer c.buyer).lines + 1 ≠ 64 →
      q.ring = { p.ring with queue := p.ring.queue ++ [purchaseMade p i c], assigned := p.ring.assigned + 1,
                             purchases := p.ring.purchases + 1 } ∧ q.attention = p.attention) ∧
    ((p.buyer c.buyer).lines + 1 = 64 →
      q.ring = { p.ring with queue := p.ring.queue ++ [purchaseMade p i c, invoiceFilled p c],
                             assigned := p.ring.assigned + 1 + 1, purchases := p.ring.purchases + 1 } ∧
      Raised p.attention q.attention .invoiceClosed)

/-! ### Passes -/

/-- R24: the buffer's head reports `pass` in lane `i`, and may be taken. -/
def PassTakeable (p : Part) (w : PostedWrite) (i : Lane) (pass : Pass) : Prop :=
  HeadTakeable p w ∧ w.cls.check = .pass ∧ w.cls.kind = some .track ∧ passOf w = some (i, pass)

/-- The command that is the taking of a pass at a station. -/
def passCommand : Station → Instr
  | .gate => .gatePass
  | .display => .displayPass
  | .exit => .exitPass

/-- R23: the lots in `lots` set to a state but for those WITHDRAWN; every other lot as it was. -/
def LotsSet (p q : Part) (lots : List Nat) (state : LotState) : Prop :=
  ∀ lot, q.digest lot = if lot ∈ lots then
      (p.digest lot).map (fun d => if d.owned.state = .withdrawn then d else { d with owned := { d.owned with state := state } })
    else p.digest lot

/-- R141: the Display Mapper told of one lane's change and of no other. -/
def Told (p q : Part) (i : Lane) : Prop :=
  q.display i = { p.display i with notified := true } ∧ ∀ j, j ≠ i → q.display j = p.display j

/-- R33: a pass of lane `i` that faults: the record filled and the stopped mark set, TRACK-FAULT raised, TRACK added to the lane's hold
reasons; nothing moves. -/
def PassFaulted (p q : Part) (i : Lane) (pass : Pass) (expected : Word32) (reason : TrackFault) : Prop :=
  q = { p with floor := headGone p, tracks := q.tracks, lanes := q.lanes, attention := q.attention } ∧
    q.track i = { p.track i with fault := { stopped := true, station := pass.station, tagSeen := pass.tag, tagExpected := expected,
                                            reason := reason, tick := p.ticks.count } } ∧
    (∀ j, j ≠ i → q.track j = p.track j) ∧ HoldAdded (p.lane i) (q.lane i) .track ∧ (∀ j, j ≠ i → q.lane j = p.lane j) ∧
    Raised p.attention q.attention .trackFault

/-- The tag of a list's first trolley, 0 for an empty list (R33). -/
def firstTag : List Trolley → Word32
  | y :: _ => y.tag
  | [] => 0

/-- R24: the head is a pass to be carried out: the day is OPEN and the lane's track is running. -/
def PassRuns (p : Part) (w : PostedWrite) (i : Lane) (pass : Pass) : Prop :=
  PassTakeable p w i pass ∧ p.window.dayState = .opened ∧ (p.track i).fault.stopped = false

/-! ### Lanes -/

/-- R66, R157: the head is an Anchor write that sets off one lane command, `c` by the shadow after it, for lane `i`. -/
def LaneCommandTaken (p : Part) (w : PostedWrite) (i : Lane) (c : LaneCommand) : Prop :=
  HeadTakeable p w ∧ SetsOff p w (.laneCommand i) ∧
    LaneCommand.ofCodes (fieldAfter p w (laneAt i) 1) (fieldAfter p w (laneAt i + 1) 1) = c

/-- Lane `i` as given, the other lanes as they were. -/
def LaneSet (p q : Part) (i : Lane) (l : LaneUnit) : Prop := q.lane i = l ∧ ∀ j, j ≠ i → q.lane j = p.lane j

/-- Beside the Floor Port, the shadow and the forward path, which every Anchor write changes, only the lanes differ. -/
def LanesOnly (p q : Part) (w : PostedWrite) : Prop :=
  AnchorTaken p q w ∧
    q = { p with floor := q.floor, window := { p.window with shadow := q.window.shadow }, store := q.store, lanes := q.lanes }

/-- R120, R121: a lane's need is granted: no lane waits and the free count holds it. -/
def Granted (p : Part) (need : Nat) : Prop := p.ring.waiters = [] ∧ need ≤ freeCount p

/-- R48, R50, R121: a lane refused its slots: HELD with RING, at the tail of the Ring Waiters, RING-HOLD raised. -/
def Waits (p q : Part) (i : Lane) (ret : ReturnState) (need : Nat) : Prop :=
  q = { p with lanes := q.lanes, ring := { p.ring with waiters := p.ring.waiters ++ [{ lane := i, need := need }] },
               attention := q.attention } ∧
    LaneSet p q i { p.lane i with state := .held, ret := ret, timer := .stopped,
                                  holds := { (p.lane i).holds with ring := true } } ∧
    Raised p.attention q.attention .ringHold

/-- R50: the RUNNING entry of lane `i` from PRIMED or PAUSED: with a round reservation held or granted the round is counted, the price
is the next-round price and the step timer starts; else the lane waits on the ring. -/
def EntersRunning (p q : Part) (i : Lane) (leaving : ReturnState) : Prop :=
  let l := p.lane i
  (l.roundReserved ≠ 0 ∨ Granted p 5 →
    q = { p with lanes := q.lanes } ∧
    LaneSet p q i { l with state := .running, round := min 65535 (l.round + 1), price := l.nextPrice,
                           timer := .counting .step l.params.stepInterval,
                           roundReserved := if l.roundReserved = 0 then 5 else l.roundReserved }) ∧
  (l.roundReserved = 0 → ¬ Granted p 5 → Waits p q i leaving 5)

/-- R47: the first AT-CLOCK lot of the trolley at lane `i`'s Display Position. -/
def FirstAtClock (p : Part) (i : Lane) (lot : Nat) : Prop :=
  ∃ y before after, (p.track i).display = some y ∧ y.lots = before ++ lot :: after ∧
    (∀ k ∈ before, p.lotState k ≠ some .atClock) ∧ p.lotState lot = some .atClock

/-- R48, R146: lane `i` puts up a lot, of digest `d` and host fields `h`, with its close slot held: PRIMED at the start price before its
first round, the lot LIVE, the last strike 0, and the Display Mapper told. -/
def PutsUp (p q : Part) (i : Lane) (lot : Nat) (d : Digest) (h : HostFields) : Prop :=
  let l := p.lane i
  q = { p with lanes := q.lanes, catalogue := q.catalogue, displays := q.displays } ∧
    LaneSet p q i { l with
      state := .primed, live := some lot, price := h.startPrice, nextPrice := h.startPrice, round := 0, closeReserved := true,
      timer := if l.params.preRoll = 0 then .stopped else .counting .preRoll l.params.preRoll } ∧
    q.digest lot = some { d with owned := { d.owned with state := .live } } ∧ (∀ k, k ≠ lot → q.digest k = p.digest k) ∧
    q.catalogue = { p.catalogue with known := q.catalogue.known } ∧
    q.display i = { p.display i with lastUnits := 0, lastBuyer := 0, notified := true } ∧ ∀ j, j ≠ i → q.display j = p.display j

/-- R55: the result of a lot by its units before the closing step. -/
def resultOf (o : Owned) : LotResult :=
  if o.remaining = 0 then .soldOut else if 0 < o.sold then .partSold else .unsold

/-- R55, R127, R130: what closing lane `i`'s live lot, of digest `d`, does beside the lane's own state: the digest's outcome and the
LOT-CLOSE record. -/
def LotCloses (p q : Part) (i : Lane) (lot : Nat) (d : Digest) (h : HostFields) : Prop :=
  q.digest lot = some { d with owned := { d.owned with result := resultOf d.owned, withdrawn := d.owned.remaining,
                                                       remaining := 0, closeTick := p.ticks.count } } ∧
    (∀ k, k ≠ lot → q.digest k = p.digest k) ∧ q.catalogue = { p.catalogue with known := q.catalogue.known } ∧
    q.ring = { p.ring with
      waiters := q.ring.waiters, assigned := p.ring.assigned + 1,
      queue := p.ring.queue ++
        [{ index := p.ring.assigned, tick := p.ticks.count,
           body := .lotClose { lane := i, result := resultOf d.owned, lot := lot, sold := d.owned.sold,
                               withdrawn := d.owned.remaining, strikes := d.owned.strikes, grower := h.grower,
                               product := h.product } }] }

/-- R55: a lane that closes its lot: CLOSING, its timers stopped, a running round ended, its close reservation used. -/
def laneClosing (l : LaneUnit) : LaneUnit :=
  { l with state := .closing, timer := .stopped, roundReserved := 0, closeReserved := false }

/-- R67, R71: whether the stop input keeps STOP at a RESUME: a level mode, the input at its level. -/
def stopHeld (l : LaneUnit) : Bool :=
  decide ((l.params.stopMode = .levelLow ∧ l.stopLevel = false) ∨ (l.params.stopMode = .levelHigh ∧ l.stopLevel = true))

/-- R67: what RESUME leaves of a set of reasons: RING, and STOP while the input holds it. -/
def reasonsKept (h : HoldSet) (stop : Bool) : HoldSet := { host := false, stop := h.stop && stop, track := false, ring := h.ring }

/-- R67: a lane's own fields at RESUME. -/
def laneResumed (l : LaneUnit) : LaneUnit :=
  { l with holds := reasonsKept l.holds (stopHeld l), pendingHolds := reasonsKept l.pendingHolds (stopHeld l),
           commandResult := if stopHeld l = true then .refusedStopActive else .done }

/-- R46: the parameters of a lane as numbers; the stop mode by its code. -/
def paramOf (l : LaneParams) : LaneParam → Nat
  | .stepInterval => l.stepInterval
  | .stopMode => l.stopMode.code
  | .defaultStep => l.defaultStep
  | .defaultBump => l.defaultBump
  | .contenderWindow => l.contenderWindow
  | .preRoll => l.preRoll
  | .restartPause => l.restartPause

/-- R46: the ranges of the parameters. -/
def paramRange : LaneParam → Nat × Nat
  | .stepInterval => (1, 255)
  | .stopMode => (0, 4)
  | .defaultStep => (1, 9999)
  | .defaultBump => (0, 99999)
  | .contenderWindow => (1, 63)
  | .preRoll => (0, 4095)
  | .restartPause => (1, 4095)

/-- R46: a parameter that a write covers, by its bytes at their Anchor offsets. -/
def ParamCovered (p : Part) (w : PostedWrite) (i : Lane) (k : LaneParam) : Prop :=
  covers (anchorBytes p w) (laneAt i + k.offset) k.size = true

/-- R46: a covered parameter's value after a write. -/
def paramAfter (p : Part) (w : PostedWrite) (i : Lane) (k : LaneParam) : Nat := fieldAfter p w (laneAt i + k.offset) k.size

/-- R46: whether that value is in the parameter's range. -/
def ParamFits (p : Part) (w : PostedWrite) (i : Lane) (k : LaneParam) : Prop :=
  (paramRange k).1 ≤ paramAfter p w i k ∧ paramAfter p w i k ≤ (paramRange k).2

/-! ### Command words of the Anchor -/

/-- R157: the head may be taken and is an Anchor write that sets off the one command `a`. -/
def WordTaken (p : Part) (w : PostedWrite) (a : AnchorAction) : Prop := HeadTakeable p w ∧ SetsOff p w a

/-- R157: the part as the taking of an Anchor write leaves it when its command changes nothing: the head gone, the bytes shadowed, the
write in the forward path. -/
def anchorOnly (p : Part) (w : PostedWrite) : Part :=
  { p with floor := headGone p, window := { p.window with shadow := shadowAfter p w },
           store := { p.store with forwardWrite := some (forwardedOf w none) } }

/-- R189: the head sets off the day command `c`. -/
def DayCommandTaken (p : Part) (w : PostedWrite) (c : DayCommand) : Prop :=
  WordTaken p w .day ∧ DayCommand.ofCode (fieldAfter p w 0x0000 1) = c

/-- R189: a day word that only sets its result. -/
def dayAnswered (p : Part) (w : PostedWrite) (r : WordResult) : Part :=
  { anchorOnly p w with window := { (anchorOnly p w).window with dayResult := r } }

/-- R131, R190, R193: the DAY-MARK record created on a ring, for the day that begins or ends. -/
def dayMarked (p : Part) (r : RingUnit) (mark : DayMark) (number : Nat) : RingRecord :=
  { index := r.assigned, tick := p.ticks.count, body := .dayMark mark number r.purchases r.payments }

/-- R108, R127, R130: the INVOICE-CLOSE record of a buyer's open invoice. -/
def invoiceRecord (p : Part) (buyer : Nat) : RingRecord :=
  { index := p.ring.assigned, tick := p.ticks.count,
    body := .invoiceClose (p.buyer buyer).lines buyer (p.buyer buyer).external (p.buyer buyer).invoice (p.buyer buyer).total }

/-- R108: a buyer's open invoice closed: its record created, the entry's open fields 0 and INVOICE-CLOSED raised; the rest of the entry
and the other buyers as they were. -/
def InvoiceCloses (p q : Part) (buyer : Nat) : Prop :=
  q = { p with account := { p.account with buyers := q.account.buyers }, ring := q.ring, attention := q.attention } ∧
    q.buyer buyer = { p.buyer buyer with invoice := 0, lines := 0, total := 0 } ∧ (∀ k, k ≠ buyer → q.buyer k = p.buyer k) ∧
    q.ring = { p.ring with queue := p.ring.queue ++ [invoiceRecord p buyer], assigned := p.ring.assigned + 1 } ∧
    Raised p.attention q.attention .invoiceClosed

/-- R165: another valid window that satisfies a condition. -/
def OtherWindow (p : Part) (v : Window) (f : WindowEntry → Prop) : Prop :=
  ∃ x : Window, x ≠ v ∧ p.window.cache[x].valid = true ∧ f p.window.cache[x]

/-- R134: what makes the Ring Unit refuse a removal or a replacement. -/
def RingHeld (p : Part) : Prop := 0 < reservedCount p ∨ p.ring.waiters ≠ [] ∨ p.ring.queue ≠ []

/-- R159, R165, R166: a refused commit or removal in window 0 at `offset`: REFUSED-MAP with its reason, set in `q`'s results, and MAP
captured with the address of the commit word. -/
def MapRefused (p q : Part) (w : PostedWrite) (offset : Nat) : Prop :=
  Reported p.attention q.attention
    { kind := .map, master := some w.master, mark := .none, window := some 0,
      address := BitVec.ofNat 36 (anchorBase p.window.anchorSel + offset), direction := .write } p.ticks.count

/-- R165, R166: window `v`'s commit result after a commit or a removal that changes nothing else of the windows. -/
def windowAnswered (p : Part) (w : PostedWrite) (v : Window) (r : WordResult) (reason : CommitReason) : Part :=
  { anchorOnly p w with window := { (anchorOnly p w).window with
      windowResults := p.window.windowResults.set v { result := r, reason := reason } } }

/-- R165: window `v` with an entry installed, DONE. -/
def windowInstalled (p : Part) (w : PostedWrite) (v : Window) (e : WindowEntry) : Part :=
  { windowAnswered p w v .done .none with window := { (windowAnswered p w v .done .none).window with
      cache := p.window.cache.set v e } }

/-- R134: the ring started afresh with a geometry, or with none. -/
def ringAfresh (r : RingUnit) (geometry : Option Geometry) : RingUnit :=
  { r with geometry := geometry, assigned := 0, published := 0, consumer := 0, purchases := 0, payments := 0 }

/-! ### Accesses and reads -/

/-- R162, checks 1 and 2, and R157: whether a master may read or write a window, by its role and privilege. -/
def RoleAllows (m : MasterEntry) (e : WindowEntry) (direction : Direction) : Prop :=
  match direction with
  | .read =>
    (e.kind = .anchor → m.role = .control) ∧ (e.kind ≠ .anchor → m.privilege ≤ e.readLevel) ∧ e.kind ≠ .press ∧ e.kind ≠ .track ∧
      (e.kind = .reply → m.role = .control ∨ m.role = .desk) ∧ (e.kind = .display → m.role = .control ∨ m.role = .display)
  | .write =>
    (e.kind = .anchor → m.role = .control ∧ m.privilege = 0) ∧ (e.kind ≠ .anchor → m.privilege ≤ e.writeLevel) ∧
      e.kind ≠ .reply ∧ e.kind ≠ .display ∧ e.kind ≠ .ring ∧ (e.kind = .lot ∨ e.kind = .buyer ∨ e.kind = .desk → m.role = .control) ∧
      (e.kind = .press → m.role = .desk) ∧ (e.kind = .track → m.role = .track)

/-- R164: bytes that are exactly the first four of the 16-byte slot at `slot`. -/
def FirstFourOf (slot : Nat) (bytes : List (Nat × Byte)) : Prop :=
  slot % 16 = 0 ∧ bytes.map Prod.fst = [slot, slot + 1, slot + 2, slot + 3]

/-- R162, check 3, and R164: the form of a PRESS or TRACK write, `bytes` its enabled bytes by offset in the window. -/
def FormFits (kind : WindowKind) (direction : Direction) (bytes : List (Nat × Byte)) : Prop :=
  direction = .write →
    (kind = .press → ∃ slot, FirstFourOf slot bytes) ∧
    (kind = .track → ∃ slot, FirstFourOf slot bytes ∧ slot / 64 < 6 ∧ slot % 64 / 16 ≠ 3 ∧ leNat (bytes.map Prod.snd) ≠ 0)

/-- R162: a desk in a master's desk range. -/
def InDesks (m : MasterEntry) (desk : Nat) : Prop := m.firstDesk ≤ desk ∧ desk < m.firstDesk + m.deskCount

/-- R162, check 4: the range of an access of `size` bytes at `offset`, whose first enabled byte lies at `first`. -/
def RangeFits (m : MasterEntry) (kind : WindowKind) (direction : Direction) (offset size first : Nat) : Prop :=
  (kind = .press → direction = .write → InDesks m (first % 8192 / 16)) ∧
  (kind = .reply → direction = .read → m.role = .desk → InDesks m (offset / 32) ∧ InDesks m ((offset + size - 1) / 32)) ∧
  (kind = .track → direction = .write → m.laneMask.getLsbD (first / 64) = true) ∧
  (kind = .display → direction = .read → m.role = .display → m.laneMask.getLsbD (offset / 131072) = true)

/-- R162, check 5: the record of an access's last byte is below the window's record limit. -/
def LimitFits (e : WindowEntry) (offset size : Nat) : Prop :=
  (e.kind = .lot → (offset + size - 1) / 128 < e.recordLimit) ∧ (e.kind = .buyer → (offset + size - 1) / 64 < e.recordLimit) ∧
    (e.kind = .desk → (offset + size - 1) / 8 < e.recordLimit)

/-- R160: an address in a window's range. -/
def InWindow (p : Part) (v : Window) (address : Nat) : Prop :=
  p.window.cache[v].valid = true ∧ p.window.cache[v].base ≤ address ∧
    address < p.window.cache[v].base + p.window.cache[v].pages * 4096

/-- R155: the read in progress may be taken and passed its checks into a window of a kind. -/
def ReadInto (p : Part) (r : ReadInProgress) (kind : WindowKind) : Prop :=
  ReadTakeable p r ∧ r.cls.check = .pass ∧ r.cls.kind = some kind

/-- R155: a read answered DONE at its taking, its byte `k` being `f k`; nothing else changes. -/
def bytesAnswered (p : Part) (r : ReadInProgress) (f : Nat → Byte) : Part :=
  { p with floor := readAnswered p r (.done (beatsAt f 0 r.beatCount)) }

/-- R155: a read placed in the forward path at an address, with the owned fields captured for the merge; nothing else changes. -/
def readForwarded (p : Part) (r : ReadInProgress) (address : Address) (merge : Option Owned) : Part :=
  let read : ForwardedRead :=
    { master := r.master, window := r.cls.window, address := address, beatCount := r.beatCount, merge := merge }
  { p with floor := { p.floor with read := some { r with forwarded := true } },
           store := { p.store with forwardRead := some read } }

/-- R139: what a slot of a lane's map holds; slot 3 holds nothing. -/
def SlotHolds (d : DisplayLane) (slot : Nat) (m : MapSlot) : Prop :=
  (slot = 0 ∧ d.current = some m) ∨ (slot = 1 ∧ d.next1 = some m) ∨ (slot = 2 ∧ d.next2 = some m)

/-- R143: a blank read of lane `i` answered: zeros, and the hole count one higher. -/
def blankAnswered (p : Part) (r : ReadInProgress) (i : Lane) : Part :=
  { bytesAnswered p r (fun _ => 0) with
    displays := p.displays.set i { p.display i with holeCount := (p.display i).holeCount + 1 } }

/-- R158, R195: an Anchor read shows a field of `size` bytes at an offset with a value, least significant byte first. -/
def Shows (p : Part) (offset size value : Nat) : Prop :=
  ∀ k, k < size → anchorByte p (offset + k) = BitVec.ofNat 8 (value / 256 ^ k)

/-- Fields as an Anchor read shows them, each by its offset from `start`, its size and its value. -/
def ShowsAll (p : Part) (start : Nat) (fields : List (Nat × Nat × Nat)) : Prop :=
  ∀ f ∈ fields, Shows p (start + f.1) f.2.1 f.2.2

/-- A yes-or-no field (log 35). -/
def yes (b : Bool) : Nat := if b = true then 1 else 0

/-- R158, 11.3: the result fields of the day, account and ring words, and the day's own fields. -/
def wordResults (p : Part) : List (Nat × Nat × Nat) :=
  [(0x0004, 1, p.window.dayResult.code), (0x0005, 1, p.window.dayState.code), (0x0006, 1, liveLanes p),
   (0x0110, 1, p.account.paymentResult.outcome.code), (0x0118, 8, p.account.paymentResult.applied),
   (0x0120, 8, p.account.paymentResult.exposureAfter), (0x012A, 1, p.account.closeResult.outcome.code),
   (0x012C, 4, p.account.invoiceCounter.toNat), (0x0130, 1, p.account.closeResult.lines), (0x0134, 2, openInvoiceCount p),
   (0x0138, 8, p.account.closeResult.total), (0x0140, 4, p.account.closeResult.number.toNat),
   (0x0204, 1, p.ring.consumerResult.code), (0x0206, 2, p.ring.threshold)]

/-- R135, 11.3: the ring status; no ring shows a base and a capacity of 0 (log 23). -/
def ringStatus (p : Part) : List (Nat × Nat × Nat) :=
  [(0x0208, 1, yes p.ring.geometry.isSome), (0x0209, 1, p.ring.waiters.length), (0x020A, 2, p.ring.queue.length),
   (0x020C, 1, if 32 ≤ p.ring.queue.length then 1 else 0), (0x0210, 8, (p.ring.geometry.map fun g => g.base).getD 0),
   (0x0218, 4, (p.ring.geometry.map fun g => g.capacity).getD 0), (0x021C, 4, p.ring.assigned.toNat),
   (0x0220, 4, p.ring.published.toNat), (0x0224, 4, p.ring.consumer.toNat), (0x0228, 4, occupiedCount p),
   (0x022C, 4, reservedCount p), (0x0230, 4, freeCount p), (0x0234, 2, closeSlots p), (0x0236, 2, roundSlots p),
   (0x0238, 2, openInvoiceCount p), (0x023A, 2, yes p.ring.closingMark), (0x0244, 4, p.ring.purchases.toNat),
   (0x0248, 4, p.ring.payments.toNat)] ++
  [0, 1, 2, 3, 4, 5].map fun k => (0x023C + k, 1, (p.ring.waiters[k]?.map fun w => w.lane.val + 16 * w.need).getD 0)

/-- R184, R178, R182, 11.3: the attention area, but for its request fields; a kind, master or window that is none shows 255. -/
def attentionStatus (p : Part) : List (Nat × Nat × Nat) :=
  let a := p.attention
  let c := a.capture
  [(0x0300, 1, (c.kind.map fun k => k.num.val).getD 255), (0x0301, 1, (c.master.map fun m => m.val).getD 255),
   (0x0302, 1, c.mark.code), (0x0303, 1, (c.window.map fun v => v.val).getD 255), (0x0304, 1, c.direction.code),
   (0x0305, 1, yes c.locked), (0x0306, 1, c.lost), (0x0308, 8, c.address.toNat), (0x0310, 4, c.tick.toNat),
   (0x0320, 4, a.flags.toNat), (0x0328, 4, a.clearResult.cleared.toNat), (0x032C, 4, p.ticks.count.toNat),
   (0x0330, 1, a.clearResult.outcome.code), (0x0334, 4, a.releaseResult.lost), (0x0338, 1, a.releaseResult.outcome.code),
   (0x0339, 1, yes a.reportCorrected), (0x033A, 1, yes (a.attnLine .attnU)), (0x033B, 1, yes (a.attnLine .attnR)),
   (0x03A8, 4, a.corrected.toNat)] ++
  (List.finRange 18).map (fun k => (0x0340 + k.val, 1, a.map[k].code)) ++
  (List.finRange 18).map (fun k => (0x0360 + 4 * k.val, 4, a.counts[k].toNat))

/-- R46, R66, R158, 11.3: a lane's results, parameters and enable, by their offsets in the lane's area. -/
def laneShown (l : LaneUnit) : List (Nat × Nat × Nat) :=
  [(0x02, 1, l.commandResult.code), (0x03, 1, l.parameterResult.code), (0x04, 1, l.params.stepInterval),
   (0x05, 1, l.params.stopMode.code), (0x06, 2, l.params.defaultStep), (0x08, 4, l.params.defaultBump),
   (0x0C, 1, l.params.contenderWindow), (0x0D, 1, yes l.enabled), (0x0E, 2, l.params.preRoll), (0x10, 2, l.params.restartPause)]

/-- R73, 11.3: a lane's status, by its offsets in the lane's area. The round reservation shows 5 while any of it is unused (log 22), a
lane without a timer a count of 0 (log 23), and the return state is that of the last hold (log 36). -/
def laneStatusShown (p : Part) (i : Lane) : List (Nat × Nat × Nat) :=
  let l := p.lane i
  [(0x20, 1, l.state.code), (0x21, 1, l.ret.code), (0x22, 1, l.holds.code), (0x23, 1, l.pendingHolds.code),
   (0x24, 1, yes l.pendingWithdraw), (0x25, 1, yes l.stopLevel), (0x26, 1, l.timer.code), (0x27, 1, l.contenders.length),
   (0x28, 2, l.live.getD 65535), (0x2A, 2, l.round), (0x2C, 2, match l.timer with | .stopped => 0 | .counting _ n => n),
   (0x2E, 1, yes l.closeReserved), (0x2F, 1, if l.roundReserved = 0 then 0 else 5),
   (0x30, 1, if ∃ x ∈ p.ring.waiters, x.lane = i then 1 else 0), (0x34, 4, l.price), (0x38, 4, l.nextPrice)]

/-- R42, 11.3: a lane's track status, by its offsets in the lane's area. -/
def trackStatusShown (t : TrackLane) : List (Nat × Nat × Nat) :=
  [(0x40, 1, yes t.fault.stopped), (0x41, 1, t.fault.station.code), (0x42, 1, t.fault.reason.code), (0x43, 1, t.backlog.length),
   (0x44, 1, (t.late.map fun y => y.lots.length).sum), (0x45, 1, t.late.length), (0x46, 1, t.staging.length),
   (0x48, 4, t.fault.tick.toNat), (0x4C, 4, t.fault.tagSeen.toNat), (0x50, 4, t.fault.tagExpected.toNat),
   (0x54, 4, (firstTag t.staging).toNat), (0x58, 4, (firstTag t.display.toList).toNat), (0x5C, 4, t.discarded.toNat)]

/-- R148, 11.3: a lane's display status, by its offsets in the lane's area; an empty slot shows 65,535. -/
def displayStatusShown (d : DisplayLane) : List (Nat × Nat × Nat) :=
  let lotOf := fun m : Option MapSlot => (m.map fun m => m.lot).getD 65535
  [(0x60, 2, lotOf d.current), (0x62, 2, lotOf d.next1), (0x64, 2, lotOf d.next2), (0x68, 4, d.generation.toNat),
   (0x6C, 4, d.holeCount.toNat), (0x70, 2, d.lastUnits), (0x74, 4, d.lastBuyer)]

/-- R7, R13, R14, R16, R96, 11.3: the catalogue status and the press counters. -/
def countersShown (p : Part) : List (Nat × Nat × Nat) :=
  [(0x1800, 2, p.catalogue.lastRefusal.lot), (0x1802, 1, p.catalogue.lastRefusal.reason.code),
   (0x1804, 4, p.catalogue.lastRefusal.tick.toNat), (0x1808, 4, p.catalogue.placedCount.toNat),
   (0x180C, 4, p.catalogue.refusedCount.toNat), (0x1810, 4, p.catalogue.withdrawRefusals.toNat),
   (0x1900, 4, p.press.taken.toNat), (0x1904, 4, p.press.accepted.toNat), (0x1908, 4, p.press.refused.toNat),
   (0x190C, 4, p.press.duplicates.toNat)]

/-- R158, 11.3: the command and request fields, by offset and size, which an Anchor read answers from the shadow; of windows and masters
the descriptors and commit words. The day number is among them by the model's choice (log 38), and so are bits 36 and up of a base
(log 39). -/
def requestFields : List (Nat × Nat) :=
  [(0x0000, 1), (0x0002, 2), (0x0100, 2), (0x0108, 8), (0x0128, 2), (0x0200, 4), (0x0324, 4), (0x0331, 1)] ++
    (List.finRange 6).flatMap (fun i => [(laneAt i, 1), (laneAt i + 1, 1)]) ++
    ((List.finRange 16).filter fun v => v ≠ 0).flatMap (fun v => [(descriptorAt v, 8), (descriptorAt v + 0x08, 4),
      (descriptorAt v + 0x0C, 2), (descriptorAt v + 0x0E, 1), (descriptorAt v + 0x0F, 1), (descriptorAt v + 0x10, 1),
      (descriptorAt v + 0x18, 1)]) ++
    (List.finRange 8).flatMap fun m => [(masterAt m, 1), (masterAt m + 1, 1), (masterAt m + 2, 1), (masterAt m + 3, 1),
      (masterAt m + 4, 2), (masterAt m + 6, 2), (masterAt m + 8, 1)]

/-- R165, R166, 11.3: a window's commit result and the installed entry's fields, by their offsets in its descriptor. -/
def windowShown (p : Part) (v : Window) : List (Nat × Nat × Nat) :=
  [(0x19, 1, p.window.windowResults[v].result.code), (0x1A, 1, p.window.windowResults[v].reason.code),
   (0x1B, 1, yes p.window.cache[v].valid), (0x1C, 4, p.window.cache[v].pages)]

/-- R159, 11.3: a master's commit result, by its offsets in its descriptor. -/
def masterShown (p : Part) (m : Master) : List (Nat × Nat × Nat) :=
  [(0x09, 1, p.window.masterResults[m].result.code), (0x0A, 1, p.window.masterResults[m].reason.code)]

/-- R161: the place that an access's classification names: `offset` its own in the window, `first` that of its first enabled byte. -/
def PlaceNamed (kind : WindowKind) (offset first : Nat) (place : Place) : Prop :=
  (kind = .lot → place = .record (offset / 128)) ∧ (kind = .buyer → place = .record (offset / 64)) ∧
    (kind = .desk → place = .record (offset / 8)) ∧ (kind = .press → place = .press (first / 8192) (first % 8192 / 16)) ∧
    (kind = .track → place = .track (first / 64) (first % 64 / 16)) ∧ (kind = .reply → place = .reply (offset / 32)) ∧
    (kind = .display → place =
      .display (offset / 131072) (offset % 131072 / 32768) (offset % 32768 / 4096) (offset % 4096)) ∧
    (kind = .anchor ∨ kind = .guard ∨ kind = .ring → place = .none)

/-! ### The end of an event -/

/-- R48, R50, R62, R121: the Ring Waiters: lanes HELD with RING, none twice, with a need of 1 where they wait to put a lot up and of 5
where they wait for a round. -/
def WaitersSound (p : Part) : Prop :=
  (p.ring.waiters.map fun w => w.lane).Nodup ∧
    ∀ w ∈ p.ring.waiters, (p.lane w.lane).state = .held ∧ (p.lane w.lane).holds.ring = true ∧
      ((w.need = 1 ∧ (p.lane w.lane).ret = .idle) ∨ (w.need = 5 ∧ (p.lane w.lane).ret ≠ .idle))

/-- R122, R64: a waiter's lane served: it leaves the list, RING is gone, and the slots are its reservation. -/
def servedOne (p : Part) (w : Waiter) (rest : List Waiter) : Part :=
  let l := p.lane w.lane
  let l' := { l with holds := { l.holds with ring := false }, closeReserved := l.closeReserved || decide (w.need = 1),
                     roundReserved := if w.need = 1 then l.roundReserved else w.need }
  { p with ring := { p.ring with waiters := rest }, lanes := p.lanes.set w.lane l' }

/-- R122: the Ring Waiters served head first, until the list is empty or the head's need is above the free count. A served lane leaves
HELD where nothing else holds it (R65). -/
inductive ServedInOrder : Part → Part → Prop where
  | empty (p : Part) : p.ring.waiters = [] → ServedInOrder p p
  | stop (p : Part) (w : Waiter) (rest : List Waiter) : p.ring.waiters = w :: rest → freeCount p < w.need → ServedInOrder p p
  | serve (p q : Part) (w : Waiter) (rest : List Waiter) : p.ring.waiters = w :: rest → w.need ≤ freeCount p →
      ServedInOrder (leaveHeldIfFree (servedOne p w rest) w.lane) q → ServedInOrder p q

/-- R140: the lots of a lane's display order, Display Position, Staging List, Late List, Expected Queue, that are neither CLOSED nor
WITHDRAWN and are not the live lot. -/
def lotsComing (p : Part) (i : Lane) : List Nat :=
  let t := p.track i
  let order := (match t.display with | some y => y.lots | none => []) ++ (t.staging.map fun y => y.lots).flatten ++
    (t.late.map fun y => y.lots).flatten ++ p.expected i
  order.filter fun lot =>
    decide (p.lotState lot ≠ some .closed ∧ p.lotState lot ≠ some .withdrawn ∧ (p.lane i).live ≠ some lot)

/-- R139 to R142: `d` is lane `i`'s display state of `p` with its map rebuilt: CURRENT the live lot, NEXT1 and NEXT2 the first two lots
coming, each with a copy of its page list (of no page for a lot without host fields, log 30); the generation one higher where a slot holds
another lot or has changed between empty and filled; the counts and the last strike as they were. -/
def MapRebuilt (p : Part) (i : Lane) (d : DisplayLane) : Prop :=
  let old := p.display i
  let slot := fun lot : Nat => MapSlot.mk lot (match p.host lot with | some h => h.pages | none => Vector.replicate 8 0)
  let lotIn := fun s : Option MapSlot => s.map fun m => m.lot
  d.current = (p.lane i).live.map slot ∧ d.next1 = (lotsComing p i)[0]?.map slot ∧ d.next2 = (lotsComing p i)[1]?.map slot ∧
    (lotIn old.current = lotIn d.current ∧ lotIn old.next1 = lotIn d.next1 ∧ lotIn old.next2 = lotIn d.next2 →
      d.generation = old.generation) ∧
    (lotIn old.current ≠ lotIn d.current ∨ lotIn old.next1 ≠ lotIn d.next1 ∨ lotIn old.next2 ≠ lotIn d.next2 →
      d.generation = old.generation + 1) ∧
    d = { old with current := d.current, next1 := d.next1, next2 := d.next2, generation := d.generation, notified := false }

/-- R133, R141: what the end of an event does once the waiters are served and have left `r`: RING-LOW raised where `low` holds, and
the map of every lane that was told of a change, and of no other, rebuilt. -/
def EventEnds (r q : Part) (low : Prop) : Prop :=
  q = { r with displays := q.displays, attention := q.attention } ∧ (low → Raised r.attention q.attention .ringLow) ∧
    (¬ low → q.attention = r.attention) ∧ QuietPart q ∧ (∀ i, (r.display i).notified = false → q.display i = r.display i) ∧
    ∀ i, (r.display i).notified = true → MapRebuilt r i (q.display i)

/-! ### The Store Port -/

/-- R177: the origin of a Store Port transaction, reported with an error kind. -/
def originOf (t : Transaction) (kind : EventKind) : ErrorReport :=
  match t with
  | .forwardWrite w =>
    { kind := kind, master := some w.master, mark := .none, window := w.window, address := w.address, direction := .write }
  | .forwardRead r _ =>
    { kind := kind, master := some r.master, mark := .none, window := r.window, address := r.address, direction := .read }
  | .fetch _ address => { kind := kind, master := none, mark := .fetch, window := none, address := address, direction := .read }
  | .writeBack _ address _ =>
    { kind := kind, master := none, mark := .writeBack, window := none, address := address, direction := .write }
  | .ringRecord _ address _ =>
    { kind := kind, master := none, mark := .ringRecord, window := none, address := address, direction := .write }

/-- R169, R170, R183: the Attention Unit after an answer that ends a transaction. -/
def AnswerNoted (p : Part) (a' : AttentionUnit) (t : Transaction) (answer : FinalAnswer) : Prop :=
  let a := p.attention
  let counted := { a with corrected := a.corrected + 1 }
  (answer = .ok → a' = a) ∧
  (answer = .okCorrected → a.reportCorrected = false → a' = counted) ∧
  (answer = .okCorrected → a.reportCorrected = true → Reported counted a' (originOf t .dramCorrected) p.ticks.count) ∧
  (answer = .uncorrectable → Reported a a' (originOf t .dramUncorrectable) p.ticks.count)

/-- R169: the port free again, with the Attention Unit as the answer left it. -/
def portFreed (p : Part) (a : AttentionUnit) : Part :=
  { p with store := { p.store with inFlight := none }, attention := a }

/-- R169: a forwarded read ended: its place free, its master answered, the grant ended. -/
def readEnded (p : Part) (r : ForwardedRead) (answer : Answer) (a : AttentionUnit) : Part :=
  { portFreed p a with
    store := { p.store with inFlight := none, forwardRead := none },
    floor := { p.floor with grant := none, read := none, response := some { master := r.master, answer := answer } } }

/-- R170: a forwarded write ended: its place free. -/
def writeEnded (p : Part) (a : AttentionUnit) : Part :=
  { portFreed p a with store := { p.store with inFlight := none, forwardWrite := none } }

/-- R168: how many requesters stand between the last granted and `r` in the round order. -/
def roundPlace (last r : Requester) : Nat :=
  let number : Requester → Nat := fun x => match x with | .forward => 0 | .catalogue => 1 | .ringWriter => 2
  (number r + 2 - number last) % 3

/-- R8: the fetch read that the Listing Queue's head offers: the lower line, then the upper; not while the write that carried its LIST
request stands on that line (log 12). -/
def FetchOffered (p : Part) (t : Transaction) : Prop :=
  ∃ e rest d, p.catalogue.listing = e :: rest ∧ p.digest e.lot = some d ∧
    ∃ address, address = (if p.catalogue.fetchLower = none then d.address else d.address + 64) ∧
      (∀ w, p.store.forwardWrite = some w → w.listedLot = some e.lot → w.address.toNat / 64 ≠ address.toNat / 64) ∧
      t = .fetch e.lot address

/-- R18: the write-back of an entry, with its lot's owned fields as they stand, at the owned-field area of the record. -/
def WriteBackFor (p : Part) (e : WriteBackEntry) (t : Transaction) : Prop :=
  ∃ d, p.digest e.lot = some d ∧ t = .writeBack e (d.address + 0x68) (beatsAt (layoutByte d.owned.layout) 0x68 3)

/-- R18: the write-back that the queue's head offers. -/
def WriteBackOffered (p : Part) (t : Transaction) : Prop :=
  ∃ e rest, p.catalogue.writeBacks = e :: rest ∧ WriteBackFor p e t

/-- R168: what a requester presents. A write-back to be issued afresh goes before anything else of the Catalogue requester (log 11). -/
def Presents (p : Part) (r : Requester) (t : Transaction) : Prop :=
  match r with
  | .forward =>
    (∃ w, p.store.forwardWrite = some w ∧ t = .forwardWrite w) ∨
      (p.store.forwardWrite = none ∧ ∃ x, p.store.forwardRead = some x ∧ t = .forwardRead x false)
  | .catalogue =>
    (∃ e, p.catalogue.writeBackOut = some e ∧ WriteBackFor p e t) ∨
      (p.catalogue.writeBackOut = none ∧
        ((FetchOffered p t ∧ (p.store.turn = .writeBack ∨ ∀ u, ¬ WriteBackOffered p u)) ∨
          (WriteBackOffered p t ∧ (p.store.turn = .fetchRead ∨ ∀ u, ¬ FetchOffered p u))))
  | .ringWriter =>
    ∃ x rest g, p.ring.queue = x :: rest ∧ p.ring.geometry = some g ∧
      t = .ringRecord x (BitVec.ofNat 36 (g.base + x.index.toNat % g.capacity * 64)) (beatsAt (layoutByte x.layout) 0 8)

/-! ### Fetches, write-backs and published records -/

/-- R18: a write-back of a lot waits in the queue. -/
def WriteBackQueued (p : Part) (lot : Nat) : Prop := ∃ e ∈ p.catalogue.writeBacks, e.lot = lot

/-- R18: a write-back of a lot requested: `old` and `new` are the queue before and after. The lot joins the tail, unless an entry of it
waits in the queue; that entry then stands for both requests. -/
def WriteBackJoined (old new : List WriteBackEntry) (lot : Nat) (forClose : Bool) : Prop :=
  ((∀ e ∈ old, e.lot ≠ lot) → new = old ++ [{ lot := lot, forClose := forClose }]) ∧
    ∀ before e after, old = before ++ e :: after → e.lot = lot → (∀ x ∈ before, x.lot ≠ lot) →
      new = before ++ { lot := lot, forClose := e.forClose || forClose } :: after

/-- R18: write-backs of several lots requested one after the other. -/
def WriteBacksJoined : List Nat → List WriteBackEntry → List WriteBackEntry → Prop
  | [], old, new => new = old
  | lot :: rest, old, new => ∃ between, WriteBackJoined old between lot false ∧ WriteBacksJoined rest between new

/-- R19: a write-back of the lot is waiting or in flight. -/
def WriteBackDue (p : Part) (lot : Nat) : Prop :=
  WriteBackQueued p lot ∨ ∃ e, p.catalogue.writeBackOut = some e ∧ e.lot = lot

/-- R19: the reason for being known of a lot ends, `d` and `d'` its digest before and after: freed at once, or with its reason marked
ended where a write-back of it is due in `p`. -/
def Released (p : Part) (lot : Nat) (d d' : Option Digest) : Prop :=
  (WriteBackDue p lot → d' = d.map fun d => { d with ended := true }) ∧ (¬ WriteBackDue p lot → d' = none)

/-- R9: a listing that ends WITHDRAWN; `b` is the part with the listing out of its queue. -/
def ListingWithdrawn (b q : Part) (lot : Nat) (d : Digest) : Prop :=
  q.digest lot = some { d with owned := { d.owned with state := .withdrawn, closeTick := b.ticks.count }, ended := true } ∧
    (∀ k, k ≠ lot → q.digest k = b.digest k) ∧ WriteBackJoined b.catalogue.writeBacks q.catalogue.writeBacks lot false ∧
    q = { b with catalogue := { b.catalogue with known := q.catalogue.known, writeBacks := q.catalogue.writeBacks } }

/-- R13: a listing refused. -/
def ListingRefused (b q : Part) (lot : Nat) (d : Digest) (reason : RefusalReason) : Prop :=
  q.digest lot = some { d with
      owned := { state := .refused, reason := reason, result := .none, remaining := 0, sold := 0, withdrawn := 0, strikes := 0,
                 lastPrice := 0, closeTick := 0 },
      ended := true } ∧
    (∀ k, k ≠ lot → q.digest k = b.digest k) ∧ WriteBackJoined b.catalogue.writeBacks q.catalogue.writeBacks lot false ∧
    q = { b with
      catalogue := { b.catalogue with
        known := q.catalogue.known, writeBacks := q.catalogue.writeBacks,
        lastRefusal := { lot := lot, reason := reason, tick := b.ticks.count }, refusedCount := b.catalogue.refusedCount + 1 },
      attention := q.attention } ∧
    Raised b.attention q.attention .listingRefused

/-- R14: a lot placed in its lane's Expected Queue, in rising order of sequence. -/
def LotPlaced (b q : Part) (i : Lane) (lot : Nat) (h : HostFields) (d : Digest) : Prop :=
  q.digest lot = some { d with
      host := some h,
      owned := { state := .expected, reason := .none, result := .none, remaining := h.units, sold := 0, withdrawn := 0, strikes := 0,
                 lastPrice := 0, closeTick := 0 } } ∧
    (∀ k, k ≠ lot → q.digest k = b.digest k) ∧ WriteBackJoined b.catalogue.writeBacks q.catalogue.writeBacks lot false ∧
    (∃ before after, b.expected i = before ++ after ∧ q.expected i = before ++ lot :: after ∧
      (∀ k ∈ before, b.sequenceOf k < h.sequence) ∧ ∀ k rest, after = k :: rest → h.sequence ≤ b.sequenceOf k) ∧
    (∀ j, j ≠ i → q.expected j = b.expected j) ∧ Told b q i ∧
    q = { b with
      catalogue := { b.catalogue with
        known := q.catalogue.known, writeBacks := q.catalogue.writeBacks, expected := q.catalogue.expected,
        placedCount := b.catalogue.placedCount + 1 },
      displays := q.displays }

/-- R11: every host field lies in its range. -/
def FieldsInRange (h : HostFields) : Prop :=
  h.lane ≤ 5 ∧ h.sequence ≠ 0 ∧ h.tag ≠ 0 ∧ 1 ≤ h.position ∧ h.position ≤ 4 ∧ 1 ≤ h.units ∧ h.units ≤ 999 ∧ 1 ≤ h.pieces ∧
    h.pieces ≤ 1000 ∧ h.floorPrice ≠ 0 ∧ h.startPrice ≤ 999999 ∧ h.floorPrice ≤ h.startPrice ∧ h.step ≤ 9999 ∧ h.minimum ≠ 0 ∧
    h.minimum ≤ h.units ∧ h.bump ≤ 99999 ∧ ∀ page ∈ h.pages.toList, page.toNat % 4096 = 0 ∧ page.toNat < 2 ^ 36

/-- The trolleys of a lane beyond its Expected Queue. -/
def trolleysBeyond (p : Part) (j : Lane) : List Trolley :=
  (p.track j).late ++ (p.track j).staging ++ (p.track j).display.toList

/-- R12, TROLLEY-MOVED: the tag stands beyond lane `i`'s Expected Queue, or in another lane. -/
def TagElsewhere (p : Part) (i : Lane) (tag : Word32) : Prop :=
  ∃ j, (∃ y ∈ trolleysBeyond p j, y.tag = tag) ∨ (j ≠ i ∧ ∃ k ∈ p.expected j, p.tagOf k = tag)

/-- R12, DUPLICATE-SEQUENCE. -/
def SequenceTaken (p : Part) (i : Lane) (sequence : Nat) : Prop :=
  (∃ k ∈ p.expected i, p.sequenceOf k = sequence) ∨
    ∃ y ∈ trolleysBeyond p i, ∃ k ∈ y.lots, p.sequenceOf k = sequence

/-- R12, TROLLEY-SPLIT. -/
def SplitsTrolley (p : Part) (i : Lane) (tag : Word32) (sequence : Nat) : Prop :=
  let queue := p.expected i
  ((∃ a ∈ queue, p.tagOf a = tag) ∧ ∃ k ∈ queue, p.tagOf k ≠ tag ∧
    (sequence < p.sequenceOf k ∨ ∃ a ∈ queue, p.tagOf a = tag ∧ p.sequenceOf a < p.sequenceOf k) ∧
    (p.sequenceOf k < sequence ∨ ∃ a ∈ queue, p.tagOf a = tag ∧ p.sequenceOf k < p.sequenceOf a)) ∨
  ((∀ a ∈ queue, p.tagOf a ≠ tag) ∧ ∃ a ∈ queue, ∃ c ∈ queue,
    p.tagOf a = p.tagOf c ∧ p.sequenceOf a < sequence ∧ sequence < p.sequenceOf c)

/-- R10: conditions 3 to 8, for a lot of lane `i`: the first that fails, in their order. -/
def LaneRefuses (p : Part) (i : Lane) (h : HostFields) (reason : RefusalReason) : Prop :=
  let enabled := (p.lane i).enabled = true
  let elsewhere := TagElsewhere p i h.tag
  let sequence := SequenceTaken p i h.sequence
  let position := ∃ k ∈ p.expected i, p.tagOf k = h.tag ∧ p.positionOf k = h.position
  let splits := SplitsTrolley p i h.tag h.sequence
  let full := 64 ≤ (p.expected i).length
  (reason = .laneDisabled ∧ ¬ enabled) ∨ (reason = .trolleyMoved ∧ enabled ∧ elsewhere) ∨
    (reason = .duplicateSequence ∧ enabled ∧ ¬ elsewhere ∧ sequence) ∨
    (reason = .positionTaken ∧ enabled ∧ ¬ elsewhere ∧ ¬ sequence ∧ position) ∨
    (reason = .trolleySplit ∧ enabled ∧ ¬ elsewhere ∧ ¬ sequence ∧ ¬ position ∧ splits) ∨
    (reason = .queueFull ∧ enabled ∧ ¬ elsewhere ∧ ¬ sequence ∧ ¬ position ∧ ¬ splits ∧ full)

/-- R8, R9, R10: the fetch of the Listing Queue's head complete: `record` the host fields read, or none for DATA-ERROR; `b` is the part
with the listing out of its queue. -/
def FetchCompletes (b q : Part) (e : ListingEntry) (d : Digest) (record : Option HostFields) : Prop :=
  (e.withdrawPending = true → ListingWithdrawn b q e.lot d) ∧
  (e.withdrawPending = false → record = none → ListingRefused b q e.lot d .dataError) ∧
  (e.withdrawPending = false → ∀ h, record = some h →
    (b.window.dayState ≠ .opened → ListingRefused b q e.lot d .dayNotOpen) ∧
    (b.window.dayState = .opened → ¬ FieldsInRange h → ListingRefused b q e.lot d .badField) ∧
    (b.window.dayState = .opened → FieldsInRange h → ∀ i : Lane, i.val = h.lane →
      (∀ reason, LaneRefuses b i h reason → ListingRefused b q e.lot d reason) ∧
      ((∀ reason, ¬ LaneRefuses b i h reason) → LotPlaced b q i e.lot h d)))

/-- R8: the listing whose fetch completes out of its queue, after the answer. -/
def listingOut (p : Part) (a : AttentionUnit) (rest : List ListingEntry) : Part :=
  { portFreed p a with catalogue := { p.catalogue with listing := rest, fetchLower := none } }

/-- R58: lane `i` leaves CLOSING: its live lot and pending withdraw cleared and its pending holds made hold reasons; HELD with any
reason, else IDLE with a look. -/
def LeavesClosing (b q : Part) (i : Lane) : Prop :=
  let l := b.lane i
  let idle := { l with live := none, pendingWithdraw := false, holds := l.holds.union l.pendingHolds, pendingHolds := HoldSet.none,
                       state := LaneState.idle, timer := Timer.stopped }
  ∃ r, r = { b with lanes := r.lanes, displays := r.displays } ∧ Told b r i ∧
    (l.holds.union l.pendingHolds ≠ HoldSet.none → LaneSet b r i { idle with state := .held, ret := .idle } ∧ q = r) ∧
    (l.holds.union l.pendingHolds = HoldSet.none → LaneSet b r i idle ∧ q = look r i)

/-- R19: a lot's digest freed where its reason for being known has ended and no write-back of it is outstanding. -/
def FreedIfDone (b q : Part) (lot : Nat) : Prop :=
  let done := (∃ d, b.digest lot = some d ∧ d.ended = true) ∧ ¬ WriteBackQueued b lot ∧
    ∀ e, b.catalogue.writeBackOut = some e → e.lot ≠ lot
  (done → q.digest lot = none) ∧ (¬ done → q.digest lot = b.digest lot) ∧ (∀ k, k ≠ lot → q.digest k = b.digest k) ∧
    q = { b with catalogue := { b.catalogue with known := q.catalogue.known } }

/-- R57, R41, R19: the close of lane `i`'s lot, of digest `d`, completes: CLOSED in its digest, its close write-back requested,
LOT-CLOSED raised; a Display Position kept on a CLOSING day is emptied, which ends its lots' reasons for being known. -/
def CloseCompletes (b q : Part) (i : Lane) (lot : Nat) (d : Digest) : Prop :=
  let closed := fun k => if k = lot then some { d with owned := { d.owned with state := .closed } } else b.digest k
  q = { b with catalogue := { b.catalogue with known := q.catalogue.known, writeBacks := q.catalogue.writeBacks },
               tracks := q.tracks, displays := q.displays, attention := q.attention } ∧
    WriteBackJoined b.catalogue.writeBacks q.catalogue.writeBacks lot true ∧ Raised b.attention q.attention .lotClosed ∧
    (∀ j, j ≠ i → q.track j = b.track j) ∧
    (b.window.dayState = .closing → q.track i = { b.track i with display := none }) ∧
    (b.window.dayState ≠ .closing ∨ (b.track i).display = none →
      q.track i = b.track i ∧ q.displays = b.displays ∧ ∀ k, q.digest k = closed k) ∧
    (b.window.dayState = .closing → ∀ y, (b.track i).display = some y → Told b q i ∧
      (∀ k, k ∉ y.lots → q.digest k = closed k) ∧ ∀ k ∈ y.lots, Released q k (closed k) (q.digest k))

/-! ### The day close -/

/-- R20, R40: a Display Position kept at DAY-CLOSE: it holds the lane's live lot, whose close has not completed. -/
def KeptAtClose (p : Part) (i : Lane) (y : Trolley) : Prop :=
  ∃ lot ∈ y.lots, (p.lane i).live = some lot ∧ p.lotState lot = some .live

/-- R20, R40: a lot that DAY-CLOSE removes from a place of lane `i`. -/
def FlushedFrom (p : Part) (i : Lane) (lot : Nat) : Prop :=
  lot ∈ p.expected i ∨ (∃ y ∈ (p.track i).late ++ (p.track i).staging, lot ∈ y.lots) ∨
    ∃ y, (p.track i).display = some y ∧ ¬ KeptAtClose p i y ∧ lot ∈ y.lots

/-- R20: a digest at DAY-CLOSE before the places are emptied: a lot not yet live is made WITHDRAWN as R16 says; any other, LIVE and
CLOSED lots among them, is as it was. -/
def digestAtClose (p : Part) (lot : Nat) : Option Digest :=
  (p.digest lot).map fun d =>
    if d.owned.state = .expected ∨ d.owned.state = .late ∨ d.owned.state = .staged ∨ d.owned.state = .atClock then
      { d with owned := { d.owned with
        withdrawn := d.owned.remaining, remaining := 0, state := .withdrawn, closeTick := p.ticks.count } }
    else d

/-- R191, R20, R40: `r` is what DAY-CLOSE leaves of the OPEN day of `p`, CLOSING, before the day's end is judged; `order` is the order
of the write-backs of the lots not yet live. -/
def DayFlushed (p r : Part) (w : PostedWrite) (order : List Nat) : Prop :=
  r = { anchorOnly p w with
        window := { (anchorOnly p w).window with dayResult := .done, dayState := .closing },
        catalogue := { p.catalogue with
          known := r.catalogue.known, writeBacks := r.catalogue.writeBacks, expected := r.catalogue.expected,
          listing := p.catalogue.listing.map fun e => { e with withdrawPending := true } },
        tracks := r.tracks, displays := r.displays, freeDraws := r.freeDraws } ∧
    order.Nodup ∧ (∀ lot, lot ∈ order ↔ ∃ d, p.digest lot = some d ∧ d.owned.state.notYetLive = true) ∧
    WriteBacksJoined order p.catalogue.writeBacks r.catalogue.writeBacks ∧
    (∀ lot, ((∀ i, ¬ FlushedFrom p i lot) → r.digest lot = digestAtClose p lot) ∧
      ((∃ i, FlushedFrom p i lot) → Released r lot (digestAtClose p lot) (r.digest lot))) ∧
    ∀ i, r.expected i = [] ∧ r.display i = { p.display i with notified := true } ∧
      r.track i = { p.track i with
        late := [], staging := [], backlog := [], fault := { (p.track i).fault with stopped := false },
        display := (r.track i).display } ∧
      ((p.track i).display = none → (r.track i).display = none) ∧
      ∀ y, (p.track i).display = some y →
        (KeptAtClose p i y → (r.track i).display = some y) ∧ (¬ KeptAtClose p i y → (r.track i).display = none)

/-- R193, R116: the day of `p` ends, with no live lot left: every open invoice closed in rising order of buyer index, which leaves `r`,
then the closing DAY-MARK created in its reservation, the day CLOSED and DAY-CLOSED raised. -/
def DayEnds (p q : Part) : Prop :=
  ∃ r, r = (openBuyers p).foldl closeInvoice p ∧
    q = { r with
      window := { r.window with dayState := .closed },
      ring := { r.ring with
        queue := r.ring.queue ++ [dayMarked p r.ring .closing p.window.dayNumber],
        assigned := r.ring.assigned + 1, purchases := 0, payments := 0, closingMark := false },
      attention := q.attention } ∧
    Raised r.attention q.attention .dayClosed

end Sys2Proof.Safety
end

