-- ==== Sys2Proof/Certificates/Slice0/Obligations.lean ====
section
/-! DEFINITION. The statements for the provers. Each is a closed proposition about the machine of Sys2Proof/Machine; OBLIGATIONS.json
says what each formalises. -/

open Sys2Proof Sys2Proof.Machine Sys2Proof.Safety

/-! ### The machine -/

/-- A step with a command at the front of the queue is that command's execution on the state with the queue's rest. -/
def Obligations.StepTakesFrontCommand : Prop :=
  ∀ (s : State) (c : Instr) (rest : List Instr), s.pending = c :: rest → step s = exec c { s with pending := rest }

/-- Every command with the form of R150 answers a next state with the queue as it was; operands that form no transaction stop the
model (its own choice, log 3). -/
def Obligations.WellFormedCommandsComplete : Prop :=
  (∀ (c : Instr) (s : State), c.wellFormed = true → ∃ t, exec c s = .next t ∧ t.pending = s.pending) ∧
  (∀ (s : State) (address : Address) (beats : List WriteBeat), transactionForm address beats.length = false →
    exec (.floorBusWrite address beats) s = .fault .notATransaction) ∧
  (∀ (s : State) (address : Address) (n : Nat), transactionForm address n = false →
    exec (.floorBusRead address n) s = .fault .notATransaction)

/-! ### Resets (POWER_ON, RESETN) -/

/-- R21, R43, R46, R74, R97, R117, R136, R149: the catalogue, the tracks, the lanes, desks, buyers, the ring and the displays after either
reset. -/
def Obligations.ResetEmptiesTheUnits : Prop :=
  ∀ (pins : SampledPins) (s : State) (c : Instr), c = .powerOn pins ∨ c = .resetn pins →
    ∃ t, exec c s = .next t ∧
      t.part.catalogue =
        { known := [], listing := [], fetchLower := none, expected := Vector.replicate 6 [], writeBacks := [], writeBackOut := none,
          lastRefusal := { lot := 0, reason := .none, tick := 0 }, placedCount := 0, refusedCount := 0, withdrawRefusals := 0 } ∧
      (∀ i, t.part.track i =
        { late := [], staging := [], display := none, backlog := [], discarded := 0,
          fault := { stopped := false, station := .gate, tagSeen := 0, tagExpected := 0, reason := .none, tick := 0 } }) ∧
      (∀ i, t.part.lane i =
        { state := .idle, ret := .idle, holds := { host := false, stop := false, track := false, ring := false },
          pendingHolds := { host := false, stop := false, track := false, ring := false }, pendingWithdraw := false, live := none,
          price := 0, nextPrice := 0, round := 0, timer := .stopped, closeReserved := false, roundReserved := 0, contenders := [],
          params := { stepInterval := 10, defaultStep := 10, defaultBump := 0, contenderWindow := 5, preRoll := 0,
                      restartPause := 20, stopMode := .falling },
          enabled := false, stopLevel := pins.stopLevels.getLsbD i.val, commandResult := .none, parameterResult := .none }) ∧
      (∀ k, t.part.desk k =
        { buyer := 0, lastSequence := none, duplicates := 0,
          reply := { count := 0, lastAccepted := 0, reported := 0, outcome := .none, reason := .none, lane := 0, lot := 0, units := 0,
                     position := 0, price := 0, amount := 0, credit := 0 } }) ∧
      t.part.press.taken = 0 ∧ t.part.press.accepted = 0 ∧ t.part.press.refused = 0 ∧ t.part.press.duplicates = 0 ∧
      (∀ k, t.part.buyer k =
        { external := 0, status := .blocked, laneMask := 0, limit := 0, exposure := 0, invoice := 0, lines := 0, total := 0 }) ∧
      openInvoiceCount t.part = 0 ∧ t.part.account.invoiceCounter = 1 ∧
      t.part.account.paymentResult = { outcome := .none, applied := 0, exposureAfter := 0 } ∧
      t.part.account.closeResult = { outcome := .none, number := 0, lines := 0, total := 0 } ∧
      t.part.ring =
        { geometry := none, assigned := 0, published := 0, consumer := 0, waiters := [], queue := [], threshold := 0, purchases := 0,
          payments := 0, closingMark := false, consumerResult := .none } ∧
      reservedCount t.part = 0 ∧
      (∀ i, t.part.display i =
        { current := none, next1 := none, next2 := none, generation := 0, holeCount := 0, lastUnits := 0, lastBuyer := 0,
          notified := false })

/-- R157, R159, R173, R185, R186, R187: the Floor Port, the Window Unit with the day, the Store Port, the Attention Unit and the tick
count after either reset. FB_RSTn keeps its level, no response stands, and the levels of the Anchor's own entry are 0 (the model's
choices, logs 17, 29 and 37). -/
def Obligations.ResetClearsBusWindowsPortAndAttention : Prop :=
  ∀ (pins : SampledPins) (s : State) (c : Instr), c = .powerOn pins ∨ c = .resetn pins →
    ∃ t, exec c s = .next t ∧
      t.part.floor =
        { grant := none, fbResetLow := s.part.floor.fbResetLow, lastHigh := 0, lastNormal := 0, streak := 0, buffer := [],
          read := none, response := none } ∧
      (∀ w : Window, t.part.window.cache[w] =
        { valid := decide (w = 0), kind := .anchor,
          base := if w = 0 then pins.anchorSel.toNat * 0x40000000 + 0x3FFF0000 else 0,
          pages := if w = 0 then 16 else 0, readLevel := 0, writeLevel := 0, recordLimit := 0 }) ∧
      (∀ m : Master, t.part.window.masters[m] =
        { role := if m = 0 then .control else .plain, privilege := if m = 0 then 0 else 3,
          grantClass := if m = 0 then .high else .normal, firstDesk := 0, deskCount := 0, laneMask := 0 }) ∧
      (∀ k, Memory.read t.part.window.shadow k = 0) ∧
      (∀ w : Window, t.part.window.windowResults[w] = { result := .none, reason := .none }) ∧
      (∀ m : Master, t.part.window.masterResults[m] = { result := .none, reason := .none }) ∧
      t.part.window.anchorSel = pins.anchorSel ∧ t.part.window.dayState = .closed ∧ t.part.window.dayNumber = 0 ∧
      t.part.window.dayResult = .none ∧
      t.part.store =
        { lastGranted := .ringWriter, forwardWrite := none, forwardRead := none, inFlight := none, turn := .fetchRead } ∧
      t.part.attention.capture =
        { kind := none, master := none, mark := .none, window := none, address := 0, direction := .read, tick := 0, locked := false,
          lost := 0 } ∧
      t.part.attention.flags = 0 ∧
      (∀ k : Fin 18, t.part.attention.map[k] = if k = EventKind.dramUncorrectable.num then .attnU else .none) ∧
      t.part.attention.reportCorrected = false ∧ (∀ k : Fin 18, t.part.attention.counts[k] = 0) ∧ t.part.attention.corrected = 0 ∧
      t.part.attention.clearResult = { outcome := .none, cleared := 0 } ∧
      t.part.attention.releaseResult = { outcome := .none, lost := 0 } ∧
      t.part.attention.attnLine .attnU = false ∧ t.part.attention.attnLine .attnR = false ∧
      t.part.ticks = { count := 0, refSel := pins.refSel }

/-! ### Pins: FB_RSTn, the hall tick, the stop inputs -/

/-- R172: FB_RSTN withdraws every grant, abandons the read and sets the arbiter back; everything else goes on. On its release the
arbiter makes its next choice (GRANT_CHOICE) from the requests then raised. That the abandoned transaction goes on marked, and
that nothing is granted or presented while FB_RSTn is low, are the model's reading (logs 13 and 2). -/
def Obligations.FloorBusResetFreesTheBus : Prop :=
  (∀ s : State, ∃ t, exec .fbRstn s = .next t ∧
    t.part.floor = { s.part.floor with grant := none, read := none, fbResetLow := true, lastHigh := 0, lastNormal := 0, streak := 0 } ∧
    t.part.store.forwardRead = none ∧
    t.part = { s.part with floor := t.part.floor, store := { s.part.store with forwardRead := none, inFlight := t.part.store.inFlight } } ∧
    (∀ r n, s.part.store.inFlight = some { transaction := .forwardRead r false, retries := n } →
      t.part.store.inFlight = some { transaction := .forwardRead r true, retries := n }) ∧
    ((∀ r n, s.part.store.inFlight ≠ some { transaction := .forwardRead r false, retries := n }) →
      t.part.store.inFlight = s.part.store.inFlight)) ∧
  (∀ s : State, s.part.floor.fbResetLow = true →
    (∀ requests, exec (.grantChoice requests) s = .next s) ∧
    (∀ address beats, transactionForm address beats.length = true → exec (.floorBusWrite address beats) s = .next s) ∧
    (∀ address n, transactionForm address n = true → exec (.floorBusRead address n) s = .next s) ∧
    (s.part.floor.grant = none → ∀ requests, ∃ t, exec (.fbRstnRelease requests) s = .next t ∧
      exec (.grantChoice requests) { s with part := { s.part with floor := { s.part.floor with fbResetLow := false } } } = .next t ∧
      t.part.floor.fbResetLow = false))

/-- R185, R45: a hall tick adds 1 to the tick count, wrapping, and is taken by every lane's counting timer; nothing else changes. An
expiry is a command of its own, due at a count of 0 (log 5). -/
def Obligations.HallTickCounts : Prop :=
  ∀ s : State, ∃ t, exec .hallTick s = .next t ∧
    t.part = { s.part with ticks := { s.part.ticks with count := s.part.ticks.count + 1 }, lanes := t.part.lanes } ∧
    ∀ i, ((s.part.lane i).timer = .stopped → t.part.lane i = s.part.lane i) ∧
      ∀ k n, (s.part.lane i).timer = .counting k n → t.part.lane i = { s.part.lane i with timer := .counting k (n - 1) }

/-- R70, R71: a change of a stop input's filtered level acts as the lane's stop mode says: it adds STOP and raises the STOP event, or it
only changes the level; then the event ends as every event does, with the Ring Waiters served. Where no lane waits, the end of the event
changes at most which lanes the Display Mapper is told of. The same level again is no change (log 28). -/
def Obligations.StopInputActsByMode : Prop :=
  ∀ (s : State) (i : Lane) (level : Bool),
    ∃ t q, exec (.stopInputChange i level) s = .next t ∧ t.part = settle s.part q ∧
      q = { s.part with lanes := q.lanes, attention := q.attention } ∧
      (level = (s.part.lane i).stopLevel → q = s.part) ∧
      (level ≠ (s.part.lane i).stopLevel →
        (stopChangeActs (s.part.lane i).params.stopMode level →
          HoldAdded { s.part.lane i with stopLevel := level } (q.lane i) .stop ∧ Raised s.part.attention q.attention .stop) ∧
        (¬ stopChangeActs (s.part.lane i).params.stopMode level →
          q.lane i = { s.part.lane i with stopLevel := level } ∧ q.attention = s.part.attention)) ∧
      (∀ j, j ≠ i → q.lane j = s.part.lane j) ∧
      (s.part.ring.waiters = [] → t.part = { q with displays := t.part.displays } ∧ (QuietPart s.part → t.part = q))

/-! ### The Floor Bus -/

/-- R151: the arbiter's choice, when the bus is free, by the first case that applies; with no request nothing is granted, and while
a grant stands no choice is made. A choice that cannot occur changes nothing (log 2). -/
def Obligations.ArbiterGrantsByClassAndTurn : Prop :=
  ∀ (s : State) (requests : BitVec 8),
    (s.part.floor.grant ≠ none → exec (.grantChoice requests) s = .next s) ∧
    (s.part.floor.grant = none → s.part.floor.fbResetLow = false →
      (∀ n, s.part.floor.streak = 4 → NextOf s.part requests .normal s.part.floor.lastNormal n →
        ∃ t, exec (.grantChoice requests) s = .next t ∧
          t.part = { s.part with floor := { s.part.floor with grant := some n, lastNormal := n, streak := 0 } }) ∧
      (∀ h, NextOf s.part requests .high s.part.floor.lastHigh h → Requested s.part requests .normal → s.part.floor.streak ≠ 4 →
        ∃ t, exec (.grantChoice requests) s = .next t ∧
          t.part = { s.part with floor := { s.part.floor with grant := some h, lastHigh := h, streak := s.part.floor.streak + 1 } }) ∧
      (∀ h, NextOf s.part requests .high s.part.floor.lastHigh h → ¬ Requested s.part requests .normal →
        ∃ t, exec (.grantChoice requests) s = .next t ∧
          t.part = { s.part with floor := { s.part.floor with grant := some h, lastHigh := h, streak := 0 } }) ∧
      (∀ n, NextOf s.part requests .normal s.part.floor.lastNormal n → ¬ Requested s.part requests .high →
        ∃ t, exec (.grantChoice requests) s = .next t ∧
          t.part = { s.part with floor := { s.part.floor with grant := some n, lastNormal := n, streak := 0 } }) ∧
      (¬ Requested s.part requests .high → ¬ Requested s.part requests .normal → exec (.grantChoice requests) s = .next s))

/-- R152, R153, R155: a WRITE presented under a grant is classified and joins the buffer's tail with ACCEPT while the buffer holds
fewer than 8 writes; with 8 it is answered BACKOFF and leaves no trace. Its grant ends. A READ presented under a grant is
classified and holds the bus: its grant stands, and while it holds the bus no other transaction is presented. A transaction that
cannot be presented, without a grant or while a read holds the bus, changes nothing (log 2). -/
def Obligations.TransactionIsAcceptedTurnedAwayOrHoldsTheBus : Prop :=
  (∀ (s : State) (m : Master) (address : Address) (beats : List WriteBeat), transactionForm address beats.length = true →
    (s.part.floor.grant = none ∨ s.part.floor.read ≠ none → exec (.floorBusWrite address beats) s = .next s) ∧
    (s.part.floor.grant = some m → s.part.floor.fbResetLow = false → s.part.floor.read = none →
      ∃ t, exec (.floorBusWrite address beats) s = .next t ∧
        (s.part.floor.buffer.length < 8 →
          t.part = { s.part with floor := { s.part.floor with
            grant := none, response := some { master := m, answer := .accept },
            buffer := s.part.floor.buffer ++
              [{ master := m, address := address, beats := beats,
                 cls := classify s.part m .write address beats.length (enabledBytes address.toNat beats) }] } }) ∧
        (8 ≤ s.part.floor.buffer.length →
          t.part = { s.part with floor := { s.part.floor with
            grant := none, response := some { master := m, answer := .backoff } } }))) ∧
  (∀ (s : State) (m : Master) (address : Address) (n : Nat), transactionForm address n = true →
    (s.part.floor.grant = none ∨ s.part.floor.read ≠ none → exec (.floorBusRead address n) s = .next s) ∧
    (s.part.floor.grant = some m → s.part.floor.fbResetLow = false → s.part.floor.read = none →
      ∃ t, exec (.floorBusRead address n) s = .next t ∧
        t.part = { s.part with floor := { s.part.floor with
          read := some { master := m, address := address, beatCount := n, cls := classify s.part m .read address n [],
                         forwarded := false } } }))

/-! ### Failed accesses (R163, R174) -/

/-- R163: a write whose check failed is dropped at its taking, its error reported; a read whose check failed is answered FAULT, its
error reported. Nothing else changes. -/
def Obligations.FailedAccessIsDroppedAndCaptured : Prop :=
  (∀ (s : State) (w : PostedWrite), QuietPart s.part → HeadTakeable s.part w → w.cls.check ≠ .pass →
    ∃ t, exec .refusedWindowWrite s = .next t ∧
      t.part = { s.part with floor := headGone s.part, attention := t.part.attention } ∧
      Reported s.part.attention t.part.attention (errorOfWrite w w.cls.check.kind w.cls.window) s.part.ticks.count) ∧
  (∀ (s : State) (r : ReadInProgress), ReadTakeable s.part r → r.cls.check ≠ .pass →
    ∃ t, exec .readAnsweredFault s = .next t ∧
      t.part = { s.part with floor := readAnswered s.part r .fault, attention := t.part.attention } ∧
      Reported s.part.attention t.part.attention (errorOfRead r r.cls.check.kind) s.part.ticks.count)

/-! ### Writes that are forwarded (R154, R5, R77, R98) -/

/-- R154, R5: a write of no window or of a GUARD window is placed in the forward path, and so is a LOT write without a request; but a
LOT write covering owned bytes of a known lot is dropped and reported OWNED. Nothing else changes. -/
def Obligations.PlainWritesAreForwarded : Prop :=
  (∀ (s : State) (w : PostedWrite), QuietPart s.part → HeadTakeable s.part w → w.cls.check = .pass →
    w.cls.kind = none ∨ w.cls.kind = some .guard →
    ∃ t, exec .forwardedWrite s = .next t ∧
      t.part = { s.part with floor := headGone s.part, store := forwardedInto s.part w none }) ∧
  (∀ (s : State) (w : PostedWrite), QuietPart s.part → HeadTakeable s.part w → w.cls.check = .pass → w.cls.kind = some .lot →
    lotRequest w = .none →
    ∃ t, exec .lotWrite s = .next t ∧
      (lotOwned s.part w = true →
        t.part = { s.part with floor := headGone s.part, attention := t.part.attention } ∧
        Reported s.part.attention t.part.attention (errorOfWrite w .owned w.cls.window) s.part.ticks.count) ∧
      (lotOwned s.part w = false →
        t.part = { s.part with floor := headGone s.part, store := forwardedInto s.part w none }))

/-- R7, R18, R5: a LIST request is refused ALREADY-KNOWN, joins the Listing Queue, or is refused BUSY at a full queue, its write-back then
requested; but one whose write covers owned bytes of a known lot, as no write within one line can, is dropped and reported OWNED. The
forwarded write of a joining request is marked with its lot (log 12). -/
def Obligations.ListRequestJoinsOrIsRefused : Prop :=
  ∀ (s : State) (w : PostedWrite), QuietPart s.part → HeadTakeable s.part w → w.cls.check = .pass → w.cls.kind = some .lot →
    lotRequest w = .list →
    ∃ t, exec .listRequest s = .next t ∧
      t.part = { s.part with floor := headGone s.part, store := t.part.store, catalogue := t.part.catalogue,
                             attention := t.part.attention } ∧
      (lotOwned s.part w = true →
        t.part.store = s.part.store ∧ t.part.catalogue = s.part.catalogue ∧
        Reported s.part.attention t.part.attention (errorOfWrite w .owned w.cls.window) s.part.ticks.count) ∧
      (lotOwned s.part w = false → s.part.known w.record = true →
        t.part.store = forwardedInto s.part w none ∧
        t.part.catalogue = { s.part.catalogue with
          lastRefusal := { lot := w.record, reason := .alreadyKnown, tick := s.part.ticks.count },
          refusedCount := s.part.catalogue.refusedCount + 1 } ∧
        Raised s.part.attention t.part.attention .listingRefused) ∧
      (s.part.known w.record = false → s.part.catalogue.listing.length < 8 →
        t.part.store = forwardedInto s.part w (some w.record) ∧
        t.part.digest w.record = some
          { owned := .atListing, host := none, ended := false, address := BitVec.ofNat 36 (w.address.toNat / 128 * 128) } ∧
        (∀ lot, lot ≠ w.record → t.part.digest lot = s.part.digest lot) ∧
        t.part.catalogue = { s.part.catalogue with
          known := t.part.catalogue.known, listing := s.part.catalogue.listing ++ [{ lot := w.record, withdrawPending := false }] } ∧
        t.part.attention = s.part.attention) ∧
      (s.part.known w.record = false → 8 ≤ s.part.catalogue.listing.length →
        t.part.store = forwardedInto s.part w none ∧
        t.part.digest w.record = some
          { owned := { Owned.atListing with state := .refused, reason := .busy }, host := none, ended := true,
            address := BitVec.ofNat 36 (w.address.toNat / 128 * 128) } ∧
        (∀ lot, lot ≠ w.record → t.part.digest lot = s.part.digest lot) ∧
        WriteBackJoined s.part.catalogue.writeBacks t.part.catalogue.writeBacks w.record false ∧
        t.part.catalogue = { s.part.catalogue with
          known := t.part.catalogue.known, writeBacks := t.part.catalogue.writeBacks,
          lastRefusal := { lot := w.record, reason := .busy, tick := s.part.ticks.count },
          refusedCount := s.part.catalogue.refusedCount + 1 } ∧
        Raised s.part.attention t.part.attention .listingRefused)

/-- R16, R18, R5: a WITHDRAW request acts by the lot's state: it marks a listing, makes a lot not yet live a passenger with a write-back
and has its lane's map rebuilt, is refused and counted for a live lot, and is ignored otherwise; but one whose write covers owned bytes
of a known lot, as no write within one line can, is dropped and reported OWNED. -/
def Obligations.WithdrawRequestActsByLotState : Prop :=
  ∀ (s : State) (w : PostedWrite), QuietPart s.part → HeadTakeable s.part w → w.cls.check = .pass → w.cls.kind = some .lot →
    lotRequest w = .withdraw →
    ∃ t, exec .withdrawRequest s = .next t ∧
      (lotOwned s.part w = true →
        t.part = { s.part with floor := headGone s.part, attention := t.part.attention } ∧
        Reported s.part.attention t.part.attention (errorOfWrite w .owned w.cls.window) s.part.ticks.count) ∧
      (lotOwned s.part w = false →
        t.part = { s.part with floor := headGone s.part, store := forwardedInto s.part w none, catalogue := t.part.catalogue,
                               displays := t.part.displays } ∧
        (s.part.lotState w.record = some .listing →
          t.part.displays = s.part.displays ∧
          t.part.catalogue = { s.part.catalogue with listing := s.part.catalogue.listing.map (fun e =>
            if e.lot = w.record then { e with withdrawPending := true } else e) }) ∧
        (∀ d, s.part.digest w.record = some d → d.owned.state.notYetLive = true →
          t.part.digest w.record = some { d with owned := { d.owned with
            withdrawn := d.owned.remaining, remaining := 0, state := .withdrawn, closeTick := s.part.ticks.count } } ∧
          (∀ lot, lot ≠ w.record → t.part.digest lot = s.part.digest lot) ∧
          WriteBackJoined s.part.catalogue.writeBacks t.part.catalogue.writeBacks w.record false ∧
          t.part.catalogue = { s.part.catalogue with
            known := t.part.catalogue.known, writeBacks := t.part.catalogue.writeBacks } ∧
          ∀ i : Lane,
            let ofLane := ∃ h, d.host = some h ∧ h.lane = i.val
            (ofLane → MapRebuilt { t.part with displays := s.part.displays } i (t.part.display i)) ∧
            (¬ ofLane → t.part.display i = s.part.display i)) ∧
        (s.part.lotState w.record = some .live →
          t.part.displays = s.part.displays ∧
          t.part.catalogue = { s.part.catalogue with withdrawRefusals := s.part.catalogue.withdrawRefusals + 1 }) ∧
        (s.part.lotState w.record = none ∨ s.part.lotState w.record = some .closed ∨ s.part.lotState w.record = some .withdrawn ∨
            s.part.lotState w.record = some .refused →
          t.part.displays = s.part.displays ∧ t.part.catalogue = s.part.catalogue))

/-- R77: a DESK write is forwarded, and each entry whose buyer-index field it covers takes its candidate value, 0 for one above
2,047; what else a desk holds is kept. That a field covered in part is merged with the bytes held is the model's choice (log
24). -/
def Obligations.DeskWriteSetsBuyers : Prop :=
  ∀ (s : State) (w : PostedWrite), QuietPart s.part → HeadTakeable s.part w → w.cls.check = .pass → w.cls.kind = some .desk →
    ∃ t, exec .deskWrite s = .next t ∧
      t.part = { s.part with floor := headGone s.part, store := forwardedInto s.part w none, press := t.part.press } ∧
      t.part.press = { s.part.press with desks := t.part.press.desks } ∧
      ∀ desk, t.part.desk desk =
        let bytes := offsetsFrom w.address.toNat w.bytes
        let value := candidate bytes (8 * (desk - w.record)) 2 (s.part.desk desk).buyer
        if w.record ≤ desk ∧ desk < w.record + w.beats.length ∧ covers bytes (8 * (desk - w.record)) 2 = true then
          { s.part.desk desk with buyer := if value ≤ 2047 then value else 0 }
        else s.part.desk desk

/-- R98, R99: a BUYER write that covers no owned byte is forwarded and its host fields are taken field by field, each from its candidate
value where that is in range; one that covers an owned byte is dropped and reported OWNED. Record 0 names no buyer. -/
def Obligations.BuyerWriteSetsHostFields : Prop :=
  ∀ (s : State) (w : PostedWrite), TablesSound s → QuietPart s.part → HeadTakeable s.part w → w.cls.check = .pass →
    w.cls.kind = some .buyer →
    ∃ t, exec .buyerWrite s = .next t ∧
      (coversBuyerOwned (w.inBlock 64) = true →
        t.part = { s.part with floor := headGone s.part, attention := t.part.attention } ∧
        Reported s.part.attention t.part.attention (errorOfWrite w .owned w.cls.window) s.part.ticks.count) ∧
      (coversBuyerOwned (w.inBlock 64) = false →
        t.part = { s.part with floor := headGone s.part, store := forwardedInto s.part w none, account := t.part.account } ∧
        t.part.account = { s.part.account with buyers := t.part.account.buyers } ∧
        (∀ k, k ≠ w.record → t.part.buyer k = s.part.buyer k) ∧
        (w.record = 0 → t.part.buyer 0 = s.part.buyer 0) ∧
        (w.record ≠ 0 → BuyerTaken (w.inBlock 64) (s.part.buyer w.record) (t.part.buyer w.record)))

/-! ### Presses (PRESS) -/

/-- R79: a press at a desk without a buyer is refused NO-BUYER with a credit of 0, whatever its sequence; the desk's last accepted
sequence is unchanged. -/
def Obligations.PressWithoutBuyerIsRefused : Prop :=
  ∀ (s : State) (w : PostedWrite) (c : PressIn), QuietPart s.part → PressTakeable s.part w c → (s.part.desk c.desk).buyer = 0 →
    ∃ t, exec .press s = .next t ∧ PressRefused s.part t.part c .noBuyer 0 0

/-- R80 to R85: a press at a desk with a buyer that a later check stops: a duplicate changes counts alone; a buyer that may not buy, a
lane that is not RUNNING or STRUCK, and a failed claim each refuse it with their reason and the buyer's available credit. -/
def Obligations.PressIsStoppedByItsFirstFailingCheck : Prop :=
  ∀ (s : State) (w : PostedWrite) (c : PressIn) (buyer : Nat), QuietPart s.part → PressTakeable s.part w c →
    (s.part.desk c.desk).buyer = buyer → buyer ≠ 0 →
    ∃ t, exec .press s = .next t ∧
      ((s.part.desk c.desk).lastSequence = some c.sequence →
        t.part = { s.part with floor := headGone s.part, press := t.part.press } ∧
        t.part.press = { s.part.press with desks := t.part.press.desks, taken := s.part.press.taken + 1,
                                           duplicates := s.part.press.duplicates + 1 } ∧
        t.part.desk c.desk = { s.part.desk c.desk with duplicates := (s.part.desk c.desk).duplicates + 1 } ∧
        ∀ k, k ≠ c.desk → t.part.desk k = s.part.desk k) ∧
      ((s.part.desk c.desk).lastSequence ≠ some c.sequence → buyerMayBuy s.part buyer c.lane = false →
        PressRefused s.part t.part c .buyerBlocked 0 ((s.part.buyer buyer).limit - (s.part.buyer buyer).exposure)) ∧
      (PressPasses s.part c buyer →
        let credit := (s.part.buyer buyer).limit - (s.part.buyer buyer).exposure
        let l := s.part.lane c.lane
        (l.state = .primed ∨ l.state = .paused → PressRefused s.part t.part c .notRunning 0 credit) ∧
        (l.state = .idle ∨ l.state = .closing → PressRefused s.part t.part c .noLot 0 credit) ∧
        (l.state = .held → PressRefused s.part t.part c .held 0 credit) ∧
        (l.state = .running → ∀ lot h o reason units, liveLot s.part c.lane = some (lot, h, o) →
          judgeClaim (claimRequest s.part c.lane h o c.units) (s.part.buyer buyer) (freeCount s.part) = .refused reason units →
          PressRefused s.part t.part c reason units credit))

/-- R83 to R85: the judgement of a claim, in order: clipped to the remaining units; BELOW-MINIMUM; cut to the available credit; CREDIT;
RING-FULL for an invoice without a free slot; else granted. No claim granted takes its buyer's exposure above the credit limit, nor more
units than remain. -/
def Obligations.ClaimsAreJudgedInOrder : Prop :=
  ∀ (c : ClaimRequest) (b : BuyerEntry) (free : Nat),
    (0 < c.minimum → 0 < c.remaining → 0 < c.price → 0 < c.pieces → ∀ units amount, judgeClaim c b free = .granted units amount →
      0 < units ∧ units ≤ c.remaining ∧ (c.units ≠ 0 → units ≤ c.units) ∧ amount = c.price * c.pieces * units ∧
        b.exposure + amount ≤ b.limit) ∧
    let granted := min (if c.units = 0 then c.remaining else c.units) c.remaining
    let unitAmount := c.price * c.pieces
    let available := b.limit - b.exposure
    let cut := if available < unitAmount * granted then available / unitAmount else granted
    (granted < c.minimum ∧ granted < c.remaining → judgeClaim c b free = .refused .belowMinimum granted) ∧
    (¬ (granted < c.minimum ∧ granted < c.remaining) →
      (cut < min c.minimum c.remaining → judgeClaim c b free = .refused .credit cut) ∧
      (min c.minimum c.remaining ≤ cut → b.invoice = 0 → free = 0 → judgeClaim c b free = .refused .ringFull 0) ∧
      (min c.minimum c.remaining ≤ cut → b.invoice ≠ 0 ∨ 0 < free → judgeClaim c b free = .granted cut (unitAmount * cut)))

/-- R86, R52: a press whose claim is granted while its lane is RUNNING makes a purchase at the current price with position 0; the lane
is STRUCK with its contender window opened, and the desk's sequence and reply are set with the credit left. The event then ends. -/
def Obligations.PressStrikesAtTheCurrentPrice : Prop :=
  ∀ (s : State) (w : PostedWrite) (c : PressIn) (buyer lot : Nat) (h : HostFields) (o : Owned) (units amount : Nat),
    PressTakeable s.part w c → PressPasses s.part c buyer → (s.part.lane c.lane).state = .running →
    liveLot s.part c.lane = some (lot, h, o) →
    judgeClaim (claimRequest s.part c.lane h o c.units) (s.part.buyer buyer) (freeCount s.part) = .granted units amount →
    ∃ t q r, exec .press s = .next t ∧ t.part = settle s.part r ∧
      Purchased s.part q c.lane { desk := c.desk, buyer := buyer, lot := lot, host := h, position := 0, units := units,
                                  price := (s.part.lane c.lane).price, amount := amount } ∧
      r = { q with floor := headGone s.part, lanes := r.lanes, press := r.press } ∧
      r.lane c.lane = { q.lane c.lane with
        state := .struck, timer := .counting .contenderWindow (s.part.lane c.lane).params.contenderWindow } ∧
      (∀ j, j ≠ c.lane → r.lane j = q.lane j) ∧
      r.press = { s.part.press with desks := r.press.desks, taken := s.part.press.taken + 1, accepted := s.part.press.accepted + 1 } ∧
      r.desk c.desk = { s.part.desk c.desk with
        lastSequence := some c.sequence,
        reply := { count := (s.part.desk c.desk).reply.count + 1, lastAccepted := c.sequence, reported := c.sequence,
                   outcome := .accepted, reason := .none, lane := c.lane.val, lot := lot, units := units, position := 0,
                   price := (s.part.lane c.lane).price, amount := amount,
                   credit := (s.part.buyer buyer).limit - ((s.part.buyer buyer).exposure + amount) } } ∧
      ∀ k, k ≠ c.desk → r.desk k = s.part.desk k

/-- R88: a press into a STRUCK lane is refused LATE where the Contender List holds 4 entries or one of the press's desk; else an entry
joins its tail, the desk's sequence is set and the reply is CONTENDING with its position. The buyer's entry is unchanged. -/
def Obligations.PressContendsBehindAStrike : Prop :=
  ∀ (s : State) (w : PostedWrite) (c : PressIn) (buyer : Nat), QuietPart s.part → PressTakeable s.part w c →
    PressPasses s.part c buyer → (s.part.lane c.lane).state = .struck →
    let credit := (s.part.buyer buyer).limit - (s.part.buyer buyer).exposure
    let list := (s.part.lane c.lane).contenders
    ∃ t, exec .press s = .next t ∧
      (4 ≤ list.length ∨ (∃ e ∈ list, e.desk = c.desk) → PressRefused s.part t.part c .late 0 credit) ∧
      (list.length < 4 → (∀ e ∈ list, e.desk ≠ c.desk) →
        t.part = { s.part with floor := headGone s.part, lanes := t.part.lanes, press := t.part.press } ∧
        t.part.lane c.lane = { s.part.lane c.lane with
          contenders := list ++ [{ desk := c.desk, buyer := buyer, units := c.units, sequence := c.sequence }] } ∧
        (∀ j, j ≠ c.lane → t.part.lane j = s.part.lane j) ∧
        t.part.press = { s.part.press with desks := t.part.press.desks, taken := s.part.press.taken + 1 } ∧
        t.part.desk c.desk = { s.part.desk c.desk with
          lastSequence := some c.sequence,
          reply := { count := (s.part.desk c.desk).reply.count + 1, lastAccepted := c.sequence, reported := c.sequence,
                     outcome := .contending, reason := .none, lane := c.lane.val,
                     lot := (s.part.lane c.lane).live.getD 65535, units := 0, position := list.length + 1,
                     price := (s.part.lane c.lane).price, amount := 0, credit := credit } } ∧
        ∀ k, k ≠ c.desk → t.part.desk k = s.part.desk k)

/-! ### Passes (GATE_PASS, DISPLAY_PASS, EXIT_PASS) -/

/-- R35, R42: a pass of any station taken while its track is stopped and the day is OPEN joins the backlog's tail, or is discarded and
counted where the backlog holds 8; on a day that is not OPEN it is discarded and counted. Nothing else changes. -/
def Obligations.PassesWaitInTheBacklogOrAreDiscarded : Prop :=
  ∀ (s : State) (w : PostedWrite) (i : Lane) (pass : Pass), QuietPart s.part → PassTakeable s.part w i pass →
    s.part.window.dayState ≠ .opened ∨ (s.part.track i).fault.stopped = true →
    ∃ t, exec (passCommand pass.station) s = .next t ∧
      t.part = { s.part with floor := headGone s.part, tracks := t.part.tracks } ∧
      (∀ j, j ≠ i → t.part.track j = s.part.track j) ∧
      (s.part.window.dayState = .opened → (s.part.track i).backlog.length < 8 →
        t.part.track i = { s.part.track i with backlog := (s.part.track i).backlog ++ [pass] }) ∧
      (s.part.window.dayState = .opened → 8 ≤ (s.part.track i).backlog.length →
        t.part.track i = { s.part.track i with discarded := (s.part.track i).discarded + 1 }) ∧
      (s.part.window.dayState ≠ .opened → t.part.track i = { s.part.track i with discarded := (s.part.track i).discarded + 1 })

/-- R25 to R28: a GATE pass whose trolley is Late moves it to the Staging List's tail; one found among the first four trolleys of the
Expected Queue moves that trolley there, and the trolleys before it into the Late List, kept in rising order. One that cannot be carried
out faults with the first reason that applies, and moves nothing (R33). -/
def Obligations.GatePassStagesItsTrolleyOrFaults : Prop :=
  ∀ (s : State) (w : PostedWrite) (i : Lane) (pass : Pass), PassRuns s.part w i pass → pass.station = .gate →
    ((s.part.track i).staging.length < 3 →
    (∀ y, (s.part.track i).late.find? (fun a => a.tag == pass.tag) = some y →
      ∃ t q, exec .gatePass s = .next t ∧ t.part = settle s.part q ∧
        q = { s.part with floor := headGone s.part, tracks := q.tracks, catalogue := q.catalogue, displays := q.displays } ∧
        q.track i = { s.part.track i with late := (s.part.track i).late.filter (fun a => a.tag ≠ pass.tag),
                                          staging := (s.part.track i).staging ++ [y] } ∧
        (∀ j, j ≠ i → q.track j = s.part.track j) ∧ LotsSet s.part q y.lots .staged ∧
        q.catalogue = { s.part.catalogue with known := q.catalogue.known } ∧ Told s.part q i) ∧
    (∀ passed y rest, (∀ a ∈ (s.part.track i).late, a.tag ≠ pass.tag) →
      trolleysOf s.part (s.part.expected i) = passed ++ y :: rest → passed.length ≤ 3 → y.tag = pass.tag →
      (∀ a ∈ passed, a.tag ≠ pass.tag) → lotCount (s.part.track i).late + lotCount passed ≤ 16 →
      ∃ t q, exec .gatePass s = .next t ∧ t.part = settle s.part q ∧
        q = { s.part with floor := headGone s.part, tracks := q.tracks, catalogue := q.catalogue, displays := q.displays } ∧
        (q.track i).late.Perm ((s.part.track i).late ++ passed) ∧
        ((s.part.track i).late.Pairwise (fun a b => firstSequence s.part a ≤ firstSequence s.part b) →
          (q.track i).late.Pairwise (fun a b => firstSequence s.part a ≤ firstSequence s.part b)) ∧
        q.track i = { s.part.track i with late := (q.track i).late, staging := (s.part.track i).staging ++ [y] } ∧
        (∀ j, j ≠ i → q.track j = s.part.track j) ∧
        q.expected i = rest.flatMap (fun a => a.lots) ∧ (∀ j, j ≠ i → q.expected j = s.part.expected j) ∧
        (∃ r, LotsSet s.part r (passed.flatMap fun a => a.lots) .late ∧ LotsSet r q y.lots .staged) ∧
        q.catalogue = { s.part.catalogue with known := q.catalogue.known, expected := q.catalogue.expected } ∧ Told s.part q i)) ∧
    let track := s.part.track i
    let queue := trolleysOf s.part (s.part.expected i)
    ∃ t, exec .gatePass s = .next t ∧
      ((∃ a ∈ track.late, a.tag = pass.tag) → 3 ≤ track.staging.length →
        ∃ q, t.part = settle s.part q ∧ PassFaulted s.part q i pass (firstTag track.staging) .stagingFull) ∧
      ((∀ a ∈ track.late, a.tag ≠ pass.tag) →
        ((∀ a ∈ queue.take 4, a.tag ≠ pass.tag) →
          ∃ q, t.part = settle s.part q ∧
            PassFaulted s.part q i pass (if track.late = [] then firstTag queue else firstTag track.late) .stray) ∧
        (∀ passed y rest, queue = passed ++ y :: rest → passed.length ≤ 3 → y.tag = pass.tag → (∀ a ∈ passed, a.tag ≠ pass.tag) →
          (16 < lotCount track.late + lotCount passed →
            ∃ q, t.part = settle s.part q ∧ PassFaulted s.part q i pass (firstTag queue) .lateFull) ∧
          (lotCount track.late + lotCount passed ≤ 16 → 3 ≤ track.staging.length →
            ∃ q, t.part = settle s.part q ∧ PassFaulted s.part q i pass (firstTag track.staging) .stagingFull)))

/-- R29, R33: a DISPLAY pass moves the Staging head to the empty Display Position, its lots AT-CLOCK, and the lane looks for a lot to
put up; it faults ORDER where the head carries another tag or there is none, and OVERRUN where a trolley stands there. -/
def Obligations.DisplayPassBringsTheStagingHead : Prop :=
  ∀ (s : State) (w : PostedWrite) (i : Lane) (pass : Pass), PassRuns s.part w i pass → pass.station = .display →
    let track := s.part.track i
    (∀ y rest, track.staging = y :: rest → y.tag = pass.tag → track.display = none →
      ∃ t q, exec .displayPass s = .next t ∧ t.part = settle s.part (look q i) ∧
        q = { s.part with floor := headGone s.part, tracks := q.tracks, catalogue := q.catalogue, displays := q.displays } ∧
        q.track i = { track with staging := rest, display := some y } ∧ (∀ j, j ≠ i → q.track j = s.part.track j) ∧
        LotsSet s.part q y.lots .atClock ∧ q.catalogue = { s.part.catalogue with known := q.catalogue.known } ∧ Told s.part q i) ∧
    (firstTag track.staging ≠ pass.tag ∨ track.staging = [] →
      ∃ t q, exec .displayPass s = .next t ∧ t.part = settle s.part q ∧
        PassFaulted s.part q i pass (firstTag track.staging) .order) ∧
    (∀ y z rest, track.staging = y :: rest → y.tag = pass.tag → track.display = some z →
      ∃ t q, exec .displayPass s = .next t ∧ t.part = settle s.part q ∧ PassFaulted s.part q i pass z.tag .overrun)

/-- R31, R19, R33: an EXIT pass of a finished trolley empties the Display Position and ends its lots' reason for being known: a digest
is freed unless a write-back of it is outstanding. It faults ORDER for another tag or an empty position, and EARLY-EXIT where a lot is
neither CLOSED nor WITHDRAWN. -/
def Obligations.ExitPassEmptiesTheDisplayPosition : Prop :=
  ∀ (s : State) (w : PostedWrite) (i : Lane) (pass : Pass), PassRuns s.part w i pass → pass.station = .exit →
    let finished := fun lot => s.part.lotState lot = some .closed ∨ s.part.lotState lot = some .withdrawn
    (∀ y, (s.part.track i).display = some y → y.tag = pass.tag → (∀ lot ∈ y.lots, finished lot) →
      ∃ t q, exec .exitPass s = .next t ∧ t.part = settle s.part q ∧
        q = { s.part with floor := headGone s.part, tracks := q.tracks, catalogue := q.catalogue, displays := q.displays } ∧
        q.track i = { s.part.track i with display := none } ∧ (∀ j, j ≠ i → q.track j = s.part.track j) ∧
        (∀ lot, q.digest lot = if lot ∈ y.lots then
            (if writeBackOutstanding s.part lot = true then (s.part.digest lot).map (fun d => { d with ended := true }) else none)
          else s.part.digest lot) ∧
        q.catalogue = { s.part.catalogue with known := q.catalogue.known } ∧ Told s.part q i) ∧
    ((s.part.track i).display = none ∨ (∃ y, (s.part.track i).display = some y ∧ y.tag ≠ pass.tag) →
      ∃ t q, exec .exitPass s = .next t ∧ t.part = settle s.part q ∧
        PassFaulted s.part q i pass (firstTag (s.part.track i).display.toList) .order) ∧
    (∀ y, (s.part.track i).display = some y → y.tag = pass.tag → (∃ lot ∈ y.lots, ¬ finished lot) →
      ∃ t q, exec .exitPass s = .next t ∧ t.part = settle s.part q ∧ PassFaulted s.part q i pass y.tag .earlyExit)

/-! ### Lane commands -/

/-- R67, R59, R60: HOLD adds HOST to the lane's hold reasons, or to its pending holds while it is STRUCK or CLOSING; the result is DONE or
PENDING. That it is PENDING in STRUCK and CLOSING where HOST is already present is the model's choice (log 40). -/
def Obligations.HoldAddsHost : Prop :=
  ∀ (s : State) (w : PostedWrite) (i : Lane), LaneCommandTaken s.part w i .hold →
    ∃ t q l, exec .hold s = .next t ∧ t.part = settle s.part q ∧ LanesOnly s.part q w ∧ HoldAdded (s.part.lane i) l .host ∧
      LaneSet s.part q i { l with
        commandResult := if (s.part.lane i).state = .struck ∨ (s.part.lane i).state = .closing then .pending else .done }

/-- R49, R50, R67: START in PRIMED, and the expiry of the pre-roll and restart-pause timers, each make the RUNNING entry. An expiry
is due at a count of 0 (log 5). -/
def Obligations.StartAndExpiriesEnterRunning : Prop :=
  (∀ (s : State) (w : PostedWrite) (i : Lane), LaneCommandTaken s.part w i .start → (s.part.lane i).state = .primed →
    ∃ t q r, exec .start s = .next t ∧ t.part = settle s.part r ∧ EntersRunning s.part q i .primed ∧ AnchorTaken s.part r w ∧
      r = { q with floor := r.floor, window := { q.window with shadow := r.window.shadow }, store := r.store, lanes := r.lanes } ∧
      LaneSet q r i { q.lane i with commandResult := .done }) ∧
  (∀ (s : State) (i : Lane), (s.part.lane i).timer = .counting .preRoll 0 →
    ∃ t q, exec (.preRollExpiry i) s = .next t ∧ t.part = settle s.part q ∧ EntersRunning s.part q i .primed) ∧
  (∀ (s : State) (i : Lane), (s.part.lane i).timer = .counting .restartPause 0 →
    ∃ t q, exec (.restartPauseExpiry i) s = .next t ∧ t.part = settle s.part q ∧ EntersRunning s.part q i .paused)

/-- R66, R67, R69: START outside PRIMED is REFUSED-STATE; ENABLE sets the enable; DISABLE clears it in an IDLE lane whose lists are
empty, and is REFUSED-STATE otherwise; an unrecognised command is UNKNOWN. Nothing else of the lane changes. -/
def Obligations.SimpleLaneCommandsSetTheirResult : Prop :=
  ∀ (s : State) (w : PostedWrite) (i : Lane),
    let l := s.part.lane i
    let bare := l.state = .idle ∧ s.part.expected i = [] ∧ (s.part.track i).late = [] ∧ (s.part.track i).staging = [] ∧
      (s.part.track i).display = none
    (LaneCommandTaken s.part w i .start → l.state ≠ .primed →
      ∃ t q, exec .start s = .next t ∧ t.part = settle s.part q ∧ LanesOnly s.part q w ∧
        LaneSet s.part q i { l with commandResult := .refusedState }) ∧
    (LaneCommandTaken s.part w i .enable →
      ∃ t q, exec .enable s = .next t ∧ t.part = settle s.part q ∧ LanesOnly s.part q w ∧
        LaneSet s.part q i { l with enabled := true, commandResult := .done }) ∧
    (LaneCommandTaken s.part w i .disable →
      ∃ t q, exec .disable s = .next t ∧ t.part = settle s.part q ∧ LanesOnly s.part q w ∧
        (bare → LaneSet s.part q i { l with enabled := false, commandResult := .done }) ∧
        (¬ bare → LaneSet s.part q i { l with commandResult := .refusedState })) ∧
    (LaneCommandTaken s.part w i .unknown →
      ∃ t q, exec .unknownLaneCommand s = .next t ∧ t.part = settle s.part q ∧ LanesOnly s.part q w ∧
        LaneSet s.part q i { l with commandResult := .unknown })

/-- R67, R36: RESUME takes HOST and TRACK away, and STOP unless a level input holds it; of a stopped track, FLUSH empties the backlog and
DISCARD replays it from its head, either clearing the mark. The lane then leaves HELD if nothing holds it, looks after an arrival of the
replay, and takes TRACK again after a fault of it (the order is the model's, log 15). -/
def Obligations.ResumeClearsReasonsAndDisposesOfTheTrack : Prop :=
  (∀ (s : State) (w : PostedWrite) (i : Lane),
    let track := s.part.track i
    (LaneCommandTaken s.part w i .resumeFlush →
      ∃ t q, exec .resumeFlush s = .next t ∧ t.part = settle s.part (leaveHeldIfFree q i) ∧ AnchorTaken s.part q w ∧
        LaneSet s.part q i (laneResumed (s.part.lane i)) ∧
        q = { s.part with floor := q.floor, window := { s.part.window with shadow := q.window.shadow }, store := q.store,
                          lanes := q.lanes, tracks := q.tracks } ∧
        (∀ j, j ≠ i → q.track j = s.part.track j) ∧
        (track.fault.stopped = false → q.track i = track) ∧
        (track.fault.stopped = true → q.track i = { track with backlog := [], fault := { track.fault with stopped := false } })) ∧
    (LaneCommandTaken s.part w i .resumeDiscard →
      ∃ t q, exec .resumeDiscard s = .next t ∧ AnchorTaken s.part q w ∧
        LaneSet s.part q i (laneResumed (s.part.lane i)) ∧
        q = { s.part with floor := q.floor, window := { s.part.window with shadow := q.window.shadow }, store := q.store,
                          lanes := q.lanes, tracks := q.tracks } ∧
        (∀ j, j ≠ i → q.track j = s.part.track j) ∧
        (track.fault.stopped = false → q.track i = track ∧ t.part = settle s.part (leaveHeldIfFree q i)) ∧
        (track.fault.stopped = true → q.track i = { track with fault := { track.fault with stopped := false } } ∧
          let o := replay i track.backlog false q
          let r := leaveHeldIfFree o.part i
          let r' := if o.arrived = true then look r i else r
          t.part = settle s.part (if o.faulted = true then addHold r' i .track else r')))) ∧
  ∀ (p : Part) (i : Lane) (arrived : Bool),
    (replay i [] arrived p).arrived = arrived ∧ (replay i [] arrived p).faulted = false ∧
    (replay i [] arrived p).part = p.setTrack i { p.track i with backlog := [] } ∧
    ∀ (pass : Pass) (rest : List Pass),
      ((carryOut p i pass).faulted = true →
        (replay i (pass :: rest) arrived p).faulted = true ∧ (replay i (pass :: rest) arrived p).arrived = arrived ∧
        (replay i (pass :: rest) arrived p).part =
          (carryOut p i pass).part.setTrack i { (carryOut p i pass).part.track i with backlog := rest }) ∧
      ((carryOut p i pass).faulted = false →
        replay i (pass :: rest) arrived p = replay i rest (arrived || (carryOut p i pass).arrived) (carryOut p i pass).part)

/-- R68, R55: WITHDRAW closes the live lot at once in PRIMED, RUNNING and PAUSED, and from HELD with those return states, where RING goes
and with it the lane's place among the Ring Waiters; in STRUCK it is pending; without a live lot to close it is NO-LOT. -/
def Obligations.WithdrawClosesTheLiveLot : Prop :=
  ∀ (s : State) (w : PostedWrite) (i : Lane), LaneCommandTaken s.part w i .withdraw →
    let l := s.part.lane i
    (∀ lot d h, l.live = some lot → s.part.digest lot = some d → d.host = some h →
      (l.state = .primed ∨ l.state = .running ∨ l.state = .paused →
        ∃ t q, exec .withdrawCommand s = .next t ∧ t.part = settle s.part q ∧ AnchorTaken s.part q w ∧
          LotCloses s.part q i lot d h ∧ q.ring.waiters = s.part.ring.waiters ∧
          LaneSet s.part q i { laneClosing l with commandResult := .done } ∧
          q = { s.part with floor := q.floor, window := { s.part.window with shadow := q.window.shadow }, store := q.store,
                            lanes := q.lanes, catalogue := q.catalogue, ring := q.ring }) ∧
      (l.state = .held → l.ret ≠ .idle →
        ∃ t q, exec .withdrawCommand s = .next t ∧ t.part = settle s.part q ∧ AnchorTaken s.part q w ∧
          LotCloses s.part q i lot d h ∧ q.ring.waiters = s.part.ring.waiters.filter (fun x => x.lane ≠ i) ∧
          LaneSet s.part q i { laneClosing l with holds := { l.holds with ring := false }, commandResult := .done } ∧
          q = { s.part with floor := q.floor, window := { s.part.window with shadow := q.window.shadow }, store := q.store,
                            lanes := q.lanes, catalogue := q.catalogue, ring := q.ring })) ∧
    (l.state = .struck →
      ∃ t q, exec .withdrawCommand s = .next t ∧ t.part = settle s.part q ∧ LanesOnly s.part q w ∧
        LaneSet s.part q i { l with pendingWithdraw := true, commandResult := .pending }) ∧
    (l.state = .idle ∨ l.state = .closing ∨ (l.state = .held ∧ l.ret = .idle) →
      ∃ t q, exec .withdrawCommand s = .next t ∧ t.part = settle s.part q ∧ LanesOnly s.part q w ∧
        LaneSet s.part q i { l with commandResult := .noLot })

/-- R46, R157: a write of lane parameters takes each covered value that is in its range and leaves the others; the parameter result is DONE, or
REFUSED-RANGE if any covered value was out of range. That a value is covered where any byte of it is written, and that the value
judged is the field as the shadow stands after the write (R157), is the model's reading (log 8). -/
def Obligations.LaneParametersTakeValuesInRange : Prop :=
  ∀ (s : State) (w : PostedWrite) (i : Lane), HeadTakeable s.part w → SetsOff s.part w (.laneParams i) →
    ∃ t q params, exec .laneParameterWrite s = .next t ∧ t.part = settle s.part q ∧ LanesOnly s.part q w ∧
      LaneSet s.part q i { s.part.lane i with
        params := params, parameterResult := (q.lane i).parameterResult } ∧
      (∀ k, (ParamCovered s.part w i k ∧ ParamFits s.part w i k → paramOf params k = paramAfter s.part w i k) ∧
        (¬ (ParamCovered s.part w i k ∧ ParamFits s.part w i k) → paramOf params k = paramOf (s.part.lane i).params k)) ∧
      ((∀ k, ParamCovered s.part w i k → ParamFits s.part w i k) → (q.lane i).parameterResult = .done) ∧
      ((∃ k, ParamCovered s.part w i k ∧ ¬ ParamFits s.part w i k) → (q.lane i).parameterResult = .refusedRange)

/-- R46, R72: a write of the stop mode: a value in range is taken and, where the new mode is a level mode whose level the input has, STOP
is added and the STOP event raised; a value out of range leaves the mode, REFUSED-RANGE. -/
def Obligations.StopModeWriteJudgesTheInput : Prop :=
  ∀ (s : State) (w : PostedWrite) (i : Lane), HeadTakeable s.part w → SetsOff s.part w (.stopMode i) →
    ∃ t q, exec .stopModeWrite s = .next t ∧ t.part = settle s.part q ∧ AnchorTaken s.part q w ∧
      q = { s.part with floor := q.floor, window := { s.part.window with shadow := q.window.shadow }, store := q.store,
                        lanes := q.lanes, attention := q.attention } ∧
      (4 < paramAfter s.part w i .stopMode →
        LaneSet s.part q i { s.part.lane i with parameterResult := .refusedRange } ∧ q.attention = s.part.attention) ∧
      (∀ mode : StopMode, mode.code = paramAfter s.part w i .stopMode →
        let l := { s.part.lane i with params := { (s.part.lane i).params with stopMode := mode } }
        (stopHeld l = true → ∃ l', HoldAdded l l' .stop ∧ LaneSet s.part q i { l' with parameterResult := .done } ∧
          Raised s.part.attention q.attention .stop) ∧
        (stopHeld l = false → LaneSet s.part q i { l with parameterResult := .done } ∧ q.attention = s.part.attention))

/-! ### Timer expiries and the lane's own steps -/

/-- R51, R55: the step timer's expiry steps the price down, no lower than the floor, by the lot's step or the lane's default, and
reloads the timer; at the floor price it is the floor event, which closes the lot. An expiry is due at a count of 0 (log 5). -/
def Obligations.StepExpiryLowersThePriceOrClosesTheLot : Prop :=
  ∀ (s : State) (i : Lane) (lot : Nat) (d : Digest) (h : HostFields), (s.part.lane i).timer = .counting .step 0 →
    (s.part.lane i).live = some lot → s.part.digest lot = some d → d.host = some h →
    let l := s.part.lane i
    let down := if h.step = 0 then l.params.defaultStep else h.step
    ∃ t q, exec (.stepTimerExpiry i) s = .next t ∧ t.part = settle s.part q ∧
      (h.floorPrice < l.price →
        q = { s.part with lanes := q.lanes } ∧
        LaneSet s.part q i { l with price := max h.floorPrice (l.price - down), timer := .counting .step l.params.stepInterval }) ∧
      (l.price ≤ h.floorPrice →
        q = { s.part with lanes := q.lanes, catalogue := q.catalogue, ring := q.ring } ∧ LotCloses s.part q i lot d h ∧
        q.ring.waiters = s.part.ring.waiters ∧ LaneSet s.part q i (laneClosing l))

/-- R90, R91: one entry of a Contender List served: refused by the first test that fails, or made a purchase at the strike price with its
position; the desk's slot is written and counted, and its last accepted sequence is not touched. -/
def Obligations.ContenderServedForTheBuyerItCaptured : Prop :=
  ∀ (p : Part) (i : Lane) (position : Nat) (e : Contender) (lot : Nat) (h : HostFields) (o : Owned),
    liveLot p i = some (lot, h, o) →
    let claim := judgeClaim (claimRequest p i h o e.units) (p.buyer e.buyer) (freeCount p)
    let credit := (p.buyer e.buyer).limit - (p.buyer e.buyer).exposure
    let reply := fun outcome reason units amount credit =>
      ({ count := (p.desk e.desk).reply.count + 1, lastAccepted := (p.desk e.desk).lastSequence.getD 0, reported := e.sequence,
         outcome := outcome, reason := reason, lane := i.val, lot := lot, units := units, position := position,
         price := (p.lane i).price, amount := amount, credit := credit } : ReplySlot)
    let refused := fun reason units =>
      serveContender p i position e = { p with press := (serveContender p i position e).press } ∧
      (serveContender p i position e).desk e.desk = { p.desk e.desk with reply := reply .refused reason units 0 credit } ∧
      (serveContender p i position e).press =
        { p.press with desks := (serveContender p i position e).press.desks, refused := p.press.refused + 1 }
    (∀ k, k ≠ e.desk → (serveContender p i position e).desk k = p.desk k) ∧
    (o.remaining = 0 → refused .soldOut 0) ∧
    (0 < o.remaining → buyerMayBuy p e.buyer i = false → refused .buyerBlocked 0) ∧
    (0 < o.remaining → buyerMayBuy p e.buyer i = true → ∀ reason units, claim = .refused reason units → refused reason units) ∧
    (0 < o.remaining → buyerMayBuy p e.buyer i = true → ∀ units amount, claim = .granted units amount →
      ∃ q, Purchased p q i { desk := e.desk, buyer := e.buyer, lot := lot, host := h, position := position, units := units,
                             price := (p.lane i).price, amount := amount } ∧
        serveContender p i position e = { q with press := (serveContender p i position e).press } ∧
        (serveContender p i position e).desk e.desk = { p.desk e.desk with
          reply := reply .accepted .none units amount ((p.buyer e.buyer).limit - ((p.buyer e.buyer).exposure + amount)) } ∧
        (serveContender p i position e).press =
          { p.press with desks := (serveContender p i position e).press.desks, accepted := p.press.accepted + 1 })

/-- R53, R90: the contender window's expiry serves the entries in list order from position 1, each at the position after the one before
it, empties the list and ends the round; the lane then closes a lot sold out or with a withdraw pending, or sets the next-round price and enters HELD for pending holds
or PAUSED. An expiry is due at a count of 0 (log 5). That the price of a lane that enters HELD so stays the strike price is the model's
choice (log 41). -/
def Obligations.ContenderExpiryServesThenPausesHoldsOrCloses : Prop :=
  (∀ (p : Part) (i : Lane) (position : Nat),
    serveContenders i position [] p = p ∧
    ∀ (e : Contender) (rest : List Contender),
      serveContenders i position (e :: rest) p = serveContenders i (position + 1) rest (serveContender p i position e)) ∧
  (∀ (s : State) (i : Lane) (lot : Nat) (d : Digest) (h : HostFields), (s.part.lane i).timer = .counting .contenderWindow 0 →
    (s.part.lane i).live = some lot →
    let served := serveContenders i 1 (s.part.lane i).contenders s.part
    served.digest lot = some d → d.host = some h →
    let l := served.lane i
    let ended := { l with contenders := [], roundReserved := 0, timer := Timer.stopped }
    let next := min h.startPrice (l.price + if h.bump = 0 then l.params.defaultBump else h.bump)
    ∃ t q, exec (.contenderWindowExpiry i) s = .next t ∧ t.part = settle s.part q ∧
      (d.owned.remaining = 0 ∨ l.pendingWithdraw = true →
        q = { served with lanes := q.lanes, catalogue := q.catalogue, ring := q.ring } ∧ LotCloses served q i lot d h ∧
        q.ring.waiters = served.ring.waiters ∧ LaneSet served q i { laneClosing ended with pendingWithdraw := false }) ∧
      (d.owned.remaining ≠ 0 → l.pendingWithdraw = false → q = { served with lanes := q.lanes }) ∧
      (d.owned.remaining ≠ 0 → l.pendingWithdraw = false → l.pendingHolds ≠ HoldSet.none →
        LaneSet served q i { ended with
          nextPrice := next, holds := l.holds.union l.pendingHolds, pendingHolds := HoldSet.none, state := .held, ret := .paused }) ∧
      (d.owned.remaining ≠ 0 → l.pendingWithdraw = false → l.pendingHolds = HoldSet.none →
        LaneSet served q i { ended with
          nextPrice := next, price := next, state := .paused, timer := .counting .restartPause l.params.restartPause }))

/-- R47, R48: a look. An IDLE lane without a hold reason or a pending hold, whose Display Position holds an AT-CLOCK lot, puts up
the first one with a close slot held or granted, or else waits on the ring with a need of 1; in any other case the look has no
effect. A trolley's lots stand in sequence order (log 32). -/
def Obligations.LookPutsUpTheFirstLotAtTheClock : Prop :=
  ∀ (p : Part) (i : Lane),
    let l := p.lane i
    let free := l.state = .idle ∧ l.holds = HoldSet.none ∧ l.pendingHolds = HoldSet.none
    (∀ lot d h, free → FirstAtClock p i lot → p.digest lot = some d → d.host = some h →
      (l.closeReserved = true ∨ Granted p 1 → PutsUp p (look p i) i lot d h) ∧
      (l.closeReserved = false → ¬ Granted p 1 → Waits p (look p i) i .idle 1)) ∧
    (¬ free ∨ (∀ lot, ¬ FirstAtClock p i lot) → look p i = p)

/-- R61, R65: a HELD lane without a hold reason enters its return state with that state's timer afresh; one that holds a reservation
granted while it waited goes on to the step it waited for: with a round reservation it enters RUNNING, and with a close slot it
puts up the first lot at the clock with that slot or, where its look finds none, gives the slot back and enters IDLE. Any other lane
stays. That the return state is kept is the model's choice (log 36). -/
def Obligations.LaneLeavesHeldWhenNothingHoldsIt : Prop :=
  ∀ (p : Part) (i : Lane),
    let l := p.lane i
    let q := leaveHeldIfFree p i
    (l.state ≠ .held ∨ l.holds ≠ HoldSet.none → q = p) ∧
    (l.state = .held → l.holds = HoldSet.none →
      (l.ret = .idle → l.closeReserved = false → ∃ r, r = { p with lanes := r.lanes, displays := r.displays } ∧
        LaneSet p r i { l with state := .idle, timer := .stopped } ∧ Told p r i ∧ q = look r i) ∧
      (l.ret = .idle → l.closeReserved = true →
        (∀ lot d h, l.pendingHolds = HoldSet.none → FirstAtClock p i lot → p.digest lot = some d → d.host = some h →
          PutsUp p q i lot d h) ∧
        (l.pendingHolds ≠ HoldSet.none ∨ (∀ lot, ¬ FirstAtClock p i lot) →
          q = { p with lanes := q.lanes, displays := q.displays } ∧
          LaneSet p q i { l with state := .idle, timer := .stopped, closeReserved := false } ∧ Told p q i)) ∧
      (l.ret = .primed → l.roundReserved = 0 → q = { p with lanes := q.lanes } ∧
        LaneSet p q i { l with
          state := .primed, timer := if l.params.preRoll = 0 then .stopped else .counting .preRoll l.params.preRoll }) ∧
      (l.ret = .paused → l.roundReserved = 0 → q = { p with lanes := q.lanes } ∧
        LaneSet p q i { l with
          state := .paused, price := l.nextPrice, timer := .counting .restartPause l.params.restartPause }) ∧
      (l.ret ≠ .idle → l.roundReserved ≠ 0 → EntersRunning p q i l.ret))

/-! ### Account words -/

/-- R112, R114: a payment word that fails a check sets its result to the first failure's outcome with amounts of 0, and has no other
effect. That the words are those whose field the write covers with any byte is the model's reading (log 8). -/
def Obligations.PaymentIsRefusedByItsFirstFailingCheck : Prop :=
  ∀ (s : State) (w : PostedWrite), QuietPart s.part → WordTaken s.part w .payment →
    let buyer := fieldAfter s.part w 0x0100 2
    let amount := fieldAfter s.part w 0x0108 8
    let refused := fun outcome => { anchorOnly s.part w with
      account := { s.part.account with paymentResult := { outcome := outcome, applied := 0, exposureAfter := 0 } } }
    (buyer = 0 ∨ inRange s.part buyer = false →
      ∃ t, exec .payment s = .next t ∧ t.part = refused .refusedBuyer) ∧
    (buyer ≠ 0 → inRange s.part buyer = true → amount = 0 ∨ 2 ^ 47 ≤ amount →
      ∃ t, exec .payment s = .next t ∧ t.part = refused .refusedRange) ∧
    (buyer ≠ 0 → inRange s.part buyer = true → amount ≠ 0 → amount < 2 ^ 47 → freeCount s.part = 0 →
      ∃ t, exec .payment s = .next t ∧ t.part = refused .refusedRing)

/-- R113, R114: a payment that passes its checks lowers the exposure by the lesser of the amount and the exposure, creates its PAYMENT
record and sets its result; above the exposure it raises PAYMENT-EXCESS. The buyer's invoice is unchanged.
That the words are those whose field the write covers with any byte is the model's reading (log 8). -/
def Obligations.PaymentLowersTheExposure : Prop :=
  ∀ (s : State) (w : PostedWrite) (buyer amount : Nat), WordTaken s.part w .payment → fieldAfter s.part w 0x0100 2 = buyer →
    fieldAfter s.part w 0x0108 8 = amount → buyer ≠ 0 → inRange s.part buyer = true → amount ≠ 0 → amount < 2 ^ 47 →
    0 < freeCount s.part →
    let b := s.part.buyer buyer
    let applied := min amount b.exposure
    ∃ t q, exec .payment s = .next t ∧ t.part = settle s.part q ∧
      q = { anchorOnly s.part w with account := q.account, ring := q.ring, attention := q.attention } ∧
      q.buyer buyer = { b with exposure := b.exposure - applied } ∧ (∀ k, k ≠ buyer → q.buyer k = s.part.buyer k) ∧
      q.account = { s.part.account with
        buyers := q.account.buyers,
        paymentResult := { outcome := .done, applied := applied, exposureAfter := b.exposure - applied } } ∧
      q.ring = { s.part.ring with
        assigned := s.part.ring.assigned + 1, payments := s.part.ring.payments + 1,
        queue := s.part.ring.queue ++
          [{ index := s.part.ring.assigned, tick := s.part.ticks.count,
             body := .payment buyer amount applied (b.exposure - applied) }] } ∧
      (amount ≤ b.exposure → q.attention = s.part.attention) ∧
      (b.exposure < amount → Raised s.part.attention q.attention .paymentExcess)

/-- R110, R108: an invoice-close word closes the buyer's open invoice with its record and INVOICE-CLOSED, and its result names it; it is
REFUSED-BUYER for a buyer out of range and NO-INVOICE without an open invoice, which change nothing else.
That the words are those whose field the write covers with any byte is the model's reading (log 8). -/
def Obligations.InvoiceCloseWordClosesTheOpenInvoice : Prop :=
  ∀ (s : State) (w : PostedWrite) (buyer : Nat), WordTaken s.part w .invoiceClose → fieldAfter s.part w 0x0128 2 = buyer →
    let b := s.part.buyer buyer
    let answered := fun outcome => { anchorOnly s.part w with
      account := { s.part.account with closeResult := { outcome := outcome, number := 0, lines := 0, total := 0 } } }
    (buyer = 0 ∨ inRange s.part buyer = false →
      ∃ t, exec .invoiceCloseWord s = .next t ∧ t.part = settle s.part (answered .refusedBuyer)) ∧
    (buyer ≠ 0 → inRange s.part buyer = true → b.invoice = 0 →
      ∃ t, exec .invoiceCloseWord s = .next t ∧ t.part = settle s.part (answered .noInvoice)) ∧
    (buyer ≠ 0 → inRange s.part buyer = true → b.invoice ≠ 0 →
      ∃ t q, exec .invoiceCloseWord s = .next t ∧ t.part = settle s.part q ∧
        q = { anchorOnly s.part w with account := q.account, ring := q.ring, attention := q.attention } ∧
        q.buyer buyer = { b with invoice := 0, lines := 0, total := 0 } ∧ (∀ k, k ≠ buyer → q.buyer k = s.part.buyer k) ∧
        q.account = { s.part.account with
          buyers := q.account.buyers,
          closeResult := { outcome := .done, number := b.invoice, lines := b.lines, total := b.total } } ∧
        q.ring = { s.part.ring with queue := s.part.ring.queue ++ [invoiceRecord s.part buyer],
                                    assigned := s.part.ring.assigned + 1 } ∧
        Raised s.part.attention q.attention .invoiceClosed)

/-! ### Ring words -/

/-- R132, R133: a consumer-index word not beyond the assigned index sets the consumer index, DONE; one beyond it leaves the index,
REFUSED-INDEX, and reports RING-INDEX. The Ring Waiters are served at the event's end where the free count has risen. A
threshold write up to 4,095 is taken, and raises RING-LOW where it leaves the free count below it; a larger value is not taken.
That the words are those whose field the write covers with any byte is the model's reading (log 8). -/
def Obligations.RingWordsMoveTheConsumerIndexAndTheThreshold : Prop :=
  (∀ (s : State) (w : PostedWrite) (value : Word32), WordTaken s.part w .consumerIndex →
    value = BitVec.ofNat 32 (fieldAfter s.part w 0x0200 4) →
    ∃ t q, exec .consumerIndexWord s = .next t ∧ t.part = settle s.part q ∧
      (value - s.part.ring.consumer ≤ s.part.ring.assigned - s.part.ring.consumer →
        q = { anchorOnly s.part w with ring := { s.part.ring with consumer := value, consumerResult := .done } }) ∧
      (¬ value - s.part.ring.consumer ≤ s.part.ring.assigned - s.part.ring.consumer →
        q = { anchorOnly s.part w with ring := { s.part.ring with consumerResult := .refusedIndex }, attention := q.attention } ∧
        Reported s.part.attention q.attention (errorOfWrite w .ringIndex (some 0)) s.part.ticks.count)) ∧
  (∀ (s : State) (w : PostedWrite), QuietPart s.part → WordTaken s.part w .threshold →
    let value := fieldAfter s.part w 0x0206 2
    (4095 < value → ∃ t, exec .ringLowThresholdWrite s = .next t ∧ t.part = anchorOnly s.part w) ∧
    (value ≤ 4095 → value ≤ freeCount s.part → ∃ t, exec .ringLowThresholdWrite s = .next t ∧
      t.part = { anchorOnly s.part w with ring := { s.part.ring with threshold := value } }) ∧
    (value ≤ 4095 → freeCount s.part < value → ∃ t, exec .ringLowThresholdWrite s = .next t ∧
      t.part = { anchorOnly s.part w with ring := { s.part.ring with threshold := value }, attention := t.part.attention } ∧
      Raised s.part.attention t.part.attention .ringLow))

/-! ### The day -/

/-- R190, R189: DAY-OPEN answers the first check that fails and changes nothing else; else it records the day's number, creates the
opening DAY-MARK with the day counts, which become 0, reserves the closing mark, and the day is OPEN. An unrecognised day command is
UNKNOWN. -/
def Obligations.DayOpenChecksAndOpensTheDay : Prop :=
  ∀ (s : State) (w : PostedWrite), QuietPart s.part →
    let number := fieldAfter s.part w 0x0002 2
    (DayCommandTaken s.part w .unknown → ∃ t, exec .unknownDayCommand s = .next t ∧ t.part = dayAnswered s.part w .unknown) ∧
    (DayCommandTaken s.part w .openDay →
      (s.part.window.dayState ≠ .closed → ∃ t, exec .dayOpen s = .next t ∧ t.part = dayAnswered s.part w .refusedState) ∧
      (s.part.window.dayState = .closed →
        (number = 0 → ∃ t, exec .dayOpen s = .next t ∧ t.part = dayAnswered s.part w .refusedRange) ∧
        (number ≠ 0 → s.part.ring.geometry = none → ∃ t, exec .dayOpen s = .next t ∧ t.part = dayAnswered s.part w .noRing) ∧
        (number ≠ 0 → s.part.ring.geometry ≠ none → freeCount s.part < 2 →
          ∃ t, exec .dayOpen s = .next t ∧ t.part = dayAnswered s.part w .refusedRing) ∧
        (number ≠ 0 → s.part.ring.geometry ≠ none → 2 ≤ freeCount s.part →
          ∃ t q, exec .dayOpen s = .next t ∧ t.part = settle s.part q ∧
            q = { dayAnswered s.part w .done with
              window := { (dayAnswered s.part w .done).window with dayNumber := number, dayState := .opened },
              ring := { s.part.ring with
                queue := s.part.ring.queue ++ [dayMarked s.part s.part.ring .opening number],
                assigned := s.part.ring.assigned + 1, purchases := 0, payments := 0, closingMark := true } })))

/-- R191, R20, R40, R193: DAY-CLOSE of an OPEN day marks every listing withdraw-pending, makes every lot not yet live a passenger with a
write-back, and empties every lane's queue, lists and backlog and clears its stopped mark; a Display Position goes too unless it
holds the lane's live lot, whose close has not completed. The digests of lots that leave no place, LIVE and CLOSED ones among them, stay. The lanes and desks are left.
While a lane holds a live lot the day is CLOSING, else the day ends in the same step. On a day that is not OPEN it is REFUSED-STATE. The
order of the write-backs is left free (log 10). -/
def Obligations.DayCloseWithdrawsAndFlushes : Prop :=
  ∀ (s : State) (w : PostedWrite), TablesSound s → DayCommandTaken s.part w .closeDay →
    (s.part.window.dayState ≠ .opened →
      ∃ t, exec .dayClose s = .next t ∧ t.part = settle s.part (dayAnswered s.part w .refusedState)) ∧
    (s.part.window.dayState = .opened →
      ∃ t r q order, exec .dayClose s = .next t ∧ t.part = settle s.part q ∧ DayFlushed s.part r w order ∧
        (liveLanes s.part ≠ 0 → q = r) ∧ (liveLanes s.part = 0 → DayEnds r q))

/-- R193, R116, R108: the end of the day close: every open invoice closed in rising order of buyer index, then the closing DAY-MARK
created in its reservation, the day CLOSED and DAY-CLOSED raised; it waits while a lane holds a live lot. The buyers whose invoices are
closed are exactly those with an open one, each once; closing one creates its record, clears its open fields and raises
INVOICE-CLOSED. -/
def Obligations.DayEndClosesInvoicesThenMarksTheDay : Prop :=
  (∀ (p : Part), p.window.dayState = .closing →
    (liveLanes p ≠ 0 → endDayIfDue p = p) ∧ (liveLanes p = 0 → DayEnds p (endDayIfDue p))) ∧
  (∀ (p : Part), TablesSound { part := p, pending := [] } →
    (openBuyers p).Pairwise (· < ·) ∧ ∀ buyer, buyer ∈ openBuyers p ↔ (p.buyer buyer).invoice ≠ 0) ∧
  (∀ (p : Part) (buyer : Nat), (p.buyer buyer).invoice ≠ 0 → InvoiceCloses p (closeInvoice p buyer) buyer)

/-! ### Windows and masters -/

/-- R165, R134: a window commit is refused with the first reason that applies, which leaves every entry as it was and reports MAP;
one that passes installs the descriptor, and a RING window's commit or replacement starts the ring's geometry and indices. The
reason NONE of a commit that is DONE is the model's choice (log 31), and so is that bits 36 and up of the base count (log 39).
That the word is set off by its request byte is the model's reading (log 8). -/
def Obligations.WindowCommitChecksTheDescriptor : Prop :=
  ∀ (s : State) (w : PostedWrite) (v : Window), WordTaken s.part w (.windowWord v) →
    fieldAfter s.part w (descriptorAt v + 0x18) 1 ≠ 0 →
    let d := readDescriptor (shadowAfter s.part w) v
    let held := s.part.window.cache[v]
    let above := d.base + d.pages * 4096
    let refused := fun reason =>
      ∃ t q, exec .windowCommit s = .next t ∧ t.part = settle s.part q ∧
        q = { windowAnswered s.part w v .refusedMap reason with attention := q.attention } ∧
        MapRefused s.part q w (descriptorAt v + 0x18)
    (WindowKind.ofCode d.kindCode = none ∨ WindowKind.ofCode d.kindCode = some .anchor → refused .badKind) ∧
    ∀ kind, WindowKind.ofCode d.kindCode = some kind → kind ≠ .anchor →
      let badAlign := d.base % 4096 ≠ 0 ∨ 2 ^ 36 < above
      let badSize := kind.sizeAllowed d.pages = false
      let badLimit := kind.limitAllowed d.recordLimit = false
      let overlaps := OtherWindow s.part v (fun e => d.base < e.base + e.pages * 4096 ∧ e.base < above)
      let duplicate := kind ≠ .guard ∧ OtherWindow s.part v (fun e => e.kind = kind)
      let dayBound := (kind.dayBound = true ∨ (held.valid = true ∧ held.kind.dayBound = true)) ∧ s.part.window.dayState ≠ .closed
      let ringHeld := held.valid = true ∧ held.kind = .ring ∧ RingHeld s.part
      (badAlign → refused .align) ∧ (¬ badAlign → badSize → refused .size) ∧
      (¬ badAlign → ¬ badSize → badLimit → refused .limit) ∧
      (¬ badAlign → ¬ badSize → ¬ badLimit → overlaps → refused .overlap) ∧
      (¬ badAlign → ¬ badSize → ¬ badLimit → ¬ overlaps → duplicate → refused .duplicateKind) ∧
      (¬ badAlign → ¬ badSize → ¬ badLimit → ¬ overlaps → ¬ duplicate → dayBound → refused .dayNotClosed) ∧
      (¬ badAlign → ¬ badSize → ¬ badLimit → ¬ overlaps → ¬ duplicate → ¬ dayBound → ringHeld → refused .ringBusy) ∧
      (¬ badAlign → ¬ badSize → ¬ badLimit → ¬ overlaps → ¬ duplicate → ¬ dayBound → ¬ ringHeld →
        ∃ t, exec .windowCommit s = .next t ∧
          let entry : WindowEntry :=
            { valid := true, kind := kind, base := d.base, pages := d.pages, readLevel := d.readLevel, writeLevel := d.writeLevel,
              recordLimit := if kind = .lot ∨ kind = .buyer ∨ kind = .desk then d.recordLimit else 0 }
          let installed := windowInstalled s.part w v entry
          (kind = .ring → t.part = settle s.part { installed with
            ring := ringAfresh s.part.ring (some { base := d.base, capacity := d.pages * 64 }) }) ∧
          (kind ≠ .ring → held.valid = true → held.kind = .ring →
            t.part = settle s.part { installed with ring := ringAfresh s.part.ring none }) ∧
          (kind ≠ .ring → ¬ (held.valid = true ∧ held.kind = .ring) → t.part = settle s.part installed))

/-- R166, R134: a removal marks the entry not valid and keeps its other fields, DONE, and ends the ring with a RING window; a window
that is not valid stays as it is, DONE; DAY-NOT-CLOSED and RING-BUSY refuse it, which reports MAP. The reason NONE of a removal
that is DONE is the model's choice (log 31). That the word is set off by its request byte is the model's reading (log 8). -/
def Obligations.WindowRemovalMarksTheEntryNotValid : Prop :=
  ∀ (s : State) (w : PostedWrite) (v : Window), WordTaken s.part w (.windowWord v) →
    fieldAfter s.part w (descriptorAt v + 0x18) 1 = 0 →
    let held := s.part.window.cache[v]
    let removed := windowInstalled s.part w v { held with valid := false }
    let refused := fun reason =>
      ∃ t q, exec .windowRemoval s = .next t ∧ t.part = settle s.part q ∧
        q = { windowAnswered s.part w v .refusedMap reason with attention := q.attention } ∧
        MapRefused s.part q w (descriptorAt v + 0x18)
    (held.valid = false →
      ∃ t, exec .windowRemoval s = .next t ∧ t.part = settle s.part (windowAnswered s.part w v .done .none)) ∧
    (held.valid = true → held.kind.dayBound = true → s.part.window.dayState ≠ .closed → refused .dayNotClosed) ∧
    (held.valid = true → held.kind = .ring → s.part.window.dayState = .closed → RingHeld s.part → refused .ringBusy) ∧
    (held.valid = true → held.kind = .ring → s.part.window.dayState = .closed → ¬ RingHeld s.part →
      ∃ t, exec .windowRemoval s = .next t ∧ t.part = settle s.part { removed with ring := ringAfresh s.part.ring none }) ∧
    (held.valid = true → held.kind ≠ .ring → held.kind.dayBound = false ∨ s.part.window.dayState = .closed →
      ∃ t, exec .windowRemoval s = .next t ∧ t.part = settle s.part removed)

/-- R159: a master commit of entry 0, or of a descriptor out of its values or ranges, is REFUSED-MAP with BAD-ENTRY and reports MAP;
else the entry is installed, its desk range kept only for the DESK role and its lane mask, without members above lane 5, only for TRACK
and DISPLAY. -/
def Obligations.MasterCommitInstallsTheEntry : Prop :=
  ∀ (s : State) (w : PostedWrite) (m : Master), QuietPart s.part → WordTaken s.part w (.masterWord m) →
    let field := fun start size => fieldAfter s.part w (masterAt m + start) size
    let desksFit := field 4 2 ≤ 511 ∧ 1 ≤ field 6 2 ∧ field 6 2 ≤ 512 ∧ field 4 2 + field 6 2 ≤ 512
    let answered := fun result reason => { anchorOnly s.part w with window := { (anchorOnly s.part w).window with
      masterResults := s.part.window.masterResults.set m { result := result, reason := reason } } }
    (m = 0 ∨ Role.ofCode (field 0 1) = none ∨ GrantClass.ofCode (field 2 1) = none ∨ 3 < field 1 1 ∨
        (Role.ofCode (field 0 1) = some .desk ∧ ¬ desksFit) →
      ∃ t, exec .masterCommit s = .next t ∧ t.part = { answered .refusedMap .badEntry with attention := t.part.attention } ∧
        MapRefused s.part t.part w (masterAt m + 0x08)) ∧
    (∀ role grantClass, m ≠ 0 → Role.ofCode (field 0 1) = some role → GrantClass.ofCode (field 2 1) = some grantClass →
      field 1 1 ≤ 3 → (role = .desk → desksFit) →
      ∃ t, exec .masterCommit s = .next t ∧
        t.part = { answered .done .none with window := { (answered .done .none).window with
          masters := s.part.window.masters.set m
            { role := role, privilege := field 1 1, grantClass := grantClass,
              firstDesk := if role = .desk then field 4 2 else 0, deskCount := if role = .desk then field 6 2 else 0,
              laneMask := if role = .track ∨ role = .display then BitVec.ofNat 6 (field 3 1) else 0 } } })

/-! ### The attention area -/

/-- R182, R178, R180, R183: a flag-clear word clears the flags it names and gives those that were set; a capture-release word unlocks a
locked capture, its recorded fields kept and its lost count given, or is NOT-LOCKED; an event map write takes each covered entry that
names NONE, ATTN_U or ATTN_R, but for DRAM-UNCORRECTABLE, which stays ATTN_U's; the report-corrected switch becomes ON for the value ON
and OFF for any other. What else the Attention Unit holds is kept. That the words are those whose field the write covers
with any byte is the model's reading (log 8). -/
def Obligations.AttentionWordsActOnTheirFieldsAlone : Prop :=
  ∀ (s : State) (w : PostedWrite), QuietPart s.part →
    let a := s.part.attention
    (WordTaken s.part w .flagClear →
      let named := fieldAfter s.part w 0x0324 4
      ∃ t, exec .flagClear s = .next t ∧
        t.part = { anchorOnly s.part w with attention := { a with
          flags := t.part.attention.flags, clearResult := { outcome := .done, cleared := t.part.attention.clearResult.cleared } } } ∧
        ∀ k : Fin 18,
          t.part.attention.flags.getLsbD k.val = (a.flags.getLsbD k.val && !named.testBit k.val) ∧
          t.part.attention.clearResult.cleared.getLsbD k.val = (a.flags.getLsbD k.val && named.testBit k.val)) ∧
    (WordTaken s.part w .captureRelease →
      ∃ t, exec .captureRelease s = .next t ∧
        (a.capture.locked = true → t.part = { anchorOnly s.part w with attention := { a with
          capture := { a.capture with locked := false, lost := 0 }, releaseResult := { outcome := .done, lost := a.capture.lost } } }) ∧
        (a.capture.locked = false → t.part = { anchorOnly s.part w with attention := { a with
          releaseResult := { outcome := .notLocked, lost := 0 } } })) ∧
    (WordTaken s.part w .eventMap →
      ∃ t, exec .eventMapWrite s = .next t ∧
        t.part = { anchorOnly s.part w with attention := { a with map := t.part.attention.map } } ∧
        ∀ k : Fin 18,
          let covered := covers (anchorBytes s.part w) (0x0340 + k.val) 1 = true
          let value := fieldAfter s.part w (0x0340 + k.val) 1
          (∀ e : MapEntry, k ≠ 7 → covered → value = e.code → t.part.attention.map[k] = e) ∧
          (k = 7 ∨ ¬ covered ∨ 2 < value → t.part.attention.map[k] = a.map[k])) ∧
    (WordTaken s.part w .correctedSwitch →
      ∃ t, exec .reportCorrectedSwitchWrite s = .next t ∧
        t.part = { anchorOnly s.part w with attention := { a with
          reportCorrected := decide (fieldAfter s.part w 0x0339 1 = 1) } })

/-- R157, R133: an allowed Anchor write that covers no command is shadowed and forwarded, and acts on nothing; one whose masks enable no byte
is not forwarded. One that covers several commands has each acted on once, in an order the model leaves free (log 7), and its event
ends as R133 says where a ring-low threshold was taken among them, else as every event does. That the commands are those whose field
the write covers with any byte is the model's reading (log 8). -/
def Obligations.AnchorWriteIsShadowedForwardedAndActedOn : Prop :=
  ∀ (s : State) (w : PostedWrite), HeadTakeable s.part w → w.cls.check = .pass → w.cls.kind = some .anchor →
    (QuietPart s.part → anchorActions (anchorBytes s.part w) = [] →
      ∃ t, exec .anchorWrite s = .next t ∧
        t.part = { s.part with floor := headGone s.part, window := { s.part.window with shadow := shadowAfter s.part w },
                               store := forwardedInto s.part w none }) ∧
    (∃ order : List AnchorAction, order.Perm (anchorActions (anchorBytes s.part w)) ∧
      ∀ row, (anchorActions (anchorBytes s.part w)).any (row (shadowAfter s.part w)) = true →
        ∃ n,
          let q := { order.foldl (perform w (anchorBytes s.part w))
            { s.part with floor := headGone s.part, window := { s.part.window with shadow := shadowAfter s.part w },
                          store := forwardedInto s.part w none } with freeDraws := n }
          let taken := AnchorAction.threshold ∈ anchorActions (anchorBytes s.part w) ∧ fieldAfter s.part w 0x0206 2 ≤ 4095
          (taken → takeAnchor row s.part = settleThreshold s.part q) ∧ (¬ taken → takeAnchor row s.part = settle s.part q))

/-! ### Classification (R160 to R164) -/

/-- R160 to R162, R164, R157: an access is matched to the window whose range holds its address, and the first check that fails, of
level and role, form, range and limit, gives its result; one that matches no window is held to the line rule alone. It carries the
record, desk, lane and place that its offset names. The slot of a PRESS or TRACK write is that of its first enabled byte (log 9). -/
def Obligations.AccessesAreMatchedAndCheckedInOrder : Prop :=
  ∀ (p : Part) (m : Master) (direction : Direction) (address : Address) (n : Nat) (bytes : List (Nat × Byte)),
    let c := classify p m direction address n bytes
    let crosses := 64 < address.toNat % 64 + 8 * n
    ((∀ v, ¬ InWindow p v address.toNat) →
      c.window = none ∧ c.kind = none ∧ c.place = .none ∧ (crosses → c.check = .format) ∧ (¬ crosses → c.check = .pass)) ∧
    (∀ v, InWindow p v address.toNat → (∀ x, x < v → ¬ InWindow p x address.toNat) →
      let e := p.window.cache[v]
      let master := p.window.masters[m]
      let offset := address.toNat - e.base
      let inside := offsetsFrom e.base bytes
      let first := match inside with | b :: _ => b.1 | [] => offset
      c.window = some v ∧ c.kind = some e.kind ∧ PlaceNamed e.kind offset first c.place ∧
      (¬ RoleAllows master e direction → c.check = .rights) ∧
      (RoleAllows master e direction →
        (crosses ∨ ¬ FormFits e.kind direction inside → c.check = .format) ∧
        (¬ crosses → FormFits e.kind direction inside →
          (¬ RangeFits master e.kind direction offset (8 * n) first → c.check = .rights) ∧
          (RangeFits master e.kind direction offset (8 * n) first →
            (¬ LimitFits e offset (8 * n) → c.check = .limit) ∧ (LimitFits e offset (8 * n) → c.check = .pass)))))

/-! ### Reads -/

/-- R155, R100, R78, R95, R157, R167, R4, R42, R73, R96, R135, R148, R158, R184: a read into BUYER, DESK, REPLY or the Anchor is
answered DONE from the part's state as it stands; a LOT read is forwarded with the owned fields of a known lot captured, and a read of
RING, GUARD or no window is forwarded plain. Nothing else changes. A probe word carries the window's valid flag and what the master may
do there. RIGHTS_PROBE takes every allowed Anchor read (log 6). The Anchor's results and status show what the part holds, and its
command and request fields the shadow; how a reservation, an absent thing, a yes or no, a return state, the day number and a base's high
bits are shown there is the model's choice (logs 22, 23, 35, 36, 38 and 39). -/
def Obligations.ReadsAreAnsweredOrForwarded : Prop :=
  (∀ (s : State) (r : ReadInProgress), ReadInto s.part r .buyer →
    ∃ t, exec .buyerRead s = .next t ∧ t.part = bytesAnswered s.part r (fun k =>
      if r.record = 0 then 0 else layoutByte (s.part.buyer r.record).layout ((r.address.toNat + k) % 64))) ∧
  (∀ (s : State) (r : ReadInProgress), ReadInto s.part r .desk →
    ∃ t, exec .deskRead s = .next t ∧ t.part = bytesAnswered s.part r (fun k =>
      layoutByte (s.part.desk (r.record + k / 8)).layout (k % 8))) ∧
  (∀ (s : State) (r : ReadInProgress), ReadInto s.part r .reply →
    ∃ t, exec .replyRead s = .next t ∧ t.part = bytesAnswered s.part r (fun k =>
      let place := r.address.toNat % 32 + k
      layoutByte (s.part.desk (r.replyDesk + place / 32)).reply.layout (place % 32))) ∧
  (∀ (s : State) (r : ReadInProgress), ReadInto s.part r .anchor →
    ∃ t, exec .rightsProbe s = .next t ∧ t.part = bytesAnswered s.part r (fun k =>
      anchorByte s.part (r.address.toNat - anchorBase s.part.window.anchorSel + k))) ∧
  (∀ (s : State) (r : ReadInProgress), ReadInto s.part r .lot →
    ∃ t, exec .lotRead s = .next t ∧
      t.part = readForwarded s.part r r.address ((s.part.digest r.record).map fun d => d.owned)) ∧
  (∀ (s : State) (r : ReadInProgress), ReadTakeable s.part r → r.cls.check = .pass →
    r.cls.kind = none ∨ r.cls.kind = some .guard ∨ r.cls.kind = some .ring →
    ∃ t, exec .forwardedRead s = .next t ∧ t.part = readForwarded s.part r r.address none) ∧
  (∀ (f : Nat → Byte) (n : Nat), (beatsAt f 0 n).length = n ∧ ∀ k, k < 8 * n → byteOfBeats (beatsAt f 0 n) k = f k) ∧
  (∀ (p : Part) (m : Master) (v : Window),
    let word := 0x1400 + m.val * 0x80 + v.val * 0x08
    let valid := p.window.cache[v].valid = true
    let allowed := RoleAllows p.window.masters[m] p.window.cache[v]
    (valid → anchorByte p word = 1) ∧ (¬ valid → anchorByte p word = 0 ∧ anchorByte p (word + 1) = 0 ∧ anchorByte p (word + 2) = 0) ∧
    (valid → (allowed .read → anchorByte p (word + 1) = 1) ∧ (¬ allowed .read → anchorByte p (word + 1) = 0) ∧
      (allowed .write → anchorByte p (word + 2) = 1) ∧ (¬ allowed .write → anchorByte p (word + 2) = 0))) ∧
  ∀ p : Part,
    ShowsAll p 0 (wordResults p) ∧ ShowsAll p 0 (ringStatus p) ∧ ShowsAll p 0 (attentionStatus p) ∧
    ShowsAll p 0 (countersShown p) ∧
    (∀ i : Lane, ShowsAll p (laneAt i) (laneShown (p.lane i)) ∧ ShowsAll p (laneAt i) (laneStatusShown p i) ∧
      ShowsAll p (laneAt i) (trackStatusShown (p.track i)) ∧ ShowsAll p (laneAt i) (displayStatusShown (p.display i))) ∧
    (∀ v : Window, v ≠ 0 → ShowsAll p (descriptorAt v) (windowShown p v)) ∧ Shows p (descriptorAt 0) 32 0 ∧
    (∀ m : Master, ShowsAll p (masterAt m) (masterShown p m)) ∧
    ∀ f ∈ requestFields, Shows p f.1 f.2 (Memory.field p.window.shadow f.1 f.2)

/-- R143 to R145: a DISPLAY read is a blank where its slot is 3 or empty, or its page is absent; the first 64 bytes of page 0 of a filled
CURRENT are the live block; any other is forwarded, translated to its page. -/
def Obligations.DisplayReadIsBlankLiveOrTranslated : Prop :=
  ∀ (s : State) (r : ReadInProgress) (i : Lane) (slot page inPage : Nat), ReadInto s.part r .display →
    r.cls.place = .display i.val slot page inPage → page < 8 →
    ∃ t, exec .displayRead s = .next t ∧
      ((∀ m, ¬ SlotHolds (s.part.display i) slot m) → t.part = blankAnswered s.part r i) ∧
      (∀ m, SlotHolds (s.part.display i) slot m →
        let live := slot = 0 ∧ page = 0 ∧ inPage < 64
        let address := m.pages.toList.getD page 0
        (live → t.part = bytesAnswered s.part r (fun k => layoutByte (liveBlockLayout s.part i m.lot) (inPage + k))) ∧
        (¬ live → address = 0 → t.part = blankAnswered s.part r i) ∧
        (¬ live → address ≠ 0 → t.part = readForwarded s.part r (BitVec.ofNat 36 (address.toNat + inPage)) none))

/-! ### The Store Port -/

/-- R168, R8, R18, R128: with no transaction in flight, the first requester of the round order after the last granted that has one
ready is granted and its transaction issued with a count of 0; a write-back leaves its queue as it is issued. Otherwise nothing
is granted. A write-back issued afresh comes first, and a fetch waits only for the write that listed its lot (logs 11 and 12). -/
def Obligations.StorePortGrantsInRoundOrder : Prop :=
  ∀ s : State,
    (s.part.store.inFlight ≠ none → exec .storePortGrant s = .next s) ∧
    (s.part.store.inFlight = none →
      ((∀ r t, ¬ Presents s.part r t) → exec .storePortGrant s = .next s) ∧
      ∀ r x, Presents s.part r x →
        (∀ r', roundPlace s.part.store.lastGranted r' < roundPlace s.part.store.lastGranted r → ∀ y, ¬ Presents s.part r' y) →
        ∃ t store, exec .storePortGrant s = .next t ∧
          store = { s.part.store with lastGranted := r, inFlight := some { transaction := x, retries := 0 }, turn := store.turn } ∧
          (r ≠ .catalogue → store.turn = s.part.store.turn ∧ t.part = { s.part with store := store }) ∧
          (∀ lot address, x = .fetch lot address → store.turn = .fetchRead ∧ t.part = { s.part with store := store }) ∧
          (∀ e address data, x = .writeBack e address data → store.turn = .writeBack ∧
            t.part = { s.part with
              store := store,
              catalogue := { s.part.catalogue with
                writeBackOut := some e,
                writeBacks := if s.part.catalogue.writeBackOut = none then s.part.catalogue.writeBacks.tail
                              else s.part.catalogue.writeBacks } }))

/-- R169, R170: a RETRY adds 1 to the transaction's count, and it is issued again; the 64th in a row exhausts it: RETRY-EXHAUSTED is
reported, a forwarded write is abandoned, a forwarded read answered FAULT, a fetch ended with DATA-ERROR, and a part-made write gives
the port back to be issued afresh. RETRY_EXHAUSTED before the 64th changes nothing (log 14). -/
def Obligations.RetriesAreExhaustedAtTheSixtyFourth : Prop :=
  ∀ (s : State) (f : InFlight), s.part.store.inFlight = some f →
    (f.retries < 63 → exec .retryExhausted s = .next s ∧
      ∃ t, exec .storePortRetry s = .next t ∧
        t.part = { s.part with store := { s.part.store with inFlight := some { f with retries := f.retries + 1 } } }) ∧
    (63 ≤ f.retries → ∀ c : Instr, c = .storePortRetry ∨ c = .retryExhausted →
      ∃ t a, exec c s = .next t ∧
        Reported s.part.attention a (originOf f.transaction .retryExhausted) s.part.ticks.count ∧
        (∀ w, f.transaction = .forwardWrite w → t.part = writeEnded s.part a) ∧
        (∀ r, f.transaction = .forwardRead r false → t.part = readEnded s.part r .fault a) ∧
        (∀ r, f.transaction = .forwardRead r true → t.part = portFreed s.part a) ∧
        (∀ e address data, f.transaction = .writeBack e address data → t.part = portFreed s.part a) ∧
        (∀ x address data, f.transaction = .ringRecord x address data → t.part = portFreed s.part a) ∧
        (∀ lot address e rest d, f.transaction = .fetch lot address → s.part.catalogue.listing = e :: rest →
          s.part.digest e.lot = some d →
          ∃ q, t.part = settle s.part q ∧ FetchCompletes (listingOut s.part a rest) q e d none))

/-- R169, R170, R4, R172, R183: a forwarded read that ends is answered DONE with the data, the owned bytes merged for a LOT read, or
FAULT where it is uncorrectable, and its place is free; an abandoned one is not answered. A forwarded write that ends frees its place. -/
def Obligations.ForwardedTransactionsEndWithTheirAnswer : Prop :=
  (∀ (s : State) (r : ForwardedRead) (abandoned : Bool) (n : Nat) (answer : FinalAnswer) (data : Vector Beat 8),
    s.part.store.inFlight = some { transaction := .forwardRead r abandoned, retries := n } →
    ∃ t a, exec (.forwardedReadCompletion answer data) s = .next t ∧ AnswerNoted s.part a (.forwardRead r abandoned) answer ∧
      (abandoned = true → t.part = portFreed s.part a) ∧
      (abandoned = false → answer = .uncorrectable → t.part = readEnded s.part r .fault a) ∧
      (abandoned = false → answer ≠ .uncorrectable →
        (r.merge = none → t.part = readEnded s.part r (.done (data.toList.take r.beatCount)) a) ∧
        (∀ o, r.merge = some o → ∃ beats, t.part = readEnded s.part r (.done beats) a ∧
          beats.length = (data.toList.take r.beatCount).length ∧
          ∀ k, k < 8 * beats.length →
            let place := r.address.toNat % 128 + k
            (0x68 ≤ place ∧ place < 0x80 → byteOfBeats beats k = layoutByte o.layout place) ∧
            (¬ (0x68 ≤ place ∧ place < 0x80) → byteOfBeats beats k = byteOfBeats data.toList k)))) ∧
  (∀ (s : State) (w : ForwardedWrite) (n : Nat) (answer : FinalAnswer),
    s.part.store.inFlight = some { transaction := .forwardWrite w, retries := n } →
    ∃ t a, exec (.forwardedWriteCompletion answer) s = .next t ∧ AnswerNoted s.part a (.forwardWrite w) answer ∧
      t.part = writeEnded s.part a)

/-- R8, R9, R10 to R14: a good answer keeps the lower line, and after the upper line the fetch is complete, as an uncorrectable answer
completes it with DATA-ERROR: the listing leaves its queue and ends WITHDRAWN where it is so marked, else it is refused with the first
reason that applies, or placed. -/
def Obligations.FetchCompletionPlacesRefusesOrWithdraws : Prop :=
  ∀ (s : State) (lot : Nat) (address : Address) (n : Nat) (answer : FinalAnswer) (data : Vector Beat 8),
    s.part.store.inFlight = some { transaction := .fetch lot address, retries := n } →
    ∃ t a, exec (.fetchReadCompletion answer data) s = .next t ∧ AnswerNoted s.part a (.fetch lot address) answer ∧
      (answer ≠ .uncorrectable → s.part.catalogue.fetchLower = none →
        t.part = settle s.part { portFreed s.part a with catalogue := { s.part.catalogue with fetchLower := some data } }) ∧
      (∀ lower e rest d, answer ≠ .uncorrectable → s.part.catalogue.fetchLower = some lower →
        s.part.catalogue.listing = e :: rest → s.part.digest e.lot = some d →
        ∃ q, t.part = settle s.part q ∧
          FetchCompletes (listingOut s.part a rest) q e d (some (hostOfBeats (lower.toList ++ data.toList)))) ∧
      (∀ e rest d, answer = .uncorrectable → s.part.catalogue.listing = e :: rest → s.part.digest e.lot = some d →
        ∃ q, t.part = settle s.part q ∧ FetchCompletes (listingOut s.part a rest) q e d none)

/-- R18, R19, R58, R128, R57, R170: a write-back that completes tells its lot's lane, if its close requested it, and frees the
digest where R19 calls for it; a ring record that completes is published, and a LOT-CLOSE completes its lot's close; an
uncorrectable answer to either is captured and gives the port back. What stands of a write to be issued afresh is the model's
reading (log 11). -/
def Obligations.PartMadeWritesCompleteOrAreIssuedAfresh : Prop :=
  (∀ (s : State) (e : WriteBackEntry) (address : Address) (data : List Beat) (n : Nat),
    s.part.store.inFlight = some { transaction := .writeBack e address data, retries := n } →
    (∃ t a, exec .partMadeWriteUncorrectable s = .next t ∧
      AnswerNoted s.part a (.writeBack e address data) .uncorrectable ∧ t.part = portFreed s.part a) ∧
    ∀ corrected : Bool, ∃ t a b q, exec (.writeBackCompletion corrected) s = .next t ∧
      AnswerNoted s.part a (.writeBack e address data) (if corrected = true then .okCorrected else .ok) ∧
      (e.forClose = false ∨ (∀ i, ¬ ((s.part.lane i).live = some e.lot ∧ (s.part.lane i).state = .closing)) →
        b = { portFreed s.part a with catalogue := { s.part.catalogue with writeBackOut := none } }) ∧
      (∀ i, e.forClose = true → (s.part.lane i).live = some e.lot → (s.part.lane i).state = .closing →
        (∀ j, j < i → ¬ ((s.part.lane j).live = some e.lot ∧ (s.part.lane j).state = .closing)) →
        LeavesClosing { portFreed s.part a with catalogue := { s.part.catalogue with writeBackOut := none } } b i) ∧
      FreedIfDone b q e.lot ∧ t.part = settle s.part (endDayIfDue q)) ∧
  (∀ (s : State) (x : RingRecord) (address : Address) (data : List Beat) (n : Nat),
    s.part.store.inFlight = some { transaction := .ringRecord x address data, retries := n } →
    (∃ t a, exec .partMadeWriteUncorrectable s = .next t ∧
      AnswerNoted s.part a (.ringRecord x address data) .uncorrectable ∧ t.part = portFreed s.part a) ∧
    ∀ corrected : Bool, ∃ t a q, exec (.ringRecordCompletion corrected) s = .next t ∧
      AnswerNoted s.part a (.ringRecord x address data) (if corrected = true then .okCorrected else .ok) ∧
      t.part = settle s.part q ∧
      let published := { portFreed s.part a with
        ring := { s.part.ring with queue := s.part.ring.queue.tail, published := s.part.ring.published + 1 } }
      ((∀ f, x.body ≠ .lotClose f) → q = published) ∧
      (∀ f d, x.body = .lotClose f → s.part.digest f.lot = some d → CloseCompletes published q f.lane f.lot d))

/-! ### The end of an event -/

/-- R122, R64, R133, R141: at the end of an event the Ring Waiters are served in their order where the free count has risen or another
lane stands at the head; RING-LOW is raised where the step has carried the free count below the threshold; each lane whose map was told of
a change is rebuilt: CURRENT is its live lot and NEXT1 and NEXT2 the first two lots coming in its display order, each with its page list,
and the generation rises where a slot changes (R139, R140, R142). At the end of an event that took a ring-low threshold, RING-LOW is
raised wherever the free count, the waiters served, is below it. The step is judged with the threshold after it, and raises RING-LOW once
(log 33). -/
def Obligations.EventEndServesTheRingWaiters : Prop :=
  ∀ before p : Part, WaitersSound p →
    ∃ r, r.ring.threshold = p.ring.threshold ∧ r.floor = p.floor ∧ r.window = p.window ∧ r.tracks = p.tracks ∧ r.press = p.press ∧
      r.account = p.account ∧ r.store = p.store ∧ r.ticks = p.ticks ∧
      (freeCount before < freeCount p ∨ before.ring.waiters.head? ≠ p.ring.waiters.head? → ServedInOrder p r) ∧
      (¬ (freeCount before < freeCount p ∨ before.ring.waiters.head? ≠ p.ring.waiters.head?) → r = p) ∧
      EventEnds r (settle before p) (p.ring.threshold ≤ freeCount before ∧ freeCount r < p.ring.threshold) ∧
      EventEnds r (settleThreshold before p) (freeCount r < p.ring.threshold)

/-! ### What every step keeps -/

/-- Every step keeps the fixed entries of the Window Unit and the shadow's canonical form, the bounds of the Floor Port, the retry
count's bound, and the Attention Unit's soundness. That the Anchor's entry has levels of 0 is the model's choice (log 37). -/
def Obligations.StepKeepsTheBusWindowsAndAttention : Prop :=
  Kept WindowsSound ∧ Kept FloorSound ∧ Kept RetriesSound ∧ Kept AttentionSound

/-- Every step keeps the bounds of the queues, the canonical form of the tables, and the rule that no display notice stands between
events; and it keeps every lane's timer, Contender List and round as its state calls for, together with the soundness of the Ring
Waiters. -/
def Obligations.StepKeepsLanesQueuesAndTables : Prop :=
  Kept QueuesSound ∧ Kept TablesSound ∧ Kept Quiet ∧ Kept (fun s => LanesSound s ∧ WaitersSound s.part)

/-- The state after reset meets every invariant that the steps keep. -/
def Obligations.ResetMeetsTheInvariants : Prop :=
  WindowsSound State.reset ∧ FloorSound State.reset ∧ RetriesSound State.reset ∧ AttentionSound State.reset ∧
    QueuesSound State.reset ∧ TablesSound State.reset ∧ Quiet State.reset ∧ LanesSound State.reset ∧ WaitersSound State.reset.part
end

