-- ==== Sys2Proof/Laws/AnchorReads.lean ====
section
/-! SUPPORT. What an Anchor read shows: a layout whose fields stand apart shows each of them whole. -/

namespace Sys2Proof.Machine

open Sys2Proof.Safety

/-- Two places, each an offset and a size, that share no byte. -/
def apart (a b : Nat × Nat) : Prop := a.1 + a.2 ≤ b.1 ∨ b.1 + b.2 ≤ a.1

/-- The place of a field. -/
def FieldAt.place (f : FieldAt) : Nat × Nat := (f.offset, f.size)

/-- R195: a layout whose fields stand apart shows each of them, least significant byte first. -/
theorem layoutByte_field (fields : List FieldAt) (ha : (fields.map FieldAt.place).Pairwise apart) (f : FieldAt) (hf : f ∈ fields)
    (k : Nat) (hk : k < f.size) : layoutByte fields (f.offset + k) = byteOf f.value k := by
  have hfind : fields.find? (fun g => decide (g.offset ≤ f.offset + k) && decide (f.offset + k < g.offset + g.size)) = some f := by
    induction fields with
    | nil => cases hf
    | cons g rest ih =>
      rw [List.map_cons, List.pairwise_cons] at ha
      rcases List.mem_cons.1 hf with rfl | hf
      · rw [List.find?_cons_of_pos]; simp; omega
      · have : apart g.place f.place := ha.1 _ (List.mem_map_of_mem hf)
        rw [List.find?_cons_of_neg, ih ha.2 hf]
        unfold apart FieldAt.place at this
        simp; omega
  unfold layoutByte
  rw [hfind]; simp

/-- R158: an Anchor read shows a field of the layout in which its offsets lie. -/
theorem shows_of_layout (p : Part) (offset size value : Nat) (fields : List FieldAt)
    (hl : ∀ k, k < size → anchorLayout p (offset + k) = fields) (ha : (fields.map FieldAt.place).Pairwise apart)
    (hf : { offset := offset, size := size, value := value } ∈ fields) : Shows p offset size value := by
  intro k hk
  unfold anchorByte
  rw [hl k hk]
  exact layoutByte_field fields ha _ hf k hk

/-! ### The fields of each area stand apart (11.3) -/

/-- Places moved up together stay apart. -/
theorem apart_shift (n : Nat) (places : List (Nat × Nat)) (h : places.Pairwise apart) :
    (places.map fun a => (n + a.1, a.2)).Pairwise apart := by
  rw [List.pairwise_map]
  refine h.imp ?_
  intro a b hab
  unfold apart at hab ⊢
  dsimp only
  omega

theorem dayLayout_apart (p : Part) : ((dayLayout p).map FieldAt.place).Pairwise apart := by
  rw [show (dayLayout p).map FieldAt.place = [(0x0000, 1), (0x0002, 2), (0x0004, 1), (0x0005, 1), (0x0006, 1)] from rfl]
  unfold apart; decide

theorem accountLayout_apart (p : Part) : ((accountLayout p).map FieldAt.place).Pairwise apart := by
  rw [show (accountLayout p).map FieldAt.place = [(0x0100, 2), (0x0108, 8), (0x0110, 1), (0x0118, 8), (0x0120, 8), (0x0128, 2),
    (0x012A, 1), (0x012C, 4), (0x0130, 1), (0x0134, 2), (0x0138, 8), (0x0140, 4)] from rfl]
  unfold apart; decide

theorem ringLayout_apart (p : Part) : ((ringLayout p).map FieldAt.place).Pairwise apart := by
  rw [show (ringLayout p).map FieldAt.place = [(0x0200, 4), (0x0204, 1), (0x0206, 2), (0x0208, 1), (0x0209, 1), (0x020A, 2),
    (0x020C, 1), (0x0210, 8), (0x0218, 4), (0x021C, 4), (0x0220, 4), (0x0224, 4), (0x0228, 4), (0x022C, 4), (0x0230, 4), (0x0234, 2),
    (0x0236, 2), (0x0238, 2), (0x023A, 2), (0x023C, 1), (0x023D, 1), (0x023E, 1), (0x023F, 1), (0x0240, 1), (0x0241, 1),
    (0x0244, 4), (0x0248, 4)] from rfl]
  unfold apart; decide

theorem attentionLayout_apart (p : Part) : ((attentionLayout p).map FieldAt.place).Pairwise apart := by
  rw [show (attentionLayout p).map FieldAt.place = [(0x0300, 1), (0x0301, 1), (0x0302, 1), (0x0303, 1), (0x0304, 1), (0x0305, 1),
    (0x0306, 1), (0x0308, 8), (0x0310, 4), (0x0320, 4), (0x0324, 4), (0x0328, 4), (0x032C, 4), (0x0330, 1), (0x0331, 1), (0x0334, 4),
    (0x0338, 1), (0x0339, 1), (0x033A, 1), (0x033B, 1)] ++ (List.finRange 18).map (fun k => (0x0340 + k.val, 1)) ++
    (List.finRange 18).map (fun k => (0x0360 + 4 * k.val, 4)) ++ [(0x03A8, 4)] by
      simp [attentionLayout, FieldAt.place, shadowField, Function.comp_def]]
  unfold apart; decide

theorem laneLayout_apart (p : Part) (i : Lane) : ((laneLayout p i).map FieldAt.place).Pairwise apart := by
  have e : (laneLayout p i).map FieldAt.place = ([(0x00, 1), (0x01, 1), (0x02, 1), (0x03, 1), (0x04, 1), (0x05, 1), (0x06, 2), (0x08, 4),
      (0x0C, 1), (0x0D, 1), (0x0E, 2), (0x10, 2), (0x20, 1), (0x21, 1), (0x22, 1), (0x23, 1), (0x24, 1), (0x25, 1), (0x26, 1),
      (0x27, 1), (0x28, 2), (0x2A, 2), (0x2C, 2), (0x2E, 1), (0x2F, 1), (0x30, 1), (0x34, 4), (0x38, 4), (0x40, 1), (0x41, 1),
      (0x42, 1), (0x43, 1), (0x44, 1), (0x45, 1), (0x46, 1), (0x48, 4), (0x4C, 4), (0x50, 4), (0x54, 4), (0x58, 4), (0x5C, 4),
      (0x60, 2), (0x62, 2), (0x64, 2), (0x68, 4), (0x6C, 4), (0x70, 2), (0x74, 4)] : List (Nat × Nat)).map
      fun a => (laneAt i + a.1, a.2) := by
    simp [laneLayout, layoutFrom, laneWords, laneStatus, trackStatus, displayStatus, FieldAt.place, Nat.add_comm]
  rw [e]
  apply apart_shift
  unfold apart; decide

theorem windowLayout_apart (p : Part) (v : Window) : ((windowLayout p v).map FieldAt.place).Pairwise apart := by
  unfold windowLayout
  split
  · simp
  · rw [show List.map FieldAt.place _ = ([(0x00, 8), (0x08, 4), (0x0C, 2), (0x0E, 1), (0x0F, 1), (0x10, 1), (0x18, 1), (0x19, 1),
      (0x1A, 1), (0x1B, 1), (0x1C, 4)] : List (Nat × Nat)).map fun a => (descriptorAt v + a.1, a.2) from rfl]
    apply apart_shift
    unfold apart; decide

theorem masterLayout_apart (p : Part) (m : Master) : ((masterLayout p m).map FieldAt.place).Pairwise apart := by
  rw [show (masterLayout p m).map FieldAt.place = ([(0x00, 1), (0x01, 1), (0x02, 1), (0x03, 1), (0x04, 2), (0x06, 2), (0x08, 1),
    (0x09, 1), (0x0A, 1)] : List (Nat × Nat)).map fun a => (masterAt m + a.1, a.2) from rfl]
  apply apart_shift
  unfold apart; decide

theorem catalogueLayout_apart (p : Part) : ((catalogueLayout p).map FieldAt.place).Pairwise apart := by
  rw [show (catalogueLayout p).map FieldAt.place = [(0x1800, 2), (0x1802, 1), (0x1804, 4), (0x1808, 4), (0x180C, 4), (0x1810, 4)]
    from rfl]
  unfold apart; decide

theorem pressLayout_apart (p : Part) : ((pressLayout p).map FieldAt.place).Pairwise apart := by
  rw [show (pressLayout p).map FieldAt.place = [(0x1900, 4), (0x1904, 4), (0x1908, 4), (0x190C, 4)] from rfl]
  unfold apart; decide

/-! ### The area that an offset lies in (11.3) -/

theorem anchorLayout_lane (p : Part) (i : Lane) (k : Nat) (h : k < 0x100) : anchorLayout p (laneAt i + k) = laneLayout p i := by
  have hi := i.isLt
  have e : (laneAt i + k - 0x0800) / 0x100 = i.val := by unfold laneAt; omega
  unfold anchorLayout
  have h1 : 0x0800 ≤ laneAt i + k := by unfold laneAt; omega
  have h2 : laneAt i + k < 0x1000 := by unfold laneAt; omega
  rw [if_neg (by omega), if_neg (by omega), if_neg (by omega), if_neg (by omega), if_pos (by omega)]
  unfold laneAreaLayout
  rw [e]; simp [toLane]

theorem anchorLayout_window (p : Part) (v : Window) (k : Nat) (h : k < 0x20) :
    anchorLayout p (descriptorAt v + k) = windowLayout p v := by
  have hv := v.isLt
  have e : (descriptorAt v + k - 0x1000) / 0x20 = v.val := by unfold descriptorAt; omega
  unfold anchorLayout
  have h1 : 0x1000 ≤ descriptorAt v + k := by unfold descriptorAt; omega
  have h2 : descriptorAt v + k < 0x1200 := by unfold descriptorAt; omega
  rw [if_neg (by omega), if_neg (by omega), if_neg (by omega), if_neg (by omega), if_neg (by omega), if_pos (by omega), e]
  congr 1; apply Fin.ext; simp [Fin.ofNat]

theorem anchorLayout_master (p : Part) (m : Master) (k : Nat) (h : k < 0x10) :
    anchorLayout p (masterAt m + k) = masterLayout p m := by
  have hm := m.isLt
  have e : (masterAt m + k - 0x1200) / 0x10 = m.val := by unfold masterAt; omega
  unfold anchorLayout
  have h1 : 0x1200 ≤ masterAt m + k := by unfold masterAt; omega
  have h2 : masterAt m + k < 0x1280 := by unfold masterAt; omega
  rw [if_neg (by omega), if_neg (by omega), if_neg (by omega), if_neg (by omega), if_neg (by omega), if_neg (by omega),
    if_pos (by omega), e]
  congr 1; apply Fin.ext; simp [Fin.ofNat]

end Sys2Proof.Machine
end

