-- ==== Sys2Proof/Laws/Tables.lean ====
section
/-! SUPPORT. The laws of tables, of the Anchor shadow and of free orders: lookup after insertion and removal, and the canonical form
that every update keeps. -/

namespace Sys2Proof.Machine

variable {α : Type}

/-! ### Lookup -/

theorem tableFind_insert_same (t : List (Nat × α)) (n : Nat) (v : α) : tableFind (tableInsert t n v) n = some v := by
  induction t with
  | nil => simp [tableInsert, tableFind]
  | cons e rest ih =>
    obtain ⟨k, w⟩ := e
    simp only [tableInsert]
    split_ifs with h1 h2
    · simp [tableFind]
    · simp [tableFind]
    · have : ¬ k = n := fun h => h2 h.symm
      simp [tableFind, this, ih]

theorem tableFind_insert_other (t : List (Nat × α)) (n m : Nat) (v : α) (h : m ≠ n) :
    tableFind (tableInsert t n v) m = tableFind t m := by
  induction t with
  | nil => simp [tableInsert, tableFind, Ne.symm h]
  | cons e rest ih =>
    obtain ⟨k, w⟩ := e
    simp only [tableInsert]
    split_ifs with h1 h2
    · simp [tableFind, Ne.symm h]
    · subst h2; simp [tableFind, Ne.symm h]
    · simp only [tableFind, ih]

theorem tableFind_erase_same (t : List (Nat × α)) (n : Nat) : tableFind (tableErase t n) n = none := by
  induction t with
  | nil => rfl
  | cons e rest ih =>
    obtain ⟨k, w⟩ := e
    simp only [tableErase]
    split_ifs with h
    · exact ih
    · simp [tableFind, h, ih]

theorem tableFind_erase_other (t : List (Nat × α)) (n m : Nat) (h : m ≠ n) :
    tableFind (tableErase t n) m = tableFind t m := by
  induction t with
  | nil => rfl
  | cons e rest ih =>
    obtain ⟨k, w⟩ := e
    simp only [tableErase]
    split_ifs with hk
    · subst hk; simp [tableFind, Ne.symm h, ih]
    · simp only [tableFind, ih]

theorem tableGet_set_same [DecidableEq α] (d : α) (t : List (Nat × α)) (n : Nat) (v : α) :
    tableGet d (tableSet d t n v) n = v := by
  simp only [tableGet, tableSet]
  split_ifs with h
  · simp [tableFind_erase_same, h]
  · simp [tableFind_insert_same]

theorem tableGet_set_other [DecidableEq α] (d : α) (t : List (Nat × α)) (n m : Nat) (v : α) (h : m ≠ n) :
    tableGet d (tableSet d t n v) m = tableGet d t m := by
  simp only [tableGet, tableSet]
  split_ifs
  · rw [tableFind_erase_other t n m h]
  · rw [tableFind_insert_other t n m v h]

/-! ### The canonical form -/

theorem mem_tableInsert {t : List (Nat × α)} {n : Nat} {v : α} {e : Nat × α} (h : e ∈ tableInsert t n v) :
    e = (n, v) ∨ e ∈ t := by
  induction t with
  | nil => simpa [tableInsert] using h
  | cons a rest ih =>
    obtain ⟨k, w⟩ := a
    simp only [tableInsert] at h
    split_ifs at h
    · simpa using h
    · rcases List.mem_cons.mp h with h | h
      · exact .inl h
      · exact .inr (List.mem_cons_of_mem _ h)
    · rcases List.mem_cons.mp h with h | h
      · exact .inr (h ▸ List.mem_cons_self)
      · rcases ih h with h | h
        · exact .inl h
        · exact .inr (List.mem_cons_of_mem _ h)

theorem mem_tableErase {t : List (Nat × α)} {n : Nat} {e : Nat × α} (h : e ∈ tableErase t n) : e ∈ t := by
  induction t with
  | nil => exact h
  | cons a rest ih =>
    obtain ⟨k, w⟩ := a
    simp only [tableErase] at h
    split_ifs at h
    · exact List.mem_cons_of_mem _ (ih h)
    · rcases List.mem_cons.mp h with h | h
      · exact h ▸ List.mem_cons_self
      · exact List.mem_cons_of_mem _ (ih h)

theorem tableInsert_sorted {t : List (Nat × α)} (n : Nat) (v : α) (h : tableSorted t) : tableSorted (tableInsert t n v) := by
  induction t with
  | nil => simp [tableSorted, tableInsert]
  | cons a rest ih =>
    obtain ⟨k, w⟩ := a
    simp only [tableSorted, List.map_cons, List.pairwise_cons] at h
    simp only [tableInsert]
    split_ifs with h1 h2
    · simp only [tableSorted, List.map_cons, List.pairwise_cons, List.mem_cons]
      refine ⟨?_, h.1, h.2⟩
      rintro m (rfl | hm)
      · exact h1
      · exact lt_trans h1 (h.1 m hm)
    · subst h2
      simp only [tableSorted, List.map_cons, List.pairwise_cons]
      exact h
    · simp only [tableSorted, List.map_cons, List.pairwise_cons]
      refine ⟨fun m hm => ?_, ih h.2⟩
      obtain ⟨e, he, rfl⟩ := List.mem_map.mp hm
      rcases mem_tableInsert he with rfl | he
      · simp only; omega
      · exact h.1 _ (List.mem_map_of_mem he)

theorem tableErase_sorted {t : List (Nat × α)} (n : Nat) (h : tableSorted t) : tableSorted (tableErase t n) := by
  induction t with
  | nil => exact h
  | cons a rest ih =>
    obtain ⟨k, w⟩ := a
    simp only [tableSorted, List.map_cons, List.pairwise_cons] at h
    simp only [tableErase]
    split_ifs
    · exact ih h.2
    · simp only [tableSorted, List.map_cons, List.pairwise_cons]
      refine ⟨fun m hm => ?_, ih h.2⟩
      obtain ⟨e, he, rfl⟩ := List.mem_map.mp hm
      exact h.1 _ (List.mem_map_of_mem (mem_tableErase he))

/-- An update of a table keeps its canonical form. -/
theorem tableSet_wf [DecidableEq α] {d : α} {t : List (Nat × α)} (n : Nat) (v : α) (h : tableWf d t) :
    tableWf d (tableSet d t n v) := by
  simp only [tableSet]
  split_ifs with hv
  · exact ⟨tableErase_sorted n h.1, fun e he => h.2 e (mem_tableErase he)⟩
  · refine ⟨tableInsert_sorted n v h.1, fun e he => ?_⟩
    rcases mem_tableInsert he with rfl | he
    · exact hv
    · exact h.2 e he

/-! ### Counting entries -/

/-- How many entries of a table satisfy a condition. -/
def tableCount (P : α → Bool) (t : List (Nat × α)) : Nat := (t.filter fun e => P e.2).length

theorem tableFind_lt {t : List (Nat × α)} {n : Nat} (h : ∀ e ∈ t, n < e.1) : tableFind t n = none := by
  induction t with
  | nil => rfl
  | cons e t ih =>
    have h1 := h e (List.mem_cons_self ..)
    unfold tableFind
    rw [if_neg (by omega)]
    exact ih fun x hx => h x (List.mem_cons_of_mem _ hx)

theorem tableErase_lt {t : List (Nat × α)} {n : Nat} (h : ∀ e ∈ t, n < e.1) : tableErase t n = t := by
  induction t with
  | nil => rfl
  | cons e t ih =>
    have h1 := h e (List.mem_cons_self ..)
    unfold tableErase
    rw [if_neg (by omega), ih fun x hx => h x (List.mem_cons_of_mem _ hx)]

theorem tableSorted_cons {e : Nat × α} {t : List (Nat × α)} (h : tableSorted (e :: t)) :
    (∀ x ∈ t, e.1 < x.1) ∧ tableSorted t := by
  have h' := List.pairwise_cons.mp h
  exact ⟨fun x hx => h'.1 x.1 (List.mem_map_of_mem hx), h'.2⟩

/-- Whether the entry listed for a key counts. -/
def countAt (P : α → Bool) (t : List (Nat × α)) (n : Nat) : Nat :=
  match tableFind t n with
  | some v => if P v then 1 else 0
  | none => 0

theorem tableCount_erase (P : α → Bool) (t : List (Nat × α)) (n : Nat) (h : tableSorted t) :
    tableCount P (tableErase t n) + countAt P t n = tableCount P t := by
  induction t with
  | nil => rfl
  | cons e t ih =>
    obtain ⟨h1, h2⟩ := tableSorted_cons h
    unfold tableErase countAt tableFind
    by_cases hk : e.1 = n
    · subst hk
      rw [if_pos rfl, if_pos rfl, tableErase_lt h1]
      cases hp : P e.2 <;> simp [tableCount, hp]
    · rw [if_neg hk, if_neg hk]
      have := ih h2
      unfold countAt at this
      cases hp : P e.2 <;> simp [tableCount, hp] at this ⊢ <;> omega

theorem tableCount_insert (P : α → Bool) (t : List (Nat × α)) (n : Nat) (v : α) (h : tableSorted t) :
    tableCount P (tableInsert t n v) + countAt P t n = tableCount P t + if P v then 1 else 0 := by
  induction t with
  | nil => cases hp : P v <;> simp [tableCount, tableInsert, countAt, tableFind, hp]
  | cons e t ih =>
    obtain ⟨h1, h2⟩ := tableSorted_cons h
    unfold tableInsert countAt tableFind
    by_cases hlt : n < e.1
    · rw [if_pos hlt, if_neg (by omega), tableFind_lt fun x hx => by have := h1 x hx; omega]
      cases hp : P v <;> simp [tableCount, hp]
    · rw [if_neg hlt]
      by_cases hk : n = e.1
      · rw [if_pos hk, if_pos hk.symm]
        cases hp : P v <;> cases hq : P e.2 <;> simp [tableCount, hp, hq]
      · rw [if_neg hk, if_neg fun x => hk x.symm]
        have := ih h2
        unfold countAt at this
        cases hp : P v <;> cases hq : P e.2 <;> simp [tableCount, hp, hq] at this ⊢ <;> omega

/-- In a sorted table, setting a key changes the count by what the key's value counted before and after. -/
theorem tableCount_set [DecidableEq α] (P : α → Bool) (d : α) (t : List (Nat × α)) (n : Nat) (v : α) (hd : P d = false)
    (h : tableSorted t) :
    tableCount P (tableSet d t n v) + (if P (tableGet d t n) then 1 else 0) = tableCount P t + if P v then 1 else 0 := by
  have hc : (if P (tableGet d t n) then 1 else 0) = countAt P t n := by
    unfold tableGet countAt
    cases tableFind t n <;> simp [hd]
  rw [hc]
  unfold tableSet
  split
  · rename_i hv
    rw [tableCount_erase P t n h, hv]; simp [hd]
  · exact tableCount_insert P t n v h

/-! ### The Anchor shadow -/

/-- A write of the shadow keeps its canonical form. -/
theorem Memory.write_wf {shadow : List Host.Cell} (bytes : List (Nat × Byte)) (h : Memory.wf shadow) :
    Memory.wf (Memory.write shadow bytes) := by
  induction bytes generalizing shadow with
  | nil => exact h
  | cons b rest ih => exact ih (tableSet_wf b.1 b.2 h)

/-- An offset that a write does not cover reads as before. -/
theorem Memory.read_write_other (shadow : List Host.Cell) (bytes : List (Nat × Byte)) (k : Nat) (h : ∀ b ∈ bytes, b.1 ≠ k) :
    Memory.read (Memory.write shadow bytes) k = Memory.read shadow k := by
  induction bytes generalizing shadow with
  | nil => rfl
  | cons b rest ih =>
    have h1 : k ≠ b.1 := (h b List.mem_cons_self).symm
    have := ih (tableSet Memory.unlisted shadow b.1 b.2) (fun c hc => h c (List.mem_cons_of_mem _ hc))
    simpa [Memory.write, Memory.read, tableGet_set_other _ _ _ _ _ h1] using this

/-- A byte written reads back, when the write names its offset once. -/
theorem Memory.read_write_same (shadow : List Host.Cell) (bytes : List (Nat × Byte)) (k : Nat) (v : Byte) (hm : (k, v) ∈ bytes)
    (hd : (bytes.map Prod.fst).Nodup) : Memory.read (Memory.write shadow bytes) k = v := by
  induction bytes generalizing shadow with
  | nil => simp at hm
  | cons b rest ih =>
    simp only [List.map_cons, List.nodup_cons] at hd
    rcases List.mem_cons.mp hm with h | h
    · subst h
      have ho : ∀ c ∈ rest, c.1 ≠ k := fun c hc he => hd.1 (List.mem_map.mpr ⟨c, hc, he⟩)
      have := Memory.read_write_other (tableSet Memory.unlisted shadow k v) rest k ho
      simpa [Memory.write, Memory.read, tableGet_set_same] using this
    · exact ih (tableSet Memory.unlisted shadow b.1 b.2) h hd.2

/-! ### Free orders -/

theorem pickOut_perm (x : α) (rest : List α) (place : Nat) : ((pickOut x rest place).1 :: (pickOut x rest place).2).Perm (x :: rest) := by
  simp only [pickOut]
  have hlt : place % (rest.length + 1) < rest.length + 1 := Nat.mod_lt _ (Nat.succ_pos _)
  generalize hm : place % (rest.length + 1) = m at hlt
  cases m with
  | zero => exact List.Perm.refl _
  | succ k =>
    have hk : k < rest.length := by omega
    have h1 : rest.getD k x = rest[k] := by simp [hk]
    simp only [h1]
    refine (List.Perm.swap x rest[k] (rest.eraseIdx k)).trans ?_
    exact (List.getElem_cons_eraseIdx_perm hk).cons x

theorem reorder_perm (pick : Nat → Nat) (fuel : Nat) (xs : List α) : (reorder pick fuel xs).Perm xs := by
  induction fuel generalizing xs with
  | zero => exact List.Perm.refl _
  | succ n ih =>
    match xs with
    | [] => exact List.Perm.refl _
    | [x] => exact List.Perm.refl _
    | x :: y :: rest =>
      simp only [reorder]
      exact ((ih _).cons _).trans (pickOut_perm x (y :: rest) (pick n))

/-- A free order is an order of the same acts. -/
theorem freelyOrdered_perm (draw : Nat) (xs : List α) : (freelyOrdered draw xs).Perm xs := reorder_perm _ _ _

@[simp] theorem freelyOrdered_nil (draw : Nat) : freelyOrdered draw ([] : List α) = [] := rfl
@[simp] theorem freelyOrdered_one (draw : Nat) (x : α) : freelyOrdered draw [x] = [x] := rfl

end Sys2Proof.Machine
end

