-- ==== Sys2Proof/Laws/State.lean ====
section
/-! SUPPORT. One lemma for each field under each named update of the part and of the state: true by rfl, tagged simp, so that no
proof unfolds a record update. -/

namespace Sys2Proof.Machine

/-! ### Part.setFloor -/

@[simp] theorem Part.setFloor_floor (p : Part) (f : FloorPort) : (p.setFloor f).floor = f := rfl
@[simp] theorem Part.setFloor_window (p : Part) (f : FloorPort) : (p.setFloor f).window = p.window := rfl
@[simp] theorem Part.setFloor_catalogue (p : Part) (f : FloorPort) : (p.setFloor f).catalogue = p.catalogue := rfl
@[simp] theorem Part.setFloor_tracks (p : Part) (f : FloorPort) : (p.setFloor f).tracks = p.tracks := rfl
@[simp] theorem Part.setFloor_lanes (p : Part) (f : FloorPort) : (p.setFloor f).lanes = p.lanes := rfl
@[simp] theorem Part.setFloor_press (p : Part) (f : FloorPort) : (p.setFloor f).press = p.press := rfl
@[simp] theorem Part.setFloor_account (p : Part) (f : FloorPort) : (p.setFloor f).account = p.account := rfl
@[simp] theorem Part.setFloor_ring (p : Part) (f : FloorPort) : (p.setFloor f).ring = p.ring := rfl
@[simp] theorem Part.setFloor_displays (p : Part) (f : FloorPort) : (p.setFloor f).displays = p.displays := rfl
@[simp] theorem Part.setFloor_store (p : Part) (f : FloorPort) : (p.setFloor f).store = p.store := rfl
@[simp] theorem Part.setFloor_attention (p : Part) (f : FloorPort) : (p.setFloor f).attention = p.attention := rfl
@[simp] theorem Part.setFloor_ticks (p : Part) (f : FloorPort) : (p.setFloor f).ticks = p.ticks := rfl
@[simp] theorem Part.setFloor_freeDraws (p : Part) (f : FloorPort) : (p.setFloor f).freeDraws = p.freeDraws := rfl

/-! ### Part.setWindow -/

@[simp] theorem Part.setWindow_floor (p : Part) (w : WindowUnit) : (p.setWindow w).floor = p.floor := rfl
@[simp] theorem Part.setWindow_window (p : Part) (w : WindowUnit) : (p.setWindow w).window = w := rfl
@[simp] theorem Part.setWindow_catalogue (p : Part) (w : WindowUnit) : (p.setWindow w).catalogue = p.catalogue := rfl
@[simp] theorem Part.setWindow_tracks (p : Part) (w : WindowUnit) : (p.setWindow w).tracks = p.tracks := rfl
@[simp] theorem Part.setWindow_lanes (p : Part) (w : WindowUnit) : (p.setWindow w).lanes = p.lanes := rfl
@[simp] theorem Part.setWindow_press (p : Part) (w : WindowUnit) : (p.setWindow w).press = p.press := rfl
@[simp] theorem Part.setWindow_account (p : Part) (w : WindowUnit) : (p.setWindow w).account = p.account := rfl
@[simp] theorem Part.setWindow_ring (p : Part) (w : WindowUnit) : (p.setWindow w).ring = p.ring := rfl
@[simp] theorem Part.setWindow_displays (p : Part) (w : WindowUnit) : (p.setWindow w).displays = p.displays := rfl
@[simp] theorem Part.setWindow_store (p : Part) (w : WindowUnit) : (p.setWindow w).store = p.store := rfl
@[simp] theorem Part.setWindow_attention (p : Part) (w : WindowUnit) : (p.setWindow w).attention = p.attention := rfl
@[simp] theorem Part.setWindow_ticks (p : Part) (w : WindowUnit) : (p.setWindow w).ticks = p.ticks := rfl
@[simp] theorem Part.setWindow_freeDraws (p : Part) (w : WindowUnit) : (p.setWindow w).freeDraws = p.freeDraws := rfl

/-! ### Part.setCatalogue -/

@[simp] theorem Part.setCatalogue_floor (p : Part) (c : CatalogueUnit) : (p.setCatalogue c).floor = p.floor := rfl
@[simp] theorem Part.setCatalogue_window (p : Part) (c : CatalogueUnit) : (p.setCatalogue c).window = p.window := rfl
@[simp] theorem Part.setCatalogue_catalogue (p : Part) (c : CatalogueUnit) : (p.setCatalogue c).catalogue = c := rfl
@[simp] theorem Part.setCatalogue_tracks (p : Part) (c : CatalogueUnit) : (p.setCatalogue c).tracks = p.tracks := rfl
@[simp] theorem Part.setCatalogue_lanes (p : Part) (c : CatalogueUnit) : (p.setCatalogue c).lanes = p.lanes := rfl
@[simp] theorem Part.setCatalogue_press (p : Part) (c : CatalogueUnit) : (p.setCatalogue c).press = p.press := rfl
@[simp] theorem Part.setCatalogue_account (p : Part) (c : CatalogueUnit) : (p.setCatalogue c).account = p.account := rfl
@[simp] theorem Part.setCatalogue_ring (p : Part) (c : CatalogueUnit) : (p.setCatalogue c).ring = p.ring := rfl
@[simp] theorem Part.setCatalogue_displays (p : Part) (c : CatalogueUnit) : (p.setCatalogue c).displays = p.displays := rfl
@[simp] theorem Part.setCatalogue_store (p : Part) (c : CatalogueUnit) : (p.setCatalogue c).store = p.store := rfl
@[simp] theorem Part.setCatalogue_attention (p : Part) (c : CatalogueUnit) : (p.setCatalogue c).attention = p.attention := rfl
@[simp] theorem Part.setCatalogue_ticks (p : Part) (c : CatalogueUnit) : (p.setCatalogue c).ticks = p.ticks := rfl
@[simp] theorem Part.setCatalogue_freeDraws (p : Part) (c : CatalogueUnit) : (p.setCatalogue c).freeDraws = p.freeDraws := rfl

/-! ### Part.setPress -/

@[simp] theorem Part.setPress_floor (p : Part) (u : PressUnit) : (p.setPress u).floor = p.floor := rfl
@[simp] theorem Part.setPress_window (p : Part) (u : PressUnit) : (p.setPress u).window = p.window := rfl
@[simp] theorem Part.setPress_catalogue (p : Part) (u : PressUnit) : (p.setPress u).catalogue = p.catalogue := rfl
@[simp] theorem Part.setPress_tracks (p : Part) (u : PressUnit) : (p.setPress u).tracks = p.tracks := rfl
@[simp] theorem Part.setPress_lanes (p : Part) (u : PressUnit) : (p.setPress u).lanes = p.lanes := rfl
@[simp] theorem Part.setPress_press (p : Part) (u : PressUnit) : (p.setPress u).press = u := rfl
@[simp] theorem Part.setPress_account (p : Part) (u : PressUnit) : (p.setPress u).account = p.account := rfl
@[simp] theorem Part.setPress_ring (p : Part) (u : PressUnit) : (p.setPress u).ring = p.ring := rfl
@[simp] theorem Part.setPress_displays (p : Part) (u : PressUnit) : (p.setPress u).displays = p.displays := rfl
@[simp] theorem Part.setPress_store (p : Part) (u : PressUnit) : (p.setPress u).store = p.store := rfl
@[simp] theorem Part.setPress_attention (p : Part) (u : PressUnit) : (p.setPress u).attention = p.attention := rfl
@[simp] theorem Part.setPress_ticks (p : Part) (u : PressUnit) : (p.setPress u).ticks = p.ticks := rfl
@[simp] theorem Part.setPress_freeDraws (p : Part) (u : PressUnit) : (p.setPress u).freeDraws = p.freeDraws := rfl

/-! ### Part.setAccount -/

@[simp] theorem Part.setAccount_floor (p : Part) (a : AccountUnit) : (p.setAccount a).floor = p.floor := rfl
@[simp] theorem Part.setAccount_window (p : Part) (a : AccountUnit) : (p.setAccount a).window = p.window := rfl
@[simp] theorem Part.setAccount_catalogue (p : Part) (a : AccountUnit) : (p.setAccount a).catalogue = p.catalogue := rfl
@[simp] theorem Part.setAccount_tracks (p : Part) (a : AccountUnit) : (p.setAccount a).tracks = p.tracks := rfl
@[simp] theorem Part.setAccount_lanes (p : Part) (a : AccountUnit) : (p.setAccount a).lanes = p.lanes := rfl
@[simp] theorem Part.setAccount_press (p : Part) (a : AccountUnit) : (p.setAccount a).press = p.press := rfl
@[simp] theorem Part.setAccount_account (p : Part) (a : AccountUnit) : (p.setAccount a).account = a := rfl
@[simp] theorem Part.setAccount_ring (p : Part) (a : AccountUnit) : (p.setAccount a).ring = p.ring := rfl
@[simp] theorem Part.setAccount_displays (p : Part) (a : AccountUnit) : (p.setAccount a).displays = p.displays := rfl
@[simp] theorem Part.setAccount_store (p : Part) (a : AccountUnit) : (p.setAccount a).store = p.store := rfl
@[simp] theorem Part.setAccount_attention (p : Part) (a : AccountUnit) : (p.setAccount a).attention = p.attention := rfl
@[simp] theorem Part.setAccount_ticks (p : Part) (a : AccountUnit) : (p.setAccount a).ticks = p.ticks := rfl
@[simp] theorem Part.setAccount_freeDraws (p : Part) (a : AccountUnit) : (p.setAccount a).freeDraws = p.freeDraws := rfl

/-! ### Part.setRing -/

@[simp] theorem Part.setRing_floor (p : Part) (r : RingUnit) : (p.setRing r).floor = p.floor := rfl
@[simp] theorem Part.setRing_window (p : Part) (r : RingUnit) : (p.setRing r).window = p.window := rfl
@[simp] theorem Part.setRing_catalogue (p : Part) (r : RingUnit) : (p.setRing r).catalogue = p.catalogue := rfl
@[simp] theorem Part.setRing_tracks (p : Part) (r : RingUnit) : (p.setRing r).tracks = p.tracks := rfl
@[simp] theorem Part.setRing_lanes (p : Part) (r : RingUnit) : (p.setRing r).lanes = p.lanes := rfl
@[simp] theorem Part.setRing_press (p : Part) (r : RingUnit) : (p.setRing r).press = p.press := rfl
@[simp] theorem Part.setRing_account (p : Part) (r : RingUnit) : (p.setRing r).account = p.account := rfl
@[simp] theorem Part.setRing_ring (p : Part) (r : RingUnit) : (p.setRing r).ring = r := rfl
@[simp] theorem Part.setRing_displays (p : Part) (r : RingUnit) : (p.setRing r).displays = p.displays := rfl
@[simp] theorem Part.setRing_store (p : Part) (r : RingUnit) : (p.setRing r).store = p.store := rfl
@[simp] theorem Part.setRing_attention (p : Part) (r : RingUnit) : (p.setRing r).attention = p.attention := rfl
@[simp] theorem Part.setRing_ticks (p : Part) (r : RingUnit) : (p.setRing r).ticks = p.ticks := rfl
@[simp] theorem Part.setRing_freeDraws (p : Part) (r : RingUnit) : (p.setRing r).freeDraws = p.freeDraws := rfl

/-! ### Part.setStore -/

@[simp] theorem Part.setStore_floor (p : Part) (t : StorePort) : (p.setStore t).floor = p.floor := rfl
@[simp] theorem Part.setStore_window (p : Part) (t : StorePort) : (p.setStore t).window = p.window := rfl
@[simp] theorem Part.setStore_catalogue (p : Part) (t : StorePort) : (p.setStore t).catalogue = p.catalogue := rfl
@[simp] theorem Part.setStore_tracks (p : Part) (t : StorePort) : (p.setStore t).tracks = p.tracks := rfl
@[simp] theorem Part.setStore_lanes (p : Part) (t : StorePort) : (p.setStore t).lanes = p.lanes := rfl
@[simp] theorem Part.setStore_press (p : Part) (t : StorePort) : (p.setStore t).press = p.press := rfl
@[simp] theorem Part.setStore_account (p : Part) (t : StorePort) : (p.setStore t).account = p.account := rfl
@[simp] theorem Part.setStore_ring (p : Part) (t : StorePort) : (p.setStore t).ring = p.ring := rfl
@[simp] theorem Part.setStore_displays (p : Part) (t : StorePort) : (p.setStore t).displays = p.displays := rfl
@[simp] theorem Part.setStore_store (p : Part) (t : StorePort) : (p.setStore t).store = t := rfl
@[simp] theorem Part.setStore_attention (p : Part) (t : StorePort) : (p.setStore t).attention = p.attention := rfl
@[simp] theorem Part.setStore_ticks (p : Part) (t : StorePort) : (p.setStore t).ticks = p.ticks := rfl
@[simp] theorem Part.setStore_freeDraws (p : Part) (t : StorePort) : (p.setStore t).freeDraws = p.freeDraws := rfl

/-! ### Part.setAttention -/

@[simp] theorem Part.setAttention_floor (p : Part) (a : AttentionUnit) : (p.setAttention a).floor = p.floor := rfl
@[simp] theorem Part.setAttention_window (p : Part) (a : AttentionUnit) : (p.setAttention a).window = p.window := rfl
@[simp] theorem Part.setAttention_catalogue (p : Part) (a : AttentionUnit) : (p.setAttention a).catalogue = p.catalogue := rfl
@[simp] theorem Part.setAttention_tracks (p : Part) (a : AttentionUnit) : (p.setAttention a).tracks = p.tracks := rfl
@[simp] theorem Part.setAttention_lanes (p : Part) (a : AttentionUnit) : (p.setAttention a).lanes = p.lanes := rfl
@[simp] theorem Part.setAttention_press (p : Part) (a : AttentionUnit) : (p.setAttention a).press = p.press := rfl
@[simp] theorem Part.setAttention_account (p : Part) (a : AttentionUnit) : (p.setAttention a).account = p.account := rfl
@[simp] theorem Part.setAttention_ring (p : Part) (a : AttentionUnit) : (p.setAttention a).ring = p.ring := rfl
@[simp] theorem Part.setAttention_displays (p : Part) (a : AttentionUnit) : (p.setAttention a).displays = p.displays := rfl
@[simp] theorem Part.setAttention_store (p : Part) (a : AttentionUnit) : (p.setAttention a).store = p.store := rfl
@[simp] theorem Part.setAttention_attention (p : Part) (a : AttentionUnit) : (p.setAttention a).attention = a := rfl
@[simp] theorem Part.setAttention_ticks (p : Part) (a : AttentionUnit) : (p.setAttention a).ticks = p.ticks := rfl
@[simp] theorem Part.setAttention_freeDraws (p : Part) (a : AttentionUnit) : (p.setAttention a).freeDraws = p.freeDraws := rfl

/-! ### Part.setLane -/

@[simp] theorem Part.setLane_floor (p : Part) (i : Lane) (l : LaneUnit) : (p.setLane i l).floor = p.floor := rfl
@[simp] theorem Part.setLane_window (p : Part) (i : Lane) (l : LaneUnit) : (p.setLane i l).window = p.window := rfl
@[simp] theorem Part.setLane_catalogue (p : Part) (i : Lane) (l : LaneUnit) : (p.setLane i l).catalogue = p.catalogue := rfl
@[simp] theorem Part.setLane_tracks (p : Part) (i : Lane) (l : LaneUnit) : (p.setLane i l).tracks = p.tracks := rfl
@[simp] theorem Part.setLane_press (p : Part) (i : Lane) (l : LaneUnit) : (p.setLane i l).press = p.press := rfl
@[simp] theorem Part.setLane_account (p : Part) (i : Lane) (l : LaneUnit) : (p.setLane i l).account = p.account := rfl
@[simp] theorem Part.setLane_ring (p : Part) (i : Lane) (l : LaneUnit) : (p.setLane i l).ring = p.ring := rfl
@[simp] theorem Part.setLane_displays (p : Part) (i : Lane) (l : LaneUnit) : (p.setLane i l).displays = p.displays := rfl
@[simp] theorem Part.setLane_store (p : Part) (i : Lane) (l : LaneUnit) : (p.setLane i l).store = p.store := rfl
@[simp] theorem Part.setLane_attention (p : Part) (i : Lane) (l : LaneUnit) : (p.setLane i l).attention = p.attention := rfl
@[simp] theorem Part.setLane_ticks (p : Part) (i : Lane) (l : LaneUnit) : (p.setLane i l).ticks = p.ticks := rfl
@[simp] theorem Part.setLane_freeDraws (p : Part) (i : Lane) (l : LaneUnit) : (p.setLane i l).freeDraws = p.freeDraws := rfl
@[simp] theorem Part.setLane_lane_same (p : Part) (i : Lane) (l : LaneUnit) : (p.setLane i l).lane i = l := by
  simp [Part.lane, Part.setLane]
theorem Part.setLane_lane_other (p : Part) (i : Lane) (l : LaneUnit) (j : Lane) (h : j ≠ i) :
    (p.setLane i l).lane j = p.lane j := by
  have : i.val ≠ j.val := fun e => h (Fin.ext e.symm)
  simp [Part.lane, Part.setLane, Vector.getElem_set_ne, this]

/-! ### Part.setTrack -/

@[simp] theorem Part.setTrack_floor (p : Part) (i : Lane) (t : TrackLane) : (p.setTrack i t).floor = p.floor := rfl
@[simp] theorem Part.setTrack_window (p : Part) (i : Lane) (t : TrackLane) : (p.setTrack i t).window = p.window := rfl
@[simp] theorem Part.setTrack_catalogue (p : Part) (i : Lane) (t : TrackLane) : (p.setTrack i t).catalogue = p.catalogue := rfl
@[simp] theorem Part.setTrack_lanes (p : Part) (i : Lane) (t : TrackLane) : (p.setTrack i t).lanes = p.lanes := rfl
@[simp] theorem Part.setTrack_press (p : Part) (i : Lane) (t : TrackLane) : (p.setTrack i t).press = p.press := rfl
@[simp] theorem Part.setTrack_account (p : Part) (i : Lane) (t : TrackLane) : (p.setTrack i t).account = p.account := rfl
@[simp] theorem Part.setTrack_ring (p : Part) (i : Lane) (t : TrackLane) : (p.setTrack i t).ring = p.ring := rfl
@[simp] theorem Part.setTrack_displays (p : Part) (i : Lane) (t : TrackLane) : (p.setTrack i t).displays = p.displays := rfl
@[simp] theorem Part.setTrack_store (p : Part) (i : Lane) (t : TrackLane) : (p.setTrack i t).store = p.store := rfl
@[simp] theorem Part.setTrack_attention (p : Part) (i : Lane) (t : TrackLane) : (p.setTrack i t).attention = p.attention := rfl
@[simp] theorem Part.setTrack_ticks (p : Part) (i : Lane) (t : TrackLane) : (p.setTrack i t).ticks = p.ticks := rfl
@[simp] theorem Part.setTrack_freeDraws (p : Part) (i : Lane) (t : TrackLane) : (p.setTrack i t).freeDraws = p.freeDraws := rfl
@[simp] theorem Part.setTrack_track_same (p : Part) (i : Lane) (t : TrackLane) : (p.setTrack i t).track i = t := by
  simp [Part.track, Part.setTrack]
theorem Part.setTrack_track_other (p : Part) (i : Lane) (t : TrackLane) (j : Lane) (h : j ≠ i) :
    (p.setTrack i t).track j = p.track j := by
  have : i.val ≠ j.val := fun e => h (Fin.ext e.symm)
  simp [Part.track, Part.setTrack, Vector.getElem_set_ne, this]

/-! ### Part.setDisplay -/

@[simp] theorem Part.setDisplay_floor (p : Part) (i : Lane) (d : DisplayLane) : (p.setDisplay i d).floor = p.floor := rfl
@[simp] theorem Part.setDisplay_window (p : Part) (i : Lane) (d : DisplayLane) : (p.setDisplay i d).window = p.window := rfl
@[simp] theorem Part.setDisplay_catalogue (p : Part) (i : Lane) (d : DisplayLane) : (p.setDisplay i d).catalogue = p.catalogue := rfl
@[simp] theorem Part.setDisplay_tracks (p : Part) (i : Lane) (d : DisplayLane) : (p.setDisplay i d).tracks = p.tracks := rfl
@[simp] theorem Part.setDisplay_lanes (p : Part) (i : Lane) (d : DisplayLane) : (p.setDisplay i d).lanes = p.lanes := rfl
@[simp] theorem Part.setDisplay_press (p : Part) (i : Lane) (d : DisplayLane) : (p.setDisplay i d).press = p.press := rfl
@[simp] theorem Part.setDisplay_account (p : Part) (i : Lane) (d : DisplayLane) : (p.setDisplay i d).account = p.account := rfl
@[simp] theorem Part.setDisplay_ring (p : Part) (i : Lane) (d : DisplayLane) : (p.setDisplay i d).ring = p.ring := rfl
@[simp] theorem Part.setDisplay_store (p : Part) (i : Lane) (d : DisplayLane) : (p.setDisplay i d).store = p.store := rfl
@[simp] theorem Part.setDisplay_attention (p : Part) (i : Lane) (d : DisplayLane) : (p.setDisplay i d).attention = p.attention := rfl
@[simp] theorem Part.setDisplay_ticks (p : Part) (i : Lane) (d : DisplayLane) : (p.setDisplay i d).ticks = p.ticks := rfl
@[simp] theorem Part.setDisplay_freeDraws (p : Part) (i : Lane) (d : DisplayLane) : (p.setDisplay i d).freeDraws = p.freeDraws := rfl
@[simp] theorem Part.setDisplay_display_same (p : Part) (i : Lane) (d : DisplayLane) : (p.setDisplay i d).display i = d := by
  simp [Part.display, Part.setDisplay]
theorem Part.setDisplay_display_other (p : Part) (i : Lane) (d : DisplayLane) (j : Lane) (h : j ≠ i) :
    (p.setDisplay i d).display j = p.display j := by
  have : i.val ≠ j.val := fun e => h (Fin.ext e.symm)
  simp [Part.display, Part.setDisplay, Vector.getElem_set_ne, this]

/-! ### The state -/

@[simp] theorem State.withPending_part (s : State) (queue : List Instr) : (s.withPending queue).part = s.part := rfl
@[simp] theorem State.withPending_pending (s : State) (queue : List Instr) : (s.withPending queue).pending = queue := rfl
@[simp] theorem actOn_eq (s : State) (f : Part → Part) : actOn s f = .next { s with part := f s.part } := rfl

/-! ### Lane modification -/

@[simp] theorem modLane_lane_same (p : Part) (i : Lane) (f : LaneUnit → LaneUnit) : (modLane p i f).lane i = f (p.lane i) := by
  simp [modLane]

theorem modLane_lane_other (p : Part) (i j : Lane) (f : LaneUnit → LaneUnit) (h : j ≠ i) :
    (modLane p i f).lane j = p.lane j := by
  simp [modLane, Part.setLane_lane_other, h]

end Sys2Proof.Machine
end

