-- ==== Sys2Proof/Laws/Frames.lean ====
section
/-! SUPPORT. What each shared operation leaves alone: one lemma for each block of the part that the operation does not touch. A block
that an operation may change has no lemma here. -/

namespace Sys2Proof.Machine

/-- A fold of steps that each keep a part of the state keeps it. -/
theorem foldl_keeps {α β : Type} (g : Part → β) (f : Part → α → Part) (h : ∀ p a, g (f p a) = g p) (xs : List α) (p : Part) :
    g (xs.foldl f p) = g p := by
  induction xs generalizing p with
  | nil => rfl
  | cons x xs ih => rw [List.foldl_cons, ih, h]

/-! ### Updates -/

@[simp] theorem Part.raise_floor (p : Part) (k : EventKind) : (p.raise k).floor = p.floor := rfl
@[simp] theorem Part.raise_window (p : Part) (k : EventKind) : (p.raise k).window = p.window := rfl
@[simp] theorem Part.raise_catalogue (p : Part) (k : EventKind) : (p.raise k).catalogue = p.catalogue := rfl
@[simp] theorem Part.raise_tracks (p : Part) (k : EventKind) : (p.raise k).tracks = p.tracks := rfl
@[simp] theorem Part.raise_lanes (p : Part) (k : EventKind) : (p.raise k).lanes = p.lanes := rfl
@[simp] theorem Part.raise_press (p : Part) (k : EventKind) : (p.raise k).press = p.press := rfl
@[simp] theorem Part.raise_account (p : Part) (k : EventKind) : (p.raise k).account = p.account := rfl
@[simp] theorem Part.raise_ring (p : Part) (k : EventKind) : (p.raise k).ring = p.ring := rfl
@[simp] theorem Part.raise_displays (p : Part) (k : EventKind) : (p.raise k).displays = p.displays := rfl
@[simp] theorem Part.raise_store (p : Part) (k : EventKind) : (p.raise k).store = p.store := rfl
@[simp] theorem Part.raise_ticks (p : Part) (k : EventKind) : (p.raise k).ticks = p.ticks := rfl
@[simp] theorem Part.raise_freeDraws (p : Part) (k : EventKind) : (p.raise k).freeDraws = p.freeDraws := rfl

@[simp] theorem Part.report_floor (p : Part) (r : ErrorReport) : (p.report r).floor = p.floor := rfl
@[simp] theorem Part.report_window (p : Part) (r : ErrorReport) : (p.report r).window = p.window := rfl
@[simp] theorem Part.report_catalogue (p : Part) (r : ErrorReport) : (p.report r).catalogue = p.catalogue := rfl
@[simp] theorem Part.report_tracks (p : Part) (r : ErrorReport) : (p.report r).tracks = p.tracks := rfl
@[simp] theorem Part.report_lanes (p : Part) (r : ErrorReport) : (p.report r).lanes = p.lanes := rfl
@[simp] theorem Part.report_press (p : Part) (r : ErrorReport) : (p.report r).press = p.press := rfl
@[simp] theorem Part.report_account (p : Part) (r : ErrorReport) : (p.report r).account = p.account := rfl
@[simp] theorem Part.report_ring (p : Part) (r : ErrorReport) : (p.report r).ring = p.ring := rfl
@[simp] theorem Part.report_displays (p : Part) (r : ErrorReport) : (p.report r).displays = p.displays := rfl
@[simp] theorem Part.report_store (p : Part) (r : ErrorReport) : (p.report r).store = p.store := rfl
@[simp] theorem Part.report_ticks (p : Part) (r : ErrorReport) : (p.report r).ticks = p.ticks := rfl
@[simp] theorem Part.report_freeDraws (p : Part) (r : ErrorReport) : (p.report r).freeDraws = p.freeDraws := rfl

@[simp] theorem Part.notify_floor (p : Part) (i : Lane) : (p.notify i).floor = p.floor := rfl
@[simp] theorem Part.notify_window (p : Part) (i : Lane) : (p.notify i).window = p.window := rfl
@[simp] theorem Part.notify_catalogue (p : Part) (i : Lane) : (p.notify i).catalogue = p.catalogue := rfl
@[simp] theorem Part.notify_tracks (p : Part) (i : Lane) : (p.notify i).tracks = p.tracks := rfl
@[simp] theorem Part.notify_lanes (p : Part) (i : Lane) : (p.notify i).lanes = p.lanes := rfl
@[simp] theorem Part.notify_press (p : Part) (i : Lane) : (p.notify i).press = p.press := rfl
@[simp] theorem Part.notify_account (p : Part) (i : Lane) : (p.notify i).account = p.account := rfl
@[simp] theorem Part.notify_ring (p : Part) (i : Lane) : (p.notify i).ring = p.ring := rfl
@[simp] theorem Part.notify_store (p : Part) (i : Lane) : (p.notify i).store = p.store := rfl
@[simp] theorem Part.notify_attention (p : Part) (i : Lane) : (p.notify i).attention = p.attention := rfl
@[simp] theorem Part.notify_ticks (p : Part) (i : Lane) : (p.notify i).ticks = p.ticks := rfl
@[simp] theorem Part.notify_freeDraws (p : Part) (i : Lane) : (p.notify i).freeDraws = p.freeDraws := rfl

@[simp] theorem Part.setExpected_floor (p : Part) (i : Lane) (q : List Nat) : (p.setExpected i q).floor = p.floor := rfl
@[simp] theorem Part.setExpected_window (p : Part) (i : Lane) (q : List Nat) : (p.setExpected i q).window = p.window := rfl
@[simp] theorem Part.setExpected_tracks (p : Part) (i : Lane) (q : List Nat) : (p.setExpected i q).tracks = p.tracks := rfl
@[simp] theorem Part.setExpected_lanes (p : Part) (i : Lane) (q : List Nat) : (p.setExpected i q).lanes = p.lanes := rfl
@[simp] theorem Part.setExpected_press (p : Part) (i : Lane) (q : List Nat) : (p.setExpected i q).press = p.press := rfl
@[simp] theorem Part.setExpected_account (p : Part) (i : Lane) (q : List Nat) : (p.setExpected i q).account = p.account := rfl
@[simp] theorem Part.setExpected_ring (p : Part) (i : Lane) (q : List Nat) : (p.setExpected i q).ring = p.ring := rfl
@[simp] theorem Part.setExpected_displays (p : Part) (i : Lane) (q : List Nat) : (p.setExpected i q).displays = p.displays := rfl
@[simp] theorem Part.setExpected_store (p : Part) (i : Lane) (q : List Nat) : (p.setExpected i q).store = p.store := rfl
@[simp] theorem Part.setExpected_attention (p : Part) (i : Lane) (q : List Nat) : (p.setExpected i q).attention = p.attention := rfl
@[simp] theorem Part.setExpected_ticks (p : Part) (i : Lane) (q : List Nat) : (p.setExpected i q).ticks = p.ticks := rfl
@[simp] theorem Part.setExpected_freeDraws (p : Part) (i : Lane) (q : List Nat) : (p.setExpected i q).freeDraws = p.freeDraws := rfl

@[simp] theorem Part.setDigest_floor (p : Part) (lot : Nat) (d : Digest) : (p.setDigest lot d).floor = p.floor := rfl
@[simp] theorem Part.setDigest_window (p : Part) (lot : Nat) (d : Digest) : (p.setDigest lot d).window = p.window := rfl
@[simp] theorem Part.setDigest_tracks (p : Part) (lot : Nat) (d : Digest) : (p.setDigest lot d).tracks = p.tracks := rfl
@[simp] theorem Part.setDigest_lanes (p : Part) (lot : Nat) (d : Digest) : (p.setDigest lot d).lanes = p.lanes := rfl
@[simp] theorem Part.setDigest_press (p : Part) (lot : Nat) (d : Digest) : (p.setDigest lot d).press = p.press := rfl
@[simp] theorem Part.setDigest_account (p : Part) (lot : Nat) (d : Digest) : (p.setDigest lot d).account = p.account := rfl
@[simp] theorem Part.setDigest_ring (p : Part) (lot : Nat) (d : Digest) : (p.setDigest lot d).ring = p.ring := rfl
@[simp] theorem Part.setDigest_displays (p : Part) (lot : Nat) (d : Digest) : (p.setDigest lot d).displays = p.displays := rfl
@[simp] theorem Part.setDigest_store (p : Part) (lot : Nat) (d : Digest) : (p.setDigest lot d).store = p.store := rfl
@[simp] theorem Part.setDigest_attention (p : Part) (lot : Nat) (d : Digest) : (p.setDigest lot d).attention = p.attention := rfl
@[simp] theorem Part.setDigest_ticks (p : Part) (lot : Nat) (d : Digest) : (p.setDigest lot d).ticks = p.ticks := rfl
@[simp] theorem Part.setDigest_freeDraws (p : Part) (lot : Nat) (d : Digest) : (p.setDigest lot d).freeDraws = p.freeDraws := rfl

@[simp] theorem Part.dropDigest_floor (p : Part) (lot : Nat) : (p.dropDigest lot).floor = p.floor := rfl
@[simp] theorem Part.dropDigest_window (p : Part) (lot : Nat) : (p.dropDigest lot).window = p.window := rfl
@[simp] theorem Part.dropDigest_tracks (p : Part) (lot : Nat) : (p.dropDigest lot).tracks = p.tracks := rfl
@[simp] theorem Part.dropDigest_lanes (p : Part) (lot : Nat) : (p.dropDigest lot).lanes = p.lanes := rfl
@[simp] theorem Part.dropDigest_press (p : Part) (lot : Nat) : (p.dropDigest lot).press = p.press := rfl
@[simp] theorem Part.dropDigest_account (p : Part) (lot : Nat) : (p.dropDigest lot).account = p.account := rfl
@[simp] theorem Part.dropDigest_ring (p : Part) (lot : Nat) : (p.dropDigest lot).ring = p.ring := rfl
@[simp] theorem Part.dropDigest_displays (p : Part) (lot : Nat) : (p.dropDigest lot).displays = p.displays := rfl
@[simp] theorem Part.dropDigest_store (p : Part) (lot : Nat) : (p.dropDigest lot).store = p.store := rfl
@[simp] theorem Part.dropDigest_attention (p : Part) (lot : Nat) : (p.dropDigest lot).attention = p.attention := rfl
@[simp] theorem Part.dropDigest_ticks (p : Part) (lot : Nat) : (p.dropDigest lot).ticks = p.ticks := rfl
@[simp] theorem Part.dropDigest_freeDraws (p : Part) (lot : Nat) : (p.dropDigest lot).freeDraws = p.freeDraws := rfl

@[simp] theorem Part.updateDigest_floor (p : Part) (lot : Nat) (f : Digest → Digest) : (p.updateDigest lot f).floor = p.floor := by
  unfold Part.updateDigest; try dsimp only
  (repeat' split) <;> simp
@[simp] theorem Part.updateDigest_window (p : Part) (lot : Nat) (f : Digest → Digest) : (p.updateDigest lot f).window = p.window := by
  unfold Part.updateDigest; try dsimp only
  (repeat' split) <;> simp
@[simp] theorem Part.updateDigest_tracks (p : Part) (lot : Nat) (f : Digest → Digest) : (p.updateDigest lot f).tracks = p.tracks := by
  unfold Part.updateDigest; try dsimp only
  (repeat' split) <;> simp
@[simp] theorem Part.updateDigest_lanes (p : Part) (lot : Nat) (f : Digest → Digest) : (p.updateDigest lot f).lanes = p.lanes := by
  unfold Part.updateDigest; try dsimp only
  (repeat' split) <;> simp
@[simp] theorem Part.updateDigest_press (p : Part) (lot : Nat) (f : Digest → Digest) : (p.updateDigest lot f).press = p.press := by
  unfold Part.updateDigest; try dsimp only
  (repeat' split) <;> simp
@[simp] theorem Part.updateDigest_account (p : Part) (lot : Nat) (f : Digest → Digest) : (p.updateDigest lot f).account = p.account := by
  unfold Part.updateDigest; try dsimp only
  (repeat' split) <;> simp
@[simp] theorem Part.updateDigest_ring (p : Part) (lot : Nat) (f : Digest → Digest) : (p.updateDigest lot f).ring = p.ring := by
  unfold Part.updateDigest; try dsimp only
  (repeat' split) <;> simp
@[simp] theorem Part.updateDigest_displays (p : Part) (lot : Nat) (f : Digest → Digest) : (p.updateDigest lot f).displays = p.displays := by
  unfold Part.updateDigest; try dsimp only
  (repeat' split) <;> simp
@[simp] theorem Part.updateDigest_store (p : Part) (lot : Nat) (f : Digest → Digest) : (p.updateDigest lot f).store = p.store := by
  unfold Part.updateDigest; try dsimp only
  (repeat' split) <;> simp
@[simp] theorem Part.updateDigest_attention (p : Part) (lot : Nat) (f : Digest → Digest) : (p.updateDigest lot f).attention = p.attention := by
  unfold Part.updateDigest; try dsimp only
  (repeat' split) <;> simp
@[simp] theorem Part.updateDigest_ticks (p : Part) (lot : Nat) (f : Digest → Digest) : (p.updateDigest lot f).ticks = p.ticks := by
  unfold Part.updateDigest; try dsimp only
  (repeat' split) <;> simp
@[simp] theorem Part.updateDigest_freeDraws (p : Part) (lot : Nat) (f : Digest → Digest) : (p.updateDigest lot f).freeDraws = p.freeDraws := by
  unfold Part.updateDigest; try dsimp only
  (repeat' split) <;> simp

@[simp] theorem Part.updateOwned_floor (p : Part) (lot : Nat) (f : Owned → Owned) : (p.updateOwned lot f).floor = p.floor := by simp [Part.updateOwned]
@[simp] theorem Part.updateOwned_window (p : Part) (lot : Nat) (f : Owned → Owned) : (p.updateOwned lot f).window = p.window := by simp [Part.updateOwned]
@[simp] theorem Part.updateOwned_tracks (p : Part) (lot : Nat) (f : Owned → Owned) : (p.updateOwned lot f).tracks = p.tracks := by simp [Part.updateOwned]
@[simp] theorem Part.updateOwned_lanes (p : Part) (lot : Nat) (f : Owned → Owned) : (p.updateOwned lot f).lanes = p.lanes := by simp [Part.updateOwned]
@[simp] theorem Part.updateOwned_press (p : Part) (lot : Nat) (f : Owned → Owned) : (p.updateOwned lot f).press = p.press := by simp [Part.updateOwned]
@[simp] theorem Part.updateOwned_account (p : Part) (lot : Nat) (f : Owned → Owned) : (p.updateOwned lot f).account = p.account := by simp [Part.updateOwned]
@[simp] theorem Part.updateOwned_ring (p : Part) (lot : Nat) (f : Owned → Owned) : (p.updateOwned lot f).ring = p.ring := by simp [Part.updateOwned]
@[simp] theorem Part.updateOwned_displays (p : Part) (lot : Nat) (f : Owned → Owned) : (p.updateOwned lot f).displays = p.displays := by simp [Part.updateOwned]
@[simp] theorem Part.updateOwned_store (p : Part) (lot : Nat) (f : Owned → Owned) : (p.updateOwned lot f).store = p.store := by simp [Part.updateOwned]
@[simp] theorem Part.updateOwned_attention (p : Part) (lot : Nat) (f : Owned → Owned) : (p.updateOwned lot f).attention = p.attention := by simp [Part.updateOwned]
@[simp] theorem Part.updateOwned_ticks (p : Part) (lot : Nat) (f : Owned → Owned) : (p.updateOwned lot f).ticks = p.ticks := by simp [Part.updateOwned]
@[simp] theorem Part.updateOwned_freeDraws (p : Part) (lot : Nat) (f : Owned → Owned) : (p.updateOwned lot f).freeDraws = p.freeDraws := by simp [Part.updateOwned]

@[simp] theorem Part.setDesk_floor (p : Part) (k : Nat) (d : DeskEntry) : (p.setDesk k d).floor = p.floor := rfl
@[simp] theorem Part.setDesk_window (p : Part) (k : Nat) (d : DeskEntry) : (p.setDesk k d).window = p.window := rfl
@[simp] theorem Part.setDesk_catalogue (p : Part) (k : Nat) (d : DeskEntry) : (p.setDesk k d).catalogue = p.catalogue := rfl
@[simp] theorem Part.setDesk_tracks (p : Part) (k : Nat) (d : DeskEntry) : (p.setDesk k d).tracks = p.tracks := rfl
@[simp] theorem Part.setDesk_lanes (p : Part) (k : Nat) (d : DeskEntry) : (p.setDesk k d).lanes = p.lanes := rfl
@[simp] theorem Part.setDesk_account (p : Part) (k : Nat) (d : DeskEntry) : (p.setDesk k d).account = p.account := rfl
@[simp] theorem Part.setDesk_ring (p : Part) (k : Nat) (d : DeskEntry) : (p.setDesk k d).ring = p.ring := rfl
@[simp] theorem Part.setDesk_displays (p : Part) (k : Nat) (d : DeskEntry) : (p.setDesk k d).displays = p.displays := rfl
@[simp] theorem Part.setDesk_store (p : Part) (k : Nat) (d : DeskEntry) : (p.setDesk k d).store = p.store := rfl
@[simp] theorem Part.setDesk_attention (p : Part) (k : Nat) (d : DeskEntry) : (p.setDesk k d).attention = p.attention := rfl
@[simp] theorem Part.setDesk_ticks (p : Part) (k : Nat) (d : DeskEntry) : (p.setDesk k d).ticks = p.ticks := rfl
@[simp] theorem Part.setDesk_freeDraws (p : Part) (k : Nat) (d : DeskEntry) : (p.setDesk k d).freeDraws = p.freeDraws := rfl

@[simp] theorem Part.setBuyer_floor (p : Part) (k : Nat) (b : BuyerEntry) : (p.setBuyer k b).floor = p.floor := rfl
@[simp] theorem Part.setBuyer_window (p : Part) (k : Nat) (b : BuyerEntry) : (p.setBuyer k b).window = p.window := rfl
@[simp] theorem Part.setBuyer_catalogue (p : Part) (k : Nat) (b : BuyerEntry) : (p.setBuyer k b).catalogue = p.catalogue := rfl
@[simp] theorem Part.setBuyer_tracks (p : Part) (k : Nat) (b : BuyerEntry) : (p.setBuyer k b).tracks = p.tracks := rfl
@[simp] theorem Part.setBuyer_lanes (p : Part) (k : Nat) (b : BuyerEntry) : (p.setBuyer k b).lanes = p.lanes := rfl
@[simp] theorem Part.setBuyer_press (p : Part) (k : Nat) (b : BuyerEntry) : (p.setBuyer k b).press = p.press := rfl
@[simp] theorem Part.setBuyer_ring (p : Part) (k : Nat) (b : BuyerEntry) : (p.setBuyer k b).ring = p.ring := rfl
@[simp] theorem Part.setBuyer_displays (p : Part) (k : Nat) (b : BuyerEntry) : (p.setBuyer k b).displays = p.displays := rfl
@[simp] theorem Part.setBuyer_store (p : Part) (k : Nat) (b : BuyerEntry) : (p.setBuyer k b).store = p.store := rfl
@[simp] theorem Part.setBuyer_attention (p : Part) (k : Nat) (b : BuyerEntry) : (p.setBuyer k b).attention = p.attention := rfl
@[simp] theorem Part.setBuyer_ticks (p : Part) (k : Nat) (b : BuyerEntry) : (p.setBuyer k b).ticks = p.ticks := rfl
@[simp] theorem Part.setBuyer_freeDraws (p : Part) (k : Nat) (b : BuyerEntry) : (p.setBuyer k b).freeDraws = p.freeDraws := rfl

@[simp] theorem modLane_floor (p : Part) (i : Lane) (f : LaneUnit → LaneUnit) : (modLane p i f).floor = p.floor := rfl
@[simp] theorem modLane_window (p : Part) (i : Lane) (f : LaneUnit → LaneUnit) : (modLane p i f).window = p.window := rfl
@[simp] theorem modLane_catalogue (p : Part) (i : Lane) (f : LaneUnit → LaneUnit) : (modLane p i f).catalogue = p.catalogue := rfl
@[simp] theorem modLane_tracks (p : Part) (i : Lane) (f : LaneUnit → LaneUnit) : (modLane p i f).tracks = p.tracks := rfl
@[simp] theorem modLane_press (p : Part) (i : Lane) (f : LaneUnit → LaneUnit) : (modLane p i f).press = p.press := rfl
@[simp] theorem modLane_account (p : Part) (i : Lane) (f : LaneUnit → LaneUnit) : (modLane p i f).account = p.account := rfl
@[simp] theorem modLane_ring (p : Part) (i : Lane) (f : LaneUnit → LaneUnit) : (modLane p i f).ring = p.ring := rfl
@[simp] theorem modLane_displays (p : Part) (i : Lane) (f : LaneUnit → LaneUnit) : (modLane p i f).displays = p.displays := rfl
@[simp] theorem modLane_store (p : Part) (i : Lane) (f : LaneUnit → LaneUnit) : (modLane p i f).store = p.store := rfl
@[simp] theorem modLane_attention (p : Part) (i : Lane) (f : LaneUnit → LaneUnit) : (modLane p i f).attention = p.attention := rfl
@[simp] theorem modLane_ticks (p : Part) (i : Lane) (f : LaneUnit → LaneUnit) : (modLane p i f).ticks = p.ticks := rfl
@[simp] theorem modLane_freeDraws (p : Part) (i : Lane) (f : LaneUnit → LaneUnit) : (modLane p i f).freeDraws = p.freeDraws := rfl

/-! ### Slots and records -/

@[simp] theorem joinWaiters_floor (p : Part) (i : Lane) (n : Nat) : (joinWaiters p i n).floor = p.floor := rfl
@[simp] theorem joinWaiters_window (p : Part) (i : Lane) (n : Nat) : (joinWaiters p i n).window = p.window := rfl
@[simp] theorem joinWaiters_catalogue (p : Part) (i : Lane) (n : Nat) : (joinWaiters p i n).catalogue = p.catalogue := rfl
@[simp] theorem joinWaiters_tracks (p : Part) (i : Lane) (n : Nat) : (joinWaiters p i n).tracks = p.tracks := rfl
@[simp] theorem joinWaiters_lanes (p : Part) (i : Lane) (n : Nat) : (joinWaiters p i n).lanes = p.lanes := rfl
@[simp] theorem joinWaiters_press (p : Part) (i : Lane) (n : Nat) : (joinWaiters p i n).press = p.press := rfl
@[simp] theorem joinWaiters_account (p : Part) (i : Lane) (n : Nat) : (joinWaiters p i n).account = p.account := rfl
@[simp] theorem joinWaiters_displays (p : Part) (i : Lane) (n : Nat) : (joinWaiters p i n).displays = p.displays := rfl
@[simp] theorem joinWaiters_store (p : Part) (i : Lane) (n : Nat) : (joinWaiters p i n).store = p.store := rfl
@[simp] theorem joinWaiters_ticks (p : Part) (i : Lane) (n : Nat) : (joinWaiters p i n).ticks = p.ticks := rfl
@[simp] theorem joinWaiters_freeDraws (p : Part) (i : Lane) (n : Nat) : (joinWaiters p i n).freeDraws = p.freeDraws := rfl

@[simp] theorem leaveWaiters_floor (p : Part) (i : Lane) : (leaveWaiters p i).floor = p.floor := rfl
@[simp] theorem leaveWaiters_window (p : Part) (i : Lane) : (leaveWaiters p i).window = p.window := rfl
@[simp] theorem leaveWaiters_catalogue (p : Part) (i : Lane) : (leaveWaiters p i).catalogue = p.catalogue := rfl
@[simp] theorem leaveWaiters_tracks (p : Part) (i : Lane) : (leaveWaiters p i).tracks = p.tracks := rfl
@[simp] theorem leaveWaiters_lanes (p : Part) (i : Lane) : (leaveWaiters p i).lanes = p.lanes := rfl
@[simp] theorem leaveWaiters_press (p : Part) (i : Lane) : (leaveWaiters p i).press = p.press := rfl
@[simp] theorem leaveWaiters_account (p : Part) (i : Lane) : (leaveWaiters p i).account = p.account := rfl
@[simp] theorem leaveWaiters_displays (p : Part) (i : Lane) : (leaveWaiters p i).displays = p.displays := rfl
@[simp] theorem leaveWaiters_store (p : Part) (i : Lane) : (leaveWaiters p i).store = p.store := rfl
@[simp] theorem leaveWaiters_attention (p : Part) (i : Lane) : (leaveWaiters p i).attention = p.attention := rfl
@[simp] theorem leaveWaiters_ticks (p : Part) (i : Lane) : (leaveWaiters p i).ticks = p.ticks := rfl
@[simp] theorem leaveWaiters_freeDraws (p : Part) (i : Lane) : (leaveWaiters p i).freeDraws = p.freeDraws := rfl

@[simp] theorem createRecord_floor (p : Part) (b : RecordBody) : (createRecord p b).floor = p.floor := rfl
@[simp] theorem createRecord_window (p : Part) (b : RecordBody) : (createRecord p b).window = p.window := rfl
@[simp] theorem createRecord_catalogue (p : Part) (b : RecordBody) : (createRecord p b).catalogue = p.catalogue := rfl
@[simp] theorem createRecord_tracks (p : Part) (b : RecordBody) : (createRecord p b).tracks = p.tracks := rfl
@[simp] theorem createRecord_lanes (p : Part) (b : RecordBody) : (createRecord p b).lanes = p.lanes := rfl
@[simp] theorem createRecord_press (p : Part) (b : RecordBody) : (createRecord p b).press = p.press := rfl
@[simp] theorem createRecord_account (p : Part) (b : RecordBody) : (createRecord p b).account = p.account := rfl
@[simp] theorem createRecord_displays (p : Part) (b : RecordBody) : (createRecord p b).displays = p.displays := rfl
@[simp] theorem createRecord_store (p : Part) (b : RecordBody) : (createRecord p b).store = p.store := rfl
@[simp] theorem createRecord_attention (p : Part) (b : RecordBody) : (createRecord p b).attention = p.attention := rfl
@[simp] theorem createRecord_ticks (p : Part) (b : RecordBody) : (createRecord p b).ticks = p.ticks := rfl
@[simp] theorem createRecord_freeDraws (p : Part) (b : RecordBody) : (createRecord p b).freeDraws = p.freeDraws := rfl

@[simp] theorem createDayMark_floor (p : Part) (m : DayMark) : (createDayMark p m).floor = p.floor := rfl
@[simp] theorem createDayMark_window (p : Part) (m : DayMark) : (createDayMark p m).window = p.window := rfl
@[simp] theorem createDayMark_catalogue (p : Part) (m : DayMark) : (createDayMark p m).catalogue = p.catalogue := rfl
@[simp] theorem createDayMark_tracks (p : Part) (m : DayMark) : (createDayMark p m).tracks = p.tracks := rfl
@[simp] theorem createDayMark_lanes (p : Part) (m : DayMark) : (createDayMark p m).lanes = p.lanes := rfl
@[simp] theorem createDayMark_press (p : Part) (m : DayMark) : (createDayMark p m).press = p.press := rfl
@[simp] theorem createDayMark_account (p : Part) (m : DayMark) : (createDayMark p m).account = p.account := rfl
@[simp] theorem createDayMark_displays (p : Part) (m : DayMark) : (createDayMark p m).displays = p.displays := rfl
@[simp] theorem createDayMark_store (p : Part) (m : DayMark) : (createDayMark p m).store = p.store := rfl
@[simp] theorem createDayMark_attention (p : Part) (m : DayMark) : (createDayMark p m).attention = p.attention := rfl
@[simp] theorem createDayMark_ticks (p : Part) (m : DayMark) : (createDayMark p m).ticks = p.ticks := rfl
@[simp] theorem createDayMark_freeDraws (p : Part) (m : DayMark) : (createDayMark p m).freeDraws = p.freeDraws := rfl

@[simp] theorem judgeRingLow_floor (p : Part) (b : Part) : (judgeRingLow b p).floor = p.floor := by
  unfold judgeRingLow; try dsimp only
  (repeat' split) <;> simp
@[simp] theorem judgeRingLow_window (p : Part) (b : Part) : (judgeRingLow b p).window = p.window := by
  unfold judgeRingLow; try dsimp only
  (repeat' split) <;> simp
@[simp] theorem judgeRingLow_catalogue (p : Part) (b : Part) : (judgeRingLow b p).catalogue = p.catalogue := by
  unfold judgeRingLow; try dsimp only
  (repeat' split) <;> simp
@[simp] theorem judgeRingLow_tracks (p : Part) (b : Part) : (judgeRingLow b p).tracks = p.tracks := by
  unfold judgeRingLow; try dsimp only
  (repeat' split) <;> simp
@[simp] theorem judgeRingLow_lanes (p : Part) (b : Part) : (judgeRingLow b p).lanes = p.lanes := by
  unfold judgeRingLow; try dsimp only
  (repeat' split) <;> simp
@[simp] theorem judgeRingLow_press (p : Part) (b : Part) : (judgeRingLow b p).press = p.press := by
  unfold judgeRingLow; try dsimp only
  (repeat' split) <;> simp
@[simp] theorem judgeRingLow_account (p : Part) (b : Part) : (judgeRingLow b p).account = p.account := by
  unfold judgeRingLow; try dsimp only
  (repeat' split) <;> simp
@[simp] theorem judgeRingLow_ring (p : Part) (b : Part) : (judgeRingLow b p).ring = p.ring := by
  unfold judgeRingLow; try dsimp only
  (repeat' split) <;> simp
@[simp] theorem judgeRingLow_displays (p : Part) (b : Part) : (judgeRingLow b p).displays = p.displays := by
  unfold judgeRingLow; try dsimp only
  (repeat' split) <;> simp
@[simp] theorem judgeRingLow_store (p : Part) (b : Part) : (judgeRingLow b p).store = p.store := by
  unfold judgeRingLow; try dsimp only
  (repeat' split) <;> simp
@[simp] theorem judgeRingLow_ticks (p : Part) (b : Part) : (judgeRingLow b p).ticks = p.ticks := by
  unfold judgeRingLow; try dsimp only
  (repeat' split) <;> simp
@[simp] theorem judgeRingLow_freeDraws (p : Part) (b : Part) : (judgeRingLow b p).freeDraws = p.freeDraws := by
  unfold judgeRingLow; try dsimp only
  (repeat' split) <;> simp

@[simp] theorem judgeThreshold_floor (p : Part) : (judgeThreshold p).floor = p.floor := by
  unfold judgeThreshold; try dsimp only
  (repeat' split) <;> simp
@[simp] theorem judgeThreshold_window (p : Part) : (judgeThreshold p).window = p.window := by
  unfold judgeThreshold; try dsimp only
  (repeat' split) <;> simp
@[simp] theorem judgeThreshold_catalogue (p : Part) : (judgeThreshold p).catalogue = p.catalogue := by
  unfold judgeThreshold; try dsimp only
  (repeat' split) <;> simp
@[simp] theorem judgeThreshold_tracks (p : Part) : (judgeThreshold p).tracks = p.tracks := by
  unfold judgeThreshold; try dsimp only
  (repeat' split) <;> simp
@[simp] theorem judgeThreshold_lanes (p : Part) : (judgeThreshold p).lanes = p.lanes := by
  unfold judgeThreshold; try dsimp only
  (repeat' split) <;> simp
@[simp] theorem judgeThreshold_press (p : Part) : (judgeThreshold p).press = p.press := by
  unfold judgeThreshold; try dsimp only
  (repeat' split) <;> simp
@[simp] theorem judgeThreshold_account (p : Part) : (judgeThreshold p).account = p.account := by
  unfold judgeThreshold; try dsimp only
  (repeat' split) <;> simp
@[simp] theorem judgeThreshold_ring (p : Part) : (judgeThreshold p).ring = p.ring := by
  unfold judgeThreshold; try dsimp only
  (repeat' split) <;> simp
@[simp] theorem judgeThreshold_displays (p : Part) : (judgeThreshold p).displays = p.displays := by
  unfold judgeThreshold; try dsimp only
  (repeat' split) <;> simp
@[simp] theorem judgeThreshold_store (p : Part) : (judgeThreshold p).store = p.store := by
  unfold judgeThreshold; try dsimp only
  (repeat' split) <;> simp
@[simp] theorem judgeThreshold_ticks (p : Part) : (judgeThreshold p).ticks = p.ticks := by
  unfold judgeThreshold; try dsimp only
  (repeat' split) <;> simp
@[simp] theorem judgeThreshold_freeDraws (p : Part) : (judgeThreshold p).freeDraws = p.freeDraws := by
  unfold judgeThreshold; try dsimp only
  (repeat' split) <;> simp

/-! ### Digests -/

@[simp] theorem requestWriteBack_floor (p : Part) (lot : Nat) (c : Bool) : (requestWriteBack p lot c).floor = p.floor := rfl
@[simp] theorem requestWriteBack_window (p : Part) (lot : Nat) (c : Bool) : (requestWriteBack p lot c).window = p.window := rfl
@[simp] theorem requestWriteBack_tracks (p : Part) (lot : Nat) (c : Bool) : (requestWriteBack p lot c).tracks = p.tracks := rfl
@[simp] theorem requestWriteBack_lanes (p : Part) (lot : Nat) (c : Bool) : (requestWriteBack p lot c).lanes = p.lanes := rfl
@[simp] theorem requestWriteBack_press (p : Part) (lot : Nat) (c : Bool) : (requestWriteBack p lot c).press = p.press := rfl
@[simp] theorem requestWriteBack_account (p : Part) (lot : Nat) (c : Bool) : (requestWriteBack p lot c).account = p.account := rfl
@[simp] theorem requestWriteBack_ring (p : Part) (lot : Nat) (c : Bool) : (requestWriteBack p lot c).ring = p.ring := rfl
@[simp] theorem requestWriteBack_displays (p : Part) (lot : Nat) (c : Bool) : (requestWriteBack p lot c).displays = p.displays := rfl
@[simp] theorem requestWriteBack_store (p : Part) (lot : Nat) (c : Bool) : (requestWriteBack p lot c).store = p.store := rfl
@[simp] theorem requestWriteBack_attention (p : Part) (lot : Nat) (c : Bool) : (requestWriteBack p lot c).attention = p.attention := rfl
@[simp] theorem requestWriteBack_ticks (p : Part) (lot : Nat) (c : Bool) : (requestWriteBack p lot c).ticks = p.ticks := rfl
@[simp] theorem requestWriteBack_freeDraws (p : Part) (lot : Nat) (c : Bool) : (requestWriteBack p lot c).freeDraws = p.freeDraws := rfl

@[simp] theorem freeIfDone_floor (p : Part) (lot : Nat) : (freeIfDone p lot).floor = p.floor := by
  unfold freeIfDone; try dsimp only
  (repeat' split) <;> simp
@[simp] theorem freeIfDone_window (p : Part) (lot : Nat) : (freeIfDone p lot).window = p.window := by
  unfold freeIfDone; try dsimp only
  (repeat' split) <;> simp
@[simp] theorem freeIfDone_tracks (p : Part) (lot : Nat) : (freeIfDone p lot).tracks = p.tracks := by
  unfold freeIfDone; try dsimp only
  (repeat' split) <;> simp
@[simp] theorem freeIfDone_lanes (p : Part) (lot : Nat) : (freeIfDone p lot).lanes = p.lanes := by
  unfold freeIfDone; try dsimp only
  (repeat' split) <;> simp
@[simp] theorem freeIfDone_press (p : Part) (lot : Nat) : (freeIfDone p lot).press = p.press := by
  unfold freeIfDone; try dsimp only
  (repeat' split) <;> simp
@[simp] theorem freeIfDone_account (p : Part) (lot : Nat) : (freeIfDone p lot).account = p.account := by
  unfold freeIfDone; try dsimp only
  (repeat' split) <;> simp
@[simp] theorem freeIfDone_ring (p : Part) (lot : Nat) : (freeIfDone p lot).ring = p.ring := by
  unfold freeIfDone; try dsimp only
  (repeat' split) <;> simp
@[simp] theorem freeIfDone_displays (p : Part) (lot : Nat) : (freeIfDone p lot).displays = p.displays := by
  unfold freeIfDone; try dsimp only
  (repeat' split) <;> simp
@[simp] theorem freeIfDone_store (p : Part) (lot : Nat) : (freeIfDone p lot).store = p.store := by
  unfold freeIfDone; try dsimp only
  (repeat' split) <;> simp
@[simp] theorem freeIfDone_attention (p : Part) (lot : Nat) : (freeIfDone p lot).attention = p.attention := by
  unfold freeIfDone; try dsimp only
  (repeat' split) <;> simp
@[simp] theorem freeIfDone_ticks (p : Part) (lot : Nat) : (freeIfDone p lot).ticks = p.ticks := by
  unfold freeIfDone; try dsimp only
  (repeat' split) <;> simp
@[simp] theorem freeIfDone_freeDraws (p : Part) (lot : Nat) : (freeIfDone p lot).freeDraws = p.freeDraws := by
  unfold freeIfDone; try dsimp only
  (repeat' split) <;> simp

@[simp] theorem endReason_floor (p : Part) (lot : Nat) : (endReason p lot).floor = p.floor := by simp [endReason]
@[simp] theorem endReason_window (p : Part) (lot : Nat) : (endReason p lot).window = p.window := by simp [endReason]
@[simp] theorem endReason_tracks (p : Part) (lot : Nat) : (endReason p lot).tracks = p.tracks := by simp [endReason]
@[simp] theorem endReason_lanes (p : Part) (lot : Nat) : (endReason p lot).lanes = p.lanes := by simp [endReason]
@[simp] theorem endReason_press (p : Part) (lot : Nat) : (endReason p lot).press = p.press := by simp [endReason]
@[simp] theorem endReason_account (p : Part) (lot : Nat) : (endReason p lot).account = p.account := by simp [endReason]
@[simp] theorem endReason_ring (p : Part) (lot : Nat) : (endReason p lot).ring = p.ring := by simp [endReason]
@[simp] theorem endReason_displays (p : Part) (lot : Nat) : (endReason p lot).displays = p.displays := by simp [endReason]
@[simp] theorem endReason_store (p : Part) (lot : Nat) : (endReason p lot).store = p.store := by simp [endReason]
@[simp] theorem endReason_attention (p : Part) (lot : Nat) : (endReason p lot).attention = p.attention := by simp [endReason]
@[simp] theorem endReason_ticks (p : Part) (lot : Nat) : (endReason p lot).ticks = p.ticks := by simp [endReason]
@[simp] theorem endReason_freeDraws (p : Part) (lot : Nat) : (endReason p lot).freeDraws = p.freeDraws := by simp [endReason]

@[simp] theorem endReasons_floor (p : Part) (lots : List Nat) : (endReasons p lots).floor = p.floor := by
  unfold endReasons; exact foldl_keeps (fun q => q.floor) _ (by intros; simp) _ _
@[simp] theorem endReasons_window (p : Part) (lots : List Nat) : (endReasons p lots).window = p.window := by
  unfold endReasons; exact foldl_keeps (fun q => q.window) _ (by intros; simp) _ _
@[simp] theorem endReasons_tracks (p : Part) (lots : List Nat) : (endReasons p lots).tracks = p.tracks := by
  unfold endReasons; exact foldl_keeps (fun q => q.tracks) _ (by intros; simp) _ _
@[simp] theorem endReasons_lanes (p : Part) (lots : List Nat) : (endReasons p lots).lanes = p.lanes := by
  unfold endReasons; exact foldl_keeps (fun q => q.lanes) _ (by intros; simp) _ _
@[simp] theorem endReasons_press (p : Part) (lots : List Nat) : (endReasons p lots).press = p.press := by
  unfold endReasons; exact foldl_keeps (fun q => q.press) _ (by intros; simp) _ _
@[simp] theorem endReasons_account (p : Part) (lots : List Nat) : (endReasons p lots).account = p.account := by
  unfold endReasons; exact foldl_keeps (fun q => q.account) _ (by intros; simp) _ _
@[simp] theorem endReasons_ring (p : Part) (lots : List Nat) : (endReasons p lots).ring = p.ring := by
  unfold endReasons; exact foldl_keeps (fun q => q.ring) _ (by intros; simp) _ _
@[simp] theorem endReasons_displays (p : Part) (lots : List Nat) : (endReasons p lots).displays = p.displays := by
  unfold endReasons; exact foldl_keeps (fun q => q.displays) _ (by intros; simp) _ _
@[simp] theorem endReasons_store (p : Part) (lots : List Nat) : (endReasons p lots).store = p.store := by
  unfold endReasons; exact foldl_keeps (fun q => q.store) _ (by intros; simp) _ _
@[simp] theorem endReasons_attention (p : Part) (lots : List Nat) : (endReasons p lots).attention = p.attention := by
  unfold endReasons; exact foldl_keeps (fun q => q.attention) _ (by intros; simp) _ _
@[simp] theorem endReasons_ticks (p : Part) (lots : List Nat) : (endReasons p lots).ticks = p.ticks := by
  unfold endReasons; exact foldl_keeps (fun q => q.ticks) _ (by intros; simp) _ _
@[simp] theorem endReasons_freeDraws (p : Part) (lots : List Nat) : (endReasons p lots).freeDraws = p.freeDraws := by
  unfold endReasons; exact foldl_keeps (fun q => q.freeDraws) _ (by intros; simp) _ _

@[simp] theorem makePassenger_floor (p : Part) (lot : Nat) : (makePassenger p lot).floor = p.floor := by simp [makePassenger]
@[simp] theorem makePassenger_window (p : Part) (lot : Nat) : (makePassenger p lot).window = p.window := by simp [makePassenger]
@[simp] theorem makePassenger_tracks (p : Part) (lot : Nat) : (makePassenger p lot).tracks = p.tracks := by simp [makePassenger]
@[simp] theorem makePassenger_lanes (p : Part) (lot : Nat) : (makePassenger p lot).lanes = p.lanes := by simp [makePassenger]
@[simp] theorem makePassenger_press (p : Part) (lot : Nat) : (makePassenger p lot).press = p.press := by simp [makePassenger]
@[simp] theorem makePassenger_account (p : Part) (lot : Nat) : (makePassenger p lot).account = p.account := by simp [makePassenger]
@[simp] theorem makePassenger_ring (p : Part) (lot : Nat) : (makePassenger p lot).ring = p.ring := by simp [makePassenger]
@[simp] theorem makePassenger_displays (p : Part) (lot : Nat) : (makePassenger p lot).displays = p.displays := by simp [makePassenger]
@[simp] theorem makePassenger_store (p : Part) (lot : Nat) : (makePassenger p lot).store = p.store := by simp [makePassenger]
@[simp] theorem makePassenger_attention (p : Part) (lot : Nat) : (makePassenger p lot).attention = p.attention := by simp [makePassenger]
@[simp] theorem makePassenger_ticks (p : Part) (lot : Nat) : (makePassenger p lot).ticks = p.ticks := by simp [makePassenger]
@[simp] theorem makePassenger_freeDraws (p : Part) (lot : Nat) : (makePassenger p lot).freeDraws = p.freeDraws := by simp [makePassenger]

@[simp] theorem setLotStates_floor (p : Part) (lots : List Nat) (st : LotState) : (setLotStates p lots st).floor = p.floor := by
  unfold setLotStates; exact foldl_keeps (fun q => q.floor) _ (by intros; simp) _ _
@[simp] theorem setLotStates_window (p : Part) (lots : List Nat) (st : LotState) : (setLotStates p lots st).window = p.window := by
  unfold setLotStates; exact foldl_keeps (fun q => q.window) _ (by intros; simp) _ _
@[simp] theorem setLotStates_tracks (p : Part) (lots : List Nat) (st : LotState) : (setLotStates p lots st).tracks = p.tracks := by
  unfold setLotStates; exact foldl_keeps (fun q => q.tracks) _ (by intros; simp) _ _
@[simp] theorem setLotStates_lanes (p : Part) (lots : List Nat) (st : LotState) : (setLotStates p lots st).lanes = p.lanes := by
  unfold setLotStates; exact foldl_keeps (fun q => q.lanes) _ (by intros; simp) _ _
@[simp] theorem setLotStates_press (p : Part) (lots : List Nat) (st : LotState) : (setLotStates p lots st).press = p.press := by
  unfold setLotStates; exact foldl_keeps (fun q => q.press) _ (by intros; simp) _ _
@[simp] theorem setLotStates_account (p : Part) (lots : List Nat) (st : LotState) : (setLotStates p lots st).account = p.account := by
  unfold setLotStates; exact foldl_keeps (fun q => q.account) _ (by intros; simp) _ _
@[simp] theorem setLotStates_ring (p : Part) (lots : List Nat) (st : LotState) : (setLotStates p lots st).ring = p.ring := by
  unfold setLotStates; exact foldl_keeps (fun q => q.ring) _ (by intros; simp) _ _
@[simp] theorem setLotStates_displays (p : Part) (lots : List Nat) (st : LotState) : (setLotStates p lots st).displays = p.displays := by
  unfold setLotStates; exact foldl_keeps (fun q => q.displays) _ (by intros; simp) _ _
@[simp] theorem setLotStates_store (p : Part) (lots : List Nat) (st : LotState) : (setLotStates p lots st).store = p.store := by
  unfold setLotStates; exact foldl_keeps (fun q => q.store) _ (by intros; simp) _ _
@[simp] theorem setLotStates_attention (p : Part) (lots : List Nat) (st : LotState) : (setLotStates p lots st).attention = p.attention := by
  unfold setLotStates; exact foldl_keeps (fun q => q.attention) _ (by intros; simp) _ _
@[simp] theorem setLotStates_ticks (p : Part) (lots : List Nat) (st : LotState) : (setLotStates p lots st).ticks = p.ticks := by
  unfold setLotStates; exact foldl_keeps (fun q => q.ticks) _ (by intros; simp) _ _
@[simp] theorem setLotStates_freeDraws (p : Part) (lots : List Nat) (st : LotState) : (setLotStates p lots st).freeDraws = p.freeDraws := by
  unfold setLotStates; exact foldl_keeps (fun q => q.freeDraws) _ (by intros; simp) _ _

/-! ### Display maps -/

@[simp] theorem rebuildMap_floor (p : Part) (i : Lane) : (rebuildMap p i).floor = p.floor := rfl
@[simp] theorem rebuildMap_window (p : Part) (i : Lane) : (rebuildMap p i).window = p.window := rfl
@[simp] theorem rebuildMap_catalogue (p : Part) (i : Lane) : (rebuildMap p i).catalogue = p.catalogue := rfl
@[simp] theorem rebuildMap_tracks (p : Part) (i : Lane) : (rebuildMap p i).tracks = p.tracks := rfl
@[simp] theorem rebuildMap_lanes (p : Part) (i : Lane) : (rebuildMap p i).lanes = p.lanes := rfl
@[simp] theorem rebuildMap_press (p : Part) (i : Lane) : (rebuildMap p i).press = p.press := rfl
@[simp] theorem rebuildMap_account (p : Part) (i : Lane) : (rebuildMap p i).account = p.account := rfl
@[simp] theorem rebuildMap_ring (p : Part) (i : Lane) : (rebuildMap p i).ring = p.ring := rfl
@[simp] theorem rebuildMap_store (p : Part) (i : Lane) : (rebuildMap p i).store = p.store := rfl
@[simp] theorem rebuildMap_attention (p : Part) (i : Lane) : (rebuildMap p i).attention = p.attention := rfl
@[simp] theorem rebuildMap_ticks (p : Part) (i : Lane) : (rebuildMap p i).ticks = p.ticks := rfl
@[simp] theorem rebuildMap_freeDraws (p : Part) (i : Lane) : (rebuildMap p i).freeDraws = p.freeDraws := rfl

@[simp] theorem rebuildIfNotified_floor (p : Part) (i : Lane) : (rebuildIfNotified p i).floor = p.floor := by
  unfold rebuildIfNotified; try dsimp only
  (repeat' split) <;> simp
@[simp] theorem rebuildIfNotified_window (p : Part) (i : Lane) : (rebuildIfNotified p i).window = p.window := by
  unfold rebuildIfNotified; try dsimp only
  (repeat' split) <;> simp
@[simp] theorem rebuildIfNotified_catalogue (p : Part) (i : Lane) : (rebuildIfNotified p i).catalogue = p.catalogue := by
  unfold rebuildIfNotified; try dsimp only
  (repeat' split) <;> simp
@[simp] theorem rebuildIfNotified_tracks (p : Part) (i : Lane) : (rebuildIfNotified p i).tracks = p.tracks := by
  unfold rebuildIfNotified; try dsimp only
  (repeat' split) <;> simp
@[simp] theorem rebuildIfNotified_lanes (p : Part) (i : Lane) : (rebuildIfNotified p i).lanes = p.lanes := by
  unfold rebuildIfNotified; try dsimp only
  (repeat' split) <;> simp
@[simp] theorem rebuildIfNotified_press (p : Part) (i : Lane) : (rebuildIfNotified p i).press = p.press := by
  unfold rebuildIfNotified; try dsimp only
  (repeat' split) <;> simp
@[simp] theorem rebuildIfNotified_account (p : Part) (i : Lane) : (rebuildIfNotified p i).account = p.account := by
  unfold rebuildIfNotified; try dsimp only
  (repeat' split) <;> simp
@[simp] theorem rebuildIfNotified_ring (p : Part) (i : Lane) : (rebuildIfNotified p i).ring = p.ring := by
  unfold rebuildIfNotified; try dsimp only
  (repeat' split) <;> simp
@[simp] theorem rebuildIfNotified_store (p : Part) (i : Lane) : (rebuildIfNotified p i).store = p.store := by
  unfold rebuildIfNotified; try dsimp only
  (repeat' split) <;> simp
@[simp] theorem rebuildIfNotified_attention (p : Part) (i : Lane) : (rebuildIfNotified p i).attention = p.attention := by
  unfold rebuildIfNotified; try dsimp only
  (repeat' split) <;> simp
@[simp] theorem rebuildIfNotified_ticks (p : Part) (i : Lane) : (rebuildIfNotified p i).ticks = p.ticks := by
  unfold rebuildIfNotified; try dsimp only
  (repeat' split) <;> simp
@[simp] theorem rebuildIfNotified_freeDraws (p : Part) (i : Lane) : (rebuildIfNotified p i).freeDraws = p.freeDraws := by
  unfold rebuildIfNotified; try dsimp only
  (repeat' split) <;> simp

@[simp] theorem rebuildNotified_floor (p : Part) : (rebuildNotified p).floor = p.floor := by
  unfold rebuildNotified; exact foldl_keeps (fun q => q.floor) _ (by intros; simp) _ _
@[simp] theorem rebuildNotified_window (p : Part) : (rebuildNotified p).window = p.window := by
  unfold rebuildNotified; exact foldl_keeps (fun q => q.window) _ (by intros; simp) _ _
@[simp] theorem rebuildNotified_catalogue (p : Part) : (rebuildNotified p).catalogue = p.catalogue := by
  unfold rebuildNotified; exact foldl_keeps (fun q => q.catalogue) _ (by intros; simp) _ _
@[simp] theorem rebuildNotified_tracks (p : Part) : (rebuildNotified p).tracks = p.tracks := by
  unfold rebuildNotified; exact foldl_keeps (fun q => q.tracks) _ (by intros; simp) _ _
@[simp] theorem rebuildNotified_lanes (p : Part) : (rebuildNotified p).lanes = p.lanes := by
  unfold rebuildNotified; exact foldl_keeps (fun q => q.lanes) _ (by intros; simp) _ _
@[simp] theorem rebuildNotified_press (p : Part) : (rebuildNotified p).press = p.press := by
  unfold rebuildNotified; exact foldl_keeps (fun q => q.press) _ (by intros; simp) _ _
@[simp] theorem rebuildNotified_account (p : Part) : (rebuildNotified p).account = p.account := by
  unfold rebuildNotified; exact foldl_keeps (fun q => q.account) _ (by intros; simp) _ _
@[simp] theorem rebuildNotified_ring (p : Part) : (rebuildNotified p).ring = p.ring := by
  unfold rebuildNotified; exact foldl_keeps (fun q => q.ring) _ (by intros; simp) _ _
@[simp] theorem rebuildNotified_store (p : Part) : (rebuildNotified p).store = p.store := by
  unfold rebuildNotified; exact foldl_keeps (fun q => q.store) _ (by intros; simp) _ _
@[simp] theorem rebuildNotified_attention (p : Part) : (rebuildNotified p).attention = p.attention := by
  unfold rebuildNotified; exact foldl_keeps (fun q => q.attention) _ (by intros; simp) _ _
@[simp] theorem rebuildNotified_ticks (p : Part) : (rebuildNotified p).ticks = p.ticks := by
  unfold rebuildNotified; exact foldl_keeps (fun q => q.ticks) _ (by intros; simp) _ _
@[simp] theorem rebuildNotified_freeDraws (p : Part) : (rebuildNotified p).freeDraws = p.freeDraws := by
  unfold rebuildNotified; exact foldl_keeps (fun q => q.freeDraws) _ (by intros; simp) _ _

/-! ### Lane steps -/

@[simp] theorem putUp_floor (p : Part) (i : Lane) (lot : Nat) : (putUp p i lot).floor = p.floor := by
  unfold putUp; try dsimp only
  (repeat' split) <;> simp
@[simp] theorem putUp_window (p : Part) (i : Lane) (lot : Nat) : (putUp p i lot).window = p.window := by
  unfold putUp; try dsimp only
  (repeat' split) <;> simp
@[simp] theorem putUp_tracks (p : Part) (i : Lane) (lot : Nat) : (putUp p i lot).tracks = p.tracks := by
  unfold putUp; try dsimp only
  (repeat' split) <;> simp
@[simp] theorem putUp_press (p : Part) (i : Lane) (lot : Nat) : (putUp p i lot).press = p.press := by
  unfold putUp; try dsimp only
  (repeat' split) <;> simp
@[simp] theorem putUp_account (p : Part) (i : Lane) (lot : Nat) : (putUp p i lot).account = p.account := by
  unfold putUp; try dsimp only
  (repeat' split) <;> simp
@[simp] theorem putUp_ring (p : Part) (i : Lane) (lot : Nat) : (putUp p i lot).ring = p.ring := by
  unfold putUp; try dsimp only
  (repeat' split) <;> simp
@[simp] theorem putUp_store (p : Part) (i : Lane) (lot : Nat) : (putUp p i lot).store = p.store := by
  unfold putUp; try dsimp only
  (repeat' split) <;> simp
@[simp] theorem putUp_attention (p : Part) (i : Lane) (lot : Nat) : (putUp p i lot).attention = p.attention := by
  unfold putUp; try dsimp only
  (repeat' split) <;> simp
@[simp] theorem putUp_ticks (p : Part) (i : Lane) (lot : Nat) : (putUp p i lot).ticks = p.ticks := by
  unfold putUp; try dsimp only
  (repeat' split) <;> simp
@[simp] theorem putUp_freeDraws (p : Part) (i : Lane) (lot : Nat) : (putUp p i lot).freeDraws = p.freeDraws := by
  unfold putUp; try dsimp only
  (repeat' split) <;> simp

@[simp] theorem waitOnRing_floor (p : Part) (i : Lane) (r : ReturnState) (n : Nat) : (waitOnRing p i r n).floor = p.floor := by simp [waitOnRing]
@[simp] theorem waitOnRing_window (p : Part) (i : Lane) (r : ReturnState) (n : Nat) : (waitOnRing p i r n).window = p.window := by simp [waitOnRing]
@[simp] theorem waitOnRing_catalogue (p : Part) (i : Lane) (r : ReturnState) (n : Nat) : (waitOnRing p i r n).catalogue = p.catalogue := by simp [waitOnRing]
@[simp] theorem waitOnRing_tracks (p : Part) (i : Lane) (r : ReturnState) (n : Nat) : (waitOnRing p i r n).tracks = p.tracks := by simp [waitOnRing]
@[simp] theorem waitOnRing_press (p : Part) (i : Lane) (r : ReturnState) (n : Nat) : (waitOnRing p i r n).press = p.press := by simp [waitOnRing]
@[simp] theorem waitOnRing_account (p : Part) (i : Lane) (r : ReturnState) (n : Nat) : (waitOnRing p i r n).account = p.account := by simp [waitOnRing]
@[simp] theorem waitOnRing_displays (p : Part) (i : Lane) (r : ReturnState) (n : Nat) : (waitOnRing p i r n).displays = p.displays := by simp [waitOnRing]
@[simp] theorem waitOnRing_store (p : Part) (i : Lane) (r : ReturnState) (n : Nat) : (waitOnRing p i r n).store = p.store := by simp [waitOnRing]
@[simp] theorem waitOnRing_ticks (p : Part) (i : Lane) (r : ReturnState) (n : Nat) : (waitOnRing p i r n).ticks = p.ticks := by simp [waitOnRing]
@[simp] theorem waitOnRing_freeDraws (p : Part) (i : Lane) (r : ReturnState) (n : Nat) : (waitOnRing p i r n).freeDraws = p.freeDraws := by simp [waitOnRing]

@[simp] theorem prime_floor (p : Part) (i : Lane) (lot : Nat) : (prime p i lot).floor = p.floor := by
  unfold prime; try dsimp only
  (repeat' split) <;> simp
@[simp] theorem prime_window (p : Part) (i : Lane) (lot : Nat) : (prime p i lot).window = p.window := by
  unfold prime; try dsimp only
  (repeat' split) <;> simp
@[simp] theorem prime_tracks (p : Part) (i : Lane) (lot : Nat) : (prime p i lot).tracks = p.tracks := by
  unfold prime; try dsimp only
  (repeat' split) <;> simp
@[simp] theorem prime_press (p : Part) (i : Lane) (lot : Nat) : (prime p i lot).press = p.press := by
  unfold prime; try dsimp only
  (repeat' split) <;> simp
@[simp] theorem prime_account (p : Part) (i : Lane) (lot : Nat) : (prime p i lot).account = p.account := by
  unfold prime; try dsimp only
  (repeat' split) <;> simp
@[simp] theorem prime_store (p : Part) (i : Lane) (lot : Nat) : (prime p i lot).store = p.store := by
  unfold prime; try dsimp only
  (repeat' split) <;> simp
@[simp] theorem prime_ticks (p : Part) (i : Lane) (lot : Nat) : (prime p i lot).ticks = p.ticks := by
  unfold prime; try dsimp only
  (repeat' split) <;> simp
@[simp] theorem prime_freeDraws (p : Part) (i : Lane) (lot : Nat) : (prime p i lot).freeDraws = p.freeDraws := by
  unfold prime; try dsimp only
  (repeat' split) <;> simp

@[simp] theorem look_floor (p : Part) (i : Lane) : (look p i).floor = p.floor := by
  unfold look; try dsimp only
  (repeat' split) <;> simp
@[simp] theorem look_window (p : Part) (i : Lane) : (look p i).window = p.window := by
  unfold look; try dsimp only
  (repeat' split) <;> simp
@[simp] theorem look_tracks (p : Part) (i : Lane) : (look p i).tracks = p.tracks := by
  unfold look; try dsimp only
  (repeat' split) <;> simp
@[simp] theorem look_press (p : Part) (i : Lane) : (look p i).press = p.press := by
  unfold look; try dsimp only
  (repeat' split) <;> simp
@[simp] theorem look_account (p : Part) (i : Lane) : (look p i).account = p.account := by
  unfold look; try dsimp only
  (repeat' split) <;> simp
@[simp] theorem look_store (p : Part) (i : Lane) : (look p i).store = p.store := by
  unfold look; try dsimp only
  (repeat' split) <;> simp
@[simp] theorem look_ticks (p : Part) (i : Lane) : (look p i).ticks = p.ticks := by
  unfold look; try dsimp only
  (repeat' split) <;> simp
@[simp] theorem look_freeDraws (p : Part) (i : Lane) : (look p i).freeDraws = p.freeDraws := by
  unfold look; try dsimp only
  (repeat' split) <;> simp

@[simp] theorem enterIdle_floor (p : Part) (i : Lane) : (enterIdle p i).floor = p.floor := by simp [enterIdle]
@[simp] theorem enterIdle_window (p : Part) (i : Lane) : (enterIdle p i).window = p.window := by simp [enterIdle]
@[simp] theorem enterIdle_tracks (p : Part) (i : Lane) : (enterIdle p i).tracks = p.tracks := by simp [enterIdle]
@[simp] theorem enterIdle_press (p : Part) (i : Lane) : (enterIdle p i).press = p.press := by simp [enterIdle]
@[simp] theorem enterIdle_account (p : Part) (i : Lane) : (enterIdle p i).account = p.account := by simp [enterIdle]
@[simp] theorem enterIdle_store (p : Part) (i : Lane) : (enterIdle p i).store = p.store := by simp [enterIdle]
@[simp] theorem enterIdle_ticks (p : Part) (i : Lane) : (enterIdle p i).ticks = p.ticks := by simp [enterIdle]
@[simp] theorem enterIdle_freeDraws (p : Part) (i : Lane) : (enterIdle p i).freeDraws = p.freeDraws := by simp [enterIdle]

@[simp] theorem lookWithSlot_floor (p : Part) (i : Lane) : (lookWithSlot p i).floor = p.floor := by
  unfold lookWithSlot; try dsimp only
  (repeat' split) <;> simp
@[simp] theorem lookWithSlot_window (p : Part) (i : Lane) : (lookWithSlot p i).window = p.window := by
  unfold lookWithSlot; try dsimp only
  (repeat' split) <;> simp
@[simp] theorem lookWithSlot_tracks (p : Part) (i : Lane) : (lookWithSlot p i).tracks = p.tracks := by
  unfold lookWithSlot; try dsimp only
  (repeat' split) <;> simp
@[simp] theorem lookWithSlot_press (p : Part) (i : Lane) : (lookWithSlot p i).press = p.press := by
  unfold lookWithSlot; try dsimp only
  (repeat' split) <;> simp
@[simp] theorem lookWithSlot_account (p : Part) (i : Lane) : (lookWithSlot p i).account = p.account := by
  unfold lookWithSlot; try dsimp only
  (repeat' split) <;> simp
@[simp] theorem lookWithSlot_store (p : Part) (i : Lane) : (lookWithSlot p i).store = p.store := by
  unfold lookWithSlot; try dsimp only
  (repeat' split) <;> simp
@[simp] theorem lookWithSlot_ticks (p : Part) (i : Lane) : (lookWithSlot p i).ticks = p.ticks := by
  unfold lookWithSlot; try dsimp only
  (repeat' split) <;> simp
@[simp] theorem lookWithSlot_freeDraws (p : Part) (i : Lane) : (lookWithSlot p i).freeDraws = p.freeDraws := by
  unfold lookWithSlot; try dsimp only
  (repeat' split) <;> simp

@[simp] theorem enterRunning_floor (p : Part) (i : Lane) (r : ReturnState) : (enterRunning p i r).floor = p.floor := by
  unfold enterRunning; try dsimp only
  (repeat' split) <;> simp
@[simp] theorem enterRunning_window (p : Part) (i : Lane) (r : ReturnState) : (enterRunning p i r).window = p.window := by
  unfold enterRunning; try dsimp only
  (repeat' split) <;> simp
@[simp] theorem enterRunning_catalogue (p : Part) (i : Lane) (r : ReturnState) : (enterRunning p i r).catalogue = p.catalogue := by
  unfold enterRunning; try dsimp only
  (repeat' split) <;> simp
@[simp] theorem enterRunning_tracks (p : Part) (i : Lane) (r : ReturnState) : (enterRunning p i r).tracks = p.tracks := by
  unfold enterRunning; try dsimp only
  (repeat' split) <;> simp
@[simp] theorem enterRunning_press (p : Part) (i : Lane) (r : ReturnState) : (enterRunning p i r).press = p.press := by
  unfold enterRunning; try dsimp only
  (repeat' split) <;> simp
@[simp] theorem enterRunning_account (p : Part) (i : Lane) (r : ReturnState) : (enterRunning p i r).account = p.account := by
  unfold enterRunning; try dsimp only
  (repeat' split) <;> simp
@[simp] theorem enterRunning_displays (p : Part) (i : Lane) (r : ReturnState) : (enterRunning p i r).displays = p.displays := by
  unfold enterRunning; try dsimp only
  (repeat' split) <;> simp
@[simp] theorem enterRunning_store (p : Part) (i : Lane) (r : ReturnState) : (enterRunning p i r).store = p.store := by
  unfold enterRunning; try dsimp only
  (repeat' split) <;> simp
@[simp] theorem enterRunning_ticks (p : Part) (i : Lane) (r : ReturnState) : (enterRunning p i r).ticks = p.ticks := by
  unfold enterRunning; try dsimp only
  (repeat' split) <;> simp
@[simp] theorem enterRunning_freeDraws (p : Part) (i : Lane) (r : ReturnState) : (enterRunning p i r).freeDraws = p.freeDraws := by
  unfold enterRunning; try dsimp only
  (repeat' split) <;> simp

@[simp] theorem addHold_floor (p : Part) (i : Lane) (r : HoldReason) : (addHold p i r).floor = p.floor := by simp [addHold]
@[simp] theorem addHold_window (p : Part) (i : Lane) (r : HoldReason) : (addHold p i r).window = p.window := by simp [addHold]
@[simp] theorem addHold_catalogue (p : Part) (i : Lane) (r : HoldReason) : (addHold p i r).catalogue = p.catalogue := by simp [addHold]
@[simp] theorem addHold_tracks (p : Part) (i : Lane) (r : HoldReason) : (addHold p i r).tracks = p.tracks := by simp [addHold]
@[simp] theorem addHold_press (p : Part) (i : Lane) (r : HoldReason) : (addHold p i r).press = p.press := by simp [addHold]
@[simp] theorem addHold_account (p : Part) (i : Lane) (r : HoldReason) : (addHold p i r).account = p.account := by simp [addHold]
@[simp] theorem addHold_ring (p : Part) (i : Lane) (r : HoldReason) : (addHold p i r).ring = p.ring := by simp [addHold]
@[simp] theorem addHold_displays (p : Part) (i : Lane) (r : HoldReason) : (addHold p i r).displays = p.displays := by simp [addHold]
@[simp] theorem addHold_store (p : Part) (i : Lane) (r : HoldReason) : (addHold p i r).store = p.store := by simp [addHold]
@[simp] theorem addHold_attention (p : Part) (i : Lane) (r : HoldReason) : (addHold p i r).attention = p.attention := by simp [addHold]
@[simp] theorem addHold_ticks (p : Part) (i : Lane) (r : HoldReason) : (addHold p i r).ticks = p.ticks := by simp [addHold]
@[simp] theorem addHold_freeDraws (p : Part) (i : Lane) (r : HoldReason) : (addHold p i r).freeDraws = p.freeDraws := by simp [addHold]

@[simp] theorem leaveHeld_floor (p : Part) (i : Lane) : (leaveHeld p i).floor = p.floor := by
  unfold leaveHeld; try dsimp only
  (repeat' split) <;> simp
@[simp] theorem leaveHeld_window (p : Part) (i : Lane) : (leaveHeld p i).window = p.window := by
  unfold leaveHeld; try dsimp only
  (repeat' split) <;> simp
@[simp] theorem leaveHeld_tracks (p : Part) (i : Lane) : (leaveHeld p i).tracks = p.tracks := by
  unfold leaveHeld; try dsimp only
  (repeat' split) <;> simp
@[simp] theorem leaveHeld_press (p : Part) (i : Lane) : (leaveHeld p i).press = p.press := by
  unfold leaveHeld; try dsimp only
  (repeat' split) <;> simp
@[simp] theorem leaveHeld_account (p : Part) (i : Lane) : (leaveHeld p i).account = p.account := by
  unfold leaveHeld; try dsimp only
  (repeat' split) <;> simp
@[simp] theorem leaveHeld_store (p : Part) (i : Lane) : (leaveHeld p i).store = p.store := by
  unfold leaveHeld; try dsimp only
  (repeat' split) <;> simp
@[simp] theorem leaveHeld_ticks (p : Part) (i : Lane) : (leaveHeld p i).ticks = p.ticks := by
  unfold leaveHeld; try dsimp only
  (repeat' split) <;> simp
@[simp] theorem leaveHeld_freeDraws (p : Part) (i : Lane) : (leaveHeld p i).freeDraws = p.freeDraws := by
  unfold leaveHeld; try dsimp only
  (repeat' split) <;> simp

@[simp] theorem leaveHeldIfFree_floor (p : Part) (i : Lane) : (leaveHeldIfFree p i).floor = p.floor := by
  unfold leaveHeldIfFree; try dsimp only
  (repeat' split) <;> simp
@[simp] theorem leaveHeldIfFree_window (p : Part) (i : Lane) : (leaveHeldIfFree p i).window = p.window := by
  unfold leaveHeldIfFree; try dsimp only
  (repeat' split) <;> simp
@[simp] theorem leaveHeldIfFree_tracks (p : Part) (i : Lane) : (leaveHeldIfFree p i).tracks = p.tracks := by
  unfold leaveHeldIfFree; try dsimp only
  (repeat' split) <;> simp
@[simp] theorem leaveHeldIfFree_press (p : Part) (i : Lane) : (leaveHeldIfFree p i).press = p.press := by
  unfold leaveHeldIfFree; try dsimp only
  (repeat' split) <;> simp
@[simp] theorem leaveHeldIfFree_account (p : Part) (i : Lane) : (leaveHeldIfFree p i).account = p.account := by
  unfold leaveHeldIfFree; try dsimp only
  (repeat' split) <;> simp
@[simp] theorem leaveHeldIfFree_store (p : Part) (i : Lane) : (leaveHeldIfFree p i).store = p.store := by
  unfold leaveHeldIfFree; try dsimp only
  (repeat' split) <;> simp
@[simp] theorem leaveHeldIfFree_ticks (p : Part) (i : Lane) : (leaveHeldIfFree p i).ticks = p.ticks := by
  unfold leaveHeldIfFree; try dsimp only
  (repeat' split) <;> simp
@[simp] theorem leaveHeldIfFree_freeDraws (p : Part) (i : Lane) : (leaveHeldIfFree p i).freeDraws = p.freeDraws := by
  unfold leaveHeldIfFree; try dsimp only
  (repeat' split) <;> simp

@[simp] theorem serveLane_floor (p : Part) (w : Waiter) : (serveLane p w).floor = p.floor := by
  unfold serveLane; try dsimp only
  (repeat' split) <;> simp
@[simp] theorem serveLane_window (p : Part) (w : Waiter) : (serveLane p w).window = p.window := by
  unfold serveLane; try dsimp only
  (repeat' split) <;> simp
@[simp] theorem serveLane_tracks (p : Part) (w : Waiter) : (serveLane p w).tracks = p.tracks := by
  unfold serveLane; try dsimp only
  (repeat' split) <;> simp
@[simp] theorem serveLane_press (p : Part) (w : Waiter) : (serveLane p w).press = p.press := by
  unfold serveLane; try dsimp only
  (repeat' split) <;> simp
@[simp] theorem serveLane_account (p : Part) (w : Waiter) : (serveLane p w).account = p.account := by
  unfold serveLane; try dsimp only
  (repeat' split) <;> simp
@[simp] theorem serveLane_store (p : Part) (w : Waiter) : (serveLane p w).store = p.store := by
  unfold serveLane; try dsimp only
  (repeat' split) <;> simp
@[simp] theorem serveLane_ticks (p : Part) (w : Waiter) : (serveLane p w).ticks = p.ticks := by
  unfold serveLane; try dsimp only
  (repeat' split) <;> simp
@[simp] theorem serveLane_freeDraws (p : Part) (w : Waiter) : (serveLane p w).freeDraws = p.freeDraws := by
  unfold serveLane; try dsimp only
  (repeat' split) <;> simp

@[simp] theorem serveWaiters_floor (p : Part) (n : Nat) : (serveWaiters n p).floor = p.floor := by
  induction n generalizing p with
  | zero => rfl
  | succ n ih => unfold serveWaiters; (repeat' split) <;> simp [ih]
@[simp] theorem serveWaiters_window (p : Part) (n : Nat) : (serveWaiters n p).window = p.window := by
  induction n generalizing p with
  | zero => rfl
  | succ n ih => unfold serveWaiters; (repeat' split) <;> simp [ih]
@[simp] theorem serveWaiters_tracks (p : Part) (n : Nat) : (serveWaiters n p).tracks = p.tracks := by
  induction n generalizing p with
  | zero => rfl
  | succ n ih => unfold serveWaiters; (repeat' split) <;> simp [ih]
@[simp] theorem serveWaiters_press (p : Part) (n : Nat) : (serveWaiters n p).press = p.press := by
  induction n generalizing p with
  | zero => rfl
  | succ n ih => unfold serveWaiters; (repeat' split) <;> simp [ih]
@[simp] theorem serveWaiters_account (p : Part) (n : Nat) : (serveWaiters n p).account = p.account := by
  induction n generalizing p with
  | zero => rfl
  | succ n ih => unfold serveWaiters; (repeat' split) <;> simp [ih]
@[simp] theorem serveWaiters_store (p : Part) (n : Nat) : (serveWaiters n p).store = p.store := by
  induction n generalizing p with
  | zero => rfl
  | succ n ih => unfold serveWaiters; (repeat' split) <;> simp [ih]
@[simp] theorem serveWaiters_ticks (p : Part) (n : Nat) : (serveWaiters n p).ticks = p.ticks := by
  induction n generalizing p with
  | zero => rfl
  | succ n ih => unfold serveWaiters; (repeat' split) <;> simp [ih]
@[simp] theorem serveWaiters_freeDraws (p : Part) (n : Nat) : (serveWaiters n p).freeDraws = p.freeDraws := by
  induction n generalizing p with
  | zero => rfl
  | succ n ih => unfold serveWaiters; (repeat' split) <;> simp [ih]

@[simp] theorem serveIfDue_floor (p : Part) (b : Part) : (serveIfDue b p).floor = p.floor := by
  unfold serveIfDue; try dsimp only
  (repeat' split) <;> simp
@[simp] theorem serveIfDue_window (p : Part) (b : Part) : (serveIfDue b p).window = p.window := by
  unfold serveIfDue; try dsimp only
  (repeat' split) <;> simp
@[simp] theorem serveIfDue_tracks (p : Part) (b : Part) : (serveIfDue b p).tracks = p.tracks := by
  unfold serveIfDue; try dsimp only
  (repeat' split) <;> simp
@[simp] theorem serveIfDue_press (p : Part) (b : Part) : (serveIfDue b p).press = p.press := by
  unfold serveIfDue; try dsimp only
  (repeat' split) <;> simp
@[simp] theorem serveIfDue_account (p : Part) (b : Part) : (serveIfDue b p).account = p.account := by
  unfold serveIfDue; try dsimp only
  (repeat' split) <;> simp
@[simp] theorem serveIfDue_store (p : Part) (b : Part) : (serveIfDue b p).store = p.store := by
  unfold serveIfDue; try dsimp only
  (repeat' split) <;> simp
@[simp] theorem serveIfDue_ticks (p : Part) (b : Part) : (serveIfDue b p).ticks = p.ticks := by
  unfold serveIfDue; try dsimp only
  (repeat' split) <;> simp
@[simp] theorem serveIfDue_freeDraws (p : Part) (b : Part) : (serveIfDue b p).freeDraws = p.freeDraws := by
  unfold serveIfDue; try dsimp only
  (repeat' split) <;> simp

@[simp] theorem settle_floor (p : Part) (b : Part) : (settle b p).floor = p.floor := by simp [settle]
@[simp] theorem settle_window (p : Part) (b : Part) : (settle b p).window = p.window := by simp [settle]
@[simp] theorem settle_tracks (p : Part) (b : Part) : (settle b p).tracks = p.tracks := by simp [settle]
@[simp] theorem settle_press (p : Part) (b : Part) : (settle b p).press = p.press := by simp [settle]
@[simp] theorem settle_account (p : Part) (b : Part) : (settle b p).account = p.account := by simp [settle]
@[simp] theorem settle_store (p : Part) (b : Part) : (settle b p).store = p.store := by simp [settle]
@[simp] theorem settle_ticks (p : Part) (b : Part) : (settle b p).ticks = p.ticks := by simp [settle]
@[simp] theorem settle_freeDraws (p : Part) (b : Part) : (settle b p).freeDraws = p.freeDraws := by simp [settle]

@[simp] theorem settleThreshold_floor (p : Part) (b : Part) : (settleThreshold b p).floor = p.floor := by simp [settleThreshold]
@[simp] theorem settleThreshold_window (p : Part) (b : Part) : (settleThreshold b p).window = p.window := by simp [settleThreshold]
@[simp] theorem settleThreshold_tracks (p : Part) (b : Part) : (settleThreshold b p).tracks = p.tracks := by simp [settleThreshold]
@[simp] theorem settleThreshold_press (p : Part) (b : Part) : (settleThreshold b p).press = p.press := by simp [settleThreshold]
@[simp] theorem settleThreshold_account (p : Part) (b : Part) : (settleThreshold b p).account = p.account := by simp [settleThreshold]
@[simp] theorem settleThreshold_store (p : Part) (b : Part) : (settleThreshold b p).store = p.store := by simp [settleThreshold]
@[simp] theorem settleThreshold_ticks (p : Part) (b : Part) : (settleThreshold b p).ticks = p.ticks := by simp [settleThreshold]
@[simp] theorem settleThreshold_freeDraws (p : Part) (b : Part) : (settleThreshold b p).freeDraws = p.freeDraws := by simp [settleThreshold]

@[simp] theorem closeLot_floor (p : Part) (i : Lane) : (closeLot p i).floor = p.floor := by
  unfold closeLot; try dsimp only
  (repeat' split) <;> simp
@[simp] theorem closeLot_window (p : Part) (i : Lane) : (closeLot p i).window = p.window := by
  unfold closeLot; try dsimp only
  (repeat' split) <;> simp
@[simp] theorem closeLot_tracks (p : Part) (i : Lane) : (closeLot p i).tracks = p.tracks := by
  unfold closeLot; try dsimp only
  (repeat' split) <;> simp
@[simp] theorem closeLot_press (p : Part) (i : Lane) : (closeLot p i).press = p.press := by
  unfold closeLot; try dsimp only
  (repeat' split) <;> simp
@[simp] theorem closeLot_account (p : Part) (i : Lane) : (closeLot p i).account = p.account := by
  unfold closeLot; try dsimp only
  (repeat' split) <;> simp
@[simp] theorem closeLot_displays (p : Part) (i : Lane) : (closeLot p i).displays = p.displays := by
  unfold closeLot; try dsimp only
  (repeat' split) <;> simp
@[simp] theorem closeLot_store (p : Part) (i : Lane) : (closeLot p i).store = p.store := by
  unfold closeLot; try dsimp only
  (repeat' split) <;> simp
@[simp] theorem closeLot_attention (p : Part) (i : Lane) : (closeLot p i).attention = p.attention := by
  unfold closeLot; try dsimp only
  (repeat' split) <;> simp
@[simp] theorem closeLot_ticks (p : Part) (i : Lane) : (closeLot p i).ticks = p.ticks := by
  unfold closeLot; try dsimp only
  (repeat' split) <;> simp
@[simp] theorem closeLot_freeDraws (p : Part) (i : Lane) : (closeLot p i).freeDraws = p.freeDraws := by
  unfold closeLot; try dsimp only
  (repeat' split) <;> simp

/-! ### Account -/

@[simp] theorem openInvoice_floor (p : Part) (k : Nat) : (openInvoice p k).floor = p.floor := by
  unfold openInvoice; try dsimp only
  (repeat' split) <;> simp
@[simp] theorem openInvoice_window (p : Part) (k : Nat) : (openInvoice p k).window = p.window := by
  unfold openInvoice; try dsimp only
  (repeat' split) <;> simp
@[simp] theorem openInvoice_catalogue (p : Part) (k : Nat) : (openInvoice p k).catalogue = p.catalogue := by
  unfold openInvoice; try dsimp only
  (repeat' split) <;> simp
@[simp] theorem openInvoice_tracks (p : Part) (k : Nat) : (openInvoice p k).tracks = p.tracks := by
  unfold openInvoice; try dsimp only
  (repeat' split) <;> simp
@[simp] theorem openInvoice_lanes (p : Part) (k : Nat) : (openInvoice p k).lanes = p.lanes := by
  unfold openInvoice; try dsimp only
  (repeat' split) <;> simp
@[simp] theorem openInvoice_press (p : Part) (k : Nat) : (openInvoice p k).press = p.press := by
  unfold openInvoice; try dsimp only
  (repeat' split) <;> simp
@[simp] theorem openInvoice_ring (p : Part) (k : Nat) : (openInvoice p k).ring = p.ring := by
  unfold openInvoice; try dsimp only
  (repeat' split) <;> simp
@[simp] theorem openInvoice_displays (p : Part) (k : Nat) : (openInvoice p k).displays = p.displays := by
  unfold openInvoice; try dsimp only
  (repeat' split) <;> simp
@[simp] theorem openInvoice_store (p : Part) (k : Nat) : (openInvoice p k).store = p.store := by
  unfold openInvoice; try dsimp only
  (repeat' split) <;> simp
@[simp] theorem openInvoice_attention (p : Part) (k : Nat) : (openInvoice p k).attention = p.attention := by
  unfold openInvoice; try dsimp only
  (repeat' split) <;> simp
@[simp] theorem openInvoice_ticks (p : Part) (k : Nat) : (openInvoice p k).ticks = p.ticks := by
  unfold openInvoice; try dsimp only
  (repeat' split) <;> simp
@[simp] theorem openInvoice_freeDraws (p : Part) (k : Nat) : (openInvoice p k).freeDraws = p.freeDraws := by
  unfold openInvoice; try dsimp only
  (repeat' split) <;> simp

@[simp] theorem closeInvoice_floor (p : Part) (k : Nat) : (closeInvoice p k).floor = p.floor := by simp [closeInvoice]
@[simp] theorem closeInvoice_window (p : Part) (k : Nat) : (closeInvoice p k).window = p.window := by simp [closeInvoice]
@[simp] theorem closeInvoice_catalogue (p : Part) (k : Nat) : (closeInvoice p k).catalogue = p.catalogue := by simp [closeInvoice]
@[simp] theorem closeInvoice_tracks (p : Part) (k : Nat) : (closeInvoice p k).tracks = p.tracks := by simp [closeInvoice]
@[simp] theorem closeInvoice_lanes (p : Part) (k : Nat) : (closeInvoice p k).lanes = p.lanes := by simp [closeInvoice]
@[simp] theorem closeInvoice_press (p : Part) (k : Nat) : (closeInvoice p k).press = p.press := by simp [closeInvoice]
@[simp] theorem closeInvoice_displays (p : Part) (k : Nat) : (closeInvoice p k).displays = p.displays := by simp [closeInvoice]
@[simp] theorem closeInvoice_store (p : Part) (k : Nat) : (closeInvoice p k).store = p.store := by simp [closeInvoice]
@[simp] theorem closeInvoice_ticks (p : Part) (k : Nat) : (closeInvoice p k).ticks = p.ticks := by simp [closeInvoice]
@[simp] theorem closeInvoice_freeDraws (p : Part) (k : Nat) : (closeInvoice p k).freeDraws = p.freeDraws := by simp [closeInvoice]

@[simp] theorem addLine_floor (p : Part) (k a : Nat) : (addLine p k a).floor = p.floor := by
  unfold addLine; try dsimp only
  (repeat' split) <;> simp
@[simp] theorem addLine_window (p : Part) (k a : Nat) : (addLine p k a).window = p.window := by
  unfold addLine; try dsimp only
  (repeat' split) <;> simp
@[simp] theorem addLine_catalogue (p : Part) (k a : Nat) : (addLine p k a).catalogue = p.catalogue := by
  unfold addLine; try dsimp only
  (repeat' split) <;> simp
@[simp] theorem addLine_tracks (p : Part) (k a : Nat) : (addLine p k a).tracks = p.tracks := by
  unfold addLine; try dsimp only
  (repeat' split) <;> simp
@[simp] theorem addLine_lanes (p : Part) (k a : Nat) : (addLine p k a).lanes = p.lanes := by
  unfold addLine; try dsimp only
  (repeat' split) <;> simp
@[simp] theorem addLine_press (p : Part) (k a : Nat) : (addLine p k a).press = p.press := by
  unfold addLine; try dsimp only
  (repeat' split) <;> simp
@[simp] theorem addLine_displays (p : Part) (k a : Nat) : (addLine p k a).displays = p.displays := by
  unfold addLine; try dsimp only
  (repeat' split) <;> simp
@[simp] theorem addLine_store (p : Part) (k a : Nat) : (addLine p k a).store = p.store := by
  unfold addLine; try dsimp only
  (repeat' split) <;> simp
@[simp] theorem addLine_ticks (p : Part) (k a : Nat) : (addLine p k a).ticks = p.ticks := by
  unfold addLine; try dsimp only
  (repeat' split) <;> simp
@[simp] theorem addLine_freeDraws (p : Part) (k a : Nat) : (addLine p k a).freeDraws = p.freeDraws := by
  unfold addLine; try dsimp only
  (repeat' split) <;> simp

@[simp] theorem chargeBuyer_floor (p : Part) (k a : Nat) : (chargeBuyer p k a).floor = p.floor := by simp [chargeBuyer]
@[simp] theorem chargeBuyer_window (p : Part) (k a : Nat) : (chargeBuyer p k a).window = p.window := by simp [chargeBuyer]
@[simp] theorem chargeBuyer_catalogue (p : Part) (k a : Nat) : (chargeBuyer p k a).catalogue = p.catalogue := by simp [chargeBuyer]
@[simp] theorem chargeBuyer_tracks (p : Part) (k a : Nat) : (chargeBuyer p k a).tracks = p.tracks := by simp [chargeBuyer]
@[simp] theorem chargeBuyer_lanes (p : Part) (k a : Nat) : (chargeBuyer p k a).lanes = p.lanes := by simp [chargeBuyer]
@[simp] theorem chargeBuyer_press (p : Part) (k a : Nat) : (chargeBuyer p k a).press = p.press := by simp [chargeBuyer]
@[simp] theorem chargeBuyer_ring (p : Part) (k a : Nat) : (chargeBuyer p k a).ring = p.ring := by simp [chargeBuyer]
@[simp] theorem chargeBuyer_displays (p : Part) (k a : Nat) : (chargeBuyer p k a).displays = p.displays := by simp [chargeBuyer]
@[simp] theorem chargeBuyer_store (p : Part) (k a : Nat) : (chargeBuyer p k a).store = p.store := by simp [chargeBuyer]
@[simp] theorem chargeBuyer_attention (p : Part) (k a : Nat) : (chargeBuyer p k a).attention = p.attention := by simp [chargeBuyer]
@[simp] theorem chargeBuyer_ticks (p : Part) (k a : Nat) : (chargeBuyer p k a).ticks = p.ticks := by simp [chargeBuyer]
@[simp] theorem chargeBuyer_freeDraws (p : Part) (k a : Nat) : (chargeBuyer p k a).freeDraws = p.freeDraws := by simp [chargeBuyer]

@[simp] theorem recordPurchase_floor (p : Part) (i : Lane) (c : Purchase) : (recordPurchase p i c).floor = p.floor := by simp [recordPurchase]
@[simp] theorem recordPurchase_window (p : Part) (i : Lane) (c : Purchase) : (recordPurchase p i c).window = p.window := by simp [recordPurchase]
@[simp] theorem recordPurchase_catalogue (p : Part) (i : Lane) (c : Purchase) : (recordPurchase p i c).catalogue = p.catalogue := by simp [recordPurchase]
@[simp] theorem recordPurchase_tracks (p : Part) (i : Lane) (c : Purchase) : (recordPurchase p i c).tracks = p.tracks := by simp [recordPurchase]
@[simp] theorem recordPurchase_press (p : Part) (i : Lane) (c : Purchase) : (recordPurchase p i c).press = p.press := by simp [recordPurchase]
@[simp] theorem recordPurchase_account (p : Part) (i : Lane) (c : Purchase) : (recordPurchase p i c).account = p.account := by simp [recordPurchase]
@[simp] theorem recordPurchase_store (p : Part) (i : Lane) (c : Purchase) : (recordPurchase p i c).store = p.store := by simp [recordPurchase]
@[simp] theorem recordPurchase_attention (p : Part) (i : Lane) (c : Purchase) : (recordPurchase p i c).attention = p.attention := by simp [recordPurchase]
@[simp] theorem recordPurchase_ticks (p : Part) (i : Lane) (c : Purchase) : (recordPurchase p i c).ticks = p.ticks := by simp [recordPurchase]
@[simp] theorem recordPurchase_freeDraws (p : Part) (i : Lane) (c : Purchase) : (recordPurchase p i c).freeDraws = p.freeDraws := by simp [recordPurchase]

@[simp] theorem makePurchase_floor (p : Part) (i : Lane) (c : Purchase) : (makePurchase p i c).floor = p.floor := by simp [makePurchase]
@[simp] theorem makePurchase_window (p : Part) (i : Lane) (c : Purchase) : (makePurchase p i c).window = p.window := by simp [makePurchase]
@[simp] theorem makePurchase_tracks (p : Part) (i : Lane) (c : Purchase) : (makePurchase p i c).tracks = p.tracks := by simp [makePurchase]
@[simp] theorem makePurchase_press (p : Part) (i : Lane) (c : Purchase) : (makePurchase p i c).press = p.press := by simp [makePurchase]
@[simp] theorem makePurchase_store (p : Part) (i : Lane) (c : Purchase) : (makePurchase p i c).store = p.store := by simp [makePurchase]
@[simp] theorem makePurchase_ticks (p : Part) (i : Lane) (c : Purchase) : (makePurchase p i c).ticks = p.ticks := by simp [makePurchase]
@[simp] theorem makePurchase_freeDraws (p : Part) (i : Lane) (c : Purchase) : (makePurchase p i c).freeDraws = p.freeDraws := by simp [makePurchase]

@[simp] theorem setPaymentResult_floor (p : Part) (o : WordResult) (a b : Nat) : (setPaymentResult p o a b).floor = p.floor := rfl
@[simp] theorem setPaymentResult_window (p : Part) (o : WordResult) (a b : Nat) : (setPaymentResult p o a b).window = p.window := rfl
@[simp] theorem setPaymentResult_catalogue (p : Part) (o : WordResult) (a b : Nat) : (setPaymentResult p o a b).catalogue = p.catalogue := rfl
@[simp] theorem setPaymentResult_tracks (p : Part) (o : WordResult) (a b : Nat) : (setPaymentResult p o a b).tracks = p.tracks := rfl
@[simp] theorem setPaymentResult_lanes (p : Part) (o : WordResult) (a b : Nat) : (setPaymentResult p o a b).lanes = p.lanes := rfl
@[simp] theorem setPaymentResult_press (p : Part) (o : WordResult) (a b : Nat) : (setPaymentResult p o a b).press = p.press := rfl
@[simp] theorem setPaymentResult_ring (p : Part) (o : WordResult) (a b : Nat) : (setPaymentResult p o a b).ring = p.ring := rfl
@[simp] theorem setPaymentResult_displays (p : Part) (o : WordResult) (a b : Nat) : (setPaymentResult p o a b).displays = p.displays := rfl
@[simp] theorem setPaymentResult_store (p : Part) (o : WordResult) (a b : Nat) : (setPaymentResult p o a b).store = p.store := rfl
@[simp] theorem setPaymentResult_attention (p : Part) (o : WordResult) (a b : Nat) : (setPaymentResult p o a b).attention = p.attention := rfl
@[simp] theorem setPaymentResult_ticks (p : Part) (o : WordResult) (a b : Nat) : (setPaymentResult p o a b).ticks = p.ticks := rfl
@[simp] theorem setPaymentResult_freeDraws (p : Part) (o : WordResult) (a b : Nat) : (setPaymentResult p o a b).freeDraws = p.freeDraws := rfl

@[simp] theorem applyPayment_floor (p : Part) (k a : Nat) : (applyPayment p k a).floor = p.floor := by
  unfold applyPayment; try dsimp only
  (repeat' split) <;> simp
@[simp] theorem applyPayment_window (p : Part) (k a : Nat) : (applyPayment p k a).window = p.window := by
  unfold applyPayment; try dsimp only
  (repeat' split) <;> simp
@[simp] theorem applyPayment_catalogue (p : Part) (k a : Nat) : (applyPayment p k a).catalogue = p.catalogue := by
  unfold applyPayment; try dsimp only
  (repeat' split) <;> simp
@[simp] theorem applyPayment_tracks (p : Part) (k a : Nat) : (applyPayment p k a).tracks = p.tracks := by
  unfold applyPayment; try dsimp only
  (repeat' split) <;> simp
@[simp] theorem applyPayment_lanes (p : Part) (k a : Nat) : (applyPayment p k a).lanes = p.lanes := by
  unfold applyPayment; try dsimp only
  (repeat' split) <;> simp
@[simp] theorem applyPayment_press (p : Part) (k a : Nat) : (applyPayment p k a).press = p.press := by
  unfold applyPayment; try dsimp only
  (repeat' split) <;> simp
@[simp] theorem applyPayment_displays (p : Part) (k a : Nat) : (applyPayment p k a).displays = p.displays := by
  unfold applyPayment; try dsimp only
  (repeat' split) <;> simp
@[simp] theorem applyPayment_store (p : Part) (k a : Nat) : (applyPayment p k a).store = p.store := by
  unfold applyPayment; try dsimp only
  (repeat' split) <;> simp
@[simp] theorem applyPayment_ticks (p : Part) (k a : Nat) : (applyPayment p k a).ticks = p.ticks := by
  unfold applyPayment; try dsimp only
  (repeat' split) <;> simp
@[simp] theorem applyPayment_freeDraws (p : Part) (k a : Nat) : (applyPayment p k a).freeDraws = p.freeDraws := by
  unfold applyPayment; try dsimp only
  (repeat' split) <;> simp

@[simp] theorem takePayment_floor (p : Part) (k a : Nat) : (takePayment p k a).floor = p.floor := by
  unfold takePayment; try dsimp only
  (repeat' split) <;> simp
@[simp] theorem takePayment_window (p : Part) (k a : Nat) : (takePayment p k a).window = p.window := by
  unfold takePayment; try dsimp only
  (repeat' split) <;> simp
@[simp] theorem takePayment_catalogue (p : Part) (k a : Nat) : (takePayment p k a).catalogue = p.catalogue := by
  unfold takePayment; try dsimp only
  (repeat' split) <;> simp
@[simp] theorem takePayment_tracks (p : Part) (k a : Nat) : (takePayment p k a).tracks = p.tracks := by
  unfold takePayment; try dsimp only
  (repeat' split) <;> simp
@[simp] theorem takePayment_lanes (p : Part) (k a : Nat) : (takePayment p k a).lanes = p.lanes := by
  unfold takePayment; try dsimp only
  (repeat' split) <;> simp
@[simp] theorem takePayment_press (p : Part) (k a : Nat) : (takePayment p k a).press = p.press := by
  unfold takePayment; try dsimp only
  (repeat' split) <;> simp
@[simp] theorem takePayment_displays (p : Part) (k a : Nat) : (takePayment p k a).displays = p.displays := by
  unfold takePayment; try dsimp only
  (repeat' split) <;> simp
@[simp] theorem takePayment_store (p : Part) (k a : Nat) : (takePayment p k a).store = p.store := by
  unfold takePayment; try dsimp only
  (repeat' split) <;> simp
@[simp] theorem takePayment_ticks (p : Part) (k a : Nat) : (takePayment p k a).ticks = p.ticks := by
  unfold takePayment; try dsimp only
  (repeat' split) <;> simp
@[simp] theorem takePayment_freeDraws (p : Part) (k a : Nat) : (takePayment p k a).freeDraws = p.freeDraws := by
  unfold takePayment; try dsimp only
  (repeat' split) <;> simp

@[simp] theorem setCloseResult_floor (p : Part) (r : InvoiceCloseResult) : (setCloseResult p r).floor = p.floor := rfl
@[simp] theorem setCloseResult_window (p : Part) (r : InvoiceCloseResult) : (setCloseResult p r).window = p.window := rfl
@[simp] theorem setCloseResult_catalogue (p : Part) (r : InvoiceCloseResult) : (setCloseResult p r).catalogue = p.catalogue := rfl
@[simp] theorem setCloseResult_tracks (p : Part) (r : InvoiceCloseResult) : (setCloseResult p r).tracks = p.tracks := rfl
@[simp] theorem setCloseResult_lanes (p : Part) (r : InvoiceCloseResult) : (setCloseResult p r).lanes = p.lanes := rfl
@[simp] theorem setCloseResult_press (p : Part) (r : InvoiceCloseResult) : (setCloseResult p r).press = p.press := rfl
@[simp] theorem setCloseResult_ring (p : Part) (r : InvoiceCloseResult) : (setCloseResult p r).ring = p.ring := rfl
@[simp] theorem setCloseResult_displays (p : Part) (r : InvoiceCloseResult) : (setCloseResult p r).displays = p.displays := rfl
@[simp] theorem setCloseResult_store (p : Part) (r : InvoiceCloseResult) : (setCloseResult p r).store = p.store := rfl
@[simp] theorem setCloseResult_attention (p : Part) (r : InvoiceCloseResult) : (setCloseResult p r).attention = p.attention := rfl
@[simp] theorem setCloseResult_ticks (p : Part) (r : InvoiceCloseResult) : (setCloseResult p r).ticks = p.ticks := rfl
@[simp] theorem setCloseResult_freeDraws (p : Part) (r : InvoiceCloseResult) : (setCloseResult p r).freeDraws = p.freeDraws := rfl

@[simp] theorem takeInvoiceClose_floor (p : Part) (k : Nat) : (takeInvoiceClose p k).floor = p.floor := by
  unfold takeInvoiceClose; try dsimp only
  (repeat' split) <;> simp
@[simp] theorem takeInvoiceClose_window (p : Part) (k : Nat) : (takeInvoiceClose p k).window = p.window := by
  unfold takeInvoiceClose; try dsimp only
  (repeat' split) <;> simp
@[simp] theorem takeInvoiceClose_catalogue (p : Part) (k : Nat) : (takeInvoiceClose p k).catalogue = p.catalogue := by
  unfold takeInvoiceClose; try dsimp only
  (repeat' split) <;> simp
@[simp] theorem takeInvoiceClose_tracks (p : Part) (k : Nat) : (takeInvoiceClose p k).tracks = p.tracks := by
  unfold takeInvoiceClose; try dsimp only
  (repeat' split) <;> simp
@[simp] theorem takeInvoiceClose_lanes (p : Part) (k : Nat) : (takeInvoiceClose p k).lanes = p.lanes := by
  unfold takeInvoiceClose; try dsimp only
  (repeat' split) <;> simp
@[simp] theorem takeInvoiceClose_press (p : Part) (k : Nat) : (takeInvoiceClose p k).press = p.press := by
  unfold takeInvoiceClose; try dsimp only
  (repeat' split) <;> simp
@[simp] theorem takeInvoiceClose_displays (p : Part) (k : Nat) : (takeInvoiceClose p k).displays = p.displays := by
  unfold takeInvoiceClose; try dsimp only
  (repeat' split) <;> simp
@[simp] theorem takeInvoiceClose_store (p : Part) (k : Nat) : (takeInvoiceClose p k).store = p.store := by
  unfold takeInvoiceClose; try dsimp only
  (repeat' split) <;> simp
@[simp] theorem takeInvoiceClose_ticks (p : Part) (k : Nat) : (takeInvoiceClose p k).ticks = p.ticks := by
  unfold takeInvoiceClose; try dsimp only
  (repeat' split) <;> simp
@[simp] theorem takeInvoiceClose_freeDraws (p : Part) (k : Nat) : (takeInvoiceClose p k).freeDraws = p.freeDraws := by
  unfold takeInvoiceClose; try dsimp only
  (repeat' split) <;> simp

@[simp] theorem closeAllInvoices_floor (p : Part) : (closeAllInvoices p).floor = p.floor := by
  unfold closeAllInvoices; exact foldl_keeps (fun q => q.floor) _ (by intros; simp) _ _
@[simp] theorem closeAllInvoices_window (p : Part) : (closeAllInvoices p).window = p.window := by
  unfold closeAllInvoices; exact foldl_keeps (fun q => q.window) _ (by intros; simp) _ _
@[simp] theorem closeAllInvoices_catalogue (p : Part) : (closeAllInvoices p).catalogue = p.catalogue := by
  unfold closeAllInvoices; exact foldl_keeps (fun q => q.catalogue) _ (by intros; simp) _ _
@[simp] theorem closeAllInvoices_tracks (p : Part) : (closeAllInvoices p).tracks = p.tracks := by
  unfold closeAllInvoices; exact foldl_keeps (fun q => q.tracks) _ (by intros; simp) _ _
@[simp] theorem closeAllInvoices_lanes (p : Part) : (closeAllInvoices p).lanes = p.lanes := by
  unfold closeAllInvoices; exact foldl_keeps (fun q => q.lanes) _ (by intros; simp) _ _
@[simp] theorem closeAllInvoices_press (p : Part) : (closeAllInvoices p).press = p.press := by
  unfold closeAllInvoices; exact foldl_keeps (fun q => q.press) _ (by intros; simp) _ _
@[simp] theorem closeAllInvoices_displays (p : Part) : (closeAllInvoices p).displays = p.displays := by
  unfold closeAllInvoices; exact foldl_keeps (fun q => q.displays) _ (by intros; simp) _ _
@[simp] theorem closeAllInvoices_store (p : Part) : (closeAllInvoices p).store = p.store := by
  unfold closeAllInvoices; exact foldl_keeps (fun q => q.store) _ (by intros; simp) _ _
@[simp] theorem closeAllInvoices_ticks (p : Part) : (closeAllInvoices p).ticks = p.ticks := by
  unfold closeAllInvoices; exact foldl_keeps (fun q => q.ticks) _ (by intros; simp) _ _
@[simp] theorem closeAllInvoices_freeDraws (p : Part) : (closeAllInvoices p).freeDraws = p.freeDraws := by
  unfold closeAllInvoices; exact foldl_keeps (fun q => q.freeDraws) _ (by intros; simp) _ _

/-! ### Press -/

@[simp] theorem reportToDesk_floor (p : Part) (k : Nat) (r : Report) : (reportToDesk p k r).floor = p.floor := rfl
@[simp] theorem reportToDesk_window (p : Part) (k : Nat) (r : Report) : (reportToDesk p k r).window = p.window := rfl
@[simp] theorem reportToDesk_catalogue (p : Part) (k : Nat) (r : Report) : (reportToDesk p k r).catalogue = p.catalogue := rfl
@[simp] theorem reportToDesk_tracks (p : Part) (k : Nat) (r : Report) : (reportToDesk p k r).tracks = p.tracks := rfl
@[simp] theorem reportToDesk_lanes (p : Part) (k : Nat) (r : Report) : (reportToDesk p k r).lanes = p.lanes := rfl
@[simp] theorem reportToDesk_account (p : Part) (k : Nat) (r : Report) : (reportToDesk p k r).account = p.account := rfl
@[simp] theorem reportToDesk_ring (p : Part) (k : Nat) (r : Report) : (reportToDesk p k r).ring = p.ring := rfl
@[simp] theorem reportToDesk_displays (p : Part) (k : Nat) (r : Report) : (reportToDesk p k r).displays = p.displays := rfl
@[simp] theorem reportToDesk_store (p : Part) (k : Nat) (r : Report) : (reportToDesk p k r).store = p.store := rfl
@[simp] theorem reportToDesk_attention (p : Part) (k : Nat) (r : Report) : (reportToDesk p k r).attention = p.attention := rfl
@[simp] theorem reportToDesk_ticks (p : Part) (k : Nat) (r : Report) : (reportToDesk p k r).ticks = p.ticks := rfl
@[simp] theorem reportToDesk_freeDraws (p : Part) (k : Nat) (r : Report) : (reportToDesk p k r).freeDraws = p.freeDraws := rfl

@[simp] theorem acceptSequence_floor (p : Part) (k : Nat) (q : Byte) : (acceptSequence p k q).floor = p.floor := rfl
@[simp] theorem acceptSequence_window (p : Part) (k : Nat) (q : Byte) : (acceptSequence p k q).window = p.window := rfl
@[simp] theorem acceptSequence_catalogue (p : Part) (k : Nat) (q : Byte) : (acceptSequence p k q).catalogue = p.catalogue := rfl
@[simp] theorem acceptSequence_tracks (p : Part) (k : Nat) (q : Byte) : (acceptSequence p k q).tracks = p.tracks := rfl
@[simp] theorem acceptSequence_lanes (p : Part) (k : Nat) (q : Byte) : (acceptSequence p k q).lanes = p.lanes := rfl
@[simp] theorem acceptSequence_account (p : Part) (k : Nat) (q : Byte) : (acceptSequence p k q).account = p.account := rfl
@[simp] theorem acceptSequence_ring (p : Part) (k : Nat) (q : Byte) : (acceptSequence p k q).ring = p.ring := rfl
@[simp] theorem acceptSequence_displays (p : Part) (k : Nat) (q : Byte) : (acceptSequence p k q).displays = p.displays := rfl
@[simp] theorem acceptSequence_store (p : Part) (k : Nat) (q : Byte) : (acceptSequence p k q).store = p.store := rfl
@[simp] theorem acceptSequence_attention (p : Part) (k : Nat) (q : Byte) : (acceptSequence p k q).attention = p.attention := rfl
@[simp] theorem acceptSequence_ticks (p : Part) (k : Nat) (q : Byte) : (acceptSequence p k q).ticks = p.ticks := rfl
@[simp] theorem acceptSequence_freeDraws (p : Part) (k : Nat) (q : Byte) : (acceptSequence p k q).freeDraws = p.freeDraws := rfl

@[simp] theorem refusePress_floor (p : Part) (c : PressIn) (r : PressReason) (u a : Nat) : (refusePress p c r u a).floor = p.floor := rfl
@[simp] theorem refusePress_window (p : Part) (c : PressIn) (r : PressReason) (u a : Nat) : (refusePress p c r u a).window = p.window := rfl
@[simp] theorem refusePress_catalogue (p : Part) (c : PressIn) (r : PressReason) (u a : Nat) : (refusePress p c r u a).catalogue = p.catalogue := rfl
@[simp] theorem refusePress_tracks (p : Part) (c : PressIn) (r : PressReason) (u a : Nat) : (refusePress p c r u a).tracks = p.tracks := rfl
@[simp] theorem refusePress_lanes (p : Part) (c : PressIn) (r : PressReason) (u a : Nat) : (refusePress p c r u a).lanes = p.lanes := rfl
@[simp] theorem refusePress_account (p : Part) (c : PressIn) (r : PressReason) (u a : Nat) : (refusePress p c r u a).account = p.account := rfl
@[simp] theorem refusePress_ring (p : Part) (c : PressIn) (r : PressReason) (u a : Nat) : (refusePress p c r u a).ring = p.ring := rfl
@[simp] theorem refusePress_displays (p : Part) (c : PressIn) (r : PressReason) (u a : Nat) : (refusePress p c r u a).displays = p.displays := rfl
@[simp] theorem refusePress_store (p : Part) (c : PressIn) (r : PressReason) (u a : Nat) : (refusePress p c r u a).store = p.store := rfl
@[simp] theorem refusePress_attention (p : Part) (c : PressIn) (r : PressReason) (u a : Nat) : (refusePress p c r u a).attention = p.attention := rfl
@[simp] theorem refusePress_ticks (p : Part) (c : PressIn) (r : PressReason) (u a : Nat) : (refusePress p c r u a).ticks = p.ticks := rfl
@[simp] theorem refusePress_freeDraws (p : Part) (c : PressIn) (r : PressReason) (u a : Nat) : (refusePress p c r u a).freeDraws = p.freeDraws := rfl

@[simp] theorem countDuplicate_floor (p : Part) (k : Nat) : (countDuplicate p k).floor = p.floor := rfl
@[simp] theorem countDuplicate_window (p : Part) (k : Nat) : (countDuplicate p k).window = p.window := rfl
@[simp] theorem countDuplicate_catalogue (p : Part) (k : Nat) : (countDuplicate p k).catalogue = p.catalogue := rfl
@[simp] theorem countDuplicate_tracks (p : Part) (k : Nat) : (countDuplicate p k).tracks = p.tracks := rfl
@[simp] theorem countDuplicate_lanes (p : Part) (k : Nat) : (countDuplicate p k).lanes = p.lanes := rfl
@[simp] theorem countDuplicate_account (p : Part) (k : Nat) : (countDuplicate p k).account = p.account := rfl
@[simp] theorem countDuplicate_ring (p : Part) (k : Nat) : (countDuplicate p k).ring = p.ring := rfl
@[simp] theorem countDuplicate_displays (p : Part) (k : Nat) : (countDuplicate p k).displays = p.displays := rfl
@[simp] theorem countDuplicate_store (p : Part) (k : Nat) : (countDuplicate p k).store = p.store := rfl
@[simp] theorem countDuplicate_attention (p : Part) (k : Nat) : (countDuplicate p k).attention = p.attention := rfl
@[simp] theorem countDuplicate_ticks (p : Part) (k : Nat) : (countDuplicate p k).ticks = p.ticks := rfl
@[simp] theorem countDuplicate_freeDraws (p : Part) (k : Nat) : (countDuplicate p k).freeDraws = p.freeDraws := rfl

@[simp] theorem strikeWith_floor (p : Part) (c : PressIn) (b lot : Nat) (h : HostFields) (u a : Nat) : (strikeWith p c b lot h u a).floor = p.floor := by simp [strikeWith]
@[simp] theorem strikeWith_window (p : Part) (c : PressIn) (b lot : Nat) (h : HostFields) (u a : Nat) : (strikeWith p c b lot h u a).window = p.window := by simp [strikeWith]
@[simp] theorem strikeWith_tracks (p : Part) (c : PressIn) (b lot : Nat) (h : HostFields) (u a : Nat) : (strikeWith p c b lot h u a).tracks = p.tracks := by simp [strikeWith]
@[simp] theorem strikeWith_store (p : Part) (c : PressIn) (b lot : Nat) (h : HostFields) (u a : Nat) : (strikeWith p c b lot h u a).store = p.store := by simp [strikeWith]
@[simp] theorem strikeWith_ticks (p : Part) (c : PressIn) (b lot : Nat) (h : HostFields) (u a : Nat) : (strikeWith p c b lot h u a).ticks = p.ticks := by simp [strikeWith]
@[simp] theorem strikeWith_freeDraws (p : Part) (c : PressIn) (b lot : Nat) (h : HostFields) (u a : Nat) : (strikeWith p c b lot h u a).freeDraws = p.freeDraws := by simp [strikeWith]

@[simp] theorem winnerPath_floor (p : Part) (c : PressIn) (b : Nat) : (winnerPath p c b).floor = p.floor := by
  unfold winnerPath; try dsimp only
  (repeat' split) <;> simp
@[simp] theorem winnerPath_window (p : Part) (c : PressIn) (b : Nat) : (winnerPath p c b).window = p.window := by
  unfold winnerPath; try dsimp only
  (repeat' split) <;> simp
@[simp] theorem winnerPath_tracks (p : Part) (c : PressIn) (b : Nat) : (winnerPath p c b).tracks = p.tracks := by
  unfold winnerPath; try dsimp only
  (repeat' split) <;> simp
@[simp] theorem winnerPath_store (p : Part) (c : PressIn) (b : Nat) : (winnerPath p c b).store = p.store := by
  unfold winnerPath; try dsimp only
  (repeat' split) <;> simp
@[simp] theorem winnerPath_ticks (p : Part) (c : PressIn) (b : Nat) : (winnerPath p c b).ticks = p.ticks := by
  unfold winnerPath; try dsimp only
  (repeat' split) <;> simp
@[simp] theorem winnerPath_freeDraws (p : Part) (c : PressIn) (b : Nat) : (winnerPath p c b).freeDraws = p.freeDraws := by
  unfold winnerPath; try dsimp only
  (repeat' split) <;> simp

@[simp] theorem contenderPath_floor (p : Part) (c : PressIn) (b : Nat) : (contenderPath p c b).floor = p.floor := by
  unfold contenderPath; try dsimp only
  (repeat' split) <;> simp
@[simp] theorem contenderPath_window (p : Part) (c : PressIn) (b : Nat) : (contenderPath p c b).window = p.window := by
  unfold contenderPath; try dsimp only
  (repeat' split) <;> simp
@[simp] theorem contenderPath_catalogue (p : Part) (c : PressIn) (b : Nat) : (contenderPath p c b).catalogue = p.catalogue := by
  unfold contenderPath; try dsimp only
  (repeat' split) <;> simp
@[simp] theorem contenderPath_tracks (p : Part) (c : PressIn) (b : Nat) : (contenderPath p c b).tracks = p.tracks := by
  unfold contenderPath; try dsimp only
  (repeat' split) <;> simp
@[simp] theorem contenderPath_account (p : Part) (c : PressIn) (b : Nat) : (contenderPath p c b).account = p.account := by
  unfold contenderPath; try dsimp only
  (repeat' split) <;> simp
@[simp] theorem contenderPath_ring (p : Part) (c : PressIn) (b : Nat) : (contenderPath p c b).ring = p.ring := by
  unfold contenderPath; try dsimp only
  (repeat' split) <;> simp
@[simp] theorem contenderPath_displays (p : Part) (c : PressIn) (b : Nat) : (contenderPath p c b).displays = p.displays := by
  unfold contenderPath; try dsimp only
  (repeat' split) <;> simp
@[simp] theorem contenderPath_store (p : Part) (c : PressIn) (b : Nat) : (contenderPath p c b).store = p.store := by
  unfold contenderPath; try dsimp only
  (repeat' split) <;> simp
@[simp] theorem contenderPath_attention (p : Part) (c : PressIn) (b : Nat) : (contenderPath p c b).attention = p.attention := by
  unfold contenderPath; try dsimp only
  (repeat' split) <;> simp
@[simp] theorem contenderPath_ticks (p : Part) (c : PressIn) (b : Nat) : (contenderPath p c b).ticks = p.ticks := by
  unfold contenderPath; try dsimp only
  (repeat' split) <;> simp
@[simp] theorem contenderPath_freeDraws (p : Part) (c : PressIn) (b : Nat) : (contenderPath p c b).freeDraws = p.freeDraws := by
  unfold contenderPath; try dsimp only
  (repeat' split) <;> simp

@[simp] theorem pressByState_floor (p : Part) (c : PressIn) (b : Nat) : (pressByState p c b).floor = p.floor := by
  unfold pressByState; try dsimp only
  (repeat' split) <;> simp
@[simp] theorem pressByState_window (p : Part) (c : PressIn) (b : Nat) : (pressByState p c b).window = p.window := by
  unfold pressByState; try dsimp only
  (repeat' split) <;> simp
@[simp] theorem pressByState_tracks (p : Part) (c : PressIn) (b : Nat) : (pressByState p c b).tracks = p.tracks := by
  unfold pressByState; try dsimp only
  (repeat' split) <;> simp
@[simp] theorem pressByState_store (p : Part) (c : PressIn) (b : Nat) : (pressByState p c b).store = p.store := by
  unfold pressByState; try dsimp only
  (repeat' split) <;> simp
@[simp] theorem pressByState_ticks (p : Part) (c : PressIn) (b : Nat) : (pressByState p c b).ticks = p.ticks := by
  unfold pressByState; try dsimp only
  (repeat' split) <;> simp
@[simp] theorem pressByState_freeDraws (p : Part) (c : PressIn) (b : Nat) : (pressByState p c b).freeDraws = p.freeDraws := by
  unfold pressByState; try dsimp only
  (repeat' split) <;> simp

@[simp] theorem judgePress_floor (p : Part) (c : PressIn) : (judgePress p c).floor = p.floor := by
  unfold judgePress; try dsimp only
  (repeat' split) <;> simp
@[simp] theorem judgePress_window (p : Part) (c : PressIn) : (judgePress p c).window = p.window := by
  unfold judgePress; try dsimp only
  (repeat' split) <;> simp
@[simp] theorem judgePress_tracks (p : Part) (c : PressIn) : (judgePress p c).tracks = p.tracks := by
  unfold judgePress; try dsimp only
  (repeat' split) <;> simp
@[simp] theorem judgePress_store (p : Part) (c : PressIn) : (judgePress p c).store = p.store := by
  unfold judgePress; try dsimp only
  (repeat' split) <;> simp
@[simp] theorem judgePress_ticks (p : Part) (c : PressIn) : (judgePress p c).ticks = p.ticks := by
  unfold judgePress; try dsimp only
  (repeat' split) <;> simp
@[simp] theorem judgePress_freeDraws (p : Part) (c : PressIn) : (judgePress p c).freeDraws = p.freeDraws := by
  unfold judgePress; try dsimp only
  (repeat' split) <;> simp

@[simp] theorem takePress_floor (p : Part) (c : PressIn) : (takePress p c).floor = p.floor := by simp [takePress]
@[simp] theorem takePress_window (p : Part) (c : PressIn) : (takePress p c).window = p.window := by simp [takePress]
@[simp] theorem takePress_tracks (p : Part) (c : PressIn) : (takePress p c).tracks = p.tracks := by simp [takePress]
@[simp] theorem takePress_store (p : Part) (c : PressIn) : (takePress p c).store = p.store := by simp [takePress]
@[simp] theorem takePress_ticks (p : Part) (c : PressIn) : (takePress p c).ticks = p.ticks := by simp [takePress]
@[simp] theorem takePress_freeDraws (p : Part) (c : PressIn) : (takePress p c).freeDraws = p.freeDraws := by simp [takePress]

@[simp] theorem reportService_floor (p : Part) (i : Lane) (e : Contender) (n : Nat) (o : ReplyOutcome) (r : PressReason) (u a : Nat) : (reportService p i e n o r u a).floor = p.floor := rfl
@[simp] theorem reportService_window (p : Part) (i : Lane) (e : Contender) (n : Nat) (o : ReplyOutcome) (r : PressReason) (u a : Nat) : (reportService p i e n o r u a).window = p.window := rfl
@[simp] theorem reportService_catalogue (p : Part) (i : Lane) (e : Contender) (n : Nat) (o : ReplyOutcome) (r : PressReason) (u a : Nat) : (reportService p i e n o r u a).catalogue = p.catalogue := rfl
@[simp] theorem reportService_tracks (p : Part) (i : Lane) (e : Contender) (n : Nat) (o : ReplyOutcome) (r : PressReason) (u a : Nat) : (reportService p i e n o r u a).tracks = p.tracks := rfl
@[simp] theorem reportService_lanes (p : Part) (i : Lane) (e : Contender) (n : Nat) (o : ReplyOutcome) (r : PressReason) (u a : Nat) : (reportService p i e n o r u a).lanes = p.lanes := rfl
@[simp] theorem reportService_account (p : Part) (i : Lane) (e : Contender) (n : Nat) (o : ReplyOutcome) (r : PressReason) (u a : Nat) : (reportService p i e n o r u a).account = p.account := rfl
@[simp] theorem reportService_ring (p : Part) (i : Lane) (e : Contender) (n : Nat) (o : ReplyOutcome) (r : PressReason) (u a : Nat) : (reportService p i e n o r u a).ring = p.ring := rfl
@[simp] theorem reportService_displays (p : Part) (i : Lane) (e : Contender) (n : Nat) (o : ReplyOutcome) (r : PressReason) (u a : Nat) : (reportService p i e n o r u a).displays = p.displays := rfl
@[simp] theorem reportService_store (p : Part) (i : Lane) (e : Contender) (n : Nat) (o : ReplyOutcome) (r : PressReason) (u a : Nat) : (reportService p i e n o r u a).store = p.store := rfl
@[simp] theorem reportService_attention (p : Part) (i : Lane) (e : Contender) (n : Nat) (o : ReplyOutcome) (r : PressReason) (u a : Nat) : (reportService p i e n o r u a).attention = p.attention := rfl
@[simp] theorem reportService_ticks (p : Part) (i : Lane) (e : Contender) (n : Nat) (o : ReplyOutcome) (r : PressReason) (u a : Nat) : (reportService p i e n o r u a).ticks = p.ticks := rfl
@[simp] theorem reportService_freeDraws (p : Part) (i : Lane) (e : Contender) (n : Nat) (o : ReplyOutcome) (r : PressReason) (u a : Nat) : (reportService p i e n o r u a).freeDraws = p.freeDraws := rfl

@[simp] theorem serveContender_floor (p : Part) (i : Lane) (n : Nat) (e : Contender) : (serveContender p i n e).floor = p.floor := by
  unfold serveContender; try dsimp only
  (repeat' split) <;> simp
@[simp] theorem serveContender_window (p : Part) (i : Lane) (n : Nat) (e : Contender) : (serveContender p i n e).window = p.window := by
  unfold serveContender; try dsimp only
  (repeat' split) <;> simp
@[simp] theorem serveContender_tracks (p : Part) (i : Lane) (n : Nat) (e : Contender) : (serveContender p i n e).tracks = p.tracks := by
  unfold serveContender; try dsimp only
  (repeat' split) <;> simp
@[simp] theorem serveContender_store (p : Part) (i : Lane) (n : Nat) (e : Contender) : (serveContender p i n e).store = p.store := by
  unfold serveContender; try dsimp only
  (repeat' split) <;> simp
@[simp] theorem serveContender_ticks (p : Part) (i : Lane) (n : Nat) (e : Contender) : (serveContender p i n e).ticks = p.ticks := by
  unfold serveContender; try dsimp only
  (repeat' split) <;> simp
@[simp] theorem serveContender_freeDraws (p : Part) (i : Lane) (n : Nat) (e : Contender) : (serveContender p i n e).freeDraws = p.freeDraws := by
  unfold serveContender; try dsimp only
  (repeat' split) <;> simp

@[simp] theorem serveContenders_floor (p : Part) (i : Lane) (n : Nat) (es : List Contender) : (serveContenders i n es p).floor = p.floor := by
  induction es generalizing n p with
  | nil => rfl
  | cons e es ih => simp [serveContenders, ih]
@[simp] theorem serveContenders_window (p : Part) (i : Lane) (n : Nat) (es : List Contender) : (serveContenders i n es p).window = p.window := by
  induction es generalizing n p with
  | nil => rfl
  | cons e es ih => simp [serveContenders, ih]
@[simp] theorem serveContenders_tracks (p : Part) (i : Lane) (n : Nat) (es : List Contender) : (serveContenders i n es p).tracks = p.tracks := by
  induction es generalizing n p with
  | nil => rfl
  | cons e es ih => simp [serveContenders, ih]
@[simp] theorem serveContenders_store (p : Part) (i : Lane) (n : Nat) (es : List Contender) : (serveContenders i n es p).store = p.store := by
  induction es generalizing n p with
  | nil => rfl
  | cons e es ih => simp [serveContenders, ih]
@[simp] theorem serveContenders_ticks (p : Part) (i : Lane) (n : Nat) (es : List Contender) : (serveContenders i n es p).ticks = p.ticks := by
  induction es generalizing n p with
  | nil => rfl
  | cons e es ih => simp [serveContenders, ih]
@[simp] theorem serveContenders_freeDraws (p : Part) (i : Lane) (n : Nat) (es : List Contender) : (serveContenders i n es p).freeDraws = p.freeDraws := by
  induction es generalizing n p with
  | nil => rfl
  | cons e es ih => simp [serveContenders, ih]

@[simp] theorem setNextRound_floor (p : Part) (i : Lane) : (setNextRound p i).floor = p.floor := by
  unfold setNextRound; try dsimp only
  (repeat' split) <;> simp
@[simp] theorem setNextRound_window (p : Part) (i : Lane) : (setNextRound p i).window = p.window := by
  unfold setNextRound; try dsimp only
  (repeat' split) <;> simp
@[simp] theorem setNextRound_catalogue (p : Part) (i : Lane) : (setNextRound p i).catalogue = p.catalogue := by
  unfold setNextRound; try dsimp only
  (repeat' split) <;> simp
@[simp] theorem setNextRound_tracks (p : Part) (i : Lane) : (setNextRound p i).tracks = p.tracks := by
  unfold setNextRound; try dsimp only
  (repeat' split) <;> simp
@[simp] theorem setNextRound_press (p : Part) (i : Lane) : (setNextRound p i).press = p.press := by
  unfold setNextRound; try dsimp only
  (repeat' split) <;> simp
@[simp] theorem setNextRound_account (p : Part) (i : Lane) : (setNextRound p i).account = p.account := by
  unfold setNextRound; try dsimp only
  (repeat' split) <;> simp
@[simp] theorem setNextRound_ring (p : Part) (i : Lane) : (setNextRound p i).ring = p.ring := by
  unfold setNextRound; try dsimp only
  (repeat' split) <;> simp
@[simp] theorem setNextRound_displays (p : Part) (i : Lane) : (setNextRound p i).displays = p.displays := by
  unfold setNextRound; try dsimp only
  (repeat' split) <;> simp
@[simp] theorem setNextRound_store (p : Part) (i : Lane) : (setNextRound p i).store = p.store := by
  unfold setNextRound; try dsimp only
  (repeat' split) <;> simp
@[simp] theorem setNextRound_attention (p : Part) (i : Lane) : (setNextRound p i).attention = p.attention := by
  unfold setNextRound; try dsimp only
  (repeat' split) <;> simp
@[simp] theorem setNextRound_ticks (p : Part) (i : Lane) : (setNextRound p i).ticks = p.ticks := by
  unfold setNextRound; try dsimp only
  (repeat' split) <;> simp
@[simp] theorem setNextRound_freeDraws (p : Part) (i : Lane) : (setNextRound p i).freeDraws = p.freeDraws := by
  unfold setNextRound; try dsimp only
  (repeat' split) <;> simp

@[simp] theorem afterService_floor (p : Part) (i : Lane) : (afterService p i).floor = p.floor := by
  unfold afterService; try dsimp only
  (repeat' split) <;> simp
@[simp] theorem afterService_window (p : Part) (i : Lane) : (afterService p i).window = p.window := by
  unfold afterService; try dsimp only
  (repeat' split) <;> simp
@[simp] theorem afterService_tracks (p : Part) (i : Lane) : (afterService p i).tracks = p.tracks := by
  unfold afterService; try dsimp only
  (repeat' split) <;> simp
@[simp] theorem afterService_press (p : Part) (i : Lane) : (afterService p i).press = p.press := by
  unfold afterService; try dsimp only
  (repeat' split) <;> simp
@[simp] theorem afterService_account (p : Part) (i : Lane) : (afterService p i).account = p.account := by
  unfold afterService; try dsimp only
  (repeat' split) <;> simp
@[simp] theorem afterService_displays (p : Part) (i : Lane) : (afterService p i).displays = p.displays := by
  unfold afterService; try dsimp only
  (repeat' split) <;> simp
@[simp] theorem afterService_store (p : Part) (i : Lane) : (afterService p i).store = p.store := by
  unfold afterService; try dsimp only
  (repeat' split) <;> simp
@[simp] theorem afterService_attention (p : Part) (i : Lane) : (afterService p i).attention = p.attention := by
  unfold afterService; try dsimp only
  (repeat' split) <;> simp
@[simp] theorem afterService_ticks (p : Part) (i : Lane) : (afterService p i).ticks = p.ticks := by
  unfold afterService; try dsimp only
  (repeat' split) <;> simp
@[simp] theorem afterService_freeDraws (p : Part) (i : Lane) : (afterService p i).freeDraws = p.freeDraws := by
  unfold afterService; try dsimp only
  (repeat' split) <;> simp

@[simp] theorem contenderExpiry_floor (p : Part) (i : Lane) : (contenderExpiry p i).floor = p.floor := by simp [contenderExpiry]
@[simp] theorem contenderExpiry_window (p : Part) (i : Lane) : (contenderExpiry p i).window = p.window := by simp [contenderExpiry]
@[simp] theorem contenderExpiry_tracks (p : Part) (i : Lane) : (contenderExpiry p i).tracks = p.tracks := by simp [contenderExpiry]
@[simp] theorem contenderExpiry_store (p : Part) (i : Lane) : (contenderExpiry p i).store = p.store := by simp [contenderExpiry]
@[simp] theorem contenderExpiry_ticks (p : Part) (i : Lane) : (contenderExpiry p i).ticks = p.ticks := by simp [contenderExpiry]
@[simp] theorem contenderExpiry_freeDraws (p : Part) (i : Lane) : (contenderExpiry p i).freeDraws = p.freeDraws := by simp [contenderExpiry]

/-! ### Catalogue -/

@[simp] theorem noteRefusal_floor (p : Part) (lot : Nat) (r : RefusalReason) : (noteRefusal p lot r).floor = p.floor := rfl
@[simp] theorem noteRefusal_window (p : Part) (lot : Nat) (r : RefusalReason) : (noteRefusal p lot r).window = p.window := rfl
@[simp] theorem noteRefusal_tracks (p : Part) (lot : Nat) (r : RefusalReason) : (noteRefusal p lot r).tracks = p.tracks := rfl
@[simp] theorem noteRefusal_lanes (p : Part) (lot : Nat) (r : RefusalReason) : (noteRefusal p lot r).lanes = p.lanes := rfl
@[simp] theorem noteRefusal_press (p : Part) (lot : Nat) (r : RefusalReason) : (noteRefusal p lot r).press = p.press := rfl
@[simp] theorem noteRefusal_account (p : Part) (lot : Nat) (r : RefusalReason) : (noteRefusal p lot r).account = p.account := rfl
@[simp] theorem noteRefusal_ring (p : Part) (lot : Nat) (r : RefusalReason) : (noteRefusal p lot r).ring = p.ring := rfl
@[simp] theorem noteRefusal_displays (p : Part) (lot : Nat) (r : RefusalReason) : (noteRefusal p lot r).displays = p.displays := rfl
@[simp] theorem noteRefusal_store (p : Part) (lot : Nat) (r : RefusalReason) : (noteRefusal p lot r).store = p.store := rfl
@[simp] theorem noteRefusal_ticks (p : Part) (lot : Nat) (r : RefusalReason) : (noteRefusal p lot r).ticks = p.ticks := rfl
@[simp] theorem noteRefusal_freeDraws (p : Part) (lot : Nat) (r : RefusalReason) : (noteRefusal p lot r).freeDraws = p.freeDraws := rfl

@[simp] theorem refuseListing_floor (p : Part) (lot : Nat) (r : RefusalReason) : (refuseListing p lot r).floor = p.floor := by simp [refuseListing]
@[simp] theorem refuseListing_window (p : Part) (lot : Nat) (r : RefusalReason) : (refuseListing p lot r).window = p.window := by simp [refuseListing]
@[simp] theorem refuseListing_tracks (p : Part) (lot : Nat) (r : RefusalReason) : (refuseListing p lot r).tracks = p.tracks := by simp [refuseListing]
@[simp] theorem refuseListing_lanes (p : Part) (lot : Nat) (r : RefusalReason) : (refuseListing p lot r).lanes = p.lanes := by simp [refuseListing]
@[simp] theorem refuseListing_press (p : Part) (lot : Nat) (r : RefusalReason) : (refuseListing p lot r).press = p.press := by simp [refuseListing]
@[simp] theorem refuseListing_account (p : Part) (lot : Nat) (r : RefusalReason) : (refuseListing p lot r).account = p.account := by simp [refuseListing]
@[simp] theorem refuseListing_ring (p : Part) (lot : Nat) (r : RefusalReason) : (refuseListing p lot r).ring = p.ring := by simp [refuseListing]
@[simp] theorem refuseListing_displays (p : Part) (lot : Nat) (r : RefusalReason) : (refuseListing p lot r).displays = p.displays := by simp [refuseListing]
@[simp] theorem refuseListing_store (p : Part) (lot : Nat) (r : RefusalReason) : (refuseListing p lot r).store = p.store := by simp [refuseListing]
@[simp] theorem refuseListing_ticks (p : Part) (lot : Nat) (r : RefusalReason) : (refuseListing p lot r).ticks = p.ticks := by simp [refuseListing]
@[simp] theorem refuseListing_freeDraws (p : Part) (lot : Nat) (r : RefusalReason) : (refuseListing p lot r).freeDraws = p.freeDraws := by simp [refuseListing]

@[simp] theorem takeList_floor (p : Part) (lot : Nat) (a : Address) : (takeList p lot a).floor = p.floor := by
  unfold takeList; try dsimp only
  (repeat' split) <;> simp
@[simp] theorem takeList_window (p : Part) (lot : Nat) (a : Address) : (takeList p lot a).window = p.window := by
  unfold takeList; try dsimp only
  (repeat' split) <;> simp
@[simp] theorem takeList_tracks (p : Part) (lot : Nat) (a : Address) : (takeList p lot a).tracks = p.tracks := by
  unfold takeList; try dsimp only
  (repeat' split) <;> simp
@[simp] theorem takeList_lanes (p : Part) (lot : Nat) (a : Address) : (takeList p lot a).lanes = p.lanes := by
  unfold takeList; try dsimp only
  (repeat' split) <;> simp
@[simp] theorem takeList_press (p : Part) (lot : Nat) (a : Address) : (takeList p lot a).press = p.press := by
  unfold takeList; try dsimp only
  (repeat' split) <;> simp
@[simp] theorem takeList_account (p : Part) (lot : Nat) (a : Address) : (takeList p lot a).account = p.account := by
  unfold takeList; try dsimp only
  (repeat' split) <;> simp
@[simp] theorem takeList_ring (p : Part) (lot : Nat) (a : Address) : (takeList p lot a).ring = p.ring := by
  unfold takeList; try dsimp only
  (repeat' split) <;> simp
@[simp] theorem takeList_displays (p : Part) (lot : Nat) (a : Address) : (takeList p lot a).displays = p.displays := by
  unfold takeList; try dsimp only
  (repeat' split) <;> simp
@[simp] theorem takeList_store (p : Part) (lot : Nat) (a : Address) : (takeList p lot a).store = p.store := by
  unfold takeList; try dsimp only
  (repeat' split) <;> simp
@[simp] theorem takeList_ticks (p : Part) (lot : Nat) (a : Address) : (takeList p lot a).ticks = p.ticks := by
  unfold takeList; try dsimp only
  (repeat' split) <;> simp
@[simp] theorem takeList_freeDraws (p : Part) (lot : Nat) (a : Address) : (takeList p lot a).freeDraws = p.freeDraws := by
  unfold takeList; try dsimp only
  (repeat' split) <;> simp

@[simp] theorem markWithdraw_floor (p : Part) (lot : Nat) : (markWithdraw p lot).floor = p.floor := rfl
@[simp] theorem markWithdraw_window (p : Part) (lot : Nat) : (markWithdraw p lot).window = p.window := rfl
@[simp] theorem markWithdraw_tracks (p : Part) (lot : Nat) : (markWithdraw p lot).tracks = p.tracks := rfl
@[simp] theorem markWithdraw_lanes (p : Part) (lot : Nat) : (markWithdraw p lot).lanes = p.lanes := rfl
@[simp] theorem markWithdraw_press (p : Part) (lot : Nat) : (markWithdraw p lot).press = p.press := rfl
@[simp] theorem markWithdraw_account (p : Part) (lot : Nat) : (markWithdraw p lot).account = p.account := rfl
@[simp] theorem markWithdraw_ring (p : Part) (lot : Nat) : (markWithdraw p lot).ring = p.ring := rfl
@[simp] theorem markWithdraw_displays (p : Part) (lot : Nat) : (markWithdraw p lot).displays = p.displays := rfl
@[simp] theorem markWithdraw_store (p : Part) (lot : Nat) : (markWithdraw p lot).store = p.store := rfl
@[simp] theorem markWithdraw_attention (p : Part) (lot : Nat) : (markWithdraw p lot).attention = p.attention := rfl
@[simp] theorem markWithdraw_ticks (p : Part) (lot : Nat) : (markWithdraw p lot).ticks = p.ticks := rfl
@[simp] theorem markWithdraw_freeDraws (p : Part) (lot : Nat) : (markWithdraw p lot).freeDraws = p.freeDraws := rfl

@[simp] theorem notifyLot_floor (p : Part) (lot : Nat) : (notifyLot p lot).floor = p.floor := by
  unfold notifyLot; try dsimp only
  (repeat' split) <;> simp
@[simp] theorem notifyLot_window (p : Part) (lot : Nat) : (notifyLot p lot).window = p.window := by
  unfold notifyLot; try dsimp only
  (repeat' split) <;> simp
@[simp] theorem notifyLot_catalogue (p : Part) (lot : Nat) : (notifyLot p lot).catalogue = p.catalogue := by
  unfold notifyLot; try dsimp only
  (repeat' split) <;> simp
@[simp] theorem notifyLot_tracks (p : Part) (lot : Nat) : (notifyLot p lot).tracks = p.tracks := by
  unfold notifyLot; try dsimp only
  (repeat' split) <;> simp
@[simp] theorem notifyLot_lanes (p : Part) (lot : Nat) : (notifyLot p lot).lanes = p.lanes := by
  unfold notifyLot; try dsimp only
  (repeat' split) <;> simp
@[simp] theorem notifyLot_press (p : Part) (lot : Nat) : (notifyLot p lot).press = p.press := by
  unfold notifyLot; try dsimp only
  (repeat' split) <;> simp
@[simp] theorem notifyLot_account (p : Part) (lot : Nat) : (notifyLot p lot).account = p.account := by
  unfold notifyLot; try dsimp only
  (repeat' split) <;> simp
@[simp] theorem notifyLot_ring (p : Part) (lot : Nat) : (notifyLot p lot).ring = p.ring := by
  unfold notifyLot; try dsimp only
  (repeat' split) <;> simp
@[simp] theorem notifyLot_store (p : Part) (lot : Nat) : (notifyLot p lot).store = p.store := by
  unfold notifyLot; try dsimp only
  (repeat' split) <;> simp
@[simp] theorem notifyLot_attention (p : Part) (lot : Nat) : (notifyLot p lot).attention = p.attention := by
  unfold notifyLot; try dsimp only
  (repeat' split) <;> simp
@[simp] theorem notifyLot_ticks (p : Part) (lot : Nat) : (notifyLot p lot).ticks = p.ticks := by
  unfold notifyLot; try dsimp only
  (repeat' split) <;> simp
@[simp] theorem notifyLot_freeDraws (p : Part) (lot : Nat) : (notifyLot p lot).freeDraws = p.freeDraws := by
  unfold notifyLot; try dsimp only
  (repeat' split) <;> simp

@[simp] theorem takeWithdraw_floor (p : Part) (lot : Nat) : (takeWithdraw p lot).floor = p.floor := by
  unfold takeWithdraw; try dsimp only
  (repeat' split) <;> simp
@[simp] theorem takeWithdraw_window (p : Part) (lot : Nat) : (takeWithdraw p lot).window = p.window := by
  unfold takeWithdraw; try dsimp only
  (repeat' split) <;> simp
@[simp] theorem takeWithdraw_tracks (p : Part) (lot : Nat) : (takeWithdraw p lot).tracks = p.tracks := by
  unfold takeWithdraw; try dsimp only
  (repeat' split) <;> simp
@[simp] theorem takeWithdraw_lanes (p : Part) (lot : Nat) : (takeWithdraw p lot).lanes = p.lanes := by
  unfold takeWithdraw; try dsimp only
  (repeat' split) <;> simp
@[simp] theorem takeWithdraw_press (p : Part) (lot : Nat) : (takeWithdraw p lot).press = p.press := by
  unfold takeWithdraw; try dsimp only
  (repeat' split) <;> simp
@[simp] theorem takeWithdraw_account (p : Part) (lot : Nat) : (takeWithdraw p lot).account = p.account := by
  unfold takeWithdraw; try dsimp only
  (repeat' split) <;> simp
@[simp] theorem takeWithdraw_ring (p : Part) (lot : Nat) : (takeWithdraw p lot).ring = p.ring := by
  unfold takeWithdraw; try dsimp only
  (repeat' split) <;> simp
@[simp] theorem takeWithdraw_store (p : Part) (lot : Nat) : (takeWithdraw p lot).store = p.store := by
  unfold takeWithdraw; try dsimp only
  (repeat' split) <;> simp
@[simp] theorem takeWithdraw_attention (p : Part) (lot : Nat) : (takeWithdraw p lot).attention = p.attention := by
  unfold takeWithdraw; try dsimp only
  (repeat' split) <;> simp
@[simp] theorem takeWithdraw_ticks (p : Part) (lot : Nat) : (takeWithdraw p lot).ticks = p.ticks := by
  unfold takeWithdraw; try dsimp only
  (repeat' split) <;> simp
@[simp] theorem takeWithdraw_freeDraws (p : Part) (lot : Nat) : (takeWithdraw p lot).freeDraws = p.freeDraws := by
  unfold takeWithdraw; try dsimp only
  (repeat' split) <;> simp

@[simp] theorem placeLot_floor (p : Part) (i : Lane) (lot : Nat) (h : HostFields) : (placeLot p i lot h).floor = p.floor := by simp [placeLot]
@[simp] theorem placeLot_window (p : Part) (i : Lane) (lot : Nat) (h : HostFields) : (placeLot p i lot h).window = p.window := by simp [placeLot]
@[simp] theorem placeLot_tracks (p : Part) (i : Lane) (lot : Nat) (h : HostFields) : (placeLot p i lot h).tracks = p.tracks := by simp [placeLot]
@[simp] theorem placeLot_lanes (p : Part) (i : Lane) (lot : Nat) (h : HostFields) : (placeLot p i lot h).lanes = p.lanes := by simp [placeLot]
@[simp] theorem placeLot_press (p : Part) (i : Lane) (lot : Nat) (h : HostFields) : (placeLot p i lot h).press = p.press := by simp [placeLot]
@[simp] theorem placeLot_account (p : Part) (i : Lane) (lot : Nat) (h : HostFields) : (placeLot p i lot h).account = p.account := by simp [placeLot]
@[simp] theorem placeLot_ring (p : Part) (i : Lane) (lot : Nat) (h : HostFields) : (placeLot p i lot h).ring = p.ring := by simp [placeLot]
@[simp] theorem placeLot_store (p : Part) (i : Lane) (lot : Nat) (h : HostFields) : (placeLot p i lot h).store = p.store := by simp [placeLot]
@[simp] theorem placeLot_attention (p : Part) (i : Lane) (lot : Nat) (h : HostFields) : (placeLot p i lot h).attention = p.attention := by simp [placeLot]
@[simp] theorem placeLot_ticks (p : Part) (i : Lane) (lot : Nat) (h : HostFields) : (placeLot p i lot h).ticks = p.ticks := by simp [placeLot]
@[simp] theorem placeLot_freeDraws (p : Part) (i : Lane) (lot : Nat) (h : HostFields) : (placeLot p i lot h).freeDraws = p.freeDraws := by simp [placeLot]

@[simp] theorem validate_floor (p : Part) (lot : Nat) (h : HostFields) : (validate p lot h).floor = p.floor := by
  unfold validate; try dsimp only
  (repeat' split) <;> simp
@[simp] theorem validate_window (p : Part) (lot : Nat) (h : HostFields) : (validate p lot h).window = p.window := by
  unfold validate; try dsimp only
  (repeat' split) <;> simp
@[simp] theorem validate_tracks (p : Part) (lot : Nat) (h : HostFields) : (validate p lot h).tracks = p.tracks := by
  unfold validate; try dsimp only
  (repeat' split) <;> simp
@[simp] theorem validate_lanes (p : Part) (lot : Nat) (h : HostFields) : (validate p lot h).lanes = p.lanes := by
  unfold validate; try dsimp only
  (repeat' split) <;> simp
@[simp] theorem validate_press (p : Part) (lot : Nat) (h : HostFields) : (validate p lot h).press = p.press := by
  unfold validate; try dsimp only
  (repeat' split) <;> simp
@[simp] theorem validate_account (p : Part) (lot : Nat) (h : HostFields) : (validate p lot h).account = p.account := by
  unfold validate; try dsimp only
  (repeat' split) <;> simp
@[simp] theorem validate_ring (p : Part) (lot : Nat) (h : HostFields) : (validate p lot h).ring = p.ring := by
  unfold validate; try dsimp only
  (repeat' split) <;> simp
@[simp] theorem validate_store (p : Part) (lot : Nat) (h : HostFields) : (validate p lot h).store = p.store := by
  unfold validate; try dsimp only
  (repeat' split) <;> simp
@[simp] theorem validate_ticks (p : Part) (lot : Nat) (h : HostFields) : (validate p lot h).ticks = p.ticks := by
  unfold validate; try dsimp only
  (repeat' split) <;> simp
@[simp] theorem validate_freeDraws (p : Part) (lot : Nat) (h : HostFields) : (validate p lot h).freeDraws = p.freeDraws := by
  unfold validate; try dsimp only
  (repeat' split) <;> simp

@[simp] theorem withdrawListing_floor (p : Part) (lot : Nat) : (withdrawListing p lot).floor = p.floor := by simp [withdrawListing]
@[simp] theorem withdrawListing_window (p : Part) (lot : Nat) : (withdrawListing p lot).window = p.window := by simp [withdrawListing]
@[simp] theorem withdrawListing_tracks (p : Part) (lot : Nat) : (withdrawListing p lot).tracks = p.tracks := by simp [withdrawListing]
@[simp] theorem withdrawListing_lanes (p : Part) (lot : Nat) : (withdrawListing p lot).lanes = p.lanes := by simp [withdrawListing]
@[simp] theorem withdrawListing_press (p : Part) (lot : Nat) : (withdrawListing p lot).press = p.press := by simp [withdrawListing]
@[simp] theorem withdrawListing_account (p : Part) (lot : Nat) : (withdrawListing p lot).account = p.account := by simp [withdrawListing]
@[simp] theorem withdrawListing_ring (p : Part) (lot : Nat) : (withdrawListing p lot).ring = p.ring := by simp [withdrawListing]
@[simp] theorem withdrawListing_displays (p : Part) (lot : Nat) : (withdrawListing p lot).displays = p.displays := by simp [withdrawListing]
@[simp] theorem withdrawListing_store (p : Part) (lot : Nat) : (withdrawListing p lot).store = p.store := by simp [withdrawListing]
@[simp] theorem withdrawListing_attention (p : Part) (lot : Nat) : (withdrawListing p lot).attention = p.attention := by simp [withdrawListing]
@[simp] theorem withdrawListing_ticks (p : Part) (lot : Nat) : (withdrawListing p lot).ticks = p.ticks := by simp [withdrawListing]
@[simp] theorem withdrawListing_freeDraws (p : Part) (lot : Nat) : (withdrawListing p lot).freeDraws = p.freeDraws := by simp [withdrawListing]

@[simp] theorem completeFetch_floor (p : Part) (r : Option (List Beat)) : (completeFetch p r).floor = p.floor := by
  unfold completeFetch; try dsimp only
  (repeat' split) <;> simp
@[simp] theorem completeFetch_window (p : Part) (r : Option (List Beat)) : (completeFetch p r).window = p.window := by
  unfold completeFetch; try dsimp only
  (repeat' split) <;> simp
@[simp] theorem completeFetch_tracks (p : Part) (r : Option (List Beat)) : (completeFetch p r).tracks = p.tracks := by
  unfold completeFetch; try dsimp only
  (repeat' split) <;> simp
@[simp] theorem completeFetch_lanes (p : Part) (r : Option (List Beat)) : (completeFetch p r).lanes = p.lanes := by
  unfold completeFetch; try dsimp only
  (repeat' split) <;> simp
@[simp] theorem completeFetch_press (p : Part) (r : Option (List Beat)) : (completeFetch p r).press = p.press := by
  unfold completeFetch; try dsimp only
  (repeat' split) <;> simp
@[simp] theorem completeFetch_account (p : Part) (r : Option (List Beat)) : (completeFetch p r).account = p.account := by
  unfold completeFetch; try dsimp only
  (repeat' split) <;> simp
@[simp] theorem completeFetch_ring (p : Part) (r : Option (List Beat)) : (completeFetch p r).ring = p.ring := by
  unfold completeFetch; try dsimp only
  (repeat' split) <;> simp
@[simp] theorem completeFetch_store (p : Part) (r : Option (List Beat)) : (completeFetch p r).store = p.store := by
  unfold completeFetch; try dsimp only
  (repeat' split) <;> simp
@[simp] theorem completeFetch_ticks (p : Part) (r : Option (List Beat)) : (completeFetch p r).ticks = p.ticks := by
  unfold completeFetch; try dsimp only
  (repeat' split) <;> simp
@[simp] theorem completeFetch_freeDraws (p : Part) (r : Option (List Beat)) : (completeFetch p r).freeDraws = p.freeDraws := by
  unfold completeFetch; try dsimp only
  (repeat' split) <;> simp

/-! ### Track -/

@[simp] theorem faultPass_floor (p : Part) (i : Lane) (c : Pass) (g : Word32) (r : TrackFault) : ((faultPass p i c g r).part).floor = p.floor := rfl
@[simp] theorem faultPass_window (p : Part) (i : Lane) (c : Pass) (g : Word32) (r : TrackFault) : ((faultPass p i c g r).part).window = p.window := rfl
@[simp] theorem faultPass_catalogue (p : Part) (i : Lane) (c : Pass) (g : Word32) (r : TrackFault) : ((faultPass p i c g r).part).catalogue = p.catalogue := rfl
@[simp] theorem faultPass_lanes (p : Part) (i : Lane) (c : Pass) (g : Word32) (r : TrackFault) : ((faultPass p i c g r).part).lanes = p.lanes := rfl
@[simp] theorem faultPass_press (p : Part) (i : Lane) (c : Pass) (g : Word32) (r : TrackFault) : ((faultPass p i c g r).part).press = p.press := rfl
@[simp] theorem faultPass_account (p : Part) (i : Lane) (c : Pass) (g : Word32) (r : TrackFault) : ((faultPass p i c g r).part).account = p.account := rfl
@[simp] theorem faultPass_ring (p : Part) (i : Lane) (c : Pass) (g : Word32) (r : TrackFault) : ((faultPass p i c g r).part).ring = p.ring := rfl
@[simp] theorem faultPass_displays (p : Part) (i : Lane) (c : Pass) (g : Word32) (r : TrackFault) : ((faultPass p i c g r).part).displays = p.displays := rfl
@[simp] theorem faultPass_store (p : Part) (i : Lane) (c : Pass) (g : Word32) (r : TrackFault) : ((faultPass p i c g r).part).store = p.store := rfl
@[simp] theorem faultPass_ticks (p : Part) (i : Lane) (c : Pass) (g : Word32) (r : TrackFault) : ((faultPass p i c g r).part).ticks = p.ticks := rfl
@[simp] theorem faultPass_freeDraws (p : Part) (i : Lane) (c : Pass) (g : Word32) (r : TrackFault) : ((faultPass p i c g r).part).freeDraws = p.freeDraws := rfl

@[simp] theorem stageFromLate_floor (p : Part) (i : Lane) (y : Trolley) : (stageFromLate p i y).floor = p.floor := by simp [stageFromLate]
@[simp] theorem stageFromLate_window (p : Part) (i : Lane) (y : Trolley) : (stageFromLate p i y).window = p.window := by simp [stageFromLate]
@[simp] theorem stageFromLate_lanes (p : Part) (i : Lane) (y : Trolley) : (stageFromLate p i y).lanes = p.lanes := by simp [stageFromLate]
@[simp] theorem stageFromLate_press (p : Part) (i : Lane) (y : Trolley) : (stageFromLate p i y).press = p.press := by simp [stageFromLate]
@[simp] theorem stageFromLate_account (p : Part) (i : Lane) (y : Trolley) : (stageFromLate p i y).account = p.account := by simp [stageFromLate]
@[simp] theorem stageFromLate_ring (p : Part) (i : Lane) (y : Trolley) : (stageFromLate p i y).ring = p.ring := by simp [stageFromLate]
@[simp] theorem stageFromLate_store (p : Part) (i : Lane) (y : Trolley) : (stageFromLate p i y).store = p.store := by simp [stageFromLate]
@[simp] theorem stageFromLate_attention (p : Part) (i : Lane) (y : Trolley) : (stageFromLate p i y).attention = p.attention := by simp [stageFromLate]
@[simp] theorem stageFromLate_ticks (p : Part) (i : Lane) (y : Trolley) : (stageFromLate p i y).ticks = p.ticks := by simp [stageFromLate]
@[simp] theorem stageFromLate_freeDraws (p : Part) (i : Lane) (y : Trolley) : (stageFromLate p i y).freeDraws = p.freeDraws := by simp [stageFromLate]

@[simp] theorem stageFromLookahead_floor (p : Part) (i : Lane) (ys : List Trolley) (y : Trolley) : (stageFromLookahead p i ys y).floor = p.floor := by simp [stageFromLookahead]
@[simp] theorem stageFromLookahead_window (p : Part) (i : Lane) (ys : List Trolley) (y : Trolley) : (stageFromLookahead p i ys y).window = p.window := by simp [stageFromLookahead]
@[simp] theorem stageFromLookahead_lanes (p : Part) (i : Lane) (ys : List Trolley) (y : Trolley) : (stageFromLookahead p i ys y).lanes = p.lanes := by simp [stageFromLookahead]
@[simp] theorem stageFromLookahead_press (p : Part) (i : Lane) (ys : List Trolley) (y : Trolley) : (stageFromLookahead p i ys y).press = p.press := by simp [stageFromLookahead]
@[simp] theorem stageFromLookahead_account (p : Part) (i : Lane) (ys : List Trolley) (y : Trolley) : (stageFromLookahead p i ys y).account = p.account := by simp [stageFromLookahead]
@[simp] theorem stageFromLookahead_ring (p : Part) (i : Lane) (ys : List Trolley) (y : Trolley) : (stageFromLookahead p i ys y).ring = p.ring := by simp [stageFromLookahead]
@[simp] theorem stageFromLookahead_store (p : Part) (i : Lane) (ys : List Trolley) (y : Trolley) : (stageFromLookahead p i ys y).store = p.store := by simp [stageFromLookahead]
@[simp] theorem stageFromLookahead_attention (p : Part) (i : Lane) (ys : List Trolley) (y : Trolley) : (stageFromLookahead p i ys y).attention = p.attention := by simp [stageFromLookahead]
@[simp] theorem stageFromLookahead_ticks (p : Part) (i : Lane) (ys : List Trolley) (y : Trolley) : (stageFromLookahead p i ys y).ticks = p.ticks := by simp [stageFromLookahead]
@[simp] theorem stageFromLookahead_freeDraws (p : Part) (i : Lane) (ys : List Trolley) (y : Trolley) : (stageFromLookahead p i ys y).freeDraws = p.freeDraws := by simp [stageFromLookahead]

@[simp] theorem gateLookahead_floor (p : Part) (i : Lane) (c : Pass) : ((gateLookahead p i c).part).floor = p.floor := by
  unfold gateLookahead; try dsimp only
  (repeat' split) <;> simp
@[simp] theorem gateLookahead_window (p : Part) (i : Lane) (c : Pass) : ((gateLookahead p i c).part).window = p.window := by
  unfold gateLookahead; try dsimp only
  (repeat' split) <;> simp
@[simp] theorem gateLookahead_lanes (p : Part) (i : Lane) (c : Pass) : ((gateLookahead p i c).part).lanes = p.lanes := by
  unfold gateLookahead; try dsimp only
  (repeat' split) <;> simp
@[simp] theorem gateLookahead_press (p : Part) (i : Lane) (c : Pass) : ((gateLookahead p i c).part).press = p.press := by
  unfold gateLookahead; try dsimp only
  (repeat' split) <;> simp
@[simp] theorem gateLookahead_account (p : Part) (i : Lane) (c : Pass) : ((gateLookahead p i c).part).account = p.account := by
  unfold gateLookahead; try dsimp only
  (repeat' split) <;> simp
@[simp] theorem gateLookahead_ring (p : Part) (i : Lane) (c : Pass) : ((gateLookahead p i c).part).ring = p.ring := by
  unfold gateLookahead; try dsimp only
  (repeat' split) <;> simp
@[simp] theorem gateLookahead_store (p : Part) (i : Lane) (c : Pass) : ((gateLookahead p i c).part).store = p.store := by
  unfold gateLookahead; try dsimp only
  (repeat' split) <;> simp
@[simp] theorem gateLookahead_ticks (p : Part) (i : Lane) (c : Pass) : ((gateLookahead p i c).part).ticks = p.ticks := by
  unfold gateLookahead; try dsimp only
  (repeat' split) <;> simp
@[simp] theorem gateLookahead_freeDraws (p : Part) (i : Lane) (c : Pass) : ((gateLookahead p i c).part).freeDraws = p.freeDraws := by
  unfold gateLookahead; try dsimp only
  (repeat' split) <;> simp

@[simp] theorem gatePass_floor (p : Part) (i : Lane) (c : Pass) : ((gatePass p i c).part).floor = p.floor := by
  unfold gatePass; try dsimp only
  (repeat' split) <;> simp
@[simp] theorem gatePass_window (p : Part) (i : Lane) (c : Pass) : ((gatePass p i c).part).window = p.window := by
  unfold gatePass; try dsimp only
  (repeat' split) <;> simp
@[simp] theorem gatePass_lanes (p : Part) (i : Lane) (c : Pass) : ((gatePass p i c).part).lanes = p.lanes := by
  unfold gatePass; try dsimp only
  (repeat' split) <;> simp
@[simp] theorem gatePass_press (p : Part) (i : Lane) (c : Pass) : ((gatePass p i c).part).press = p.press := by
  unfold gatePass; try dsimp only
  (repeat' split) <;> simp
@[simp] theorem gatePass_account (p : Part) (i : Lane) (c : Pass) : ((gatePass p i c).part).account = p.account := by
  unfold gatePass; try dsimp only
  (repeat' split) <;> simp
@[simp] theorem gatePass_ring (p : Part) (i : Lane) (c : Pass) : ((gatePass p i c).part).ring = p.ring := by
  unfold gatePass; try dsimp only
  (repeat' split) <;> simp
@[simp] theorem gatePass_store (p : Part) (i : Lane) (c : Pass) : ((gatePass p i c).part).store = p.store := by
  unfold gatePass; try dsimp only
  (repeat' split) <;> simp
@[simp] theorem gatePass_ticks (p : Part) (i : Lane) (c : Pass) : ((gatePass p i c).part).ticks = p.ticks := by
  unfold gatePass; try dsimp only
  (repeat' split) <;> simp
@[simp] theorem gatePass_freeDraws (p : Part) (i : Lane) (c : Pass) : ((gatePass p i c).part).freeDraws = p.freeDraws := by
  unfold gatePass; try dsimp only
  (repeat' split) <;> simp

@[simp] theorem displayPass_floor (p : Part) (i : Lane) (c : Pass) : ((displayPass p i c).part).floor = p.floor := by
  unfold displayPass; try dsimp only
  (repeat' split) <;> simp
@[simp] theorem displayPass_window (p : Part) (i : Lane) (c : Pass) : ((displayPass p i c).part).window = p.window := by
  unfold displayPass; try dsimp only
  (repeat' split) <;> simp
@[simp] theorem displayPass_lanes (p : Part) (i : Lane) (c : Pass) : ((displayPass p i c).part).lanes = p.lanes := by
  unfold displayPass; try dsimp only
  (repeat' split) <;> simp
@[simp] theorem displayPass_press (p : Part) (i : Lane) (c : Pass) : ((displayPass p i c).part).press = p.press := by
  unfold displayPass; try dsimp only
  (repeat' split) <;> simp
@[simp] theorem displayPass_account (p : Part) (i : Lane) (c : Pass) : ((displayPass p i c).part).account = p.account := by
  unfold displayPass; try dsimp only
  (repeat' split) <;> simp
@[simp] theorem displayPass_ring (p : Part) (i : Lane) (c : Pass) : ((displayPass p i c).part).ring = p.ring := by
  unfold displayPass; try dsimp only
  (repeat' split) <;> simp
@[simp] theorem displayPass_store (p : Part) (i : Lane) (c : Pass) : ((displayPass p i c).part).store = p.store := by
  unfold displayPass; try dsimp only
  (repeat' split) <;> simp
@[simp] theorem displayPass_ticks (p : Part) (i : Lane) (c : Pass) : ((displayPass p i c).part).ticks = p.ticks := by
  unfold displayPass; try dsimp only
  (repeat' split) <;> simp
@[simp] theorem displayPass_freeDraws (p : Part) (i : Lane) (c : Pass) : ((displayPass p i c).part).freeDraws = p.freeDraws := by
  unfold displayPass; try dsimp only
  (repeat' split) <;> simp

@[simp] theorem emptyDisplay_floor (p : Part) (i : Lane) : (emptyDisplay p i).floor = p.floor := by
  unfold emptyDisplay; try dsimp only
  (repeat' split) <;> simp
@[simp] theorem emptyDisplay_window (p : Part) (i : Lane) : (emptyDisplay p i).window = p.window := by
  unfold emptyDisplay; try dsimp only
  (repeat' split) <;> simp
@[simp] theorem emptyDisplay_lanes (p : Part) (i : Lane) : (emptyDisplay p i).lanes = p.lanes := by
  unfold emptyDisplay; try dsimp only
  (repeat' split) <;> simp
@[simp] theorem emptyDisplay_press (p : Part) (i : Lane) : (emptyDisplay p i).press = p.press := by
  unfold emptyDisplay; try dsimp only
  (repeat' split) <;> simp
@[simp] theorem emptyDisplay_account (p : Part) (i : Lane) : (emptyDisplay p i).account = p.account := by
  unfold emptyDisplay; try dsimp only
  (repeat' split) <;> simp
@[simp] theorem emptyDisplay_ring (p : Part) (i : Lane) : (emptyDisplay p i).ring = p.ring := by
  unfold emptyDisplay; try dsimp only
  (repeat' split) <;> simp
@[simp] theorem emptyDisplay_store (p : Part) (i : Lane) : (emptyDisplay p i).store = p.store := by
  unfold emptyDisplay; try dsimp only
  (repeat' split) <;> simp
@[simp] theorem emptyDisplay_attention (p : Part) (i : Lane) : (emptyDisplay p i).attention = p.attention := by
  unfold emptyDisplay; try dsimp only
  (repeat' split) <;> simp
@[simp] theorem emptyDisplay_ticks (p : Part) (i : Lane) : (emptyDisplay p i).ticks = p.ticks := by
  unfold emptyDisplay; try dsimp only
  (repeat' split) <;> simp
@[simp] theorem emptyDisplay_freeDraws (p : Part) (i : Lane) : (emptyDisplay p i).freeDraws = p.freeDraws := by
  unfold emptyDisplay; try dsimp only
  (repeat' split) <;> simp

@[simp] theorem exitPass_floor (p : Part) (i : Lane) (c : Pass) : ((exitPass p i c).part).floor = p.floor := by
  unfold exitPass; try dsimp only
  (repeat' split) <;> simp
@[simp] theorem exitPass_window (p : Part) (i : Lane) (c : Pass) : ((exitPass p i c).part).window = p.window := by
  unfold exitPass; try dsimp only
  (repeat' split) <;> simp
@[simp] theorem exitPass_lanes (p : Part) (i : Lane) (c : Pass) : ((exitPass p i c).part).lanes = p.lanes := by
  unfold exitPass; try dsimp only
  (repeat' split) <;> simp
@[simp] theorem exitPass_press (p : Part) (i : Lane) (c : Pass) : ((exitPass p i c).part).press = p.press := by
  unfold exitPass; try dsimp only
  (repeat' split) <;> simp
@[simp] theorem exitPass_account (p : Part) (i : Lane) (c : Pass) : ((exitPass p i c).part).account = p.account := by
  unfold exitPass; try dsimp only
  (repeat' split) <;> simp
@[simp] theorem exitPass_ring (p : Part) (i : Lane) (c : Pass) : ((exitPass p i c).part).ring = p.ring := by
  unfold exitPass; try dsimp only
  (repeat' split) <;> simp
@[simp] theorem exitPass_store (p : Part) (i : Lane) (c : Pass) : ((exitPass p i c).part).store = p.store := by
  unfold exitPass; try dsimp only
  (repeat' split) <;> simp
@[simp] theorem exitPass_ticks (p : Part) (i : Lane) (c : Pass) : ((exitPass p i c).part).ticks = p.ticks := by
  unfold exitPass; try dsimp only
  (repeat' split) <;> simp
@[simp] theorem exitPass_freeDraws (p : Part) (i : Lane) (c : Pass) : ((exitPass p i c).part).freeDraws = p.freeDraws := by
  unfold exitPass; try dsimp only
  (repeat' split) <;> simp

@[simp] theorem carryOut_floor (p : Part) (i : Lane) (c : Pass) : ((carryOut p i c).part).floor = p.floor := by
  unfold carryOut; try dsimp only
  (repeat' split) <;> simp
@[simp] theorem carryOut_window (p : Part) (i : Lane) (c : Pass) : ((carryOut p i c).part).window = p.window := by
  unfold carryOut; try dsimp only
  (repeat' split) <;> simp
@[simp] theorem carryOut_lanes (p : Part) (i : Lane) (c : Pass) : ((carryOut p i c).part).lanes = p.lanes := by
  unfold carryOut; try dsimp only
  (repeat' split) <;> simp
@[simp] theorem carryOut_press (p : Part) (i : Lane) (c : Pass) : ((carryOut p i c).part).press = p.press := by
  unfold carryOut; try dsimp only
  (repeat' split) <;> simp
@[simp] theorem carryOut_account (p : Part) (i : Lane) (c : Pass) : ((carryOut p i c).part).account = p.account := by
  unfold carryOut; try dsimp only
  (repeat' split) <;> simp
@[simp] theorem carryOut_ring (p : Part) (i : Lane) (c : Pass) : ((carryOut p i c).part).ring = p.ring := by
  unfold carryOut; try dsimp only
  (repeat' split) <;> simp
@[simp] theorem carryOut_store (p : Part) (i : Lane) (c : Pass) : ((carryOut p i c).part).store = p.store := by
  unfold carryOut; try dsimp only
  (repeat' split) <;> simp
@[simp] theorem carryOut_ticks (p : Part) (i : Lane) (c : Pass) : ((carryOut p i c).part).ticks = p.ticks := by
  unfold carryOut; try dsimp only
  (repeat' split) <;> simp
@[simp] theorem carryOut_freeDraws (p : Part) (i : Lane) (c : Pass) : ((carryOut p i c).part).freeDraws = p.freeDraws := by
  unfold carryOut; try dsimp only
  (repeat' split) <;> simp

@[simp] theorem discardPass_floor (p : Part) (i : Lane) : (discardPass p i).floor = p.floor := rfl
@[simp] theorem discardPass_window (p : Part) (i : Lane) : (discardPass p i).window = p.window := rfl
@[simp] theorem discardPass_catalogue (p : Part) (i : Lane) : (discardPass p i).catalogue = p.catalogue := rfl
@[simp] theorem discardPass_lanes (p : Part) (i : Lane) : (discardPass p i).lanes = p.lanes := rfl
@[simp] theorem discardPass_press (p : Part) (i : Lane) : (discardPass p i).press = p.press := rfl
@[simp] theorem discardPass_account (p : Part) (i : Lane) : (discardPass p i).account = p.account := rfl
@[simp] theorem discardPass_ring (p : Part) (i : Lane) : (discardPass p i).ring = p.ring := rfl
@[simp] theorem discardPass_displays (p : Part) (i : Lane) : (discardPass p i).displays = p.displays := rfl
@[simp] theorem discardPass_store (p : Part) (i : Lane) : (discardPass p i).store = p.store := rfl
@[simp] theorem discardPass_attention (p : Part) (i : Lane) : (discardPass p i).attention = p.attention := rfl
@[simp] theorem discardPass_ticks (p : Part) (i : Lane) : (discardPass p i).ticks = p.ticks := rfl
@[simp] theorem discardPass_freeDraws (p : Part) (i : Lane) : (discardPass p i).freeDraws = p.freeDraws := rfl

@[simp] theorem backlogPass_floor (p : Part) (i : Lane) (c : Pass) : (backlogPass p i c).floor = p.floor := by
  unfold backlogPass; try dsimp only
  (repeat' split) <;> simp
@[simp] theorem backlogPass_window (p : Part) (i : Lane) (c : Pass) : (backlogPass p i c).window = p.window := by
  unfold backlogPass; try dsimp only
  (repeat' split) <;> simp
@[simp] theorem backlogPass_catalogue (p : Part) (i : Lane) (c : Pass) : (backlogPass p i c).catalogue = p.catalogue := by
  unfold backlogPass; try dsimp only
  (repeat' split) <;> simp
@[simp] theorem backlogPass_lanes (p : Part) (i : Lane) (c : Pass) : (backlogPass p i c).lanes = p.lanes := by
  unfold backlogPass; try dsimp only
  (repeat' split) <;> simp
@[simp] theorem backlogPass_press (p : Part) (i : Lane) (c : Pass) : (backlogPass p i c).press = p.press := by
  unfold backlogPass; try dsimp only
  (repeat' split) <;> simp
@[simp] theorem backlogPass_account (p : Part) (i : Lane) (c : Pass) : (backlogPass p i c).account = p.account := by
  unfold backlogPass; try dsimp only
  (repeat' split) <;> simp
@[simp] theorem backlogPass_ring (p : Part) (i : Lane) (c : Pass) : (backlogPass p i c).ring = p.ring := by
  unfold backlogPass; try dsimp only
  (repeat' split) <;> simp
@[simp] theorem backlogPass_displays (p : Part) (i : Lane) (c : Pass) : (backlogPass p i c).displays = p.displays := by
  unfold backlogPass; try dsimp only
  (repeat' split) <;> simp
@[simp] theorem backlogPass_store (p : Part) (i : Lane) (c : Pass) : (backlogPass p i c).store = p.store := by
  unfold backlogPass; try dsimp only
  (repeat' split) <;> simp
@[simp] theorem backlogPass_attention (p : Part) (i : Lane) (c : Pass) : (backlogPass p i c).attention = p.attention := by
  unfold backlogPass; try dsimp only
  (repeat' split) <;> simp
@[simp] theorem backlogPass_ticks (p : Part) (i : Lane) (c : Pass) : (backlogPass p i c).ticks = p.ticks := by
  unfold backlogPass; try dsimp only
  (repeat' split) <;> simp
@[simp] theorem backlogPass_freeDraws (p : Part) (i : Lane) (c : Pass) : (backlogPass p i c).freeDraws = p.freeDraws := by
  unfold backlogPass; try dsimp only
  (repeat' split) <;> simp

@[simp] theorem takePass_floor (p : Part) (i : Lane) (c : Pass) : (takePass p i c).floor = p.floor := by
  unfold takePass; (repeat' split) <;> simp [tellLane] <;> (repeat' split) <;> simp
@[simp] theorem takePass_window (p : Part) (i : Lane) (c : Pass) : (takePass p i c).window = p.window := by
  unfold takePass; (repeat' split) <;> simp [tellLane] <;> (repeat' split) <;> simp
@[simp] theorem takePass_press (p : Part) (i : Lane) (c : Pass) : (takePass p i c).press = p.press := by
  unfold takePass; (repeat' split) <;> simp [tellLane] <;> (repeat' split) <;> simp
@[simp] theorem takePass_account (p : Part) (i : Lane) (c : Pass) : (takePass p i c).account = p.account := by
  unfold takePass; (repeat' split) <;> simp [tellLane] <;> (repeat' split) <;> simp
@[simp] theorem takePass_store (p : Part) (i : Lane) (c : Pass) : (takePass p i c).store = p.store := by
  unfold takePass; (repeat' split) <;> simp [tellLane] <;> (repeat' split) <;> simp
@[simp] theorem takePass_ticks (p : Part) (i : Lane) (c : Pass) : (takePass p i c).ticks = p.ticks := by
  unfold takePass; (repeat' split) <;> simp [tellLane] <;> (repeat' split) <;> simp
@[simp] theorem takePass_freeDraws (p : Part) (i : Lane) (c : Pass) : (takePass p i c).freeDraws = p.freeDraws := by
  unfold takePass; (repeat' split) <;> simp [tellLane] <;> (repeat' split) <;> simp

@[simp] theorem replay_floor (p : Part) (i : Lane) (cs : List Pass) (a : Bool) : ((replay i cs a p).part).floor = p.floor := by
  induction cs generalizing a p with
  | nil => simp [replay]
  | cons c cs ih => unfold replay; dsimp only; split <;> simp [ih]
@[simp] theorem replay_window (p : Part) (i : Lane) (cs : List Pass) (a : Bool) : ((replay i cs a p).part).window = p.window := by
  induction cs generalizing a p with
  | nil => simp [replay]
  | cons c cs ih => unfold replay; dsimp only; split <;> simp [ih]
@[simp] theorem replay_lanes (p : Part) (i : Lane) (cs : List Pass) (a : Bool) : ((replay i cs a p).part).lanes = p.lanes := by
  induction cs generalizing a p with
  | nil => simp [replay]
  | cons c cs ih => unfold replay; dsimp only; split <;> simp [ih]
@[simp] theorem replay_press (p : Part) (i : Lane) (cs : List Pass) (a : Bool) : ((replay i cs a p).part).press = p.press := by
  induction cs generalizing a p with
  | nil => simp [replay]
  | cons c cs ih => unfold replay; dsimp only; split <;> simp [ih]
@[simp] theorem replay_account (p : Part) (i : Lane) (cs : List Pass) (a : Bool) : ((replay i cs a p).part).account = p.account := by
  induction cs generalizing a p with
  | nil => simp [replay]
  | cons c cs ih => unfold replay; dsimp only; split <;> simp [ih]
@[simp] theorem replay_ring (p : Part) (i : Lane) (cs : List Pass) (a : Bool) : ((replay i cs a p).part).ring = p.ring := by
  induction cs generalizing a p with
  | nil => simp [replay]
  | cons c cs ih => unfold replay; dsimp only; split <;> simp [ih]
@[simp] theorem replay_store (p : Part) (i : Lane) (cs : List Pass) (a : Bool) : ((replay i cs a p).part).store = p.store := by
  induction cs generalizing a p with
  | nil => simp [replay]
  | cons c cs ih => unfold replay; dsimp only; split <;> simp [ih]
@[simp] theorem replay_ticks (p : Part) (i : Lane) (cs : List Pass) (a : Bool) : ((replay i cs a p).part).ticks = p.ticks := by
  induction cs generalizing a p with
  | nil => simp [replay]
  | cons c cs ih => unfold replay; dsimp only; split <;> simp [ih]
@[simp] theorem replay_freeDraws (p : Part) (i : Lane) (cs : List Pass) (a : Bool) : ((replay i cs a p).part).freeDraws = p.freeDraws := by
  induction cs generalizing a p with
  | nil => simp [replay]
  | cons c cs ih => unfold replay; dsimp only; split <;> simp [ih]

@[simp] theorem disposeTrack_floor (p : Part) (i : Lane) (d : Disposition) : ((disposeTrack p i d).part).floor = p.floor := by
  cases d <;> (unfold disposeTrack; dsimp only; split <;> simp)
@[simp] theorem disposeTrack_window (p : Part) (i : Lane) (d : Disposition) : ((disposeTrack p i d).part).window = p.window := by
  cases d <;> (unfold disposeTrack; dsimp only; split <;> simp)
@[simp] theorem disposeTrack_lanes (p : Part) (i : Lane) (d : Disposition) : ((disposeTrack p i d).part).lanes = p.lanes := by
  cases d <;> (unfold disposeTrack; dsimp only; split <;> simp)
@[simp] theorem disposeTrack_press (p : Part) (i : Lane) (d : Disposition) : ((disposeTrack p i d).part).press = p.press := by
  cases d <;> (unfold disposeTrack; dsimp only; split <;> simp)
@[simp] theorem disposeTrack_account (p : Part) (i : Lane) (d : Disposition) : ((disposeTrack p i d).part).account = p.account := by
  cases d <;> (unfold disposeTrack; dsimp only; split <;> simp)
@[simp] theorem disposeTrack_ring (p : Part) (i : Lane) (d : Disposition) : ((disposeTrack p i d).part).ring = p.ring := by
  cases d <;> (unfold disposeTrack; dsimp only; split <;> simp)
@[simp] theorem disposeTrack_store (p : Part) (i : Lane) (d : Disposition) : ((disposeTrack p i d).part).store = p.store := by
  cases d <;> (unfold disposeTrack; dsimp only; split <;> simp)
@[simp] theorem disposeTrack_ticks (p : Part) (i : Lane) (d : Disposition) : ((disposeTrack p i d).part).ticks = p.ticks := by
  cases d <;> (unfold disposeTrack; dsimp only; split <;> simp)
@[simp] theorem disposeTrack_freeDraws (p : Part) (i : Lane) (d : Disposition) : ((disposeTrack p i d).part).freeDraws = p.freeDraws := by
  cases d <;> (unfold disposeTrack; dsimp only; split <;> simp)

/-! ### Lane commands, parameters and expiries -/

@[simp] theorem addStop_floor (p : Part) (i : Lane) : (addStop p i).floor = p.floor := by simp [addStop]
@[simp] theorem addStop_window (p : Part) (i : Lane) : (addStop p i).window = p.window := by simp [addStop]
@[simp] theorem addStop_catalogue (p : Part) (i : Lane) : (addStop p i).catalogue = p.catalogue := by simp [addStop]
@[simp] theorem addStop_tracks (p : Part) (i : Lane) : (addStop p i).tracks = p.tracks := by simp [addStop]
@[simp] theorem addStop_press (p : Part) (i : Lane) : (addStop p i).press = p.press := by simp [addStop]
@[simp] theorem addStop_account (p : Part) (i : Lane) : (addStop p i).account = p.account := by simp [addStop]
@[simp] theorem addStop_ring (p : Part) (i : Lane) : (addStop p i).ring = p.ring := by simp [addStop]
@[simp] theorem addStop_displays (p : Part) (i : Lane) : (addStop p i).displays = p.displays := by simp [addStop]
@[simp] theorem addStop_store (p : Part) (i : Lane) : (addStop p i).store = p.store := by simp [addStop]
@[simp] theorem addStop_ticks (p : Part) (i : Lane) : (addStop p i).ticks = p.ticks := by simp [addStop]
@[simp] theorem addStop_freeDraws (p : Part) (i : Lane) : (addStop p i).freeDraws = p.freeDraws := by simp [addStop]

@[simp] theorem changeStop_floor (p : Part) (i : Lane) (l : Bool) : (changeStop p i l).floor = p.floor := by
  unfold changeStop; try dsimp only
  (repeat' split) <;> simp
@[simp] theorem changeStop_window (p : Part) (i : Lane) (l : Bool) : (changeStop p i l).window = p.window := by
  unfold changeStop; try dsimp only
  (repeat' split) <;> simp
@[simp] theorem changeStop_catalogue (p : Part) (i : Lane) (l : Bool) : (changeStop p i l).catalogue = p.catalogue := by
  unfold changeStop; try dsimp only
  (repeat' split) <;> simp
@[simp] theorem changeStop_tracks (p : Part) (i : Lane) (l : Bool) : (changeStop p i l).tracks = p.tracks := by
  unfold changeStop; try dsimp only
  (repeat' split) <;> simp
@[simp] theorem changeStop_press (p : Part) (i : Lane) (l : Bool) : (changeStop p i l).press = p.press := by
  unfold changeStop; try dsimp only
  (repeat' split) <;> simp
@[simp] theorem changeStop_account (p : Part) (i : Lane) (l : Bool) : (changeStop p i l).account = p.account := by
  unfold changeStop; try dsimp only
  (repeat' split) <;> simp
@[simp] theorem changeStop_ring (p : Part) (i : Lane) (l : Bool) : (changeStop p i l).ring = p.ring := by
  unfold changeStop; try dsimp only
  (repeat' split) <;> simp
@[simp] theorem changeStop_displays (p : Part) (i : Lane) (l : Bool) : (changeStop p i l).displays = p.displays := by
  unfold changeStop; try dsimp only
  (repeat' split) <;> simp
@[simp] theorem changeStop_store (p : Part) (i : Lane) (l : Bool) : (changeStop p i l).store = p.store := by
  unfold changeStop; try dsimp only
  (repeat' split) <;> simp
@[simp] theorem changeStop_ticks (p : Part) (i : Lane) (l : Bool) : (changeStop p i l).ticks = p.ticks := by
  unfold changeStop; try dsimp only
  (repeat' split) <;> simp
@[simp] theorem changeStop_freeDraws (p : Part) (i : Lane) (l : Bool) : (changeStop p i l).freeDraws = p.freeDraws := by
  unfold changeStop; try dsimp only
  (repeat' split) <;> simp

@[simp] theorem setCommandResult_floor (p : Part) (i : Lane) (r : WordResult) : (setCommandResult p i r).floor = p.floor := rfl
@[simp] theorem setCommandResult_window (p : Part) (i : Lane) (r : WordResult) : (setCommandResult p i r).window = p.window := rfl
@[simp] theorem setCommandResult_catalogue (p : Part) (i : Lane) (r : WordResult) : (setCommandResult p i r).catalogue = p.catalogue := rfl
@[simp] theorem setCommandResult_tracks (p : Part) (i : Lane) (r : WordResult) : (setCommandResult p i r).tracks = p.tracks := rfl
@[simp] theorem setCommandResult_press (p : Part) (i : Lane) (r : WordResult) : (setCommandResult p i r).press = p.press := rfl
@[simp] theorem setCommandResult_account (p : Part) (i : Lane) (r : WordResult) : (setCommandResult p i r).account = p.account := rfl
@[simp] theorem setCommandResult_ring (p : Part) (i : Lane) (r : WordResult) : (setCommandResult p i r).ring = p.ring := rfl
@[simp] theorem setCommandResult_displays (p : Part) (i : Lane) (r : WordResult) : (setCommandResult p i r).displays = p.displays := rfl
@[simp] theorem setCommandResult_store (p : Part) (i : Lane) (r : WordResult) : (setCommandResult p i r).store = p.store := rfl
@[simp] theorem setCommandResult_attention (p : Part) (i : Lane) (r : WordResult) : (setCommandResult p i r).attention = p.attention := rfl
@[simp] theorem setCommandResult_ticks (p : Part) (i : Lane) (r : WordResult) : (setCommandResult p i r).ticks = p.ticks := rfl
@[simp] theorem setCommandResult_freeDraws (p : Part) (i : Lane) (r : WordResult) : (setCommandResult p i r).freeDraws = p.freeDraws := rfl

@[simp] theorem startLane_floor (p : Part) (i : Lane) : (startLane p i).floor = p.floor := by
  unfold startLane; try dsimp only
  (repeat' split) <;> simp
@[simp] theorem startLane_window (p : Part) (i : Lane) : (startLane p i).window = p.window := by
  unfold startLane; try dsimp only
  (repeat' split) <;> simp
@[simp] theorem startLane_catalogue (p : Part) (i : Lane) : (startLane p i).catalogue = p.catalogue := by
  unfold startLane; try dsimp only
  (repeat' split) <;> simp
@[simp] theorem startLane_tracks (p : Part) (i : Lane) : (startLane p i).tracks = p.tracks := by
  unfold startLane; try dsimp only
  (repeat' split) <;> simp
@[simp] theorem startLane_press (p : Part) (i : Lane) : (startLane p i).press = p.press := by
  unfold startLane; try dsimp only
  (repeat' split) <;> simp
@[simp] theorem startLane_account (p : Part) (i : Lane) : (startLane p i).account = p.account := by
  unfold startLane; try dsimp only
  (repeat' split) <;> simp
@[simp] theorem startLane_displays (p : Part) (i : Lane) : (startLane p i).displays = p.displays := by
  unfold startLane; try dsimp only
  (repeat' split) <;> simp
@[simp] theorem startLane_store (p : Part) (i : Lane) : (startLane p i).store = p.store := by
  unfold startLane; try dsimp only
  (repeat' split) <;> simp
@[simp] theorem startLane_ticks (p : Part) (i : Lane) : (startLane p i).ticks = p.ticks := by
  unfold startLane; try dsimp only
  (repeat' split) <;> simp
@[simp] theorem startLane_freeDraws (p : Part) (i : Lane) : (startLane p i).freeDraws = p.freeDraws := by
  unfold startLane; try dsimp only
  (repeat' split) <;> simp

@[simp] theorem holdLane_floor (p : Part) (i : Lane) : (holdLane p i).floor = p.floor := by
  unfold holdLane; try dsimp only
  (repeat' split) <;> simp
@[simp] theorem holdLane_window (p : Part) (i : Lane) : (holdLane p i).window = p.window := by
  unfold holdLane; try dsimp only
  (repeat' split) <;> simp
@[simp] theorem holdLane_catalogue (p : Part) (i : Lane) : (holdLane p i).catalogue = p.catalogue := by
  unfold holdLane; try dsimp only
  (repeat' split) <;> simp
@[simp] theorem holdLane_tracks (p : Part) (i : Lane) : (holdLane p i).tracks = p.tracks := by
  unfold holdLane; try dsimp only
  (repeat' split) <;> simp
@[simp] theorem holdLane_press (p : Part) (i : Lane) : (holdLane p i).press = p.press := by
  unfold holdLane; try dsimp only
  (repeat' split) <;> simp
@[simp] theorem holdLane_account (p : Part) (i : Lane) : (holdLane p i).account = p.account := by
  unfold holdLane; try dsimp only
  (repeat' split) <;> simp
@[simp] theorem holdLane_ring (p : Part) (i : Lane) : (holdLane p i).ring = p.ring := by
  unfold holdLane; try dsimp only
  (repeat' split) <;> simp
@[simp] theorem holdLane_displays (p : Part) (i : Lane) : (holdLane p i).displays = p.displays := by
  unfold holdLane; try dsimp only
  (repeat' split) <;> simp
@[simp] theorem holdLane_store (p : Part) (i : Lane) : (holdLane p i).store = p.store := by
  unfold holdLane; try dsimp only
  (repeat' split) <;> simp
@[simp] theorem holdLane_attention (p : Part) (i : Lane) : (holdLane p i).attention = p.attention := by
  unfold holdLane; try dsimp only
  (repeat' split) <;> simp
@[simp] theorem holdLane_ticks (p : Part) (i : Lane) : (holdLane p i).ticks = p.ticks := by
  unfold holdLane; try dsimp only
  (repeat' split) <;> simp
@[simp] theorem holdLane_freeDraws (p : Part) (i : Lane) : (holdLane p i).freeDraws = p.freeDraws := by
  unfold holdLane; try dsimp only
  (repeat' split) <;> simp

@[simp] theorem resumeLane_floor (p : Part) (i : Lane) (d : Disposition) : (resumeLane p i d).floor = p.floor := by
  unfold resumeLane; try dsimp only
  (repeat' split) <;> simp
@[simp] theorem resumeLane_window (p : Part) (i : Lane) (d : Disposition) : (resumeLane p i d).window = p.window := by
  unfold resumeLane; try dsimp only
  (repeat' split) <;> simp
@[simp] theorem resumeLane_press (p : Part) (i : Lane) (d : Disposition) : (resumeLane p i d).press = p.press := by
  unfold resumeLane; try dsimp only
  (repeat' split) <;> simp
@[simp] theorem resumeLane_account (p : Part) (i : Lane) (d : Disposition) : (resumeLane p i d).account = p.account := by
  unfold resumeLane; try dsimp only
  (repeat' split) <;> simp
@[simp] theorem resumeLane_store (p : Part) (i : Lane) (d : Disposition) : (resumeLane p i d).store = p.store := by
  unfold resumeLane; try dsimp only
  (repeat' split) <;> simp
@[simp] theorem resumeLane_ticks (p : Part) (i : Lane) (d : Disposition) : (resumeLane p i d).ticks = p.ticks := by
  unfold resumeLane; try dsimp only
  (repeat' split) <;> simp
@[simp] theorem resumeLane_freeDraws (p : Part) (i : Lane) (d : Disposition) : (resumeLane p i d).freeDraws = p.freeDraws := by
  unfold resumeLane; try dsimp only
  (repeat' split) <;> simp

@[simp] theorem withdrawHeld_floor (p : Part) (i : Lane) : (withdrawHeld p i).floor = p.floor := by simp [withdrawHeld]
@[simp] theorem withdrawHeld_window (p : Part) (i : Lane) : (withdrawHeld p i).window = p.window := by simp [withdrawHeld]
@[simp] theorem withdrawHeld_tracks (p : Part) (i : Lane) : (withdrawHeld p i).tracks = p.tracks := by simp [withdrawHeld]
@[simp] theorem withdrawHeld_press (p : Part) (i : Lane) : (withdrawHeld p i).press = p.press := by simp [withdrawHeld]
@[simp] theorem withdrawHeld_account (p : Part) (i : Lane) : (withdrawHeld p i).account = p.account := by simp [withdrawHeld]
@[simp] theorem withdrawHeld_displays (p : Part) (i : Lane) : (withdrawHeld p i).displays = p.displays := by simp [withdrawHeld]
@[simp] theorem withdrawHeld_store (p : Part) (i : Lane) : (withdrawHeld p i).store = p.store := by simp [withdrawHeld]
@[simp] theorem withdrawHeld_attention (p : Part) (i : Lane) : (withdrawHeld p i).attention = p.attention := by simp [withdrawHeld]
@[simp] theorem withdrawHeld_ticks (p : Part) (i : Lane) : (withdrawHeld p i).ticks = p.ticks := by simp [withdrawHeld]
@[simp] theorem withdrawHeld_freeDraws (p : Part) (i : Lane) : (withdrawHeld p i).freeDraws = p.freeDraws := by simp [withdrawHeld]

@[simp] theorem withdrawLane_floor (p : Part) (i : Lane) : (withdrawLane p i).floor = p.floor := by
  unfold withdrawLane; try dsimp only
  (repeat' split) <;> simp
@[simp] theorem withdrawLane_window (p : Part) (i : Lane) : (withdrawLane p i).window = p.window := by
  unfold withdrawLane; try dsimp only
  (repeat' split) <;> simp
@[simp] theorem withdrawLane_tracks (p : Part) (i : Lane) : (withdrawLane p i).tracks = p.tracks := by
  unfold withdrawLane; try dsimp only
  (repeat' split) <;> simp
@[simp] theorem withdrawLane_press (p : Part) (i : Lane) : (withdrawLane p i).press = p.press := by
  unfold withdrawLane; try dsimp only
  (repeat' split) <;> simp
@[simp] theorem withdrawLane_account (p : Part) (i : Lane) : (withdrawLane p i).account = p.account := by
  unfold withdrawLane; try dsimp only
  (repeat' split) <;> simp
@[simp] theorem withdrawLane_displays (p : Part) (i : Lane) : (withdrawLane p i).displays = p.displays := by
  unfold withdrawLane; try dsimp only
  (repeat' split) <;> simp
@[simp] theorem withdrawLane_store (p : Part) (i : Lane) : (withdrawLane p i).store = p.store := by
  unfold withdrawLane; try dsimp only
  (repeat' split) <;> simp
@[simp] theorem withdrawLane_attention (p : Part) (i : Lane) : (withdrawLane p i).attention = p.attention := by
  unfold withdrawLane; try dsimp only
  (repeat' split) <;> simp
@[simp] theorem withdrawLane_ticks (p : Part) (i : Lane) : (withdrawLane p i).ticks = p.ticks := by
  unfold withdrawLane; try dsimp only
  (repeat' split) <;> simp
@[simp] theorem withdrawLane_freeDraws (p : Part) (i : Lane) : (withdrawLane p i).freeDraws = p.freeDraws := by
  unfold withdrawLane; try dsimp only
  (repeat' split) <;> simp

@[simp] theorem enableLane_floor (p : Part) (i : Lane) : (enableLane p i).floor = p.floor := by simp [enableLane]
@[simp] theorem enableLane_window (p : Part) (i : Lane) : (enableLane p i).window = p.window := by simp [enableLane]
@[simp] theorem enableLane_catalogue (p : Part) (i : Lane) : (enableLane p i).catalogue = p.catalogue := by simp [enableLane]
@[simp] theorem enableLane_tracks (p : Part) (i : Lane) : (enableLane p i).tracks = p.tracks := by simp [enableLane]
@[simp] theorem enableLane_press (p : Part) (i : Lane) : (enableLane p i).press = p.press := by simp [enableLane]
@[simp] theorem enableLane_account (p : Part) (i : Lane) : (enableLane p i).account = p.account := by simp [enableLane]
@[simp] theorem enableLane_ring (p : Part) (i : Lane) : (enableLane p i).ring = p.ring := by simp [enableLane]
@[simp] theorem enableLane_displays (p : Part) (i : Lane) : (enableLane p i).displays = p.displays := by simp [enableLane]
@[simp] theorem enableLane_store (p : Part) (i : Lane) : (enableLane p i).store = p.store := by simp [enableLane]
@[simp] theorem enableLane_attention (p : Part) (i : Lane) : (enableLane p i).attention = p.attention := by simp [enableLane]
@[simp] theorem enableLane_ticks (p : Part) (i : Lane) : (enableLane p i).ticks = p.ticks := by simp [enableLane]
@[simp] theorem enableLane_freeDraws (p : Part) (i : Lane) : (enableLane p i).freeDraws = p.freeDraws := by simp [enableLane]

@[simp] theorem disableLane_floor (p : Part) (i : Lane) : (disableLane p i).floor = p.floor := by
  unfold disableLane; try dsimp only
  (repeat' split) <;> simp
@[simp] theorem disableLane_window (p : Part) (i : Lane) : (disableLane p i).window = p.window := by
  unfold disableLane; try dsimp only
  (repeat' split) <;> simp
@[simp] theorem disableLane_catalogue (p : Part) (i : Lane) : (disableLane p i).catalogue = p.catalogue := by
  unfold disableLane; try dsimp only
  (repeat' split) <;> simp
@[simp] theorem disableLane_tracks (p : Part) (i : Lane) : (disableLane p i).tracks = p.tracks := by
  unfold disableLane; try dsimp only
  (repeat' split) <;> simp
@[simp] theorem disableLane_press (p : Part) (i : Lane) : (disableLane p i).press = p.press := by
  unfold disableLane; try dsimp only
  (repeat' split) <;> simp
@[simp] theorem disableLane_account (p : Part) (i : Lane) : (disableLane p i).account = p.account := by
  unfold disableLane; try dsimp only
  (repeat' split) <;> simp
@[simp] theorem disableLane_ring (p : Part) (i : Lane) : (disableLane p i).ring = p.ring := by
  unfold disableLane; try dsimp only
  (repeat' split) <;> simp
@[simp] theorem disableLane_displays (p : Part) (i : Lane) : (disableLane p i).displays = p.displays := by
  unfold disableLane; try dsimp only
  (repeat' split) <;> simp
@[simp] theorem disableLane_store (p : Part) (i : Lane) : (disableLane p i).store = p.store := by
  unfold disableLane; try dsimp only
  (repeat' split) <;> simp
@[simp] theorem disableLane_attention (p : Part) (i : Lane) : (disableLane p i).attention = p.attention := by
  unfold disableLane; try dsimp only
  (repeat' split) <;> simp
@[simp] theorem disableLane_ticks (p : Part) (i : Lane) : (disableLane p i).ticks = p.ticks := by
  unfold disableLane; try dsimp only
  (repeat' split) <;> simp
@[simp] theorem disableLane_freeDraws (p : Part) (i : Lane) : (disableLane p i).freeDraws = p.freeDraws := by
  unfold disableLane; try dsimp only
  (repeat' split) <;> simp

@[simp] theorem takeLaneCommand_floor (p : Part) (i : Lane) (c : LaneCommand) : (takeLaneCommand p i c).floor = p.floor := by
  unfold takeLaneCommand; try dsimp only
  (repeat' split) <;> simp
@[simp] theorem takeLaneCommand_window (p : Part) (i : Lane) (c : LaneCommand) : (takeLaneCommand p i c).window = p.window := by
  unfold takeLaneCommand; try dsimp only
  (repeat' split) <;> simp
@[simp] theorem takeLaneCommand_press (p : Part) (i : Lane) (c : LaneCommand) : (takeLaneCommand p i c).press = p.press := by
  unfold takeLaneCommand; try dsimp only
  (repeat' split) <;> simp
@[simp] theorem takeLaneCommand_account (p : Part) (i : Lane) (c : LaneCommand) : (takeLaneCommand p i c).account = p.account := by
  unfold takeLaneCommand; try dsimp only
  (repeat' split) <;> simp
@[simp] theorem takeLaneCommand_store (p : Part) (i : Lane) (c : LaneCommand) : (takeLaneCommand p i c).store = p.store := by
  unfold takeLaneCommand; try dsimp only
  (repeat' split) <;> simp
@[simp] theorem takeLaneCommand_ticks (p : Part) (i : Lane) (c : LaneCommand) : (takeLaneCommand p i c).ticks = p.ticks := by
  unfold takeLaneCommand; try dsimp only
  (repeat' split) <;> simp
@[simp] theorem takeLaneCommand_freeDraws (p : Part) (i : Lane) (c : LaneCommand) : (takeLaneCommand p i c).freeDraws = p.freeDraws := by
  unfold takeLaneCommand; try dsimp only
  (repeat' split) <;> simp

@[simp] theorem takeParam_floor (p : Part) (i : Lane) (k : LaneParam) : (takeParam i p k).floor = p.floor := by
  unfold takeParam; try dsimp only
  (repeat' split) <;> simp
@[simp] theorem takeParam_window (p : Part) (i : Lane) (k : LaneParam) : (takeParam i p k).window = p.window := by
  unfold takeParam; try dsimp only
  (repeat' split) <;> simp
@[simp] theorem takeParam_catalogue (p : Part) (i : Lane) (k : LaneParam) : (takeParam i p k).catalogue = p.catalogue := by
  unfold takeParam; try dsimp only
  (repeat' split) <;> simp
@[simp] theorem takeParam_tracks (p : Part) (i : Lane) (k : LaneParam) : (takeParam i p k).tracks = p.tracks := by
  unfold takeParam; try dsimp only
  (repeat' split) <;> simp
@[simp] theorem takeParam_press (p : Part) (i : Lane) (k : LaneParam) : (takeParam i p k).press = p.press := by
  unfold takeParam; try dsimp only
  (repeat' split) <;> simp
@[simp] theorem takeParam_account (p : Part) (i : Lane) (k : LaneParam) : (takeParam i p k).account = p.account := by
  unfold takeParam; try dsimp only
  (repeat' split) <;> simp
@[simp] theorem takeParam_ring (p : Part) (i : Lane) (k : LaneParam) : (takeParam i p k).ring = p.ring := by
  unfold takeParam; try dsimp only
  (repeat' split) <;> simp
@[simp] theorem takeParam_displays (p : Part) (i : Lane) (k : LaneParam) : (takeParam i p k).displays = p.displays := by
  unfold takeParam; try dsimp only
  (repeat' split) <;> simp
@[simp] theorem takeParam_store (p : Part) (i : Lane) (k : LaneParam) : (takeParam i p k).store = p.store := by
  unfold takeParam; try dsimp only
  (repeat' split) <;> simp
@[simp] theorem takeParam_attention (p : Part) (i : Lane) (k : LaneParam) : (takeParam i p k).attention = p.attention := by
  unfold takeParam; try dsimp only
  (repeat' split) <;> simp
@[simp] theorem takeParam_ticks (p : Part) (i : Lane) (k : LaneParam) : (takeParam i p k).ticks = p.ticks := by
  unfold takeParam; try dsimp only
  (repeat' split) <;> simp
@[simp] theorem takeParam_freeDraws (p : Part) (i : Lane) (k : LaneParam) : (takeParam i p k).freeDraws = p.freeDraws := by
  unfold takeParam; try dsimp only
  (repeat' split) <;> simp

@[simp] theorem setParamResult_floor (p : Part) (i : Lane) (r : WordResult) : (setParamResult p i r).floor = p.floor := rfl
@[simp] theorem setParamResult_window (p : Part) (i : Lane) (r : WordResult) : (setParamResult p i r).window = p.window := rfl
@[simp] theorem setParamResult_catalogue (p : Part) (i : Lane) (r : WordResult) : (setParamResult p i r).catalogue = p.catalogue := rfl
@[simp] theorem setParamResult_tracks (p : Part) (i : Lane) (r : WordResult) : (setParamResult p i r).tracks = p.tracks := rfl
@[simp] theorem setParamResult_press (p : Part) (i : Lane) (r : WordResult) : (setParamResult p i r).press = p.press := rfl
@[simp] theorem setParamResult_account (p : Part) (i : Lane) (r : WordResult) : (setParamResult p i r).account = p.account := rfl
@[simp] theorem setParamResult_ring (p : Part) (i : Lane) (r : WordResult) : (setParamResult p i r).ring = p.ring := rfl
@[simp] theorem setParamResult_displays (p : Part) (i : Lane) (r : WordResult) : (setParamResult p i r).displays = p.displays := rfl
@[simp] theorem setParamResult_store (p : Part) (i : Lane) (r : WordResult) : (setParamResult p i r).store = p.store := rfl
@[simp] theorem setParamResult_attention (p : Part) (i : Lane) (r : WordResult) : (setParamResult p i r).attention = p.attention := rfl
@[simp] theorem setParamResult_ticks (p : Part) (i : Lane) (r : WordResult) : (setParamResult p i r).ticks = p.ticks := rfl
@[simp] theorem setParamResult_freeDraws (p : Part) (i : Lane) (r : WordResult) : (setParamResult p i r).freeDraws = p.freeDraws := rfl

@[simp] theorem takeLaneParams_floor (p : Part) (i : Lane) (b : List (Nat × Byte)) : (takeLaneParams p i b).floor = p.floor := by
  simp [takeLaneParams, foldl_keeps (fun q => q.floor) (takeParam i) (by intros; simp)]
@[simp] theorem takeLaneParams_window (p : Part) (i : Lane) (b : List (Nat × Byte)) : (takeLaneParams p i b).window = p.window := by
  simp [takeLaneParams, foldl_keeps (fun q => q.window) (takeParam i) (by intros; simp)]
@[simp] theorem takeLaneParams_catalogue (p : Part) (i : Lane) (b : List (Nat × Byte)) : (takeLaneParams p i b).catalogue = p.catalogue := by
  simp [takeLaneParams, foldl_keeps (fun q => q.catalogue) (takeParam i) (by intros; simp)]
@[simp] theorem takeLaneParams_tracks (p : Part) (i : Lane) (b : List (Nat × Byte)) : (takeLaneParams p i b).tracks = p.tracks := by
  simp [takeLaneParams, foldl_keeps (fun q => q.tracks) (takeParam i) (by intros; simp)]
@[simp] theorem takeLaneParams_press (p : Part) (i : Lane) (b : List (Nat × Byte)) : (takeLaneParams p i b).press = p.press := by
  simp [takeLaneParams, foldl_keeps (fun q => q.press) (takeParam i) (by intros; simp)]
@[simp] theorem takeLaneParams_account (p : Part) (i : Lane) (b : List (Nat × Byte)) : (takeLaneParams p i b).account = p.account := by
  simp [takeLaneParams, foldl_keeps (fun q => q.account) (takeParam i) (by intros; simp)]
@[simp] theorem takeLaneParams_ring (p : Part) (i : Lane) (b : List (Nat × Byte)) : (takeLaneParams p i b).ring = p.ring := by
  simp [takeLaneParams, foldl_keeps (fun q => q.ring) (takeParam i) (by intros; simp)]
@[simp] theorem takeLaneParams_displays (p : Part) (i : Lane) (b : List (Nat × Byte)) : (takeLaneParams p i b).displays = p.displays := by
  simp [takeLaneParams, foldl_keeps (fun q => q.displays) (takeParam i) (by intros; simp)]
@[simp] theorem takeLaneParams_store (p : Part) (i : Lane) (b : List (Nat × Byte)) : (takeLaneParams p i b).store = p.store := by
  simp [takeLaneParams, foldl_keeps (fun q => q.store) (takeParam i) (by intros; simp)]
@[simp] theorem takeLaneParams_attention (p : Part) (i : Lane) (b : List (Nat × Byte)) : (takeLaneParams p i b).attention = p.attention := by
  simp [takeLaneParams, foldl_keeps (fun q => q.attention) (takeParam i) (by intros; simp)]
@[simp] theorem takeLaneParams_ticks (p : Part) (i : Lane) (b : List (Nat × Byte)) : (takeLaneParams p i b).ticks = p.ticks := by
  simp [takeLaneParams, foldl_keeps (fun q => q.ticks) (takeParam i) (by intros; simp)]
@[simp] theorem takeLaneParams_freeDraws (p : Part) (i : Lane) (b : List (Nat × Byte)) : (takeLaneParams p i b).freeDraws = p.freeDraws := by
  simp [takeLaneParams, foldl_keeps (fun q => q.freeDraws) (takeParam i) (by intros; simp)]

@[simp] theorem judgeStop_floor (p : Part) (i : Lane) : (judgeStop p i).floor = p.floor := by
  unfold judgeStop; try dsimp only
  (repeat' split) <;> simp
@[simp] theorem judgeStop_window (p : Part) (i : Lane) : (judgeStop p i).window = p.window := by
  unfold judgeStop; try dsimp only
  (repeat' split) <;> simp
@[simp] theorem judgeStop_catalogue (p : Part) (i : Lane) : (judgeStop p i).catalogue = p.catalogue := by
  unfold judgeStop; try dsimp only
  (repeat' split) <;> simp
@[simp] theorem judgeStop_tracks (p : Part) (i : Lane) : (judgeStop p i).tracks = p.tracks := by
  unfold judgeStop; try dsimp only
  (repeat' split) <;> simp
@[simp] theorem judgeStop_press (p : Part) (i : Lane) : (judgeStop p i).press = p.press := by
  unfold judgeStop; try dsimp only
  (repeat' split) <;> simp
@[simp] theorem judgeStop_account (p : Part) (i : Lane) : (judgeStop p i).account = p.account := by
  unfold judgeStop; try dsimp only
  (repeat' split) <;> simp
@[simp] theorem judgeStop_ring (p : Part) (i : Lane) : (judgeStop p i).ring = p.ring := by
  unfold judgeStop; try dsimp only
  (repeat' split) <;> simp
@[simp] theorem judgeStop_displays (p : Part) (i : Lane) : (judgeStop p i).displays = p.displays := by
  unfold judgeStop; try dsimp only
  (repeat' split) <;> simp
@[simp] theorem judgeStop_store (p : Part) (i : Lane) : (judgeStop p i).store = p.store := by
  unfold judgeStop; try dsimp only
  (repeat' split) <;> simp
@[simp] theorem judgeStop_ticks (p : Part) (i : Lane) : (judgeStop p i).ticks = p.ticks := by
  unfold judgeStop; try dsimp only
  (repeat' split) <;> simp
@[simp] theorem judgeStop_freeDraws (p : Part) (i : Lane) : (judgeStop p i).freeDraws = p.freeDraws := by
  unfold judgeStop; try dsimp only
  (repeat' split) <;> simp

@[simp] theorem takeStopMode_floor (p : Part) (i : Lane) (b : List (Nat × Byte)) : (takeStopMode p i b).floor = p.floor := by
  unfold takeStopMode; try dsimp only
  (repeat' split) <;> simp
@[simp] theorem takeStopMode_window (p : Part) (i : Lane) (b : List (Nat × Byte)) : (takeStopMode p i b).window = p.window := by
  unfold takeStopMode; try dsimp only
  (repeat' split) <;> simp
@[simp] theorem takeStopMode_catalogue (p : Part) (i : Lane) (b : List (Nat × Byte)) : (takeStopMode p i b).catalogue = p.catalogue := by
  unfold takeStopMode; try dsimp only
  (repeat' split) <;> simp
@[simp] theorem takeStopMode_tracks (p : Part) (i : Lane) (b : List (Nat × Byte)) : (takeStopMode p i b).tracks = p.tracks := by
  unfold takeStopMode; try dsimp only
  (repeat' split) <;> simp
@[simp] theorem takeStopMode_press (p : Part) (i : Lane) (b : List (Nat × Byte)) : (takeStopMode p i b).press = p.press := by
  unfold takeStopMode; try dsimp only
  (repeat' split) <;> simp
@[simp] theorem takeStopMode_account (p : Part) (i : Lane) (b : List (Nat × Byte)) : (takeStopMode p i b).account = p.account := by
  unfold takeStopMode; try dsimp only
  (repeat' split) <;> simp
@[simp] theorem takeStopMode_ring (p : Part) (i : Lane) (b : List (Nat × Byte)) : (takeStopMode p i b).ring = p.ring := by
  unfold takeStopMode; try dsimp only
  (repeat' split) <;> simp
@[simp] theorem takeStopMode_displays (p : Part) (i : Lane) (b : List (Nat × Byte)) : (takeStopMode p i b).displays = p.displays := by
  unfold takeStopMode; try dsimp only
  (repeat' split) <;> simp
@[simp] theorem takeStopMode_store (p : Part) (i : Lane) (b : List (Nat × Byte)) : (takeStopMode p i b).store = p.store := by
  unfold takeStopMode; try dsimp only
  (repeat' split) <;> simp
@[simp] theorem takeStopMode_ticks (p : Part) (i : Lane) (b : List (Nat × Byte)) : (takeStopMode p i b).ticks = p.ticks := by
  unfold takeStopMode; try dsimp only
  (repeat' split) <;> simp
@[simp] theorem takeStopMode_freeDraws (p : Part) (i : Lane) (b : List (Nat × Byte)) : (takeStopMode p i b).freeDraws = p.freeDraws := by
  unfold takeStopMode; try dsimp only
  (repeat' split) <;> simp

@[simp] theorem stepExpiry_floor (p : Part) (i : Lane) : (stepExpiry p i).floor = p.floor := by
  unfold stepExpiry; try dsimp only
  (repeat' split) <;> simp
@[simp] theorem stepExpiry_window (p : Part) (i : Lane) : (stepExpiry p i).window = p.window := by
  unfold stepExpiry; try dsimp only
  (repeat' split) <;> simp
@[simp] theorem stepExpiry_tracks (p : Part) (i : Lane) : (stepExpiry p i).tracks = p.tracks := by
  unfold stepExpiry; try dsimp only
  (repeat' split) <;> simp
@[simp] theorem stepExpiry_press (p : Part) (i : Lane) : (stepExpiry p i).press = p.press := by
  unfold stepExpiry; try dsimp only
  (repeat' split) <;> simp
@[simp] theorem stepExpiry_account (p : Part) (i : Lane) : (stepExpiry p i).account = p.account := by
  unfold stepExpiry; try dsimp only
  (repeat' split) <;> simp
@[simp] theorem stepExpiry_displays (p : Part) (i : Lane) : (stepExpiry p i).displays = p.displays := by
  unfold stepExpiry; try dsimp only
  (repeat' split) <;> simp
@[simp] theorem stepExpiry_store (p : Part) (i : Lane) : (stepExpiry p i).store = p.store := by
  unfold stepExpiry; try dsimp only
  (repeat' split) <;> simp
@[simp] theorem stepExpiry_attention (p : Part) (i : Lane) : (stepExpiry p i).attention = p.attention := by
  unfold stepExpiry; try dsimp only
  (repeat' split) <;> simp
@[simp] theorem stepExpiry_ticks (p : Part) (i : Lane) : (stepExpiry p i).ticks = p.ticks := by
  unfold stepExpiry; try dsimp only
  (repeat' split) <;> simp
@[simp] theorem stepExpiry_freeDraws (p : Part) (i : Lane) : (stepExpiry p i).freeDraws = p.freeDraws := by
  unfold stepExpiry; try dsimp only
  (repeat' split) <;> simp

@[simp] theorem takeTick_floor (p : Part) : (takeTick p).floor = p.floor := rfl
@[simp] theorem takeTick_window (p : Part) : (takeTick p).window = p.window := rfl
@[simp] theorem takeTick_catalogue (p : Part) : (takeTick p).catalogue = p.catalogue := rfl
@[simp] theorem takeTick_tracks (p : Part) : (takeTick p).tracks = p.tracks := rfl
@[simp] theorem takeTick_press (p : Part) : (takeTick p).press = p.press := rfl
@[simp] theorem takeTick_account (p : Part) : (takeTick p).account = p.account := rfl
@[simp] theorem takeTick_ring (p : Part) : (takeTick p).ring = p.ring := rfl
@[simp] theorem takeTick_displays (p : Part) : (takeTick p).displays = p.displays := rfl
@[simp] theorem takeTick_store (p : Part) : (takeTick p).store = p.store := rfl
@[simp] theorem takeTick_attention (p : Part) : (takeTick p).attention = p.attention := rfl
@[simp] theorem takeTick_freeDraws (p : Part) : (takeTick p).freeDraws = p.freeDraws := rfl

/-! ### The day -/

@[simp] theorem setDayResult_floor (p : Part) (r : WordResult) : (setDayResult p r).floor = p.floor := rfl
@[simp] theorem setDayResult_catalogue (p : Part) (r : WordResult) : (setDayResult p r).catalogue = p.catalogue := rfl
@[simp] theorem setDayResult_tracks (p : Part) (r : WordResult) : (setDayResult p r).tracks = p.tracks := rfl
@[simp] theorem setDayResult_lanes (p : Part) (r : WordResult) : (setDayResult p r).lanes = p.lanes := rfl
@[simp] theorem setDayResult_press (p : Part) (r : WordResult) : (setDayResult p r).press = p.press := rfl
@[simp] theorem setDayResult_account (p : Part) (r : WordResult) : (setDayResult p r).account = p.account := rfl
@[simp] theorem setDayResult_ring (p : Part) (r : WordResult) : (setDayResult p r).ring = p.ring := rfl
@[simp] theorem setDayResult_displays (p : Part) (r : WordResult) : (setDayResult p r).displays = p.displays := rfl
@[simp] theorem setDayResult_store (p : Part) (r : WordResult) : (setDayResult p r).store = p.store := rfl
@[simp] theorem setDayResult_attention (p : Part) (r : WordResult) : (setDayResult p r).attention = p.attention := rfl
@[simp] theorem setDayResult_ticks (p : Part) (r : WordResult) : (setDayResult p r).ticks = p.ticks := rfl
@[simp] theorem setDayResult_freeDraws (p : Part) (r : WordResult) : (setDayResult p r).freeDraws = p.freeDraws := rfl

@[simp] theorem openDay_floor (p : Part) (n : Nat) : (openDay p n).floor = p.floor := by simp [openDay]
@[simp] theorem openDay_catalogue (p : Part) (n : Nat) : (openDay p n).catalogue = p.catalogue := by simp [openDay]
@[simp] theorem openDay_tracks (p : Part) (n : Nat) : (openDay p n).tracks = p.tracks := by simp [openDay]
@[simp] theorem openDay_lanes (p : Part) (n : Nat) : (openDay p n).lanes = p.lanes := by simp [openDay]
@[simp] theorem openDay_press (p : Part) (n : Nat) : (openDay p n).press = p.press := by simp [openDay]
@[simp] theorem openDay_account (p : Part) (n : Nat) : (openDay p n).account = p.account := by simp [openDay]
@[simp] theorem openDay_displays (p : Part) (n : Nat) : (openDay p n).displays = p.displays := by simp [openDay]
@[simp] theorem openDay_store (p : Part) (n : Nat) : (openDay p n).store = p.store := by simp [openDay]
@[simp] theorem openDay_attention (p : Part) (n : Nat) : (openDay p n).attention = p.attention := by simp [openDay]
@[simp] theorem openDay_ticks (p : Part) (n : Nat) : (openDay p n).ticks = p.ticks := by simp [openDay]
@[simp] theorem openDay_freeDraws (p : Part) (n : Nat) : (openDay p n).freeDraws = p.freeDraws := by simp [openDay]

@[simp] theorem takeDayOpen_floor (p : Part) (n : Nat) : (takeDayOpen p n).floor = p.floor := by
  unfold takeDayOpen; try dsimp only
  (repeat' split) <;> simp
@[simp] theorem takeDayOpen_catalogue (p : Part) (n : Nat) : (takeDayOpen p n).catalogue = p.catalogue := by
  unfold takeDayOpen; try dsimp only
  (repeat' split) <;> simp
@[simp] theorem takeDayOpen_tracks (p : Part) (n : Nat) : (takeDayOpen p n).tracks = p.tracks := by
  unfold takeDayOpen; try dsimp only
  (repeat' split) <;> simp
@[simp] theorem takeDayOpen_lanes (p : Part) (n : Nat) : (takeDayOpen p n).lanes = p.lanes := by
  unfold takeDayOpen; try dsimp only
  (repeat' split) <;> simp
@[simp] theorem takeDayOpen_press (p : Part) (n : Nat) : (takeDayOpen p n).press = p.press := by
  unfold takeDayOpen; try dsimp only
  (repeat' split) <;> simp
@[simp] theorem takeDayOpen_account (p : Part) (n : Nat) : (takeDayOpen p n).account = p.account := by
  unfold takeDayOpen; try dsimp only
  (repeat' split) <;> simp
@[simp] theorem takeDayOpen_displays (p : Part) (n : Nat) : (takeDayOpen p n).displays = p.displays := by
  unfold takeDayOpen; try dsimp only
  (repeat' split) <;> simp
@[simp] theorem takeDayOpen_store (p : Part) (n : Nat) : (takeDayOpen p n).store = p.store := by
  unfold takeDayOpen; try dsimp only
  (repeat' split) <;> simp
@[simp] theorem takeDayOpen_attention (p : Part) (n : Nat) : (takeDayOpen p n).attention = p.attention := by
  unfold takeDayOpen; try dsimp only
  (repeat' split) <;> simp
@[simp] theorem takeDayOpen_ticks (p : Part) (n : Nat) : (takeDayOpen p n).ticks = p.ticks := by
  unfold takeDayOpen; try dsimp only
  (repeat' split) <;> simp
@[simp] theorem takeDayOpen_freeDraws (p : Part) (n : Nat) : (takeDayOpen p n).freeDraws = p.freeDraws := by
  unfold takeDayOpen; try dsimp only
  (repeat' split) <;> simp

@[simp] theorem markAllWithdraw_floor (p : Part) : (markAllWithdraw p).floor = p.floor := rfl
@[simp] theorem markAllWithdraw_window (p : Part) : (markAllWithdraw p).window = p.window := rfl
@[simp] theorem markAllWithdraw_tracks (p : Part) : (markAllWithdraw p).tracks = p.tracks := rfl
@[simp] theorem markAllWithdraw_lanes (p : Part) : (markAllWithdraw p).lanes = p.lanes := rfl
@[simp] theorem markAllWithdraw_press (p : Part) : (markAllWithdraw p).press = p.press := rfl
@[simp] theorem markAllWithdraw_account (p : Part) : (markAllWithdraw p).account = p.account := rfl
@[simp] theorem markAllWithdraw_ring (p : Part) : (markAllWithdraw p).ring = p.ring := rfl
@[simp] theorem markAllWithdraw_displays (p : Part) : (markAllWithdraw p).displays = p.displays := rfl
@[simp] theorem markAllWithdraw_store (p : Part) : (markAllWithdraw p).store = p.store := rfl
@[simp] theorem markAllWithdraw_attention (p : Part) : (markAllWithdraw p).attention = p.attention := rfl
@[simp] theorem markAllWithdraw_ticks (p : Part) : (markAllWithdraw p).ticks = p.ticks := rfl
@[simp] theorem markAllWithdraw_freeDraws (p : Part) : (markAllWithdraw p).freeDraws = p.freeDraws := rfl

@[simp] theorem withdrawAll_floor (p : Part) : (withdrawAll p).floor = p.floor := by
  unfold withdrawAll; dsimp only; split <;> exact foldl_keeps (fun q => q.floor) _ (by intros; simp) _ _
@[simp] theorem withdrawAll_window (p : Part) : (withdrawAll p).window = p.window := by
  unfold withdrawAll; dsimp only; split <;> exact foldl_keeps (fun q => q.window) _ (by intros; simp) _ _
@[simp] theorem withdrawAll_tracks (p : Part) : (withdrawAll p).tracks = p.tracks := by
  unfold withdrawAll; dsimp only; split <;> exact foldl_keeps (fun q => q.tracks) _ (by intros; simp) _ _
@[simp] theorem withdrawAll_lanes (p : Part) : (withdrawAll p).lanes = p.lanes := by
  unfold withdrawAll; dsimp only; split <;> exact foldl_keeps (fun q => q.lanes) _ (by intros; simp) _ _
@[simp] theorem withdrawAll_press (p : Part) : (withdrawAll p).press = p.press := by
  unfold withdrawAll; dsimp only; split <;> exact foldl_keeps (fun q => q.press) _ (by intros; simp) _ _
@[simp] theorem withdrawAll_account (p : Part) : (withdrawAll p).account = p.account := by
  unfold withdrawAll; dsimp only; split <;> exact foldl_keeps (fun q => q.account) _ (by intros; simp) _ _
@[simp] theorem withdrawAll_ring (p : Part) : (withdrawAll p).ring = p.ring := by
  unfold withdrawAll; dsimp only; split <;> exact foldl_keeps (fun q => q.ring) _ (by intros; simp) _ _
@[simp] theorem withdrawAll_displays (p : Part) : (withdrawAll p).displays = p.displays := by
  unfold withdrawAll; dsimp only; split <;> exact foldl_keeps (fun q => q.displays) _ (by intros; simp) _ _
@[simp] theorem withdrawAll_store (p : Part) : (withdrawAll p).store = p.store := by
  unfold withdrawAll; dsimp only; split <;> exact foldl_keeps (fun q => q.store) _ (by intros; simp) _ _
@[simp] theorem withdrawAll_attention (p : Part) : (withdrawAll p).attention = p.attention := by
  unfold withdrawAll; dsimp only; split <;> exact foldl_keeps (fun q => q.attention) _ (by intros; simp) _ _
@[simp] theorem withdrawAll_ticks (p : Part) : (withdrawAll p).ticks = p.ticks := by
  unfold withdrawAll; dsimp only; split <;> exact foldl_keeps (fun q => q.ticks) _ (by intros; simp) _ _

@[simp] theorem flushLane_floor (b p : Part) (i : Lane) : (flushLane b p i).floor = p.floor := by simp [flushLane]
@[simp] theorem flushLane_window (b p : Part) (i : Lane) : (flushLane b p i).window = p.window := by simp [flushLane]
@[simp] theorem flushLane_lanes (b p : Part) (i : Lane) : (flushLane b p i).lanes = p.lanes := by simp [flushLane]
@[simp] theorem flushLane_press (b p : Part) (i : Lane) : (flushLane b p i).press = p.press := by simp [flushLane]
@[simp] theorem flushLane_account (b p : Part) (i : Lane) : (flushLane b p i).account = p.account := by simp [flushLane]
@[simp] theorem flushLane_ring (b p : Part) (i : Lane) : (flushLane b p i).ring = p.ring := by simp [flushLane]
@[simp] theorem flushLane_store (b p : Part) (i : Lane) : (flushLane b p i).store = p.store := by simp [flushLane]
@[simp] theorem flushLane_attention (b p : Part) (i : Lane) : (flushLane b p i).attention = p.attention := by simp [flushLane]
@[simp] theorem flushLane_ticks (b p : Part) (i : Lane) : (flushLane b p i).ticks = p.ticks := by simp [flushLane]
@[simp] theorem flushLane_freeDraws (b p : Part) (i : Lane) : (flushLane b p i).freeDraws = p.freeDraws := by simp [flushLane]

@[simp] theorem flushLanes_floor (p : Part) : (flushLanes p).floor = p.floor :=
  foldl_keeps (fun q => q.floor) (flushLane p) (by intros; simp) _ _
@[simp] theorem flushLanes_window (p : Part) : (flushLanes p).window = p.window :=
  foldl_keeps (fun q => q.window) (flushLane p) (by intros; simp) _ _
@[simp] theorem flushLanes_lanes (p : Part) : (flushLanes p).lanes = p.lanes :=
  foldl_keeps (fun q => q.lanes) (flushLane p) (by intros; simp) _ _
@[simp] theorem flushLanes_press (p : Part) : (flushLanes p).press = p.press :=
  foldl_keeps (fun q => q.press) (flushLane p) (by intros; simp) _ _
@[simp] theorem flushLanes_account (p : Part) : (flushLanes p).account = p.account :=
  foldl_keeps (fun q => q.account) (flushLane p) (by intros; simp) _ _
@[simp] theorem flushLanes_ring (p : Part) : (flushLanes p).ring = p.ring :=
  foldl_keeps (fun q => q.ring) (flushLane p) (by intros; simp) _ _
@[simp] theorem flushLanes_store (p : Part) : (flushLanes p).store = p.store :=
  foldl_keeps (fun q => q.store) (flushLane p) (by intros; simp) _ _
@[simp] theorem flushLanes_attention (p : Part) : (flushLanes p).attention = p.attention :=
  foldl_keeps (fun q => q.attention) (flushLane p) (by intros; simp) _ _
@[simp] theorem flushLanes_ticks (p : Part) : (flushLanes p).ticks = p.ticks :=
  foldl_keeps (fun q => q.ticks) (flushLane p) (by intros; simp) _ _
@[simp] theorem flushLanes_freeDraws (p : Part) : (flushLanes p).freeDraws = p.freeDraws :=
  foldl_keeps (fun q => q.freeDraws) (flushLane p) (by intros; simp) _ _

@[simp] theorem endDay_floor (p : Part) : (endDay p).floor = p.floor := by simp [endDay]
@[simp] theorem endDay_catalogue (p : Part) : (endDay p).catalogue = p.catalogue := by simp [endDay]
@[simp] theorem endDay_tracks (p : Part) : (endDay p).tracks = p.tracks := by simp [endDay]
@[simp] theorem endDay_lanes (p : Part) : (endDay p).lanes = p.lanes := by simp [endDay]
@[simp] theorem endDay_press (p : Part) : (endDay p).press = p.press := by simp [endDay]
@[simp] theorem endDay_displays (p : Part) : (endDay p).displays = p.displays := by simp [endDay]
@[simp] theorem endDay_store (p : Part) : (endDay p).store = p.store := by simp [endDay]
@[simp] theorem endDay_ticks (p : Part) : (endDay p).ticks = p.ticks := by simp [endDay]
@[simp] theorem endDay_freeDraws (p : Part) : (endDay p).freeDraws = p.freeDraws := by simp [endDay]

@[simp] theorem endDayIfDue_floor (p : Part) : (endDayIfDue p).floor = p.floor := by
  unfold endDayIfDue; try dsimp only
  (repeat' split) <;> simp
@[simp] theorem endDayIfDue_catalogue (p : Part) : (endDayIfDue p).catalogue = p.catalogue := by
  unfold endDayIfDue; try dsimp only
  (repeat' split) <;> simp
@[simp] theorem endDayIfDue_tracks (p : Part) : (endDayIfDue p).tracks = p.tracks := by
  unfold endDayIfDue; try dsimp only
  (repeat' split) <;> simp
@[simp] theorem endDayIfDue_lanes (p : Part) : (endDayIfDue p).lanes = p.lanes := by
  unfold endDayIfDue; try dsimp only
  (repeat' split) <;> simp
@[simp] theorem endDayIfDue_press (p : Part) : (endDayIfDue p).press = p.press := by
  unfold endDayIfDue; try dsimp only
  (repeat' split) <;> simp
@[simp] theorem endDayIfDue_displays (p : Part) : (endDayIfDue p).displays = p.displays := by
  unfold endDayIfDue; try dsimp only
  (repeat' split) <;> simp
@[simp] theorem endDayIfDue_store (p : Part) : (endDayIfDue p).store = p.store := by
  unfold endDayIfDue; try dsimp only
  (repeat' split) <;> simp
@[simp] theorem endDayIfDue_ticks (p : Part) : (endDayIfDue p).ticks = p.ticks := by
  unfold endDayIfDue; try dsimp only
  (repeat' split) <;> simp
@[simp] theorem endDayIfDue_freeDraws (p : Part) : (endDayIfDue p).freeDraws = p.freeDraws := by
  unfold endDayIfDue; try dsimp only
  (repeat' split) <;> simp

@[simp] theorem closeDay_floor (p : Part) : (closeDay p).floor = p.floor := by
  simp [closeDay]
@[simp] theorem closeDay_lanes (p : Part) : (closeDay p).lanes = p.lanes := by
  simp [closeDay]
@[simp] theorem closeDay_press (p : Part) : (closeDay p).press = p.press := by
  simp [closeDay]
@[simp] theorem closeDay_store (p : Part) : (closeDay p).store = p.store := by
  simp [closeDay]
@[simp] theorem closeDay_ticks (p : Part) : (closeDay p).ticks = p.ticks := by
  simp [closeDay]

@[simp] theorem takeDayClose_floor (p : Part) : (takeDayClose p).floor = p.floor := by
  unfold takeDayClose; try dsimp only
  (repeat' split) <;> simp
@[simp] theorem takeDayClose_lanes (p : Part) : (takeDayClose p).lanes = p.lanes := by
  unfold takeDayClose; try dsimp only
  (repeat' split) <;> simp
@[simp] theorem takeDayClose_press (p : Part) : (takeDayClose p).press = p.press := by
  unfold takeDayClose; try dsimp only
  (repeat' split) <;> simp
@[simp] theorem takeDayClose_store (p : Part) : (takeDayClose p).store = p.store := by
  unfold takeDayClose; try dsimp only
  (repeat' split) <;> simp
@[simp] theorem takeDayClose_ticks (p : Part) : (takeDayClose p).ticks = p.ticks := by
  unfold takeDayClose; try dsimp only
  (repeat' split) <;> simp

@[simp] theorem takeDayWord_floor (p : Part) (n : Nat) (c : DayCommand) : (takeDayWord p n c).floor = p.floor := by
  unfold takeDayWord; try dsimp only
  (repeat' split) <;> simp
@[simp] theorem takeDayWord_lanes (p : Part) (n : Nat) (c : DayCommand) : (takeDayWord p n c).lanes = p.lanes := by
  unfold takeDayWord; try dsimp only
  (repeat' split) <;> simp
@[simp] theorem takeDayWord_press (p : Part) (n : Nat) (c : DayCommand) : (takeDayWord p n c).press = p.press := by
  unfold takeDayWord; try dsimp only
  (repeat' split) <;> simp
@[simp] theorem takeDayWord_store (p : Part) (n : Nat) (c : DayCommand) : (takeDayWord p n c).store = p.store := by
  unfold takeDayWord; try dsimp only
  (repeat' split) <;> simp
@[simp] theorem takeDayWord_ticks (p : Part) (n : Nat) (c : DayCommand) : (takeDayWord p n c).ticks = p.ticks := by
  unfold takeDayWord; try dsimp only
  (repeat' split) <;> simp

@[simp] theorem emptyKeptDisplay_floor (p : Part) (i : Lane) : (emptyKeptDisplay p i).floor = p.floor := by
  unfold emptyKeptDisplay; try dsimp only
  (repeat' split) <;> simp
@[simp] theorem emptyKeptDisplay_window (p : Part) (i : Lane) : (emptyKeptDisplay p i).window = p.window := by
  unfold emptyKeptDisplay; try dsimp only
  (repeat' split) <;> simp
@[simp] theorem emptyKeptDisplay_lanes (p : Part) (i : Lane) : (emptyKeptDisplay p i).lanes = p.lanes := by
  unfold emptyKeptDisplay; try dsimp only
  (repeat' split) <;> simp
@[simp] theorem emptyKeptDisplay_press (p : Part) (i : Lane) : (emptyKeptDisplay p i).press = p.press := by
  unfold emptyKeptDisplay; try dsimp only
  (repeat' split) <;> simp
@[simp] theorem emptyKeptDisplay_account (p : Part) (i : Lane) : (emptyKeptDisplay p i).account = p.account := by
  unfold emptyKeptDisplay; try dsimp only
  (repeat' split) <;> simp
@[simp] theorem emptyKeptDisplay_ring (p : Part) (i : Lane) : (emptyKeptDisplay p i).ring = p.ring := by
  unfold emptyKeptDisplay; try dsimp only
  (repeat' split) <;> simp
@[simp] theorem emptyKeptDisplay_store (p : Part) (i : Lane) : (emptyKeptDisplay p i).store = p.store := by
  unfold emptyKeptDisplay; try dsimp only
  (repeat' split) <;> simp
@[simp] theorem emptyKeptDisplay_attention (p : Part) (i : Lane) : (emptyKeptDisplay p i).attention = p.attention := by
  unfold emptyKeptDisplay; try dsimp only
  (repeat' split) <;> simp
@[simp] theorem emptyKeptDisplay_ticks (p : Part) (i : Lane) : (emptyKeptDisplay p i).ticks = p.ticks := by
  unfold emptyKeptDisplay; try dsimp only
  (repeat' split) <;> simp
@[simp] theorem emptyKeptDisplay_freeDraws (p : Part) (i : Lane) : (emptyKeptDisplay p i).freeDraws = p.freeDraws := by
  unfold emptyKeptDisplay; try dsimp only
  (repeat' split) <;> simp

@[simp] theorem completeClose_floor (p : Part) (i : Lane) (lot : Nat) : (completeClose p i lot).floor = p.floor := by simp [completeClose]
@[simp] theorem completeClose_window (p : Part) (i : Lane) (lot : Nat) : (completeClose p i lot).window = p.window := by simp [completeClose]
@[simp] theorem completeClose_lanes (p : Part) (i : Lane) (lot : Nat) : (completeClose p i lot).lanes = p.lanes := by simp [completeClose]
@[simp] theorem completeClose_press (p : Part) (i : Lane) (lot : Nat) : (completeClose p i lot).press = p.press := by simp [completeClose]
@[simp] theorem completeClose_account (p : Part) (i : Lane) (lot : Nat) : (completeClose p i lot).account = p.account := by simp [completeClose]
@[simp] theorem completeClose_ring (p : Part) (i : Lane) (lot : Nat) : (completeClose p i lot).ring = p.ring := by simp [completeClose]
@[simp] theorem completeClose_store (p : Part) (i : Lane) (lot : Nat) : (completeClose p i lot).store = p.store := by simp [completeClose]
@[simp] theorem completeClose_ticks (p : Part) (i : Lane) (lot : Nat) : (completeClose p i lot).ticks = p.ticks := by simp [completeClose]
@[simp] theorem completeClose_freeDraws (p : Part) (i : Lane) (lot : Nat) : (completeClose p i lot).freeDraws = p.freeDraws := by simp [completeClose]

@[simp] theorem leaveClosing_floor (p : Part) (i : Lane) : (leaveClosing p i).floor = p.floor := by
  unfold leaveClosing; try dsimp only
  (repeat' split) <;> simp
@[simp] theorem leaveClosing_window (p : Part) (i : Lane) : (leaveClosing p i).window = p.window := by
  unfold leaveClosing; try dsimp only
  (repeat' split) <;> simp
@[simp] theorem leaveClosing_tracks (p : Part) (i : Lane) : (leaveClosing p i).tracks = p.tracks := by
  unfold leaveClosing; try dsimp only
  (repeat' split) <;> simp
@[simp] theorem leaveClosing_press (p : Part) (i : Lane) : (leaveClosing p i).press = p.press := by
  unfold leaveClosing; try dsimp only
  (repeat' split) <;> simp
@[simp] theorem leaveClosing_account (p : Part) (i : Lane) : (leaveClosing p i).account = p.account := by
  unfold leaveClosing; try dsimp only
  (repeat' split) <;> simp
@[simp] theorem leaveClosing_store (p : Part) (i : Lane) : (leaveClosing p i).store = p.store := by
  unfold leaveClosing; try dsimp only
  (repeat' split) <;> simp
@[simp] theorem leaveClosing_ticks (p : Part) (i : Lane) : (leaveClosing p i).ticks = p.ticks := by
  unfold leaveClosing; try dsimp only
  (repeat' split) <;> simp
@[simp] theorem leaveClosing_freeDraws (p : Part) (i : Lane) : (leaveClosing p i).freeDraws = p.freeDraws := by
  unfold leaveClosing; try dsimp only
  (repeat' split) <;> simp

@[simp] theorem completeWriteBack_floor (p : Part) (e : WriteBackEntry) : (completeWriteBack p e).floor = p.floor := by
  unfold completeWriteBack; try dsimp only
  (repeat' split) <;> simp
@[simp] theorem completeWriteBack_tracks (p : Part) (e : WriteBackEntry) : (completeWriteBack p e).tracks = p.tracks := by
  unfold completeWriteBack; try dsimp only
  (repeat' split) <;> simp
@[simp] theorem completeWriteBack_press (p : Part) (e : WriteBackEntry) : (completeWriteBack p e).press = p.press := by
  unfold completeWriteBack; try dsimp only
  (repeat' split) <;> simp
@[simp] theorem completeWriteBack_store (p : Part) (e : WriteBackEntry) : (completeWriteBack p e).store = p.store := by
  unfold completeWriteBack; try dsimp only
  (repeat' split) <;> simp
@[simp] theorem completeWriteBack_ticks (p : Part) (e : WriteBackEntry) : (completeWriteBack p e).ticks = p.ticks := by
  unfold completeWriteBack; try dsimp only
  (repeat' split) <;> simp
@[simp] theorem completeWriteBack_freeDraws (p : Part) (e : WriteBackEntry) : (completeWriteBack p e).freeDraws = p.freeDraws := by
  unfold completeWriteBack; try dsimp only
  (repeat' split) <;> simp

/-! ### Windows and attention words -/

@[simp] theorem setWindowResult_floor (p : Part) (w : Window) (r : WordResult) (c : CommitReason) : (setWindowResult p w r c).floor = p.floor := rfl
@[simp] theorem setWindowResult_catalogue (p : Part) (w : Window) (r : WordResult) (c : CommitReason) : (setWindowResult p w r c).catalogue = p.catalogue := rfl
@[simp] theorem setWindowResult_tracks (p : Part) (w : Window) (r : WordResult) (c : CommitReason) : (setWindowResult p w r c).tracks = p.tracks := rfl
@[simp] theorem setWindowResult_lanes (p : Part) (w : Window) (r : WordResult) (c : CommitReason) : (setWindowResult p w r c).lanes = p.lanes := rfl
@[simp] theorem setWindowResult_press (p : Part) (w : Window) (r : WordResult) (c : CommitReason) : (setWindowResult p w r c).press = p.press := rfl
@[simp] theorem setWindowResult_account (p : Part) (w : Window) (r : WordResult) (c : CommitReason) : (setWindowResult p w r c).account = p.account := rfl
@[simp] theorem setWindowResult_ring (p : Part) (w : Window) (r : WordResult) (c : CommitReason) : (setWindowResult p w r c).ring = p.ring := rfl
@[simp] theorem setWindowResult_displays (p : Part) (w : Window) (r : WordResult) (c : CommitReason) : (setWindowResult p w r c).displays = p.displays := rfl
@[simp] theorem setWindowResult_store (p : Part) (w : Window) (r : WordResult) (c : CommitReason) : (setWindowResult p w r c).store = p.store := rfl
@[simp] theorem setWindowResult_attention (p : Part) (w : Window) (r : WordResult) (c : CommitReason) : (setWindowResult p w r c).attention = p.attention := rfl
@[simp] theorem setWindowResult_ticks (p : Part) (w : Window) (r : WordResult) (c : CommitReason) : (setWindowResult p w r c).ticks = p.ticks := rfl
@[simp] theorem setWindowResult_freeDraws (p : Part) (w : Window) (r : WordResult) (c : CommitReason) : (setWindowResult p w r c).freeDraws = p.freeDraws := rfl

@[simp] theorem refuseWindow_floor (p : Part) (m : Master) (w : Window) (c : CommitReason) : (refuseWindow p m w c).floor = p.floor := by simp [refuseWindow]
@[simp] theorem refuseWindow_catalogue (p : Part) (m : Master) (w : Window) (c : CommitReason) : (refuseWindow p m w c).catalogue = p.catalogue := by simp [refuseWindow]
@[simp] theorem refuseWindow_tracks (p : Part) (m : Master) (w : Window) (c : CommitReason) : (refuseWindow p m w c).tracks = p.tracks := by simp [refuseWindow]
@[simp] theorem refuseWindow_lanes (p : Part) (m : Master) (w : Window) (c : CommitReason) : (refuseWindow p m w c).lanes = p.lanes := by simp [refuseWindow]
@[simp] theorem refuseWindow_press (p : Part) (m : Master) (w : Window) (c : CommitReason) : (refuseWindow p m w c).press = p.press := by simp [refuseWindow]
@[simp] theorem refuseWindow_account (p : Part) (m : Master) (w : Window) (c : CommitReason) : (refuseWindow p m w c).account = p.account := by simp [refuseWindow]
@[simp] theorem refuseWindow_ring (p : Part) (m : Master) (w : Window) (c : CommitReason) : (refuseWindow p m w c).ring = p.ring := by simp [refuseWindow]
@[simp] theorem refuseWindow_displays (p : Part) (m : Master) (w : Window) (c : CommitReason) : (refuseWindow p m w c).displays = p.displays := by simp [refuseWindow]
@[simp] theorem refuseWindow_store (p : Part) (m : Master) (w : Window) (c : CommitReason) : (refuseWindow p m w c).store = p.store := by simp [refuseWindow]
@[simp] theorem refuseWindow_ticks (p : Part) (m : Master) (w : Window) (c : CommitReason) : (refuseWindow p m w c).ticks = p.ticks := by simp [refuseWindow]
@[simp] theorem refuseWindow_freeDraws (p : Part) (m : Master) (w : Window) (c : CommitReason) : (refuseWindow p m w c).freeDraws = p.freeDraws := by simp [refuseWindow]

@[simp] theorem commitRing_floor (p : Part) (h : WindowEntry) (k : WindowKind) (d : Descriptor) : (commitRing p h k d).floor = p.floor := by
  unfold commitRing; try dsimp only
  (repeat' split) <;> simp
@[simp] theorem commitRing_window (p : Part) (h : WindowEntry) (k : WindowKind) (d : Descriptor) : (commitRing p h k d).window = p.window := by
  unfold commitRing; try dsimp only
  (repeat' split) <;> simp
@[simp] theorem commitRing_catalogue (p : Part) (h : WindowEntry) (k : WindowKind) (d : Descriptor) : (commitRing p h k d).catalogue = p.catalogue := by
  unfold commitRing; try dsimp only
  (repeat' split) <;> simp
@[simp] theorem commitRing_tracks (p : Part) (h : WindowEntry) (k : WindowKind) (d : Descriptor) : (commitRing p h k d).tracks = p.tracks := by
  unfold commitRing; try dsimp only
  (repeat' split) <;> simp
@[simp] theorem commitRing_lanes (p : Part) (h : WindowEntry) (k : WindowKind) (d : Descriptor) : (commitRing p h k d).lanes = p.lanes := by
  unfold commitRing; try dsimp only
  (repeat' split) <;> simp
@[simp] theorem commitRing_press (p : Part) (h : WindowEntry) (k : WindowKind) (d : Descriptor) : (commitRing p h k d).press = p.press := by
  unfold commitRing; try dsimp only
  (repeat' split) <;> simp
@[simp] theorem commitRing_account (p : Part) (h : WindowEntry) (k : WindowKind) (d : Descriptor) : (commitRing p h k d).account = p.account := by
  unfold commitRing; try dsimp only
  (repeat' split) <;> simp
@[simp] theorem commitRing_displays (p : Part) (h : WindowEntry) (k : WindowKind) (d : Descriptor) : (commitRing p h k d).displays = p.displays := by
  unfold commitRing; try dsimp only
  (repeat' split) <;> simp
@[simp] theorem commitRing_store (p : Part) (h : WindowEntry) (k : WindowKind) (d : Descriptor) : (commitRing p h k d).store = p.store := by
  unfold commitRing; try dsimp only
  (repeat' split) <;> simp
@[simp] theorem commitRing_attention (p : Part) (h : WindowEntry) (k : WindowKind) (d : Descriptor) : (commitRing p h k d).attention = p.attention := by
  unfold commitRing; try dsimp only
  (repeat' split) <;> simp
@[simp] theorem commitRing_ticks (p : Part) (h : WindowEntry) (k : WindowKind) (d : Descriptor) : (commitRing p h k d).ticks = p.ticks := by
  unfold commitRing; try dsimp only
  (repeat' split) <;> simp
@[simp] theorem commitRing_freeDraws (p : Part) (h : WindowEntry) (k : WindowKind) (d : Descriptor) : (commitRing p h k d).freeDraws = p.freeDraws := by
  unfold commitRing; try dsimp only
  (repeat' split) <;> simp

@[simp] theorem installWindow_floor (p : Part) (w : Window) (k : WindowKind) (d : Descriptor) : (installWindow p w k d).floor = p.floor := by simp [installWindow]
@[simp] theorem installWindow_catalogue (p : Part) (w : Window) (k : WindowKind) (d : Descriptor) : (installWindow p w k d).catalogue = p.catalogue := by simp [installWindow]
@[simp] theorem installWindow_tracks (p : Part) (w : Window) (k : WindowKind) (d : Descriptor) : (installWindow p w k d).tracks = p.tracks := by simp [installWindow]
@[simp] theorem installWindow_lanes (p : Part) (w : Window) (k : WindowKind) (d : Descriptor) : (installWindow p w k d).lanes = p.lanes := by simp [installWindow]
@[simp] theorem installWindow_press (p : Part) (w : Window) (k : WindowKind) (d : Descriptor) : (installWindow p w k d).press = p.press := by simp [installWindow]
@[simp] theorem installWindow_account (p : Part) (w : Window) (k : WindowKind) (d : Descriptor) : (installWindow p w k d).account = p.account := by simp [installWindow]
@[simp] theorem installWindow_displays (p : Part) (w : Window) (k : WindowKind) (d : Descriptor) : (installWindow p w k d).displays = p.displays := by simp [installWindow]
@[simp] theorem installWindow_store (p : Part) (w : Window) (k : WindowKind) (d : Descriptor) : (installWindow p w k d).store = p.store := by simp [installWindow]
@[simp] theorem installWindow_attention (p : Part) (w : Window) (k : WindowKind) (d : Descriptor) : (installWindow p w k d).attention = p.attention := by simp [installWindow]
@[simp] theorem installWindow_ticks (p : Part) (w : Window) (k : WindowKind) (d : Descriptor) : (installWindow p w k d).ticks = p.ticks := by simp [installWindow]
@[simp] theorem installWindow_freeDraws (p : Part) (w : Window) (k : WindowKind) (d : Descriptor) : (installWindow p w k d).freeDraws = p.freeDraws := by simp [installWindow]

@[simp] theorem commitWindow_floor (p : Part) (m : Master) (w : Window) : (commitWindow p m w).floor = p.floor := by
  unfold commitWindow; try dsimp only
  (repeat' split) <;> simp
@[simp] theorem commitWindow_catalogue (p : Part) (m : Master) (w : Window) : (commitWindow p m w).catalogue = p.catalogue := by
  unfold commitWindow; try dsimp only
  (repeat' split) <;> simp
@[simp] theorem commitWindow_tracks (p : Part) (m : Master) (w : Window) : (commitWindow p m w).tracks = p.tracks := by
  unfold commitWindow; try dsimp only
  (repeat' split) <;> simp
@[simp] theorem commitWindow_lanes (p : Part) (m : Master) (w : Window) : (commitWindow p m w).lanes = p.lanes := by
  unfold commitWindow; try dsimp only
  (repeat' split) <;> simp
@[simp] theorem commitWindow_press (p : Part) (m : Master) (w : Window) : (commitWindow p m w).press = p.press := by
  unfold commitWindow; try dsimp only
  (repeat' split) <;> simp
@[simp] theorem commitWindow_account (p : Part) (m : Master) (w : Window) : (commitWindow p m w).account = p.account := by
  unfold commitWindow; try dsimp only
  (repeat' split) <;> simp
@[simp] theorem commitWindow_displays (p : Part) (m : Master) (w : Window) : (commitWindow p m w).displays = p.displays := by
  unfold commitWindow; try dsimp only
  (repeat' split) <;> simp
@[simp] theorem commitWindow_store (p : Part) (m : Master) (w : Window) : (commitWindow p m w).store = p.store := by
  unfold commitWindow; try dsimp only
  (repeat' split) <;> simp
@[simp] theorem commitWindow_ticks (p : Part) (m : Master) (w : Window) : (commitWindow p m w).ticks = p.ticks := by
  unfold commitWindow; try dsimp only
  (repeat' split) <;> simp
@[simp] theorem commitWindow_freeDraws (p : Part) (m : Master) (w : Window) : (commitWindow p m w).freeDraws = p.freeDraws := by
  unfold commitWindow; try dsimp only
  (repeat' split) <;> simp

@[simp] theorem clearWindow_floor (p : Part) (w : Window) : (clearWindow p w).floor = p.floor := by
  unfold clearWindow; try dsimp only
  (repeat' split) <;> simp
@[simp] theorem clearWindow_catalogue (p : Part) (w : Window) : (clearWindow p w).catalogue = p.catalogue := by
  unfold clearWindow; try dsimp only
  (repeat' split) <;> simp
@[simp] theorem clearWindow_tracks (p : Part) (w : Window) : (clearWindow p w).tracks = p.tracks := by
  unfold clearWindow; try dsimp only
  (repeat' split) <;> simp
@[simp] theorem clearWindow_lanes (p : Part) (w : Window) : (clearWindow p w).lanes = p.lanes := by
  unfold clearWindow; try dsimp only
  (repeat' split) <;> simp
@[simp] theorem clearWindow_press (p : Part) (w : Window) : (clearWindow p w).press = p.press := by
  unfold clearWindow; try dsimp only
  (repeat' split) <;> simp
@[simp] theorem clearWindow_account (p : Part) (w : Window) : (clearWindow p w).account = p.account := by
  unfold clearWindow; try dsimp only
  (repeat' split) <;> simp
@[simp] theorem clearWindow_displays (p : Part) (w : Window) : (clearWindow p w).displays = p.displays := by
  unfold clearWindow; try dsimp only
  (repeat' split) <;> simp
@[simp] theorem clearWindow_store (p : Part) (w : Window) : (clearWindow p w).store = p.store := by
  unfold clearWindow; try dsimp only
  (repeat' split) <;> simp
@[simp] theorem clearWindow_attention (p : Part) (w : Window) : (clearWindow p w).attention = p.attention := by
  unfold clearWindow; try dsimp only
  (repeat' split) <;> simp
@[simp] theorem clearWindow_ticks (p : Part) (w : Window) : (clearWindow p w).ticks = p.ticks := by
  unfold clearWindow; try dsimp only
  (repeat' split) <;> simp
@[simp] theorem clearWindow_freeDraws (p : Part) (w : Window) : (clearWindow p w).freeDraws = p.freeDraws := by
  unfold clearWindow; try dsimp only
  (repeat' split) <;> simp

@[simp] theorem removeWindow_floor (p : Part) (m : Master) (w : Window) : (removeWindow p m w).floor = p.floor := by
  unfold removeWindow; try dsimp only
  (repeat' split) <;> simp
@[simp] theorem removeWindow_catalogue (p : Part) (m : Master) (w : Window) : (removeWindow p m w).catalogue = p.catalogue := by
  unfold removeWindow; try dsimp only
  (repeat' split) <;> simp
@[simp] theorem removeWindow_tracks (p : Part) (m : Master) (w : Window) : (removeWindow p m w).tracks = p.tracks := by
  unfold removeWindow; try dsimp only
  (repeat' split) <;> simp
@[simp] theorem removeWindow_lanes (p : Part) (m : Master) (w : Window) : (removeWindow p m w).lanes = p.lanes := by
  unfold removeWindow; try dsimp only
  (repeat' split) <;> simp
@[simp] theorem removeWindow_press (p : Part) (m : Master) (w : Window) : (removeWindow p m w).press = p.press := by
  unfold removeWindow; try dsimp only
  (repeat' split) <;> simp
@[simp] theorem removeWindow_account (p : Part) (m : Master) (w : Window) : (removeWindow p m w).account = p.account := by
  unfold removeWindow; try dsimp only
  (repeat' split) <;> simp
@[simp] theorem removeWindow_displays (p : Part) (m : Master) (w : Window) : (removeWindow p m w).displays = p.displays := by
  unfold removeWindow; try dsimp only
  (repeat' split) <;> simp
@[simp] theorem removeWindow_store (p : Part) (m : Master) (w : Window) : (removeWindow p m w).store = p.store := by
  unfold removeWindow; try dsimp only
  (repeat' split) <;> simp
@[simp] theorem removeWindow_ticks (p : Part) (m : Master) (w : Window) : (removeWindow p m w).ticks = p.ticks := by
  unfold removeWindow; try dsimp only
  (repeat' split) <;> simp
@[simp] theorem removeWindow_freeDraws (p : Part) (m : Master) (w : Window) : (removeWindow p m w).freeDraws = p.freeDraws := by
  unfold removeWindow; try dsimp only
  (repeat' split) <;> simp

@[simp] theorem setMasterResult_floor (p : Part) (m : Master) (r : WordResult) (c : CommitReason) : (setMasterResult p m r c).floor = p.floor := rfl
@[simp] theorem setMasterResult_catalogue (p : Part) (m : Master) (r : WordResult) (c : CommitReason) : (setMasterResult p m r c).catalogue = p.catalogue := rfl
@[simp] theorem setMasterResult_tracks (p : Part) (m : Master) (r : WordResult) (c : CommitReason) : (setMasterResult p m r c).tracks = p.tracks := rfl
@[simp] theorem setMasterResult_lanes (p : Part) (m : Master) (r : WordResult) (c : CommitReason) : (setMasterResult p m r c).lanes = p.lanes := rfl
@[simp] theorem setMasterResult_press (p : Part) (m : Master) (r : WordResult) (c : CommitReason) : (setMasterResult p m r c).press = p.press := rfl
@[simp] theorem setMasterResult_account (p : Part) (m : Master) (r : WordResult) (c : CommitReason) : (setMasterResult p m r c).account = p.account := rfl
@[simp] theorem setMasterResult_ring (p : Part) (m : Master) (r : WordResult) (c : CommitReason) : (setMasterResult p m r c).ring = p.ring := rfl
@[simp] theorem setMasterResult_displays (p : Part) (m : Master) (r : WordResult) (c : CommitReason) : (setMasterResult p m r c).displays = p.displays := rfl
@[simp] theorem setMasterResult_store (p : Part) (m : Master) (r : WordResult) (c : CommitReason) : (setMasterResult p m r c).store = p.store := rfl
@[simp] theorem setMasterResult_attention (p : Part) (m : Master) (r : WordResult) (c : CommitReason) : (setMasterResult p m r c).attention = p.attention := rfl
@[simp] theorem setMasterResult_ticks (p : Part) (m : Master) (r : WordResult) (c : CommitReason) : (setMasterResult p m r c).ticks = p.ticks := rfl
@[simp] theorem setMasterResult_freeDraws (p : Part) (m : Master) (r : WordResult) (c : CommitReason) : (setMasterResult p m r c).freeDraws = p.freeDraws := rfl

@[simp] theorem refuseMaster_floor (p : Part) (m e : Master) : (refuseMaster p m e).floor = p.floor := by simp [refuseMaster]
@[simp] theorem refuseMaster_catalogue (p : Part) (m e : Master) : (refuseMaster p m e).catalogue = p.catalogue := by simp [refuseMaster]
@[simp] theorem refuseMaster_tracks (p : Part) (m e : Master) : (refuseMaster p m e).tracks = p.tracks := by simp [refuseMaster]
@[simp] theorem refuseMaster_lanes (p : Part) (m e : Master) : (refuseMaster p m e).lanes = p.lanes := by simp [refuseMaster]
@[simp] theorem refuseMaster_press (p : Part) (m e : Master) : (refuseMaster p m e).press = p.press := by simp [refuseMaster]
@[simp] theorem refuseMaster_account (p : Part) (m e : Master) : (refuseMaster p m e).account = p.account := by simp [refuseMaster]
@[simp] theorem refuseMaster_ring (p : Part) (m e : Master) : (refuseMaster p m e).ring = p.ring := by simp [refuseMaster]
@[simp] theorem refuseMaster_displays (p : Part) (m e : Master) : (refuseMaster p m e).displays = p.displays := by simp [refuseMaster]
@[simp] theorem refuseMaster_store (p : Part) (m e : Master) : (refuseMaster p m e).store = p.store := by simp [refuseMaster]
@[simp] theorem refuseMaster_ticks (p : Part) (m e : Master) : (refuseMaster p m e).ticks = p.ticks := by simp [refuseMaster]
@[simp] theorem refuseMaster_freeDraws (p : Part) (m e : Master) : (refuseMaster p m e).freeDraws = p.freeDraws := by simp [refuseMaster]

@[simp] theorem commitMaster_floor (p : Part) (m e : Master) : (commitMaster p m e).floor = p.floor := by
  unfold commitMaster; try dsimp only
  (repeat' split) <;> simp
@[simp] theorem commitMaster_catalogue (p : Part) (m e : Master) : (commitMaster p m e).catalogue = p.catalogue := by
  unfold commitMaster; try dsimp only
  (repeat' split) <;> simp
@[simp] theorem commitMaster_tracks (p : Part) (m e : Master) : (commitMaster p m e).tracks = p.tracks := by
  unfold commitMaster; try dsimp only
  (repeat' split) <;> simp
@[simp] theorem commitMaster_lanes (p : Part) (m e : Master) : (commitMaster p m e).lanes = p.lanes := by
  unfold commitMaster; try dsimp only
  (repeat' split) <;> simp
@[simp] theorem commitMaster_press (p : Part) (m e : Master) : (commitMaster p m e).press = p.press := by
  unfold commitMaster; try dsimp only
  (repeat' split) <;> simp
@[simp] theorem commitMaster_account (p : Part) (m e : Master) : (commitMaster p m e).account = p.account := by
  unfold commitMaster; try dsimp only
  (repeat' split) <;> simp
@[simp] theorem commitMaster_ring (p : Part) (m e : Master) : (commitMaster p m e).ring = p.ring := by
  unfold commitMaster; try dsimp only
  (repeat' split) <;> simp
@[simp] theorem commitMaster_displays (p : Part) (m e : Master) : (commitMaster p m e).displays = p.displays := by
  unfold commitMaster; try dsimp only
  (repeat' split) <;> simp
@[simp] theorem commitMaster_store (p : Part) (m e : Master) : (commitMaster p m e).store = p.store := by
  unfold commitMaster; try dsimp only
  (repeat' split) <;> simp
@[simp] theorem commitMaster_ticks (p : Part) (m e : Master) : (commitMaster p m e).ticks = p.ticks := by
  unfold commitMaster; try dsimp only
  (repeat' split) <;> simp
@[simp] theorem commitMaster_freeDraws (p : Part) (m e : Master) : (commitMaster p m e).freeDraws = p.freeDraws := by
  unfold commitMaster; try dsimp only
  (repeat' split) <;> simp

@[simp] theorem setConsumerResult_floor (p : Part) (r : WordResult) : (setConsumerResult p r).floor = p.floor := rfl
@[simp] theorem setConsumerResult_window (p : Part) (r : WordResult) : (setConsumerResult p r).window = p.window := rfl
@[simp] theorem setConsumerResult_catalogue (p : Part) (r : WordResult) : (setConsumerResult p r).catalogue = p.catalogue := rfl
@[simp] theorem setConsumerResult_tracks (p : Part) (r : WordResult) : (setConsumerResult p r).tracks = p.tracks := rfl
@[simp] theorem setConsumerResult_lanes (p : Part) (r : WordResult) : (setConsumerResult p r).lanes = p.lanes := rfl
@[simp] theorem setConsumerResult_press (p : Part) (r : WordResult) : (setConsumerResult p r).press = p.press := rfl
@[simp] theorem setConsumerResult_account (p : Part) (r : WordResult) : (setConsumerResult p r).account = p.account := rfl
@[simp] theorem setConsumerResult_displays (p : Part) (r : WordResult) : (setConsumerResult p r).displays = p.displays := rfl
@[simp] theorem setConsumerResult_store (p : Part) (r : WordResult) : (setConsumerResult p r).store = p.store := rfl
@[simp] theorem setConsumerResult_attention (p : Part) (r : WordResult) : (setConsumerResult p r).attention = p.attention := rfl
@[simp] theorem setConsumerResult_ticks (p : Part) (r : WordResult) : (setConsumerResult p r).ticks = p.ticks := rfl
@[simp] theorem setConsumerResult_freeDraws (p : Part) (r : WordResult) : (setConsumerResult p r).freeDraws = p.freeDraws := rfl

@[simp] theorem takeConsumerIndex_floor (p : Part) (w : PostedWrite) (v : Word32) : (takeConsumerIndex w p v).floor = p.floor := by
  unfold takeConsumerIndex; try dsimp only
  (repeat' split) <;> simp
@[simp] theorem takeConsumerIndex_window (p : Part) (w : PostedWrite) (v : Word32) : (takeConsumerIndex w p v).window = p.window := by
  unfold takeConsumerIndex; try dsimp only
  (repeat' split) <;> simp
@[simp] theorem takeConsumerIndex_catalogue (p : Part) (w : PostedWrite) (v : Word32) : (takeConsumerIndex w p v).catalogue = p.catalogue := by
  unfold takeConsumerIndex; try dsimp only
  (repeat' split) <;> simp
@[simp] theorem takeConsumerIndex_tracks (p : Part) (w : PostedWrite) (v : Word32) : (takeConsumerIndex w p v).tracks = p.tracks := by
  unfold takeConsumerIndex; try dsimp only
  (repeat' split) <;> simp
@[simp] theorem takeConsumerIndex_lanes (p : Part) (w : PostedWrite) (v : Word32) : (takeConsumerIndex w p v).lanes = p.lanes := by
  unfold takeConsumerIndex; try dsimp only
  (repeat' split) <;> simp
@[simp] theorem takeConsumerIndex_press (p : Part) (w : PostedWrite) (v : Word32) : (takeConsumerIndex w p v).press = p.press := by
  unfold takeConsumerIndex; try dsimp only
  (repeat' split) <;> simp
@[simp] theorem takeConsumerIndex_account (p : Part) (w : PostedWrite) (v : Word32) : (takeConsumerIndex w p v).account = p.account := by
  unfold takeConsumerIndex; try dsimp only
  (repeat' split) <;> simp
@[simp] theorem takeConsumerIndex_displays (p : Part) (w : PostedWrite) (v : Word32) : (takeConsumerIndex w p v).displays = p.displays := by
  unfold takeConsumerIndex; try dsimp only
  (repeat' split) <;> simp
@[simp] theorem takeConsumerIndex_store (p : Part) (w : PostedWrite) (v : Word32) : (takeConsumerIndex w p v).store = p.store := by
  unfold takeConsumerIndex; try dsimp only
  (repeat' split) <;> simp
@[simp] theorem takeConsumerIndex_ticks (p : Part) (w : PostedWrite) (v : Word32) : (takeConsumerIndex w p v).ticks = p.ticks := by
  unfold takeConsumerIndex; try dsimp only
  (repeat' split) <;> simp
@[simp] theorem takeConsumerIndex_freeDraws (p : Part) (w : PostedWrite) (v : Word32) : (takeConsumerIndex w p v).freeDraws = p.freeDraws := by
  unfold takeConsumerIndex; try dsimp only
  (repeat' split) <;> simp

@[simp] theorem takeThreshold_floor (p : Part) (v : Nat) : (takeThreshold p v).floor = p.floor := by
  unfold takeThreshold; try dsimp only
  (repeat' split) <;> simp
@[simp] theorem takeThreshold_window (p : Part) (v : Nat) : (takeThreshold p v).window = p.window := by
  unfold takeThreshold; try dsimp only
  (repeat' split) <;> simp
@[simp] theorem takeThreshold_catalogue (p : Part) (v : Nat) : (takeThreshold p v).catalogue = p.catalogue := by
  unfold takeThreshold; try dsimp only
  (repeat' split) <;> simp
@[simp] theorem takeThreshold_tracks (p : Part) (v : Nat) : (takeThreshold p v).tracks = p.tracks := by
  unfold takeThreshold; try dsimp only
  (repeat' split) <;> simp
@[simp] theorem takeThreshold_lanes (p : Part) (v : Nat) : (takeThreshold p v).lanes = p.lanes := by
  unfold takeThreshold; try dsimp only
  (repeat' split) <;> simp
@[simp] theorem takeThreshold_press (p : Part) (v : Nat) : (takeThreshold p v).press = p.press := by
  unfold takeThreshold; try dsimp only
  (repeat' split) <;> simp
@[simp] theorem takeThreshold_account (p : Part) (v : Nat) : (takeThreshold p v).account = p.account := by
  unfold takeThreshold; try dsimp only
  (repeat' split) <;> simp
@[simp] theorem takeThreshold_displays (p : Part) (v : Nat) : (takeThreshold p v).displays = p.displays := by
  unfold takeThreshold; try dsimp only
  (repeat' split) <;> simp
@[simp] theorem takeThreshold_attention (p : Part) (v : Nat) : (takeThreshold p v).attention = p.attention := by
  unfold takeThreshold; try dsimp only
  (repeat' split) <;> simp
@[simp] theorem takeThreshold_store (p : Part) (v : Nat) : (takeThreshold p v).store = p.store := by
  unfold takeThreshold; try dsimp only
  (repeat' split) <;> simp
@[simp] theorem takeThreshold_ticks (p : Part) (v : Nat) : (takeThreshold p v).ticks = p.ticks := by
  unfold takeThreshold; try dsimp only
  (repeat' split) <;> simp
@[simp] theorem takeThreshold_freeDraws (p : Part) (v : Nat) : (takeThreshold p v).freeDraws = p.freeDraws := by
  unfold takeThreshold; try dsimp only
  (repeat' split) <;> simp

@[simp] theorem takeEventMap_floor (p : Part) (b : List (Nat × Byte)) : (takeEventMap p b).floor = p.floor := rfl
@[simp] theorem takeEventMap_window (p : Part) (b : List (Nat × Byte)) : (takeEventMap p b).window = p.window := rfl
@[simp] theorem takeEventMap_catalogue (p : Part) (b : List (Nat × Byte)) : (takeEventMap p b).catalogue = p.catalogue := rfl
@[simp] theorem takeEventMap_tracks (p : Part) (b : List (Nat × Byte)) : (takeEventMap p b).tracks = p.tracks := rfl
@[simp] theorem takeEventMap_lanes (p : Part) (b : List (Nat × Byte)) : (takeEventMap p b).lanes = p.lanes := rfl
@[simp] theorem takeEventMap_press (p : Part) (b : List (Nat × Byte)) : (takeEventMap p b).press = p.press := rfl
@[simp] theorem takeEventMap_account (p : Part) (b : List (Nat × Byte)) : (takeEventMap p b).account = p.account := rfl
@[simp] theorem takeEventMap_ring (p : Part) (b : List (Nat × Byte)) : (takeEventMap p b).ring = p.ring := rfl
@[simp] theorem takeEventMap_displays (p : Part) (b : List (Nat × Byte)) : (takeEventMap p b).displays = p.displays := rfl
@[simp] theorem takeEventMap_store (p : Part) (b : List (Nat × Byte)) : (takeEventMap p b).store = p.store := rfl
@[simp] theorem takeEventMap_ticks (p : Part) (b : List (Nat × Byte)) : (takeEventMap p b).ticks = p.ticks := rfl
@[simp] theorem takeEventMap_freeDraws (p : Part) (b : List (Nat × Byte)) : (takeEventMap p b).freeDraws = p.freeDraws := rfl

@[simp] theorem takeSwitch_floor (p : Part) : (takeSwitch p).floor = p.floor := rfl
@[simp] theorem takeSwitch_window (p : Part) : (takeSwitch p).window = p.window := rfl
@[simp] theorem takeSwitch_catalogue (p : Part) : (takeSwitch p).catalogue = p.catalogue := rfl
@[simp] theorem takeSwitch_tracks (p : Part) : (takeSwitch p).tracks = p.tracks := rfl
@[simp] theorem takeSwitch_lanes (p : Part) : (takeSwitch p).lanes = p.lanes := rfl
@[simp] theorem takeSwitch_press (p : Part) : (takeSwitch p).press = p.press := rfl
@[simp] theorem takeSwitch_account (p : Part) : (takeSwitch p).account = p.account := rfl
@[simp] theorem takeSwitch_ring (p : Part) : (takeSwitch p).ring = p.ring := rfl
@[simp] theorem takeSwitch_displays (p : Part) : (takeSwitch p).displays = p.displays := rfl
@[simp] theorem takeSwitch_store (p : Part) : (takeSwitch p).store = p.store := rfl
@[simp] theorem takeSwitch_ticks (p : Part) : (takeSwitch p).ticks = p.ticks := rfl
@[simp] theorem takeSwitch_freeDraws (p : Part) : (takeSwitch p).freeDraws = p.freeDraws := rfl

@[simp] theorem perform_floor (p : Part) (w : PostedWrite) (b : List (Nat × Byte)) (a : AnchorAction) : (perform w b p a).floor = p.floor := by
  unfold perform; try dsimp only
  (repeat' split) <;> simp
@[simp] theorem perform_press (p : Part) (w : PostedWrite) (b : List (Nat × Byte)) (a : AnchorAction) : (perform w b p a).press = p.press := by
  unfold perform; try dsimp only
  (repeat' split) <;> simp
@[simp] theorem perform_store (p : Part) (w : PostedWrite) (b : List (Nat × Byte)) (a : AnchorAction) : (perform w b p a).store = p.store := by
  unfold perform; try dsimp only
  (repeat' split) <;> simp
@[simp] theorem perform_ticks (p : Part) (w : PostedWrite) (b : List (Nat × Byte)) (a : AnchorAction) : (perform w b p a).ticks = p.ticks := by
  unfold perform; try dsimp only
  (repeat' split) <;> simp

/-! ### Takings -/

@[simp] theorem popWrite_window (p : Part) : (popWrite p).window = p.window := rfl
@[simp] theorem popWrite_catalogue (p : Part) : (popWrite p).catalogue = p.catalogue := rfl
@[simp] theorem popWrite_tracks (p : Part) : (popWrite p).tracks = p.tracks := rfl
@[simp] theorem popWrite_lanes (p : Part) : (popWrite p).lanes = p.lanes := rfl
@[simp] theorem popWrite_press (p : Part) : (popWrite p).press = p.press := rfl
@[simp] theorem popWrite_account (p : Part) : (popWrite p).account = p.account := rfl
@[simp] theorem popWrite_ring (p : Part) : (popWrite p).ring = p.ring := rfl
@[simp] theorem popWrite_displays (p : Part) : (popWrite p).displays = p.displays := rfl
@[simp] theorem popWrite_store (p : Part) : (popWrite p).store = p.store := rfl
@[simp] theorem popWrite_attention (p : Part) : (popWrite p).attention = p.attention := rfl
@[simp] theorem popWrite_ticks (p : Part) : (popWrite p).ticks = p.ticks := rfl
@[simp] theorem popWrite_freeDraws (p : Part) : (popWrite p).freeDraws = p.freeDraws := rfl

@[simp] theorem forward_floor (p : Part) (w : PostedWrite) (l : Option Nat) : (forward w l p).floor = p.floor := by
  unfold forward; try dsimp only
  (repeat' split) <;> simp
@[simp] theorem forward_window (p : Part) (w : PostedWrite) (l : Option Nat) : (forward w l p).window = p.window := by
  unfold forward; try dsimp only
  (repeat' split) <;> simp
@[simp] theorem forward_catalogue (p : Part) (w : PostedWrite) (l : Option Nat) : (forward w l p).catalogue = p.catalogue := by
  unfold forward; try dsimp only
  (repeat' split) <;> simp
@[simp] theorem forward_tracks (p : Part) (w : PostedWrite) (l : Option Nat) : (forward w l p).tracks = p.tracks := by
  unfold forward; try dsimp only
  (repeat' split) <;> simp
@[simp] theorem forward_lanes (p : Part) (w : PostedWrite) (l : Option Nat) : (forward w l p).lanes = p.lanes := by
  unfold forward; try dsimp only
  (repeat' split) <;> simp
@[simp] theorem forward_press (p : Part) (w : PostedWrite) (l : Option Nat) : (forward w l p).press = p.press := by
  unfold forward; try dsimp only
  (repeat' split) <;> simp
@[simp] theorem forward_account (p : Part) (w : PostedWrite) (l : Option Nat) : (forward w l p).account = p.account := by
  unfold forward; try dsimp only
  (repeat' split) <;> simp
@[simp] theorem forward_ring (p : Part) (w : PostedWrite) (l : Option Nat) : (forward w l p).ring = p.ring := by
  unfold forward; try dsimp only
  (repeat' split) <;> simp
@[simp] theorem forward_displays (p : Part) (w : PostedWrite) (l : Option Nat) : (forward w l p).displays = p.displays := by
  unfold forward; try dsimp only
  (repeat' split) <;> simp
@[simp] theorem forward_attention (p : Part) (w : PostedWrite) (l : Option Nat) : (forward w l p).attention = p.attention := by
  unfold forward; try dsimp only
  (repeat' split) <;> simp
@[simp] theorem forward_ticks (p : Part) (w : PostedWrite) (l : Option Nat) : (forward w l p).ticks = p.ticks := by
  unfold forward; try dsimp only
  (repeat' split) <;> simp
@[simp] theorem forward_freeDraws (p : Part) (w : PostedWrite) (l : Option Nat) : (forward w l p).freeDraws = p.freeDraws := by
  unfold forward; try dsimp only
  (repeat' split) <;> simp

@[simp] theorem answerRead_window (p : Part) (r : ReadInProgress) (a : Answer) : (answerRead r a p).window = p.window := rfl
@[simp] theorem answerRead_catalogue (p : Part) (r : ReadInProgress) (a : Answer) : (answerRead r a p).catalogue = p.catalogue := rfl
@[simp] theorem answerRead_tracks (p : Part) (r : ReadInProgress) (a : Answer) : (answerRead r a p).tracks = p.tracks := rfl
@[simp] theorem answerRead_lanes (p : Part) (r : ReadInProgress) (a : Answer) : (answerRead r a p).lanes = p.lanes := rfl
@[simp] theorem answerRead_press (p : Part) (r : ReadInProgress) (a : Answer) : (answerRead r a p).press = p.press := rfl
@[simp] theorem answerRead_account (p : Part) (r : ReadInProgress) (a : Answer) : (answerRead r a p).account = p.account := rfl
@[simp] theorem answerRead_ring (p : Part) (r : ReadInProgress) (a : Answer) : (answerRead r a p).ring = p.ring := rfl
@[simp] theorem answerRead_displays (p : Part) (r : ReadInProgress) (a : Answer) : (answerRead r a p).displays = p.displays := rfl
@[simp] theorem answerRead_store (p : Part) (r : ReadInProgress) (a : Answer) : (answerRead r a p).store = p.store := rfl
@[simp] theorem answerRead_attention (p : Part) (r : ReadInProgress) (a : Answer) : (answerRead r a p).attention = p.attention := rfl
@[simp] theorem answerRead_ticks (p : Part) (r : ReadInProgress) (a : Answer) : (answerRead r a p).ticks = p.ticks := rfl
@[simp] theorem answerRead_freeDraws (p : Part) (r : ReadInProgress) (a : Answer) : (answerRead r a p).freeDraws = p.freeDraws := rfl

@[simp] theorem answerBytes_window (p : Part) (r : ReadInProgress) (f : Nat → Byte) : (answerBytes r f p).window = p.window := rfl
@[simp] theorem answerBytes_catalogue (p : Part) (r : ReadInProgress) (f : Nat → Byte) : (answerBytes r f p).catalogue = p.catalogue := rfl
@[simp] theorem answerBytes_tracks (p : Part) (r : ReadInProgress) (f : Nat → Byte) : (answerBytes r f p).tracks = p.tracks := rfl
@[simp] theorem answerBytes_lanes (p : Part) (r : ReadInProgress) (f : Nat → Byte) : (answerBytes r f p).lanes = p.lanes := rfl
@[simp] theorem answerBytes_press (p : Part) (r : ReadInProgress) (f : Nat → Byte) : (answerBytes r f p).press = p.press := rfl
@[simp] theorem answerBytes_account (p : Part) (r : ReadInProgress) (f : Nat → Byte) : (answerBytes r f p).account = p.account := rfl
@[simp] theorem answerBytes_ring (p : Part) (r : ReadInProgress) (f : Nat → Byte) : (answerBytes r f p).ring = p.ring := rfl
@[simp] theorem answerBytes_displays (p : Part) (r : ReadInProgress) (f : Nat → Byte) : (answerBytes r f p).displays = p.displays := rfl
@[simp] theorem answerBytes_store (p : Part) (r : ReadInProgress) (f : Nat → Byte) : (answerBytes r f p).store = p.store := rfl
@[simp] theorem answerBytes_attention (p : Part) (r : ReadInProgress) (f : Nat → Byte) : (answerBytes r f p).attention = p.attention := rfl
@[simp] theorem answerBytes_ticks (p : Part) (r : ReadInProgress) (f : Nat → Byte) : (answerBytes r f p).ticks = p.ticks := rfl
@[simp] theorem answerBytes_freeDraws (p : Part) (r : ReadInProgress) (f : Nat → Byte) : (answerBytes r f p).freeDraws = p.freeDraws := rfl

@[simp] theorem forwardReadAt_window (p : Part) (r : ReadInProgress) (a : Address) (m : Option Owned) : (forwardReadAt r a m p).window = p.window := rfl
@[simp] theorem forwardReadAt_catalogue (p : Part) (r : ReadInProgress) (a : Address) (m : Option Owned) : (forwardReadAt r a m p).catalogue = p.catalogue := rfl
@[simp] theorem forwardReadAt_tracks (p : Part) (r : ReadInProgress) (a : Address) (m : Option Owned) : (forwardReadAt r a m p).tracks = p.tracks := rfl
@[simp] theorem forwardReadAt_lanes (p : Part) (r : ReadInProgress) (a : Address) (m : Option Owned) : (forwardReadAt r a m p).lanes = p.lanes := rfl
@[simp] theorem forwardReadAt_press (p : Part) (r : ReadInProgress) (a : Address) (m : Option Owned) : (forwardReadAt r a m p).press = p.press := rfl
@[simp] theorem forwardReadAt_account (p : Part) (r : ReadInProgress) (a : Address) (m : Option Owned) : (forwardReadAt r a m p).account = p.account := rfl
@[simp] theorem forwardReadAt_ring (p : Part) (r : ReadInProgress) (a : Address) (m : Option Owned) : (forwardReadAt r a m p).ring = p.ring := rfl
@[simp] theorem forwardReadAt_displays (p : Part) (r : ReadInProgress) (a : Address) (m : Option Owned) : (forwardReadAt r a m p).displays = p.displays := rfl
@[simp] theorem forwardReadAt_attention (p : Part) (r : ReadInProgress) (a : Address) (m : Option Owned) : (forwardReadAt r a m p).attention = p.attention := rfl
@[simp] theorem forwardReadAt_ticks (p : Part) (r : ReadInProgress) (a : Address) (m : Option Owned) : (forwardReadAt r a m p).ticks = p.ticks := rfl
@[simp] theorem forwardReadAt_freeDraws (p : Part) (r : ReadInProgress) (a : Address) (m : Option Owned) : (forwardReadAt r a m p).freeDraws = p.freeDraws := rfl

/-! ### Store Port -/

@[simp] theorem noteCorrected_floor (p : Part) (t : Transaction) : (noteCorrected p t).floor = p.floor := by
  unfold noteCorrected; try dsimp only
  (repeat' split) <;> simp
@[simp] theorem noteCorrected_window (p : Part) (t : Transaction) : (noteCorrected p t).window = p.window := by
  unfold noteCorrected; try dsimp only
  (repeat' split) <;> simp
@[simp] theorem noteCorrected_catalogue (p : Part) (t : Transaction) : (noteCorrected p t).catalogue = p.catalogue := by
  unfold noteCorrected; try dsimp only
  (repeat' split) <;> simp
@[simp] theorem noteCorrected_tracks (p : Part) (t : Transaction) : (noteCorrected p t).tracks = p.tracks := by
  unfold noteCorrected; try dsimp only
  (repeat' split) <;> simp
@[simp] theorem noteCorrected_lanes (p : Part) (t : Transaction) : (noteCorrected p t).lanes = p.lanes := by
  unfold noteCorrected; try dsimp only
  (repeat' split) <;> simp
@[simp] theorem noteCorrected_press (p : Part) (t : Transaction) : (noteCorrected p t).press = p.press := by
  unfold noteCorrected; try dsimp only
  (repeat' split) <;> simp
@[simp] theorem noteCorrected_account (p : Part) (t : Transaction) : (noteCorrected p t).account = p.account := by
  unfold noteCorrected; try dsimp only
  (repeat' split) <;> simp
@[simp] theorem noteCorrected_ring (p : Part) (t : Transaction) : (noteCorrected p t).ring = p.ring := by
  unfold noteCorrected; try dsimp only
  (repeat' split) <;> simp
@[simp] theorem noteCorrected_displays (p : Part) (t : Transaction) : (noteCorrected p t).displays = p.displays := by
  unfold noteCorrected; try dsimp only
  (repeat' split) <;> simp
@[simp] theorem noteCorrected_store (p : Part) (t : Transaction) : (noteCorrected p t).store = p.store := by
  unfold noteCorrected; try dsimp only
  (repeat' split) <;> simp
@[simp] theorem noteCorrected_ticks (p : Part) (t : Transaction) : (noteCorrected p t).ticks = p.ticks := by
  unfold noteCorrected; try dsimp only
  (repeat' split) <;> simp
@[simp] theorem noteCorrected_freeDraws (p : Part) (t : Transaction) : (noteCorrected p t).freeDraws = p.freeDraws := by
  unfold noteCorrected; try dsimp only
  (repeat' split) <;> simp

@[simp] theorem noteAnswer_floor (p : Part) (t : Transaction) (a : FinalAnswer) : (noteAnswer p t a).floor = p.floor := by
  unfold noteAnswer; try dsimp only
  (repeat' split) <;> simp
@[simp] theorem noteAnswer_window (p : Part) (t : Transaction) (a : FinalAnswer) : (noteAnswer p t a).window = p.window := by
  unfold noteAnswer; try dsimp only
  (repeat' split) <;> simp
@[simp] theorem noteAnswer_catalogue (p : Part) (t : Transaction) (a : FinalAnswer) : (noteAnswer p t a).catalogue = p.catalogue := by
  unfold noteAnswer; try dsimp only
  (repeat' split) <;> simp
@[simp] theorem noteAnswer_tracks (p : Part) (t : Transaction) (a : FinalAnswer) : (noteAnswer p t a).tracks = p.tracks := by
  unfold noteAnswer; try dsimp only
  (repeat' split) <;> simp
@[simp] theorem noteAnswer_lanes (p : Part) (t : Transaction) (a : FinalAnswer) : (noteAnswer p t a).lanes = p.lanes := by
  unfold noteAnswer; try dsimp only
  (repeat' split) <;> simp
@[simp] theorem noteAnswer_press (p : Part) (t : Transaction) (a : FinalAnswer) : (noteAnswer p t a).press = p.press := by
  unfold noteAnswer; try dsimp only
  (repeat' split) <;> simp
@[simp] theorem noteAnswer_account (p : Part) (t : Transaction) (a : FinalAnswer) : (noteAnswer p t a).account = p.account := by
  unfold noteAnswer; try dsimp only
  (repeat' split) <;> simp
@[simp] theorem noteAnswer_ring (p : Part) (t : Transaction) (a : FinalAnswer) : (noteAnswer p t a).ring = p.ring := by
  unfold noteAnswer; try dsimp only
  (repeat' split) <;> simp
@[simp] theorem noteAnswer_displays (p : Part) (t : Transaction) (a : FinalAnswer) : (noteAnswer p t a).displays = p.displays := by
  unfold noteAnswer; try dsimp only
  (repeat' split) <;> simp
@[simp] theorem noteAnswer_store (p : Part) (t : Transaction) (a : FinalAnswer) : (noteAnswer p t a).store = p.store := by
  unfold noteAnswer; try dsimp only
  (repeat' split) <;> simp
@[simp] theorem noteAnswer_ticks (p : Part) (t : Transaction) (a : FinalAnswer) : (noteAnswer p t a).ticks = p.ticks := by
  unfold noteAnswer; try dsimp only
  (repeat' split) <;> simp
@[simp] theorem noteAnswer_freeDraws (p : Part) (t : Transaction) (a : FinalAnswer) : (noteAnswer p t a).freeDraws = p.freeDraws := by
  unfold noteAnswer; try dsimp only
  (repeat' split) <;> simp

@[simp] theorem freePort_floor (p : Part) : (freePort p).floor = p.floor := rfl
@[simp] theorem freePort_window (p : Part) : (freePort p).window = p.window := rfl
@[simp] theorem freePort_catalogue (p : Part) : (freePort p).catalogue = p.catalogue := rfl
@[simp] theorem freePort_tracks (p : Part) : (freePort p).tracks = p.tracks := rfl
@[simp] theorem freePort_lanes (p : Part) : (freePort p).lanes = p.lanes := rfl
@[simp] theorem freePort_press (p : Part) : (freePort p).press = p.press := rfl
@[simp] theorem freePort_account (p : Part) : (freePort p).account = p.account := rfl
@[simp] theorem freePort_ring (p : Part) : (freePort p).ring = p.ring := rfl
@[simp] theorem freePort_displays (p : Part) : (freePort p).displays = p.displays := rfl
@[simp] theorem freePort_attention (p : Part) : (freePort p).attention = p.attention := rfl
@[simp] theorem freePort_ticks (p : Part) : (freePort p).ticks = p.ticks := rfl
@[simp] theorem freePort_freeDraws (p : Part) : (freePort p).freeDraws = p.freeDraws := rfl

@[simp] theorem freeWritePlace_floor (p : Part) : (freeWritePlace p).floor = p.floor := rfl
@[simp] theorem freeWritePlace_window (p : Part) : (freeWritePlace p).window = p.window := rfl
@[simp] theorem freeWritePlace_catalogue (p : Part) : (freeWritePlace p).catalogue = p.catalogue := rfl
@[simp] theorem freeWritePlace_tracks (p : Part) : (freeWritePlace p).tracks = p.tracks := rfl
@[simp] theorem freeWritePlace_lanes (p : Part) : (freeWritePlace p).lanes = p.lanes := rfl
@[simp] theorem freeWritePlace_press (p : Part) : (freeWritePlace p).press = p.press := rfl
@[simp] theorem freeWritePlace_account (p : Part) : (freeWritePlace p).account = p.account := rfl
@[simp] theorem freeWritePlace_ring (p : Part) : (freeWritePlace p).ring = p.ring := rfl
@[simp] theorem freeWritePlace_displays (p : Part) : (freeWritePlace p).displays = p.displays := rfl
@[simp] theorem freeWritePlace_attention (p : Part) : (freeWritePlace p).attention = p.attention := rfl
@[simp] theorem freeWritePlace_ticks (p : Part) : (freeWritePlace p).ticks = p.ticks := rfl
@[simp] theorem freeWritePlace_freeDraws (p : Part) : (freeWritePlace p).freeDraws = p.freeDraws := rfl

@[simp] theorem answerFloor_window (p : Part) (m : Master) (a : Answer) : (answerFloor p m a).window = p.window := rfl
@[simp] theorem answerFloor_catalogue (p : Part) (m : Master) (a : Answer) : (answerFloor p m a).catalogue = p.catalogue := rfl
@[simp] theorem answerFloor_tracks (p : Part) (m : Master) (a : Answer) : (answerFloor p m a).tracks = p.tracks := rfl
@[simp] theorem answerFloor_lanes (p : Part) (m : Master) (a : Answer) : (answerFloor p m a).lanes = p.lanes := rfl
@[simp] theorem answerFloor_press (p : Part) (m : Master) (a : Answer) : (answerFloor p m a).press = p.press := rfl
@[simp] theorem answerFloor_account (p : Part) (m : Master) (a : Answer) : (answerFloor p m a).account = p.account := rfl
@[simp] theorem answerFloor_ring (p : Part) (m : Master) (a : Answer) : (answerFloor p m a).ring = p.ring := rfl
@[simp] theorem answerFloor_displays (p : Part) (m : Master) (a : Answer) : (answerFloor p m a).displays = p.displays := rfl
@[simp] theorem answerFloor_store (p : Part) (m : Master) (a : Answer) : (answerFloor p m a).store = p.store := rfl
@[simp] theorem answerFloor_attention (p : Part) (m : Master) (a : Answer) : (answerFloor p m a).attention = p.attention := rfl
@[simp] theorem answerFloor_ticks (p : Part) (m : Master) (a : Answer) : (answerFloor p m a).ticks = p.ticks := rfl
@[simp] theorem answerFloor_freeDraws (p : Part) (m : Master) (a : Answer) : (answerFloor p m a).freeDraws = p.freeDraws := rfl

@[simp] theorem endForwardedRead_window (p : Part) (r : ForwardedRead) (b : Bool) (a : Answer) : (endForwardedRead p r b a).window = p.window := by
  unfold endForwardedRead; try dsimp only
  (repeat' split) <;> simp
@[simp] theorem endForwardedRead_catalogue (p : Part) (r : ForwardedRead) (b : Bool) (a : Answer) : (endForwardedRead p r b a).catalogue = p.catalogue := by
  unfold endForwardedRead; try dsimp only
  (repeat' split) <;> simp
@[simp] theorem endForwardedRead_tracks (p : Part) (r : ForwardedRead) (b : Bool) (a : Answer) : (endForwardedRead p r b a).tracks = p.tracks := by
  unfold endForwardedRead; try dsimp only
  (repeat' split) <;> simp
@[simp] theorem endForwardedRead_lanes (p : Part) (r : ForwardedRead) (b : Bool) (a : Answer) : (endForwardedRead p r b a).lanes = p.lanes := by
  unfold endForwardedRead; try dsimp only
  (repeat' split) <;> simp
@[simp] theorem endForwardedRead_press (p : Part) (r : ForwardedRead) (b : Bool) (a : Answer) : (endForwardedRead p r b a).press = p.press := by
  unfold endForwardedRead; try dsimp only
  (repeat' split) <;> simp
@[simp] theorem endForwardedRead_account (p : Part) (r : ForwardedRead) (b : Bool) (a : Answer) : (endForwardedRead p r b a).account = p.account := by
  unfold endForwardedRead; try dsimp only
  (repeat' split) <;> simp
@[simp] theorem endForwardedRead_ring (p : Part) (r : ForwardedRead) (b : Bool) (a : Answer) : (endForwardedRead p r b a).ring = p.ring := by
  unfold endForwardedRead; try dsimp only
  (repeat' split) <;> simp
@[simp] theorem endForwardedRead_displays (p : Part) (r : ForwardedRead) (b : Bool) (a : Answer) : (endForwardedRead p r b a).displays = p.displays := by
  unfold endForwardedRead; try dsimp only
  (repeat' split) <;> simp
@[simp] theorem endForwardedRead_attention (p : Part) (r : ForwardedRead) (b : Bool) (a : Answer) : (endForwardedRead p r b a).attention = p.attention := by
  unfold endForwardedRead; try dsimp only
  (repeat' split) <;> simp
@[simp] theorem endForwardedRead_ticks (p : Part) (r : ForwardedRead) (b : Bool) (a : Answer) : (endForwardedRead p r b a).ticks = p.ticks := by
  unfold endForwardedRead; try dsimp only
  (repeat' split) <;> simp
@[simp] theorem endForwardedRead_freeDraws (p : Part) (r : ForwardedRead) (b : Bool) (a : Answer) : (endForwardedRead p r b a).freeDraws = p.freeDraws := by
  unfold endForwardedRead; try dsimp only
  (repeat' split) <;> simp

@[simp] theorem keepLine_floor (p : Part) (d : Vector Beat 8) : (keepLine p d).floor = p.floor := by
  unfold keepLine; try dsimp only
  (repeat' split) <;> simp
@[simp] theorem keepLine_window (p : Part) (d : Vector Beat 8) : (keepLine p d).window = p.window := by
  unfold keepLine; try dsimp only
  (repeat' split) <;> simp
@[simp] theorem keepLine_tracks (p : Part) (d : Vector Beat 8) : (keepLine p d).tracks = p.tracks := by
  unfold keepLine; try dsimp only
  (repeat' split) <;> simp
@[simp] theorem keepLine_lanes (p : Part) (d : Vector Beat 8) : (keepLine p d).lanes = p.lanes := by
  unfold keepLine; try dsimp only
  (repeat' split) <;> simp
@[simp] theorem keepLine_press (p : Part) (d : Vector Beat 8) : (keepLine p d).press = p.press := by
  unfold keepLine; try dsimp only
  (repeat' split) <;> simp
@[simp] theorem keepLine_account (p : Part) (d : Vector Beat 8) : (keepLine p d).account = p.account := by
  unfold keepLine; try dsimp only
  (repeat' split) <;> simp
@[simp] theorem keepLine_ring (p : Part) (d : Vector Beat 8) : (keepLine p d).ring = p.ring := by
  unfold keepLine; try dsimp only
  (repeat' split) <;> simp
@[simp] theorem keepLine_store (p : Part) (d : Vector Beat 8) : (keepLine p d).store = p.store := by
  unfold keepLine; try dsimp only
  (repeat' split) <;> simp
@[simp] theorem keepLine_ticks (p : Part) (d : Vector Beat 8) : (keepLine p d).ticks = p.ticks := by
  unfold keepLine; try dsimp only
  (repeat' split) <;> simp
@[simp] theorem keepLine_freeDraws (p : Part) (d : Vector Beat 8) : (keepLine p d).freeDraws = p.freeDraws := by
  unfold keepLine; try dsimp only
  (repeat' split) <;> simp

@[simp] theorem endFetchRead_floor (p : Part) (d : Vector Beat 8) (a : FinalAnswer) : (endFetchRead p d a).floor = p.floor := by
  unfold endFetchRead; try dsimp only
  (repeat' split) <;> simp
@[simp] theorem endFetchRead_window (p : Part) (d : Vector Beat 8) (a : FinalAnswer) : (endFetchRead p d a).window = p.window := by
  unfold endFetchRead; try dsimp only
  (repeat' split) <;> simp
@[simp] theorem endFetchRead_tracks (p : Part) (d : Vector Beat 8) (a : FinalAnswer) : (endFetchRead p d a).tracks = p.tracks := by
  unfold endFetchRead; try dsimp only
  (repeat' split) <;> simp
@[simp] theorem endFetchRead_lanes (p : Part) (d : Vector Beat 8) (a : FinalAnswer) : (endFetchRead p d a).lanes = p.lanes := by
  unfold endFetchRead; try dsimp only
  (repeat' split) <;> simp
@[simp] theorem endFetchRead_press (p : Part) (d : Vector Beat 8) (a : FinalAnswer) : (endFetchRead p d a).press = p.press := by
  unfold endFetchRead; try dsimp only
  (repeat' split) <;> simp
@[simp] theorem endFetchRead_account (p : Part) (d : Vector Beat 8) (a : FinalAnswer) : (endFetchRead p d a).account = p.account := by
  unfold endFetchRead; try dsimp only
  (repeat' split) <;> simp
@[simp] theorem endFetchRead_ring (p : Part) (d : Vector Beat 8) (a : FinalAnswer) : (endFetchRead p d a).ring = p.ring := by
  unfold endFetchRead; try dsimp only
  (repeat' split) <;> simp
@[simp] theorem endFetchRead_store (p : Part) (d : Vector Beat 8) (a : FinalAnswer) : (endFetchRead p d a).store = p.store := by
  unfold endFetchRead; try dsimp only
  (repeat' split) <;> simp
@[simp] theorem endFetchRead_ticks (p : Part) (d : Vector Beat 8) (a : FinalAnswer) : (endFetchRead p d a).ticks = p.ticks := by
  unfold endFetchRead; try dsimp only
  (repeat' split) <;> simp
@[simp] theorem endFetchRead_freeDraws (p : Part) (d : Vector Beat 8) (a : FinalAnswer) : (endFetchRead p d a).freeDraws = p.freeDraws := by
  unfold endFetchRead; try dsimp only
  (repeat' split) <;> simp

@[simp] theorem publishRecord_floor (p : Part) (r : RingRecord) : (publishRecord p r).floor = p.floor := by
  unfold publishRecord; try dsimp only
  (repeat' split) <;> simp
@[simp] theorem publishRecord_window (p : Part) (r : RingRecord) : (publishRecord p r).window = p.window := by
  unfold publishRecord; try dsimp only
  (repeat' split) <;> simp
@[simp] theorem publishRecord_lanes (p : Part) (r : RingRecord) : (publishRecord p r).lanes = p.lanes := by
  unfold publishRecord; try dsimp only
  (repeat' split) <;> simp
@[simp] theorem publishRecord_press (p : Part) (r : RingRecord) : (publishRecord p r).press = p.press := by
  unfold publishRecord; try dsimp only
  (repeat' split) <;> simp
@[simp] theorem publishRecord_account (p : Part) (r : RingRecord) : (publishRecord p r).account = p.account := by
  unfold publishRecord; try dsimp only
  (repeat' split) <;> simp
@[simp] theorem publishRecord_store (p : Part) (r : RingRecord) : (publishRecord p r).store = p.store := by
  unfold publishRecord; try dsimp only
  (repeat' split) <;> simp
@[simp] theorem publishRecord_ticks (p : Part) (r : RingRecord) : (publishRecord p r).ticks = p.ticks := by
  unfold publishRecord; try dsimp only
  (repeat' split) <;> simp
@[simp] theorem publishRecord_freeDraws (p : Part) (r : RingRecord) : (publishRecord p r).freeDraws = p.freeDraws := by
  unfold publishRecord; try dsimp only
  (repeat' split) <;> simp

@[simp] theorem settleAnchor_floor (p : Part) (w : PostedWrite) (b : Part) : (settleAnchor w b p).floor = p.floor := by
  unfold settleAnchor; split <;> simp
@[simp] theorem settleAnchor_window (p : Part) (w : PostedWrite) (b : Part) : (settleAnchor w b p).window = p.window := by
  unfold settleAnchor; split <;> simp
@[simp] theorem settleAnchor_tracks (p : Part) (w : PostedWrite) (b : Part) : (settleAnchor w b p).tracks = p.tracks := by
  unfold settleAnchor; split <;> simp
@[simp] theorem settleAnchor_press (p : Part) (w : PostedWrite) (b : Part) : (settleAnchor w b p).press = p.press := by
  unfold settleAnchor; split <;> simp
@[simp] theorem settleAnchor_account (p : Part) (w : PostedWrite) (b : Part) : (settleAnchor w b p).account = p.account := by
  unfold settleAnchor; split <;> simp
@[simp] theorem settleAnchor_store (p : Part) (w : PostedWrite) (b : Part) : (settleAnchor w b p).store = p.store := by
  unfold settleAnchor; split <;> simp
@[simp] theorem settleAnchor_ticks (p : Part) (w : PostedWrite) (b : Part) : (settleAnchor w b p).ticks = p.ticks := by
  unfold settleAnchor; split <;> simp
@[simp] theorem settleAnchor_freeDraws (p : Part) (w : PostedWrite) (b : Part) : (settleAnchor w b p).freeDraws = p.freeDraws := by
  unfold settleAnchor; split <;> simp

end Sys2Proof.Machine
end

