-- ==== Sys2Proof/Laws/Settle.lean ====
section
/-! SUPPORT. The end of an event (`settle`): when it changes nothing, what it leaves when no lane waits on the ring, and that no
notice stands after it. -/

namespace Sys2Proof.Machine

open Sys2Proof.Safety

/-- Two parts are equal when each block is. -/
theorem Part.ext_blocks {p q : Part} (h1 : p.floor = q.floor) (h2 : p.window = q.window) (h3 : p.catalogue = q.catalogue)
    (h4 : p.tracks = q.tracks) (h5 : p.lanes = q.lanes) (h6 : p.press = q.press) (h7 : p.account = q.account)
    (h8 : p.ring = q.ring) (h9 : p.displays = q.displays) (h10 : p.store = q.store) (h11 : p.attention = q.attention)
    (h12 : p.ticks = q.ticks) (h13 : p.freeDraws = q.freeDraws) : p = q := by
  cases p; cases q; simp_all

/-! ### The counts of the ring -/

/-- The ring, every lane's reservations and the open-invoice count are as they were: nothing that the free count is made of has changed. -/
def SlotsSame (p q : Part) : Prop :=
  q.ring = p.ring ∧ (∀ i, (q.lane i).closeReserved = (p.lane i).closeReserved ∧ (q.lane i).roundReserved = (p.lane i).roundReserved) ∧
    openInvoiceCount q = openInvoiceCount p

theorem SlotsSame.of_blocks {p q : Part} (hr : q.ring = p.ring) (hl : q.lanes = p.lanes) (ha : q.account = p.account) :
    SlotsSame p q := ⟨hr, fun i => by simp [Part.lane, hl], by simp only [openInvoiceCount, ha]⟩

theorem reservedCount_same {p q : Part} (h : SlotsSame p q) : reservedCount q = reservedCount p := by
  obtain ⟨hr, hl, ha⟩ := h
  have hc : closeSlots q = closeSlots p := by
    unfold closeSlots; exact congrArg List.sum (List.map_congr_left fun i _ => by rw [(hl i).1])
  have hs : roundSlots q = roundSlots p := by
    unfold roundSlots; exact congrArg List.sum (List.map_congr_left fun i _ => by rw [(hl i).2])
  simp only [reservedCount, hc, hs, hr, ha]

theorem freeCount_same {p q : Part} (h : SlotsSame p q) : freeCount q = freeCount p := by
  simp only [freeCount, reservedCount_same h, ringCapacity, occupiedCount, h.1]

theorem freeCount_congr {p q : Part} (hr : q.ring = p.ring) (hl : q.lanes = p.lanes) (ha : q.account = p.account) :
    freeCount q = freeCount p := freeCount_same (.of_blocks hr hl ha)

/-! ### Rebuilds -/

theorem rebuildIfNotified_quiet (p : Part) (i : Lane) (h : (p.display i).notified = false) : rebuildIfNotified p i = p := by
  simp [rebuildIfNotified, h]

theorem rebuildNotified_quiet (p : Part) (h : QuietPart p) : rebuildNotified p = p := by
  unfold rebuildNotified
  generalize allLanes = xs
  induction xs with
  | nil => rfl
  | cons i xs ih => rw [List.foldl_cons, rebuildIfNotified_quiet p i (h i), ih]

theorem rebuildIfNotified_other (p : Part) (i j : Lane) (h : i ≠ j) : (rebuildIfNotified p i).display j = p.display j := by
  unfold rebuildIfNotified; split
  · exact Part.setDisplay_display_other _ _ _ _ (Ne.symm h)
  · rfl

theorem rebuildIfNotified_same (p : Part) (i : Lane) : ((rebuildIfNotified p i).display i).notified = false := by
  unfold rebuildIfNotified; split
  · simp [rebuildMap]
  · rename_i h; simpa using h

theorem rebuildNotified_clears (p : Part) : QuietPart (rebuildNotified p) := by
  have step : ∀ (xs : List Lane) (q : Part) (j : Lane), (q.display j).notified = false →
      ((xs.foldl rebuildIfNotified q).display j).notified = false := by
    intro xs
    induction xs with
    | nil => intro q j h; exact h
    | cons i xs ih =>
      intro q j h
      rw [List.foldl_cons]
      apply ih
      by_cases hij : i = j
      · subst hij; exact rebuildIfNotified_same q i
      · rw [rebuildIfNotified_other q i j hij]; exact h
  have all : ∀ (xs : List Lane) (q : Part) (j : Lane), j ∈ xs → ((xs.foldl rebuildIfNotified q).display j).notified = false := by
    intro xs
    induction xs with
    | nil => intro q j h; cases h
    | cons i xs ih =>
      intro q j h
      rw [List.foldl_cons]
      rcases List.mem_cons.mp h with rfl | h
      · exact step xs _ _ (rebuildIfNotified_same q _)
      · exact ih _ _ h
  intro j
  exact all allLanes p j (by revert j; decide)

/-! ### The end of an event -/

theorem serveIfDue_same (b p : Part) (h : SlotsSame b p) : serveIfDue b p = p := by
  simp [serveIfDue, freeCount_same h, h.1]

theorem judgeRingLow_same (b p : Part) (h : SlotsSame b p) : judgeRingLow b p = p := by
  simp only [judgeRingLow, freeCount_same h]
  split
  · omega
  · rfl

/-- An event that changes no slot needs no service and lowers no free count: only maps are rebuilt. -/
theorem settle_rebuilds (b p : Part) (h : SlotsSame b p) : settle b p = rebuildNotified p := by
  simp only [settle, serveIfDue_same b p h, judgeRingLow_same b p h]

/-- An event that changes no slot and tells the Display Mapper nothing ends as it stands. -/
theorem settle_same (b p : Part) (h : SlotsSame b p) (hq : QuietPart p) : settle b p = p := by
  rw [settle_rebuilds b p h, rebuildNotified_quiet p hq]

/-- A step that does not lower the free count raises no RING-LOW. -/
theorem judgeRingLow_of_le (b p : Part) (h : freeCount b ≤ freeCount p) : judgeRingLow b p = p := by
  unfold judgeRingLow; split
  · omega
  · rfl

/-- Rebuilding changes the displays alone. -/
theorem rebuildNotified_eq (p : Part) : rebuildNotified p = { p with displays := (rebuildNotified p).displays } := by
  apply Part.ext_blocks <;> simp

/-- The end of an event changes the lanes, the lots, the displays, the ring and the Attention Unit alone. -/
theorem settle_eq (b p : Part) : settle b p =
    { p with lanes := (settle b p).lanes, catalogue := (settle b p).catalogue, displays := (settle b p).displays,
             ring := (settle b p).ring, attention := (settle b p).attention } := by
  apply Part.ext_blocks <;> simp

theorem quietPart_congr {p q : Part} (h : q.displays = p.displays) (hp : QuietPart p) : QuietPart q := by
  intro i; simpa [Part.display, h] using hp i

theorem serveIfDue_noWaiters (b p : Part) (h : p.ring.waiters = []) : serveIfDue b p = p := by
  simp [serveIfDue, h, serveWaiters]

/-- With no lane waiting on the ring, the end of an event serves none. -/
theorem settle_noWaiters (b p : Part) (h : p.ring.waiters = []) : settle b p = rebuildNotified (judgeRingLow b p) := by
  rw [settle, serveIfDue_noWaiters b p h]

theorem settle_lanes_noWaiters (b p : Part) (h : p.ring.waiters = []) : (settle b p).lanes = p.lanes := by
  simp [settle_noWaiters b p h]

theorem settle_ring_noWaiters (b p : Part) (h : p.ring.waiters = []) : (settle b p).ring = p.ring := by
  simp [settle_noWaiters b p h]

theorem settle_catalogue_noWaiters (b p : Part) (h : p.ring.waiters = []) : (settle b p).catalogue = p.catalogue := by
  simp [settle_noWaiters b p h]

theorem settle_attention_noWaiters (b p : Part) (h : p.ring.waiters = []) :
    (settle b p).attention = p.attention ∨ (settle b p).attention = p.attention.raise .ringLow := by
  simp only [settle_noWaiters b p h, rebuildNotified_attention, judgeRingLow]
  split
  · right; rfl
  · left; rfl

/-! ### What service leaves -/

/-- Of the ring only the waiters may differ. -/
def RingBut (p q : Part) : Prop := ∃ ws, q.ring = { p.ring with waiters := ws }

theorem RingBut.of_ring {p q : Part} (h : q.ring = p.ring) : RingBut p q := ⟨p.ring.waiters, by rw [h]⟩

theorem RingBut.trans {p q r : Part} (h : RingBut p q) (k : RingBut q r) : RingBut p r := by
  obtain ⟨w, hw⟩ := h
  obtain ⟨v, hv⟩ := k
  exact ⟨v, by rw [hv, hw]⟩

/-- Of the Attention Unit only the flags and counts of RING-HOLD and RING-LOW may differ. -/
def AttentionBut (p q : Part) : Prop :=
  q.attention = { p.attention with flags := q.attention.flags, counts := q.attention.counts } ∧
    ∀ j : Fin 18, j ≠ EventKind.ringHold.num → j ≠ EventKind.ringLow.num →
      q.attention.flags.getLsbD j.val = p.attention.flags.getLsbD j.val ∧ q.attention.counts[j] = p.attention.counts[j]

theorem AttentionBut.of_attention {p q : Part} (h : q.attention = p.attention) : AttentionBut p q := by
  rw [AttentionBut, h]; exact ⟨rfl, fun _ _ _ => ⟨rfl, rfl⟩⟩

theorem AttentionBut.trans {p q r : Part} (h : AttentionBut p q) (k : AttentionBut q r) : AttentionBut p r := by
  refine ⟨?_, fun j a b => ⟨(k.2 j a b).1.trans (h.2 j a b).1, (k.2 j a b).2.trans (h.2 j a b).2⟩⟩
  rw [k.1, h.1]

theorem EventKind.flag_bit (k : EventKind) (j : Fin 18) : k.flag.getLsbD j.val = decide (j = k.num) := by
  revert j; cases k <;> decide

/-- R179, as a statement of each flag and each count. -/
theorem AttentionUnit.raise_counted (a : AttentionUnit) (k : EventKind) : Counted a (a.raise k) k := by
  constructor
  · intro j
    rw [AttentionUnit.raise, BitVec.getLsbD_or, EventKind.flag_bit, Bool.or_comm]
  · intro j
    simp only [AttentionUnit.raise]
    by_cases h : j = k.num
    · subst h; simp
    · simp only [h, if_false]
      exact Vector.getElem_set_ne _ _ (fun e => h (Fin.ext e.symm))

theorem AttentionUnit.raise_raised (a : AttentionUnit) (k : EventKind) : Raised a (a.raise k) k := ⟨a.raise_counted k, rfl⟩

theorem ErrorCapture.take_captured (c : ErrorCapture) (r : ErrorReport) (tick : Word32) : Captured c (c.take r tick) r tick := by
  constructor <;> intro h <;> simp [ErrorCapture.take, h, Config.maxLost]

/-- R174, R175, R179: what a report does. -/
theorem Part.report_reported (p : Part) (r : ErrorReport) : Reported p.attention (p.report r).attention r p.tick :=
  ⟨ErrorCapture.take_captured _ _ _, AttentionUnit.raise_counted _ _, rfl⟩

theorem AttentionBut.raise (p : Part) (k : EventKind) (h : k = .ringHold ∨ k = .ringLow) : AttentionBut p (p.raise k) := by
  refine ⟨rfl, fun j a b => ?_⟩
  have hk : j ≠ k.num := by rcases h with rfl | rfl <;> assumption
  have c := AttentionUnit.raise_counted p.attention k
  refine ⟨?_, ?_⟩
  · rw [show (p.raise k).attention = p.attention.raise k from rfl, c.1 j]; simp [hk]
  · rw [show (p.raise k).attention = p.attention.raise k from rfl, c.2 j]; simp [hk]

/-- What a served lane's step may change beside the lanes, the lots and the displays. -/
def Served (p q : Part) : Prop := RingBut p q ∧ AttentionBut p q

theorem Served.of_blocks {p q : Part} (hr : q.ring = p.ring) (ha : q.attention = p.attention) : Served p q :=
  ⟨.of_ring hr, .of_attention ha⟩

theorem Served.trans {p q r : Part} (h : Served p q) (k : Served q r) : Served p r := ⟨h.1.trans k.1, h.2.trans k.2⟩

theorem waitOnRing_served (p : Part) (i : Lane) (r : ReturnState) (n : Nat) : Served p (waitOnRing p i r n) :=
  ⟨⟨p.ring.waiters ++ [⟨i, n⟩], rfl⟩, AttentionBut.raise _ _ (.inl rfl)⟩

theorem prime_served (p : Part) (i : Lane) (lot : Nat) : Served p (prime p i lot) := by
  unfold prime; split
  · exact .of_blocks (by simp) (by simp)
  · exact waitOnRing_served _ _ _ _

theorem look_served (p : Part) (i : Lane) : Served p (look p i) := by
  unfold look; split
  · exact prime_served _ _ _
  · exact .of_blocks rfl rfl

theorem enterIdle_served (p : Part) (i : Lane) : Served p (enterIdle p i) :=
  Served.trans (.of_blocks (by simp) (by simp)) (look_served _ i)

theorem lookWithSlot_served (p : Part) (i : Lane) : Served p (lookWithSlot p i) := by
  unfold lookWithSlot; dsimp only
  split <;> exact .of_blocks (by simp) (by simp)

theorem enterRunning_served (p : Part) (i : Lane) (r : ReturnState) : Served p (enterRunning p i r) := by
  unfold enterRunning; split
  · exact .of_blocks (by simp) (by simp)
  · exact waitOnRing_served _ _ _ _

theorem leaveHeld_served (p : Part) (i : Lane) : Served p (leaveHeld p i) := by
  unfold leaveHeld; dsimp only
  (repeat' split) <;>
    first
    | exact lookWithSlot_served _ _
    | exact enterIdle_served _ _
    | exact enterRunning_served _ _ _
    | exact .of_blocks (by simp) (by simp)

theorem leaveHeldIfFree_served (p : Part) (i : Lane) : Served p (leaveHeldIfFree p i) := by
  unfold leaveHeldIfFree; split
  · exact leaveHeld_served _ _
  · exact .of_blocks rfl rfl

theorem serveLane_served (p : Part) (w : Waiter) : Served p (serveLane p w) :=
  Served.trans (.of_blocks (by simp) (by simp)) (leaveHeldIfFree_served _ _)

theorem serveWaiters_served (n : Nat) (p : Part) : Served p (serveWaiters n p) := by
  induction n generalizing p with
  | zero => exact .of_blocks rfl rfl
  | succ n ih =>
    unfold serveWaiters
    split
    · exact .of_blocks rfl rfl
    · rename_i w rest _
      split
      · have a : Served p (p.setRing { p.ring with waiters := rest }) := ⟨⟨rest, rfl⟩, .of_attention rfl⟩
        exact a.trans ((serveLane_served _ w).trans (ih _))
      · exact .of_blocks rfl rfl

theorem serveIfDue_served (b p : Part) : Served p (serveIfDue b p) := by
  unfold serveIfDue; split
  · exact serveWaiters_served _ _
  · exact .of_blocks rfl rfl

/-- Of the ring and the Attention Unit, the end of an event may change the waiters and the two ring events only. -/
theorem settle_served (b p : Part) : Served p (settle b p) := by
  have h : Served p (serveIfDue b p) := serveIfDue_served b p
  have k : Served (serveIfDue b p) (judgeRingLow b (serveIfDue b p)) := by
    unfold judgeRingLow; split
    · exact ⟨.of_ring rfl, AttentionBut.raise _ _ (.inr rfl)⟩
    · exact .of_blocks rfl rfl
  have r : Served (judgeRingLow b (serveIfDue b p)) (settle b p) :=
    .of_blocks (rebuildNotified_ring _) (rebuildNotified_attention _)
  exact h.trans (k.trans r)

/-- No notice to the Display Mapper stands after an event. -/
theorem settle_quiet (b p : Part) : QuietPart (settle b p) := rebuildNotified_clears _

/-! ### The end of an event that took a ring-low threshold -/

/-- R133: RING-LOW where the free count is below the threshold, and nothing else. -/
theorem judgeThreshold_served (p : Part) : Served p (judgeThreshold p) := by
  unfold judgeThreshold; split
  · exact ⟨.of_ring rfl, AttentionBut.raise _ _ (.inr rfl)⟩
  · exact .of_blocks rfl rfl

/-- The end of an event that took a threshold changes what `settle` may change, and nothing else. -/
theorem settleThreshold_eq (b p : Part) : settleThreshold b p =
    { p with lanes := (settleThreshold b p).lanes, catalogue := (settleThreshold b p).catalogue,
             displays := (settleThreshold b p).displays, ring := (settleThreshold b p).ring,
             attention := (settleThreshold b p).attention } := by
  apply Part.ext_blocks <;> simp

theorem settleThreshold_served (b p : Part) : Served p (settleThreshold b p) :=
  (serveIfDue_served b p).trans ((judgeThreshold_served _).trans
    (.of_blocks (rebuildNotified_ring _) (rebuildNotified_attention _)))

theorem settleThreshold_quiet (b p : Part) : QuietPart (settleThreshold b p) := rebuildNotified_clears _

/-- An event that took a threshold, served no waiter and told the Display Mapper nothing ends with the threshold's own test. -/
theorem settleThreshold_unserved (b p : Part) (h : serveIfDue b p = p) (hq : QuietPart p) :
    settleThreshold b p = judgeThreshold p := by
  rw [settleThreshold, h, rebuildNotified_quiet _ (quietPart_congr (by simp) hq)]

theorem settleAnchor_served (w : PostedWrite) (b p : Part) : Served p (settleAnchor w b p) := by
  unfold settleAnchor; split
  · exact settleThreshold_served b p
  · exact settle_served b p

theorem settleAnchor_quiet (w : PostedWrite) (b p : Part) : QuietPart (settleAnchor w b p) := by
  unfold settleAnchor; split
  · exact settleThreshold_quiet b p
  · exact settle_quiet b p

end Sys2Proof.Machine
end

