-- ==== Sys2Proof/Laws/Takings.lean ====
section
/-! SUPPORT. Takings: what `takeWrite`, `takeRead` and the taking of an Anchor write of one command do when their event can occur. -/

namespace Sys2Proof.Machine

open Sys2Proof.Safety

/-! ### Writes -/

theorem takeableWrite_of (p : Part) (w : PostedWrite) (h : HeadTakeable p w) : takeableWrite p = some w := by
  obtain ⟨⟨rest, hb⟩, hq, hf⟩ := h
  unfold takeableWrite
  rw [hb]
  have hp : takingPaused p = false := by
    exact decide_eq_false (by unfold Config.fullQueue; omega)
  cases hc : w.cls.callsForForwarding
  · simp [hp, hc]
  · simp [hp, hf hc]

/-- A taking of the buffer's head that may be taken and is of the row: the head leaves, its owner acts, and the event ends as said. -/
theorem takeWriteThen_of (finish : PostedWrite → Part → Part → Part) (row : Part → PostedWrite → Bool)
    (act : PostedWrite → Part → Part) (p : Part) (w : PostedWrite) (h : HeadTakeable p w) (hr : row p w = true) :
    takeWriteThen finish row act p = finish w p (act w (popWrite p)) := by
  simp [takeWriteThen, takeableWrite_of p w h, hr]

/-- A taking of the buffer's head that may be taken and is of the row: the head leaves, its owner acts, and the event ends. -/
theorem takeWrite_of (row : Part → PostedWrite → Bool) (act : PostedWrite → Part → Part) (p : Part) (w : PostedWrite)
    (h : HeadTakeable p w) (hr : row p w = true) : takeWrite row act p = settle p (act w (popWrite p)) := by
  exact takeWriteThen_of _ row act p w h hr

theorem popWrite_floor (p : Part) : (popWrite p).floor = headGone p := rfl

theorem forward_store (w : PostedWrite) (l : Option Nat) (p : Part) : (forward w l p).store = forwardedInto p w l := by
  unfold forward forwardedInto forwardedOf
  by_cases h : w.bytes = []
  · simp [h]
  · simp [h]

/-- R150, R154: forwarding changes the Store Port alone. -/
theorem forward_eq (w : PostedWrite) (l : Option Nat) (p : Part) : forward w l p = { p with store := forwardedInto p w l } := by
  unfold forward forwardedInto forwardedOf
  by_cases h : w.bytes = []
  · simp [h]
  · simp [h, Part.setStore]

/-! ### Reads -/

theorem takeRead_of (row : ReadInProgress → Bool) (act : ReadInProgress → Part → Part) (p : Part) (r : ReadInProgress)
    (h : ReadTakeable p r) (hr : row r = true) : takeRead row act p = act r p := by
  obtain ⟨h1, h2, h3⟩ := h
  simp [takeRead, takeableRead, h1, h2, h3, hr]

theorem answerRead_floor (r : ReadInProgress) (a : Answer) (p : Part) : (answerRead r a p).floor = readAnswered p r a := rfl

/-! ### Anchor writes of one command -/

theorem covers_nil (start size : Nat) : covers [] start size = false := rfl

theorem anchorActions_nil : anchorActions [] = [] := by decide

/-- A write that sets off a command enables a byte. -/
theorem bytes_of_setsOff {p : Part} {w : PostedWrite} {a : AnchorAction} (h : SetsOff p w a) : w.bytes ≠ [] := by
  intro hb
  have := h.2.2
  rw [anchorBytes, hb] at this
  rw [show offsetsFrom (anchorBase p.window.anchorSel) [] = [] from rfl, anchorActions_nil] at this
  cases this

/-- The part as an Anchor write leaves it before its command is acted on: the head gone, the bytes shadowed, the write forwarded. -/
def anchorBefore (p : Part) (w : PostedWrite) : Part :=
  forward w none ((popWrite p).setWindow { (popWrite p).window with shadow := shadowAfter p w })

/-- An Anchor write that takes no ring-low threshold ends as every event does. -/
theorem settleAnchor_settle (w : PostedWrite) (before p : Part) (h : thresholdTaken before w = false) :
    settleAnchor w before p = settle before p := by
  simp [settleAnchor, h]

/-- An Anchor write of one command takes a ring-low threshold only where that command is the threshold's. -/
theorem thresholdTaken_other (p : Part) (w : PostedWrite) (a : AnchorAction) (hs : SetsOff p w a) (ha : a ≠ .threshold) :
    thresholdTaken p w = false := by
  simp [thresholdTaken, hs.2.2, ha.symm]

/-- R133: an Anchor write of the threshold alone takes it where its value is in range. -/
theorem thresholdTaken_self (p : Part) (w : PostedWrite) (hs : SetsOff p w .threshold) :
    thresholdTaken p w = decide (fieldAfter p w 0x0206 2 ≤ 4095) := by
  rw [thresholdTaken, hs.2.2]; rfl

/-- The taking of an Anchor write that sets off one command of the row: the owner acts once, on the shadow after the write, and the
event ends. -/
theorem takeAnchor_ends (row : List Host.Cell → AnchorAction → Bool) (p : Part) (w : PostedWrite) (a : AnchorAction)
    (h : HeadTakeable p w) (hs : SetsOff p w a) (hr : row (shadowAfter p w) a = true) :
    takeAnchor row p = settleAnchor w p (perform w (anchorBytes p w) (anchorBefore p w) a) := by
  have hrow : anchorRow row p w = true := by
    simp [anchorRow, PostedWrite.into, hs.1, hs.2.1, hs.2.2, hr]
  rw [takeAnchor, takeWriteThen_of _ _ _ p w h hrow]
  have hb : anchorBytes (popWrite p) w = anchorBytes p w := rfl
  simp only [takeAnchorWrite, hb, hs.2.2, freelyOrdered_one, List.foldl_cons, List.foldl_nil, List.length_singleton]
  rfl

/-- The taking of an Anchor write that sets off one command of the row, other than the ring-low threshold's. -/
theorem takeAnchor_of (row : List Host.Cell → AnchorAction → Bool) (p : Part) (w : PostedWrite) (a : AnchorAction)
    (h : HeadTakeable p w) (hs : SetsOff p w a) (hr : row (shadowAfter p w) a = true) (ha : a ≠ .threshold) :
    takeAnchor row p = settle p (perform w (anchorBytes p w) (anchorBefore p w) a) := by
  rw [takeAnchor_ends row p w a h hs hr, settleAnchor_settle w p _ (thresholdTaken_other p w a hs ha)]

@[simp] theorem anchorBefore_shadow (p : Part) (w : PostedWrite) : (anchorBefore p w).window.shadow = shadowAfter p w := by
  simp [anchorBefore]
@[simp] theorem anchorBefore_window (p : Part) (w : PostedWrite) :
    (anchorBefore p w).window = { p.window with shadow := shadowAfter p w } := by
  simp [anchorBefore]
@[simp] theorem anchorBefore_floor (p : Part) (w : PostedWrite) : (anchorBefore p w).floor = headGone p := by
  simp [anchorBefore, popWrite_floor]
theorem anchorBefore_store (p : Part) (w : PostedWrite) (h : w.bytes ≠ []) :
    (anchorBefore p w).store = { p.store with forwardWrite := some (forwardedOf w none) } := by
  simp [anchorBefore, forward_store, forwardedInto, h]
@[simp] theorem anchorBefore_catalogue (p : Part) (w : PostedWrite) : (anchorBefore p w).catalogue = p.catalogue := by
  simp [anchorBefore]
@[simp] theorem anchorBefore_tracks (p : Part) (w : PostedWrite) : (anchorBefore p w).tracks = p.tracks := by
  simp [anchorBefore]
@[simp] theorem anchorBefore_lanes (p : Part) (w : PostedWrite) : (anchorBefore p w).lanes = p.lanes := by
  simp [anchorBefore]
@[simp] theorem anchorBefore_press (p : Part) (w : PostedWrite) : (anchorBefore p w).press = p.press := by
  simp [anchorBefore]
@[simp] theorem anchorBefore_account (p : Part) (w : PostedWrite) : (anchorBefore p w).account = p.account := by
  simp [anchorBefore]
@[simp] theorem anchorBefore_ring (p : Part) (w : PostedWrite) : (anchorBefore p w).ring = p.ring := by
  simp [anchorBefore]
@[simp] theorem anchorBefore_displays (p : Part) (w : PostedWrite) : (anchorBefore p w).displays = p.displays := by
  simp [anchorBefore]
@[simp] theorem anchorBefore_attention (p : Part) (w : PostedWrite) : (anchorBefore p w).attention = p.attention := by
  simp [anchorBefore]
@[simp] theorem anchorBefore_ticks (p : Part) (w : PostedWrite) : (anchorBefore p w).ticks = p.ticks := by
  simp [anchorBefore]
@[simp] theorem anchorBefore_freeDraws (p : Part) (w : PostedWrite) : (anchorBefore p w).freeDraws = p.freeDraws := by
  simp [anchorBefore]

end Sys2Proof.Machine
end

