-- ==== Sys2Proof/Laws/Windows.lean ====
section
/-! SUPPORT. What the commands leave of the Window Unit: no command but the taking of an Anchor write changes the shadow, and none but
a reset the Anchor's place. -/

namespace Sys2Proof.Machine

/-- The Anchor's place and the shadow are as they were. -/
def AnchorKept (p q : Part) : Prop := q.window.shadow = p.window.shadow ∧ q.window.anchorSel = p.window.anchorSel

theorem AnchorKept.of_window {p q : Part} (h : q.window = p.window) : AnchorKept p q := by simp [AnchorKept, h]

theorem AnchorKept.trans {p q r : Part} (h : AnchorKept p q) (k : AnchorKept q r) : AnchorKept p r :=
  ⟨k.1.trans h.1, k.2.trans h.2⟩

theorem setDayResult_anchor (p : Part) (r : WordResult) : AnchorKept p (setDayResult p r) := ⟨rfl, rfl⟩

theorem openDay_anchor (p : Part) (n : Nat) : AnchorKept p (openDay p n) := by
  simp [AnchorKept, openDay, setDayResult, createDayMark, createRecord]

theorem takeDayOpen_anchor (p : Part) (n : Nat) : AnchorKept p (takeDayOpen p n) := by
  unfold takeDayOpen
  (repeat' split) <;> exact setDayResult_anchor _ _

theorem endDay_anchor (p : Part) : AnchorKept p (endDay p) := by
  simp [AnchorKept, endDay]

theorem endDayIfDue_anchor (p : Part) : AnchorKept p (endDayIfDue p) := by
  unfold endDayIfDue; split
  · exact endDay_anchor p
  · exact ⟨rfl, rfl⟩

theorem closeDay_anchor (p : Part) : AnchorKept p (closeDay p) := by
  unfold closeDay; dsimp only
  refine AnchorKept.trans ?_ (endDayIfDue_anchor _)
  simp [AnchorKept, setDayResult]

theorem takeDayWord_anchor (p : Part) (n : Nat) (c : DayCommand) : AnchorKept p (takeDayWord p n c) := by
  cases c
  · exact takeDayOpen_anchor p n
  · simp only [takeDayWord, takeDayClose]; split
    · exact closeDay_anchor p
    · exact setDayResult_anchor _ _
  · exact setDayResult_anchor _ _

theorem refuseWindow_anchor (p : Part) (m : Master) (w : Window) (c : CommitReason) : AnchorKept p (refuseWindow p m w c) := by
  simp [AnchorKept, refuseWindow, setWindowResult]

theorem installWindow_anchor (p : Part) (w : Window) (k : WindowKind) (d : Descriptor) :
    AnchorKept p (installWindow p w k d) := by
  simp [AnchorKept, installWindow, setWindowResult]

theorem commitWindow_anchor (p : Part) (m : Master) (w : Window) : AnchorKept p (commitWindow p m w) := by
  unfold commitWindow; dsimp only
  (repeat' split) <;> first | exact refuseWindow_anchor _ _ _ _ | exact installWindow_anchor _ _ _ _

theorem clearWindow_anchor (p : Part) (w : Window) : AnchorKept p (clearWindow p w) := by
  unfold clearWindow; dsimp only
  split <;> simp [AnchorKept, setWindowResult]

theorem removeWindow_anchor (p : Part) (m : Master) (w : Window) : AnchorKept p (removeWindow p m w) := by
  unfold removeWindow; dsimp only
  (repeat' split) <;> first | exact refuseWindow_anchor _ _ _ _ | exact clearWindow_anchor _ _ | exact ⟨rfl, rfl⟩

theorem commitMaster_anchor (p : Part) (m e : Master) : AnchorKept p (commitMaster p m e) := by
  unfold commitMaster refuseMaster setMasterResult
  (repeat' split) <;> simp [AnchorKept]

/-- Acting on an Anchor write's command leaves the shadow and the Anchor's place. -/
theorem perform_anchor (w : PostedWrite) (bytes : List (Nat × Byte)) (p : Part) (a : AnchorAction) :
    AnchorKept p (perform w bytes p a) := by
  cases a
  case day => exact takeDayWord_anchor _ _ _
  case windowWord v =>
    simp only [perform]; split
    · exact commitWindow_anchor _ _ _
    · exact removeWindow_anchor _ _ _
  case masterWord m => exact commitMaster_anchor _ _ _
  all_goals exact AnchorKept.of_window (by simp [perform])

open Sys2Proof.Safety in
/-- What the taking of an Anchor write of one command does whatever the command (R157). -/
theorem takeAnchor_taken (row : List Host.Cell → AnchorAction → Bool) (p : Part) (w : PostedWrite) (a : AnchorAction)
    (h : HeadTakeable p w) (hs : SetsOff p w a) (hr : row (shadowAfter p w) a = true) :
    AnchorTaken p (takeAnchor row p) w := by
  rw [takeAnchor_ends row p w a h hs hr]
  refine ⟨?_, ?_, ?_, ?_, ?_⟩
  · simp
  · simp [(perform_anchor w (anchorBytes p w) (anchorBefore p w) a).1]
  · simp [anchorBefore_store p w (bytes_of_setsOff hs)]
  · simp
  · simp

end Sys2Proof.Machine
end

