-- ==== Sys2Proof/Laws/Lots.lean ====
section
/-! SUPPORT. Lots, desks and buyers: what a lookup gives after each named update, and that a write-back requested is waiting. -/

namespace Sys2Proof.Machine

open Sys2Proof.Safety

/-! ### Digests -/

@[simp] theorem digest_setDigest_same (p : Part) (lot : Nat) (d : Digest) : (p.setDigest lot d).digest lot = some d :=
  tableFind_insert_same _ _ _

theorem digest_setDigest_other (p : Part) (lot k : Nat) (d : Digest) (h : k ≠ lot) :
    (p.setDigest lot d).digest k = p.digest k := tableFind_insert_other _ _ _ _ h

theorem digest_congr {p q : Part} (h : q.catalogue.known = p.catalogue.known) (lot : Nat) : q.digest lot = p.digest lot := by
  simp [Part.digest, h]

theorem digest_updateDigest_same (p : Part) (lot : Nat) (f : Digest → Digest) :
    (p.updateDigest lot f).digest lot = (p.digest lot).map f := by
  unfold Part.updateDigest
  cases h : p.digest lot <;> simp [h]

theorem digest_updateDigest_other (p : Part) (lot k : Nat) (f : Digest → Digest) (h : k ≠ lot) :
    (p.updateDigest lot f).digest k = p.digest k := by
  unfold Part.updateDigest
  split
  · exact digest_setDigest_other _ _ _ _ h
  · rfl

/-- A digest's update changes the table of known lots alone. -/
theorem updateDigest_eq (p : Part) (lot : Nat) (f : Digest → Digest) :
    p.updateDigest lot f =
      { p with catalogue := { p.catalogue with known := (p.updateDigest lot f).catalogue.known } } := by
  unfold Part.updateDigest; split <;> rfl

@[simp] theorem requestWriteBack_known (p : Part) (lot : Nat) (c : Bool) :
    (requestWriteBack p lot c).catalogue.known = p.catalogue.known := rfl

theorem joinWriteBacks_mem (lot : Nat) (c : Bool) (xs : List WriteBackEntry) : ∃ e ∈ joinWriteBacks lot c xs, e.lot = lot := by
  induction xs with
  | nil => exact ⟨_, List.mem_singleton_self _, rfl⟩
  | cons x xs ih =>
    unfold joinWriteBacks; split
    · exact ⟨_, List.mem_cons_self .., rfl⟩
    · obtain ⟨e, he, hl⟩ := ih
      exact ⟨e, List.mem_cons_of_mem _ he, hl⟩

/-- R18: what a request makes of the write-back queue. -/
theorem joinWriteBacks_joined (lot : Nat) (c : Bool) (xs : List WriteBackEntry) : WriteBackJoined xs (joinWriteBacks lot c xs) lot c := by
  induction xs with
  | nil => exact ⟨fun _ => rfl, fun before e after h => by simp at h⟩
  | cons x xs ih =>
    obtain ⟨ih1, ih2⟩ := ih
    unfold joinWriteBacks
    by_cases hx : x.lot = lot
    · rw [if_pos hx]
      refine ⟨fun h => absurd hx (h x (List.mem_cons_self ..)), fun before e after h he hb => ?_⟩
      cases before with
      | nil => cases h; rfl
      | cons y ys => cases h; exact absurd hx (hb x (List.mem_cons_self ..))
    · rw [if_neg hx]
      refine ⟨fun h => ?_, fun before e after h he hb => ?_⟩
      · rw [ih1 fun e he => h e (List.mem_cons_of_mem _ he)]; rfl
      · cases before with
        | nil => cases h; exact absurd he hx
        | cons y ys =>
          cases h
          rw [ih2 ys e after rfl he fun z hz => hb z (List.mem_cons_of_mem _ hz)]; rfl

/-- R19: whether a write-back of a lot is outstanding. -/
theorem writeBackOutstanding_due (p : Part) (lot : Nat) : writeBackOutstanding p lot = true ↔ WriteBackDue p lot := by
  unfold writeBackOutstanding WriteBackDue WriteBackQueued
  rcases p.catalogue.writeBackOut with _ | e <;> simp

/-- R19: write-backs are due by the queue and the transaction in flight alone. -/
theorem writeBackDue_congr {p q : Part} (h : q.catalogue.writeBacks = p.catalogue.writeBacks)
    (ho : q.catalogue.writeBackOut = p.catalogue.writeBackOut) (lot : Nat) : WriteBackDue q lot ↔ WriteBackDue p lot := by
  simp [WriteBackDue, WriteBackQueued, h, ho]

/-- R18, R19: a write-back just requested is outstanding. -/
theorem requestWriteBack_outstanding (p : Part) (lot : Nat) (c : Bool) : writeBackOutstanding (requestWriteBack p lot c) lot = true := by
  obtain ⟨e, he, hl⟩ := joinWriteBacks_mem lot c p.catalogue.writeBacks
  simp only [writeBackOutstanding, Bool.or_eq_true]
  left
  exact List.any_eq_true.mpr ⟨e, he, by simp [hl]⟩

/-- R19: the end of a lot's reason changes the table of known lots alone. -/
theorem endReason_eq (p : Part) (lot : Nat) :
    endReason p lot = { p with catalogue := { p.catalogue with known := (endReason p lot).catalogue.known } } := by
  unfold endReason freeIfDone
  rw [updateDigest_eq]
  (repeat' split) <;> rfl

/-- R19: while a write-back of it is outstanding a lot whose reason ends stays known. -/
theorem endReason_kept (p : Part) (lot : Nat) (h : writeBackOutstanding p lot = true) :
    endReason p lot = p.updateDigest lot fun d => { d with ended := true } := by
  unfold endReason freeIfDone
  have hw : writeBackOutstanding (p.updateDigest lot fun d => { d with ended := true }) lot = true := by
    rw [updateDigest_eq]; exact h
  rw [hw]
  split <;> simp

/-- R13: a listing refused: the lot's digest, its write-back, the last-refusal record, the counter and the event; the other lots stay. -/
theorem refuseListing_law (p : Part) (lot : Nat) (r : RefusalReason) (d : Digest) (hd : p.digest lot = some d) :
    (refuseListing p lot r).digest lot =
      some { d with owned := { Owned.atListing with state := .refused, reason := r }, ended := true } ∧
    (∀ k, k ≠ lot → (refuseListing p lot r).digest k = p.digest k) ∧
    WriteBackJoined p.catalogue.writeBacks (refuseListing p lot r).catalogue.writeBacks lot false ∧
    (refuseListing p lot r).catalogue = { p.catalogue with
      known := (refuseListing p lot r).catalogue.known, writeBacks := (refuseListing p lot r).catalogue.writeBacks,
      lastRefusal := { lot := lot, reason := r, tick := p.ticks.count }, refusedCount := p.catalogue.refusedCount + 1 } ∧
    Raised p.attention (refuseListing p lot r).attention .listingRefused := by
  let refused : Owned := { Owned.atListing with state := .refused, reason := r }
  let noted := noteRefusal (requestWriteBack (p.updateOwned lot fun _ => refused) lot false) lot r
  have ho : writeBackOutstanding noted lot = true := requestWriteBack_outstanding _ _ _
  have e : refuseListing p lot r = noted.updateDigest lot fun d => { d with ended := true } := endReason_kept _ _ ho
  have same : ∀ k, noted.digest k = (p.updateOwned lot fun _ => refused).digest k := fun _ => rfl
  rw [e]
  refine ⟨?_, ?_, ?_, ?_, ?_⟩
  · rw [digest_updateDigest_same, same, Part.updateOwned, digest_updateDigest_same, hd]; rfl
  · intro k hk
    rw [digest_updateDigest_other _ _ _ _ hk, same, Part.updateOwned, digest_updateDigest_other _ _ _ _ hk]
  · rw [updateDigest_eq]
    unfold noted Part.updateOwned
    rw [updateDigest_eq p]
    exact joinWriteBacks_joined _ _ _
  · rw [updateDigest_eq]
    show _ = _
    unfold noted Part.updateOwned
    rw [updateDigest_eq p]; rfl
  · rw [updateDigest_eq]
    unfold noted Part.updateOwned
    rw [updateDigest_eq p]; exact AttentionUnit.raise_raised _ _

/-! ### Desks and buyers -/

@[simp] theorem desk_setDesk_same (p : Part) (k : Nat) (d : DeskEntry) : (p.setDesk k d).desk k = d := tableGet_set_same _ _ _ _

theorem desk_setDesk_other (p : Part) (k j : Nat) (d : DeskEntry) (h : j ≠ k) : (p.setDesk k d).desk j = p.desk j :=
  tableGet_set_other _ _ _ _ _ h

@[simp] theorem buyer_setBuyer_same (p : Part) (k : Nat) (b : BuyerEntry) : (p.setBuyer k b).buyer k = b := tableGet_set_same _ _ _ _

theorem buyer_setBuyer_other (p : Part) (k j : Nat) (b : BuyerEntry) (h : j ≠ k) : (p.setBuyer k b).buyer j = p.buyer j :=
  tableGet_set_other _ _ _ _ _ h

theorem buyer_congr {p q : Part} (h : q.account.buyers = p.account.buyers) (k : Nat) : q.buyer k = p.buyer k := by
  simp [Part.buyer, h]

theorem desk_congr {p q : Part} (h : q.press.desks = p.press.desks) (k : Nat) : q.desk k = p.desk k := by
  simp [Part.desk, h]

/-- R98: the host fields of a buyer entry as a write leaves them, each as the statements name it. -/
theorem BuyerEntry.written_taken (b : BuyerEntry) (bytes : List (Nat × Byte)) : BuyerTaken bytes b (b.written bytes) := by
  unfold BuyerTaken BuyerEntry.written
  simp only
  refine ⟨?_, by trivial, ?_, ?_, by trivial⟩
  · by_cases h : covers bytes 0x00 3 = true <;> simp [h]
  · intro i
    by_cases h : covers bytes 0x04 1 = true
    · simp only [h, if_true]; rw [BitVec.getLsbD_ofNat]; simp [i.isLt]
    · simp only [h, Bool.false_eq_true, if_false]
  · by_cases h : covers bytes 0x08 8 = true <;> simp [h]

/-! ### The open-invoice count (R105) -/

/-- Setting a buyer's entry changes the open-invoice count by that buyer's own invoice. -/
theorem openInvoiceCount_setBuyer (p : Part) (k : Nat) (b : BuyerEntry) (h : tableSorted p.account.buyers) :
    openInvoiceCount (p.setBuyer k b) + (if (p.buyer k).invoice ≠ 0 then 1 else 0) =
      openInvoiceCount p + if b.invoice ≠ 0 then 1 else 0 := by
  have := tableCount_set (fun e : BuyerEntry => decide (e.invoice ≠ 0)) .afterReset p.account.buyers k b (by decide) h
  simp only [tableCount, openInvoiceCount, Part.buyer, Part.setBuyer, Part.setAccount, decide_eq_true_eq] at this ⊢
  convert this using 3; congr

theorem openInvoiceCount_setBuyer_same (p : Part) (k : Nat) (b : BuyerEntry) (h : tableSorted p.account.buyers)
    (hb : b.invoice = (p.buyer k).invoice) : openInvoiceCount (p.setBuyer k b) = openInvoiceCount p := by
  have := openInvoiceCount_setBuyer p k b h
  rw [hb] at this
  omega

end Sys2Proof.Machine
end

