-- ==== Sys2Proof/Laws/AnchorWords.lean ====
section
/-! SUPPORT. What the taking of an Anchor write leaves to its command, and what its window, master and event-map words do. -/

namespace Sys2Proof.Machine

open Sys2Proof.Safety

/-- An Anchor write that enables a byte leaves the part as `anchorOnly` says before its command is acted on. -/
theorem anchorBefore_only (p : Part) (w : PostedWrite) (hb : w.bytes ≠ []) : anchorBefore p w = anchorOnly p w := by
  unfold anchorBefore
  rw [forward_eq]
  unfold anchorOnly forwardedInto
  simp only [hb, if_false]; rfl

/-- The taking of an Anchor write that sets off one command of the row: the owner acts once on `anchorOnly`. -/
theorem takeAnchor_only (row : List Host.Cell → AnchorAction → Bool) (p : Part) (w : PostedWrite) (a : AnchorAction) (h : WordTaken p w a)
   (hr : row (shadowAfter p w) a = true) (ha : a ≠ .threshold) :
   takeAnchor row p = settle p (perform w (anchorBytes p w) (anchorOnly p w) a) := by
  rw [takeAnchor_of row p w a h.1 h.2 hr ha, anchorBefore_only p w (bytes_of_setsOff h.2)]

/-- The end of an event does nothing after a change that keeps the ring, the lanes, the buyers and the displays. -/
theorem settle_keeps (p q : Part) (hq : QuietPart p) (h1 : q.ring = p.ring) (h2 : q.lanes = p.lanes) (h3 : q.account.buyers = p.account.buyers) (h4 : q.displays = p.displays) : settle p q = q := by
  apply settle_same
  · refine ⟨h1, ?_, ?_⟩
    · intro i; unfold Part.lane; rw [h2]; exact ⟨rfl, rfl⟩
    · unfold openInvoiceCount; rw [h3]
  · exact quietPart_congr h4 hq

/-- R133: the taking of an Anchor write of the ring-low threshold alone: a value in range is taken, and RING-LOW is raised where the
free count is below it; a larger value changes nothing more than the write does. -/
theorem takeAnchor_threshold (p : Part) (w : PostedWrite) (h : WordTaken p w .threshold) (hq : QuietPart p) :
    takeAnchor (isAction .threshold) p =
      if fieldAfter p w 0x0206 2 ≤ 4095 then
        judgeThreshold { anchorOnly p w with ring := { p.ring with threshold := fieldAfter p w 0x0206 2 } }
      else anchorOnly p w := by
  rw [takeAnchor_ends _ p w _ h.1 h.2 (by simp [isAction]), anchorBefore_only p w (bytes_of_setsOff h.2)]
  have hp : perform w (anchorBytes p w) (anchorOnly p w) .threshold = takeThreshold (anchorOnly p w) (fieldAfter p w 0x0206 2) := rfl
  rw [hp, settleAnchor, thresholdTaken_self p w h.2, takeThreshold, thresholdFits]
  by_cases hv : fieldAfter p w 0x0206 2 ≤ 4095
  · simp only [hv, decide_true, if_true]
    refine settleThreshold_unserved _ _ ?_ hq
    have hf : freeCount ((anchorOnly p w).setRing { (anchorOnly p w).ring with threshold := fieldAfter p w 0x0206 2 }) = freeCount p := rfl
    unfold serveIfDue
    rw [hf, if_neg (by rintro (h | h); exacts [absurd h (Nat.lt_irrefl _), h rfl])]
  · simp only [hv, decide_false, if_false, Bool.false_eq_true]
    exact settle_keeps p _ hq rfl rfl rfl rfl

/-- The part as an Anchor write leaves it before its commands are acted on, field by field. -/
theorem anchorBefore_form (p : Part) (w : PostedWrite) : anchorBefore p w = { p with floor := headGone p, window := { p.window with shadow := shadowAfter p w }, store := forwardedInto p w none } := by
  unfold anchorBefore; rw [forward_eq]; rfl

/-- R66: the taking of a lane command. -/
theorem takeAnchor_laneCommand (p : Part) (w : PostedWrite) (i : Lane) (c : LaneCommand) (h : LaneCommandTaken p w i c) :
    takeAnchor (isLaneCommand c) p = settle p (takeLaneCommand (anchorBefore p w) i c) := by
  obtain ⟨hh, hs, hc⟩ := h
  have hrow : isLaneCommand c (shadowAfter p w) (.laneCommand i) = true := by
    have : shadowLaneCommand (shadowAfter p w) i = c := hc
    simp [isLaneCommand, this]
  rw [takeAnchor_of _ p w _ hh hs hrow (by simp)]
  congr 1
  unfold perform
  have : shadowLaneCommand (anchorBefore p w).window.shadow i = c := by rw [anchorBefore_shadow]; exact hc
  simp only [this]

/-- R157: what is needed for a part to be one that the taking of an Anchor write leaves. -/
theorem anchorTaken_of (p : Part) (w : PostedWrite) (hb : w.bytes ≠ []) (q : Part) (h : q.floor = (anchorBefore p w).floor) (h2 : q.window.shadow = (anchorBefore p w).window.shadow)
   (h3 : q.store = (anchorBefore p w).store) (h4 : q.press = p.press) (h5 : q.ticks = p.ticks) : AnchorTaken p q w := by
  refine ⟨by rw [h]; simp, by rw [h2]; simp, by rw [h3, anchorBefore_store p w hb], h4, h5⟩

/-- An Anchor write leaves the lanes to its command. -/
theorem anchorBefore_lane (p : Part) (w : PostedWrite) (i : Lane) : (anchorBefore p w).lane i = p.lane i := by simp [Part.lane]

/-- A lane step after an Anchor write. -/
theorem lanesOnly_of (p : Part) (w : PostedWrite) (hb : w.bytes ≠ []) (q : Part) (h : q = { anchorBefore p w with lanes := q.lanes }) : LanesOnly p q w := by
  refine ⟨?_, ?_⟩
  · apply anchorTaken_of p w hb <;> first | (rw [h]; done) | (rw [h]; simp)
  · generalize q.lanes = ln at h ⊢
    subst h
    apply Part.ext_blocks <;> first | rfl | simp

/-- A command that changes neither the windows nor the Floor Port. -/
theorem anchorTaken_form (p : Part) (w : PostedWrite) (hb : w.bytes ≠ []) (q : Part) {a1 a2 a3 a4 a5 a6 a7}
    (h : q = { anchorBefore p w with lanes := a1, catalogue := a2, ring := a3, attention := a4,
                                     account := a5, tracks := a6, displays := a7 }) :
    AnchorTaken p q w ∧ q = { p with floor := q.floor, window := { p.window with shadow := q.window.shadow }, store := q.store,
                                     lanes := q.lanes, catalogue := q.catalogue, ring := q.ring, attention := q.attention,
                                     account := q.account, tracks := q.tracks, displays := q.displays } := by
  subst h
  refine ⟨?_, ?_⟩
  · apply anchorTaken_of p w hb <;> first | rfl | simp
  · apply Part.ext_blocks <;> first | rfl | simp

/-- The bytes of an Anchor write stay what they are after it is shadowed. -/
theorem anchorBytes_before (p : Part) (w : PostedWrite) : anchorBytes (anchorBefore p w) w = anchorBytes p w := by
  unfold anchorBytes; rw [anchorBefore_window]

/-- R180: a write of the event map, entry by entry. -/
theorem mapEntries_law (bytes : List (Nat × Byte)) (sh : List Host.Cell) (xs : List (Fin 18)) (hn : xs.Nodup) (a : AttentionUnit) :
   (xs.foldl (AttentionUnit.mapEntry bytes sh) a) = { a with map := (xs.foldl (AttentionUnit.mapEntry bytes sh) a).map } ∧
   ∀ k : Fin 18, (xs.foldl (AttentionUnit.mapEntry bytes sh) a).map[k] = if k ∈ xs ∧ k ≠ 7 ∧ covers bytes (0x0340 + k.val) 1 = true then ((MapEntry.ofCode (Memory.field sh (0x0340 + k.val) 1)).getD (a.map[k])) else a.map[k] := by
  induction xs generalizing a with
  | nil => exact ⟨rfl, fun k => by simp⟩
  | cons x xs ih =>
    rw [List.foldl_cons]
    rw [List.nodup_cons] at hn
    obtain ⟨i1, i2⟩ := ih hn.2 (AttentionUnit.mapEntry bytes sh a x)
    have e1 : AttentionUnit.mapEntry bytes sh a x = { a with map := (AttentionUnit.mapEntry bytes sh a x).map } := by
      unfold AttentionUnit.mapEntry; split
      · split <;> rfl
      · rfl
    refine ⟨?_, ?_⟩
    · generalize xs.foldl (AttentionUnit.mapEntry bytes sh) (AttentionUnit.mapEntry bytes sh a x) = r at *
      rw [i1]; rw [e1]
    · intro k
      rw [i2 k]
      have e2 : (AttentionUnit.mapEntry bytes sh a x).map[k] = if k = x ∧ k ≠ 7 ∧ covers bytes (0x0340 + k.val) 1 = true then ((MapEntry.ofCode (Memory.field sh (0x0340 + k.val) 1)).getD (a.map[k])) else a.map[k] := by
        unfold AttentionUnit.mapEntry
        by_cases hx : k = x
        · subst hx
          by_cases hc : k ≠ 7 ∧ covers bytes (0x0340 + k.val) 1 = true
          · rw [if_pos hc, if_pos ⟨rfl, hc⟩]
            rcases MapEntry.ofCode (Memory.field sh (0x0340 + k.val) 1) with _ | y
            · rfl
            · exact Vector.getElem_set_self _
          · rw [if_neg hc, if_neg (fun h => hc h.2)]
        · rw [if_neg (c := k = x ∧ _) (fun h => hx h.1)]
          split
          · split
            · exact Vector.getElem_set_ne x.isLt _ (fun e => hx (Fin.ext e.symm))
            · rfl
          · rfl
      rw [e2]
      by_cases hx : k = x
      · subst hx; simp [hn.1]
      · simp [hx]

/-- R165, R166: a window commit word, by its valid request. -/
theorem perform_windowWord (p : Part) (w : PostedWrite) (v : Window) : perform w (anchorBytes p w) (anchorOnly p w) (.windowWord v) =
  if fieldAfter p w (descriptorAt v + 0x18) 1 ≠ 0 then commitWindow (anchorOnly p w) w.master v else removeWindow (anchorOnly p w) w.master v := by
  show (if shadowValid (shadowAfter p w) v = true then _ else _) = _
  have : (shadowValid (shadowAfter p w) v = true) = (fieldAfter p w (descriptorAt v + 0x18) 1 ≠ 0) := by
    unfold shadowValid fieldAfter; simp
  simp only [this]

/-- R165, R176: a refused commit or removal reports MAP. -/
theorem refuseWindow_refused (p q : Part) (w : PostedWrite) (v : Window) (r : CommitReason) (h1 : q.window.anchorSel = p.window.anchorSel) (h2 : q.attention = p.attention) (h3 : q.ticks = p.ticks) :
   MapRefused p (refuseWindow q w.master v r) w (descriptorAt v + 0x18) := by
  have := Part.report_reported (setWindowResult q v .refusedMap r) (mapError q w.master (descriptorAt v + 0x18))
  unfold MapRefused
  rw [← h2, ← h3, ← h1]; exact this

/-- R159, R176: a refused master commit reports MAP. -/
theorem refuseMaster_refused (p q : Part) (w : PostedWrite) (m : Master) (h1 : q.window.anchorSel = p.window.anchorSel) (h2 : q.attention = p.attention) (h3 : q.ticks = p.ticks) :
   MapRefused p (refuseMaster q w.master m) w (masterAt m + 0x08) := by
  have := Part.report_reported (setMasterResult q m .refusedMap .badEntry) (mapError q w.master (masterAt m + 0x08))
  unfold MapRefused
  rw [← h2, ← h3, ← h1]; exact this

/-- A refused commit changes the result and the Attention Unit alone. -/
theorem refuseWindow_frame (q : Part) (m : Master) (v : Window) (r : CommitReason) : refuseWindow q m v r = { setWindowResult q v .refusedMap r with attention := (refuseWindow q m v r).attention } := rfl

/-- The test for another valid window. -/
theorem otherWindow_iff (p : Part) (v : Window) (f : WindowEntry → Bool) : otherWindow p v f = true ↔ OtherWindow p v (fun e => f e = true) := by
  unfold otherWindow OtherWindow; simp [and_assoc]

end Sys2Proof.Machine
end

