-- ==== Sys2Proof/Laws/Lanes.lean ====
section
/-! SUPPORT. One lane's step and the ring's counts: a hold reason added, and what a lane's reservations are to the free count. -/

namespace Sys2Proof.Machine

open Sys2Proof.Safety

/-- R59, R60: what adding a hold reason does, state by state. -/
theorem addHold_added (l : LaneUnit) (r : HoldReason) : HoldAdded l (l.addHold r) r := by
  unfold HoldAdded LaneUnit.addHold
  refine ⟨?_, ?_, ?_, ?_, ?_, ?_⟩
  · rintro (h | h) <;> simp [h]
  all_goals intro h; simp [h, LaneUnit.endRound]

theorem addHold_slots (l : LaneUnit) (r : HoldReason) :
    (l.addHold r).roundReserved ≤ l.roundReserved ∧ (l.addHold r).closeReserved = l.closeReserved := by
  unfold LaneUnit.addHold; split <;> simp [LaneUnit.endRound]

theorem roundSlots_le (p : Part) (i : Lane) (l : LaneUnit) (h : l.roundReserved ≤ (p.lane i).roundReserved) :
    roundSlots (p.setLane i l) ≤ roundSlots p := by
  unfold roundSlots
  apply List.sum_le_sum
  intro j _
  by_cases e : j = i
  · subst e; simpa using h
  · rw [Part.setLane_lane_other _ _ _ _ e]

theorem closeSlots_le (p : Part) (i : Lane) (l : LaneUnit)
    (h : flagNat l.closeReserved ≤ flagNat (p.lane i).closeReserved) : closeSlots (p.setLane i l) ≤ closeSlots p := by
  unfold closeSlots
  apply List.sum_le_sum
  intro j _
  by_cases e : j = i
  · subst e; simpa using h
  · rw [Part.setLane_lane_other _ _ _ _ e]

/-- A lane's step that takes no slot does not lower the free count. -/
theorem freeCount_setLane_le (p : Part) (i : Lane) (l : LaneUnit) (hr : l.roundReserved ≤ (p.lane i).roundReserved)
    (hc : flagNat l.closeReserved ≤ flagNat (p.lane i).closeReserved) : freeCount p ≤ freeCount (p.setLane i l) := by
  have a := roundSlots_le p i l hr
  have b := closeSlots_le p i l hc
  have c : openInvoiceCount (p.setLane i l) = openInvoiceCount p := rfl
  have d : ringCapacity (p.setLane i l) = ringCapacity p := rfl
  have e : occupiedCount (p.setLane i l) = occupiedCount p := rfl
  have f : (p.setLane i l).ring = p.ring := rfl
  unfold freeCount reservedCount
  rw [c, d, e, f]; omega

/-- A lane's step that takes and returns no slot leaves the slots as they were. -/
theorem slotsSame_modLane (p : Part) (i : Lane) (f : LaneUnit → LaneUnit)
    (h : (f (p.lane i)).closeReserved = (p.lane i).closeReserved ∧ (f (p.lane i)).roundReserved = (p.lane i).roundReserved) :
    SlotsSame p (modLane p i f) := by
  refine ⟨rfl, fun j => ?_, rfl⟩
  by_cases e : j = i
  · subst e; simpa using h
  · rw [modLane_lane_other _ _ _ _ e]; exact ⟨rfl, rfl⟩

theorem freeCount_addHold (p : Part) (i : Lane) (r : HoldReason) : freeCount p ≤ freeCount (addHold p i r) := by
  have h := addHold_slots (p.lane i) r
  exact freeCount_setLane_le p i _ h.1 (by rw [h.2])

/-- R70, R71: the changes that act. -/
theorem StopMode.acts_iff (m : StopMode) (l : Bool) : m.acts l = true ↔ stopChangeActs m l := by
  cases m <;> cases l <;> simp [StopMode.acts, stopChangeActs]

end Sys2Proof.Machine
end

