-- ==== Sys2Proof/Laws/Purchases.lean ====
section
/-! SUPPORT. What a purchase does, block by block (R86, R106 to R108, R127, R146). -/

namespace Sys2Proof.Machine

open Sys2Proof.Safety

/-- R86, step 1: the buyer charged and, without an open invoice, given one. -/
theorem chargeBuyer_law (p : Part) (k amount : Nat) :
    (chargeBuyer p k amount).buyer k =
      { p.buyer k with exposure := (p.buyer k).exposure + amount, invoice := invoiceJoined p k } ∧
    (∀ j, j ≠ k → (chargeBuyer p k amount).buyer j = p.buyer j) ∧
    chargeBuyer p k amount = { p with account := { p.account with
      buyers := (chargeBuyer p k amount).account.buyers,
      invoiceCounter := if (p.buyer k).invoice = 0 then nextInvoice p.account.invoiceCounter else p.account.invoiceCounter } } := by
  unfold chargeBuyer openInvoice invoiceJoined
  simp only [buyer_setBuyer_same]
  by_cases h : (p.buyer k).invoice = 0
  · simp only [h, if_true]
    refine ⟨?_, ?_, rfl⟩
    · show (Part.setBuyer _ _ _).buyer k = _
      rw [buyer_setBuyer_same]; rfl
    · intro j hj
      show (Part.setBuyer _ _ _).buyer j = _
      rw [buyer_setBuyer_other _ _ _ _ hj, buyer_setBuyer_other _ _ _ _ hj]
  · simp only [h, if_false]
    refine ⟨?_, ?_, rfl⟩
    · rw [buyer_setBuyer_same]
    · intro j hj; rw [buyer_setBuyer_other _ _ _ _ hj]

/-- R108: what closing a buyer's invoice does. -/
theorem closeInvoice_closes (p : Part) (k : Nat) : InvoiceCloses p (closeInvoice p k) k := by
  unfold closeInvoice
  refine ⟨rfl, ?_, ?_, rfl, AttentionUnit.raise_raised _ _⟩
  · show (Part.setBuyer _ _ _).buyer k = _
    rw [buyer_setBuyer_same]
  · intro j hj
    show (Part.setBuyer _ _ _).buyer j = _
    rw [buyer_setBuyer_other _ _ _ _ hj]; rfl

/-- R107, R108: a purchase listed on the open invoice, which its 64th line closes. -/
theorem addLine_law (p : Part) (k amount : Nat) :
    (∀ j, j ≠ k → (addLine p k amount).buyer j = p.buyer j) ∧
    ((p.buyer k).lines + 1 ≠ 64 →
      (addLine p k amount).buyer k =
        { p.buyer k with lines := (p.buyer k).lines + 1, total := (p.buyer k).total + amount } ∧
      addLine p k amount = { p with account := { p.account with buyers := (addLine p k amount).account.buyers } }) ∧
    ((p.buyer k).lines + 1 = 64 →
      (addLine p k amount).buyer k = { p.buyer k with invoice := 0, lines := 0, total := 0 } ∧
      addLine p k amount = { p with
        account := { p.account with buyers := (addLine p k amount).account.buyers },
        ring := { p.ring with
          queue := p.ring.queue ++
            [{ index := p.ring.assigned, tick := p.ticks.count,
               body := .invoiceClose 64 k (p.buyer k).external (p.buyer k).invoice ((p.buyer k).total + amount) }],
          assigned := p.ring.assigned + 1 },
        attention := p.attention.raise .invoiceClosed }) := by
  unfold addLine
  refine ⟨?_, ?_, ?_⟩
  · intro j hj
    dsimp only
    split
    · unfold closeInvoice
      show (Part.setBuyer _ _ _).buyer j = _
      rw [buyer_setBuyer_other _ _ _ _ hj]
      show (Part.setBuyer _ _ _).buyer j = _
      rw [buyer_setBuyer_other _ _ _ _ hj]
    · rw [buyer_setBuyer_other _ _ _ _ hj]
  · intro h
    have h' : ¬ (p.buyer k).lines + 1 = Config.invoiceLines := h
    simp only [h', if_false]
    exact ⟨buyer_setBuyer_same _ _ _, rfl⟩
  · intro h
    have h' : (p.buyer k).lines + 1 = Config.invoiceLines := h
    simp only [h', if_true]
    refine ⟨?_, ?_⟩
    · unfold closeInvoice
      show (Part.setBuyer _ _ _).buyer k = _
      rw [buyer_setBuyer_same, buyer_setBuyer_same]
    · unfold closeInvoice
      simp only [buyer_setBuyer_same]
      rfl

/-- R86, steps 1 to 4: what a purchase does. -/
theorem makePurchase_purchased (p : Part) (i : Lane) (c : Purchase) : Purchased p (makePurchase p i c) i c := by
  obtain ⟨b1, b2, b3⟩ := chargeBuyer_law p c.buyer c.amount
  unfold makePurchase
  dsimp only
  generalize hp1 : chargeBuyer p c.buyer c.amount = p1 at *
  obtain ⟨p2, hp2⟩ : ∃ x, x = p1.updateOwned c.lot fun o => o.sell c.units c.price := ⟨_, rfl⟩
  rw [← hp2]
  have e1 : p1 = { p with account := p1.account } := by rw [b3]
  have e2 : p2 = { p with account := p1.account, catalogue := { p.catalogue with known := p2.catalogue.known } } := by
    have h : p2 = { p1 with catalogue := { p1.catalogue with known := p2.catalogue.known } } := by
      rw [hp2]; exact updateDigest_eq _ _ _
    generalize p2.catalogue.known = kn at h ⊢
    rw [h, e1]
  have d2 : p2.digest c.lot = (p.digest c.lot).map fun d => { d with owned := d.owned.sell c.units c.price } := by
    rw [hp2, Part.updateOwned, digest_updateDigest_same, digest_congr (p := p) (by rw [b3])]
  have d3 : ∀ lot, lot ≠ c.lot → p2.digest lot = p.digest lot := by
    intro lot h
    rw [hp2, Part.updateOwned, digest_updateDigest_other _ _ _ _ h, digest_congr (p := p) (by rw [b3])]
  have hb : ∀ k, p2.buyer k = p1.buyer k := fun k => buyer_congr (by rw [e2]) k
  clear hp2
  have hrec : ({ index := p2.ring.assigned, tick := p2.tick, body := purchaseRecord p2 i c } : RingRecord) = purchaseMade p i c := by
    unfold purchaseRecord purchaseMade
    rw [hb, b1, e2]; rfl
  obtain ⟨a1, a2, a3⟩ := addLine_law (recordPurchase p2 i c) c.buyer c.amount
  have hb3 : ∀ k, (recordPurchase p2 i c).buyer k = p2.buyer k := fun _ => rfl
  have hbk : (recordPurchase p2 i c).buyer c.buyer =
      { p.buyer c.buyer with exposure := (p.buyer c.buyer).exposure + c.amount, invoice := invoiceJoined p c.buyer } := by
    rw [hb3, hb, b1]
  have hring : (recordPurchase p2 i c).ring =
      { p.ring with queue := p.ring.queue ++ [purchaseMade p i c], assigned := p.ring.assigned + 1,
                    purchases := p.ring.purchases + 1 } := by
    rw [← hrec, e2]; rfl
  have hlane : (recordPurchase p2 i c).lane i = { p.lane i with roundReserved := (p.lane i).roundReserved - 1 } ∧
      ∀ j, j ≠ i → (recordPurchase p2 i c).lane j = p.lane j := by
    let used : LaneUnit → LaneUnit := fun l => { l with roundReserved := l.roundReserved - 1 }
    have h : (recordPurchase p2 i c).lanes = (modLane (createRecord p2 (purchaseRecord p2 i c)) i used).lanes := rfl
    simp only [Part.lane, h]
    refine ⟨?_, fun j h => ?_⟩
    · show (modLane _ i _).lane i = _
      rw [modLane_lane_same, e2]; rfl
    · show (modLane _ i _).lane j = _
      rw [modLane_lane_other _ _ _ _ h, e2]; rfl
  have hdisp : (recordPurchase p2 i c).display i =
        { p.display i with lastUnits := c.units, lastBuyer := (p.buyer c.buyer).external } ∧
      ∀ j, j ≠ i → (recordPurchase p2 i c).display j = p.display j := by
    have hx : (p2.buyer c.buyer).external = (p.buyer c.buyer).external := by rw [hb, b1]
    refine ⟨?_, ?_⟩
    · show (Part.setDisplay _ _ _).display i = _
      rw [Part.setDisplay_display_same, hx, e2]; rfl
    · intro j h
      show (Part.setDisplay _ _ _).display j = _
      rw [Part.setDisplay_display_other _ _ _ _ h, e2]; rfl
  have hform : recordPurchase p2 i c =
      { p with account := p1.account, catalogue := { p.catalogue with known := p2.catalogue.known },
               ring := (recordPurchase p2 i c).ring, lanes := (recordPurchase p2 i c).lanes,
               displays := (recordPurchase p2 i c).displays } := by
    rw [e2]; rfl
  have hdig : ∀ lot, (recordPurchase p2 i c).digest lot = p2.digest lot := fun _ => rfl
  have hlines : ((recordPurchase p2 i c).buyer c.buyer).lines = (p.buyer c.buyer).lines := by rw [hbk]
  have hacc : p1.account = { p.account with
      buyers := p1.account.buyers,
      invoiceCounter := if (p.buyer c.buyer).invoice = 0 then nextInvoice p.account.invoiceCounter
                        else p.account.invoiceCounter } := by rw [b3]
  have hticks : (recordPurchase p2 i c).ticks = p.ticks := by rw [hform]
  have hatt : (recordPurchase p2 i c).attention = p.attention := by rw [hform]
  generalize recordPurchase p2 i c = p3 at *
  rw [hlines] at a2 a3
  by_cases h64 : (p.buyer c.buyer).lines + 1 = 64
  · obtain ⟨c1, c2⟩ := a3 h64
    have hl : (addLine p3 c.buyer c.amount).lanes = p3.lanes := by rw [c2]
    have hd : (addLine p3 c.buyer c.amount).displays = p3.displays := by rw [c2]
    have hk : (addLine p3 c.buyer c.amount).catalogue = p3.catalogue := by rw [c2]
    refine ⟨?_, ?_, ?_, ?_, ?_, ?_, ?_, ?_, ?_, ?_, ?_, ?_, ?_⟩
    · apply Part.ext_blocks <;> first | rfl | (rw [c2, hform])
    · rw [c1, hbk]; simp [entryCharged, h64]
    · intro k hk'; rw [a1 k hk', hb3, hb, b2 k hk']
    · rw [c2, hform]; dsimp only; rw [hacc]
    · rw [digest_congr (congrArg CatalogueUnit.known hk), hdig, d2]; rfl
    · intro lot h; rw [digest_congr (congrArg CatalogueUnit.known hk), hdig, d3 lot h]
    · rw [hk, hform]
    · simp only [Part.lane, hl]; exact hlane.1
    · intro j h; simp only [Part.lane, hl]; exact hlane.2 j h
    · simp only [Part.display, hd]; exact hdisp.1
    · intro j h; simp only [Part.display, hd]; exact hdisp.2 j h
    · intro h; exact absurd h64 h
    · intro _
      refine ⟨?_, ?_⟩
      · rw [c2]; dsimp only; rw [hring, hticks, hbk]
        simp only [List.append_assoc, List.cons_append, List.nil_append]; rfl
      · rw [c2]; dsimp only; rw [hatt]; exact AttentionUnit.raise_raised _ _
  · obtain ⟨c1, c2⟩ := a2 h64
    have hl : (addLine p3 c.buyer c.amount).lanes = p3.lanes := by rw [c2]
    have hd : (addLine p3 c.buyer c.amount).displays = p3.displays := by rw [c2]
    have hk : (addLine p3 c.buyer c.amount).catalogue = p3.catalogue := by rw [c2]
    refine ⟨?_, ?_, ?_, ?_, ?_, ?_, ?_, ?_, ?_, ?_, ?_, ?_, ?_⟩
    · apply Part.ext_blocks <;> first | rfl | (rw [c2, hform])
    · rw [c1, hbk]; simp [entryCharged, h64]
    · intro k hk'; rw [a1 k hk', hb3, hb, b2 k hk']
    · rw [c2, hform]; dsimp only; rw [hacc]
    · rw [digest_congr (congrArg CatalogueUnit.known hk), hdig, d2]; rfl
    · intro lot h; rw [digest_congr (congrArg CatalogueUnit.known hk), hdig, d3 lot h]
    · rw [hk, hform]
    · simp only [Part.lane, hl]; exact hlane.1
    · intro j h; simp only [Part.lane, hl]; exact hlane.2 j h
    · simp only [Part.display, hd]; exact hdisp.1
    · intro j h; simp only [Part.display, hd]; exact hdisp.2 j h
    · intro _; exact ⟨by rw [c2]; exact hring, by rw [c2]; exact hatt⟩
    · intro h; exact absurd h h64

end Sys2Proof.Machine
end

