-- ==== Sys2Proof/Laws/Clock.lean ====
section
/-! SUPPORT. What the Lane Unit's own steps do. -/

namespace Sys2Proof.Machine

open Sys2Proof.Safety

/-- R121: the test of a grant. -/
theorem grantable_iff (p : Part) (n : Nat) : grantable p n = true ↔ Granted p n := by
  simp [grantable, Granted, List.isEmpty_iff]

/-- R48, R50: a lane refused its slots. -/
theorem waitOnRing_waits (p : Part) (i : Lane) (ret : ReturnState) (n : Nat) : Waits p (waitOnRing p i ret n) i ret n := by
  refine ⟨rfl, ⟨?_, ?_⟩, AttentionUnit.raise_raised _ _⟩
  · exact modLane_lane_same p i (fun l => { l with state := .held, ret := ret, timer := .stopped, holds := l.holds.add .ring })
  · intro j hj
    exact modLane_lane_other p i j (fun l => { l with state := .held, ret := ret, timer := .stopped, holds := l.holds.add .ring }) hj

/-- R50: the RUNNING entry. -/
theorem enterRunning_enters (p : Part) (i : Lane) (ret : ReturnState) : EntersRunning p (enterRunning p i ret) i ret := by
  unfold EntersRunning; dsimp only
  refine ⟨?_, ?_⟩
  · intro h
    have h' : (p.lane i).roundReserved ≠ 0 ∨ grantable p Config.roundSlots = true := h.imp id (grantable_iff p 5).mpr
    unfold enterRunning; simp only [h', if_true]
    exact ⟨rfl, by rw [modLane_lane_same]; rfl, fun j hj => modLane_lane_other _ _ _ _ hj⟩
  · intro h1 h2
    have h' : ¬ ((p.lane i).roundReserved ≠ 0 ∨ grantable p Config.roundSlots = true) := by
      rintro (h | h); exact h h1; exact h2 ((grantable_iff p 5).mp h)
    unfold enterRunning; simp only [h', if_false]
    exact waitOnRing_waits _ _ _ _

/-- R50: the RUNNING entry, seen from a part that agrees on the slots. -/
theorem entersRunning_congr (p p' q : Part) (i : Lane) (ret : ReturnState) (hl : p'.lanes = p.lanes) (hr : p'.ring = p.ring) (ha : p'.account = p.account) (hat : p'.attention = p.attention) (h : EntersRunning p' q i ret) :
    EntersRunning p { p with lanes := q.lanes, ring := q.ring, attention := q.attention } i ret := by
  have hf : freeCount p' = freeCount p := freeCount_congr hr hl ha
  have hg : Granted p' 5 ↔ Granted p 5 := by unfold Granted; rw [hr, hf]
  have hln : ∀ j, p'.lane j = p.lane j := fun j => by simp [Part.lane, hl]
  obtain ⟨a, b⟩ := h
  unfold EntersRunning; dsimp only
  rw [hln i, hg] at a b
  refine ⟨?_, ?_⟩
  · intro h
    obtain ⟨c, d, e⟩ := a h
    refine ⟨?_, d, fun j hj => (e j hj).trans (hln j)⟩
    apply Part.ext_blocks <;> first | rfl | (rw [c]; assumption)
  · intro h1 h2
    obtain ⟨c, ⟨d, e⟩, f⟩ := b h1 h2
    rw [hln i] at d
    refine ⟨?_, ⟨d, fun j hj => (e j hj).trans (hln j)⟩, by rw [hat] at f; exact f⟩
    apply Part.ext_blocks <;> first | rfl | (rw [c, hr])

/-- The test for an empty set of hold reasons. -/
theorem HoldSet.isEmpty_iff (h : HoldSet) : h.isEmpty = true ↔ h = HoldSet.none := by
  cases h; rename_i a b c d; cases a <;> cases b <;> cases c <;> cases d <;> simp [HoldSet.isEmpty, HoldSet.none]

/-- R47: the lot that a look judges is the first AT-CLOCK one of the Display Position's trolley. -/
theorem atClockLot_first (p : Part) (i : Lane) (lot : Nat) : atClockLot p i = some lot ↔ Safety.FirstAtClock p i lot := by
  unfold atClockLot Safety.FirstAtClock
  rcases (p.track i).display with _ | y
  · simp
  · simp only [Option.some.injEq, List.find?_eq_some_iff_append, beq_iff_eq]
    constructor
    · rintro ⟨h, before, after, hl, hb⟩
      exact ⟨y, before, after, rfl, hl, fun k hk => by simpa using hb k hk, h⟩
    · rintro ⟨_, before, after, rfl, hl, hb, h⟩
      exact ⟨h, before, after, hl, fun k hk => by simpa using hb k hk⟩

/-- R47: a look without an AT-CLOCK lot finds none. -/
theorem atClockLot_none (p : Part) (i : Lane) : atClockLot p i = none ↔ ∀ lot, ¬ Safety.FirstAtClock p i lot := by
  rw [Option.eq_none_iff_forall_ne_some]
  exact forall_congr' fun lot => not_congr (atClockLot_first p i lot)

/-- R48: a lot put up. -/
theorem putUp_putsUp (p : Part) (i : Lane) (lot : Nat) (d : Digest) (h : HostFields) (hdig : p.digest lot = some d)
    (hh : d.host = some h) : Safety.PutsUp p (putUp p i lot) i lot d h := by
  have hhost : p.host lot = some h := by simp [Part.host, hdig, hh]
  obtain ⟨q1, hq1⟩ : ∃ q, q = modLane p i fun l => { l with live := some lot, price := h.startPrice, nextPrice := h.startPrice, round := 0, timer := preRollTimer l, state := .primed, closeReserved := true } := ⟨_, rfl⟩
  obtain ⟨q2, hq2⟩ : ∃ q, q = q1.updateOwned lot fun o => { o with state := .live } := ⟨_, rfl⟩
  have e : putUp p i lot = (q2.setDisplay i { q2.display i with lastUnits := 0, lastBuyer := 0 }).notify i := by
    rw [hq2, hq1]; unfold putUp; rw [hhost]
  have e1 : q1 = { p with lanes := q1.lanes } := by rw [hq1]; rfl
  have e2 : q2 = { q1 with catalogue := { q1.catalogue with known := q2.catalogue.known } } := by
    rw [hq2]; exact updateDigest_eq _ _ _
  have e3 : q2 = { p with lanes := q1.lanes, catalogue := { p.catalogue with known := q2.catalogue.known } } := by
    generalize q2.catalogue.known = kn at e2 ⊢
    generalize q1.lanes = ln at e1 ⊢
    rw [e2, e1]
  have d1 : q2.digest lot = some { d with owned := { d.owned with state := .live } } := by
    rw [hq2, Part.updateOwned, digest_updateDigest_same, hq1]
    show Option.map _ (p.digest lot) = _; rw [hdig]; rfl
  have d2 : ∀ k, k ≠ lot → q2.digest k = p.digest k := by
    intro k hk; rw [hq2, Part.updateOwned, digest_updateDigest_other _ _ _ _ hk, hq1]; rfl
  have l1 : q1.lane i = { p.lane i with
          state := .primed, live := some lot, price := h.startPrice, nextPrice := h.startPrice, round := 0, closeReserved := true,
          timer := if (p.lane i).params.preRoll = 0 then .stopped else .counting .preRoll (p.lane i).params.preRoll } := by
    rw [hq1, modLane_lane_same]; rfl
  have l2 : ∀ j, j ≠ i → q1.lane j = p.lane j := fun j hj => by rw [hq1, modLane_lane_other _ _ _ _ hj]
  have hln : q2.lanes = q1.lanes := by rw [e3]
  have hd : ∀ j, q2.display j = p.display j := fun j => by rw [e3]; rfl
  rw [e]
  clear e hq1 hq2 e2
  refine ⟨?_, ⟨?_, ?_⟩, d1, d2, ?_, ?_, ?_⟩
  · apply Part.ext_blocks <;> first | rfl | (show Part.window q2 = _; rw [e3]) | (show Part.floor q2 = _; rw [e3]) | (show Part.tracks q2 = _; rw [e3]) | (show Part.press q2 = _; rw [e3]) | (show Part.account q2 = _; rw [e3]) | (show Part.ring q2 = _; rw [e3]) | (show Part.store q2 = _; rw [e3]) | (show Part.attention q2 = _; rw [e3]) | (show Part.ticks q2 = _; rw [e3]) | (show Part.freeDraws q2 = _; rw [e3])
  · show q2.lane i = _; simp only [Part.lane, hln]; exact l1
  · intro j hj; show q2.lane j = _; simp only [Part.lane, hln]; exact l2 j hj
  · show q2.catalogue = _; rw [e3]; rfl
  · show (Part.setDisplay _ _ _).display i = _
    rw [Part.setDisplay_display_same, Part.setDisplay_display_same, hd]
  · intro j hj
    show (Part.setDisplay _ _ _).display j = _
    rw [Part.setDisplay_display_other _ _ _ _ hj, Part.setDisplay_display_other _ _ _ _ hj, hd]

/-- A lane changed. -/
theorem modLane_laneSet (p : Part) (i : Lane) (f : LaneUnit → LaneUnit) : Safety.LaneSet p (modLane p i f) i (f (p.lane i)) :=
  ⟨modLane_lane_same _ _ _, fun _ hj => modLane_lane_other _ _ _ _ hj⟩

/-- R55: the live lot closed. -/
theorem closeLot_law (p : Part) (i : Lane) (lot : Nat) (d : Digest) (h : HostFields) (hl : (p.lane i).live = some lot) (hd : p.digest lot = some d) (hh : d.host = some h) :
    closeLot p i = { p with lanes := (closeLot p i).lanes, catalogue := (closeLot p i).catalogue, ring := (closeLot p i).ring } ∧
    LotCloses p (closeLot p i) i lot d h ∧ (closeLot p i).ring.waiters = p.ring.waiters ∧ Safety.LaneSet p (closeLot p i) i (laneClosing (p.lane i)) := by
  have hres : d.owned.closeResult = resultOf d.owned := by
    unfold Owned.closeResult resultOf
    by_cases h0 : d.owned.remaining = 0
    · simp [h0]
    · by_cases h1 : d.owned.sold = 0
      · simp [h0, h1]
      · simp [h0, h1, Nat.pos_of_ne_zero h1]
  have hhost : p.host lot = some h := by simp [Part.host, hd, hh]
  have e : closeLot p i = createRecord ((modLane p i fun l => { l.endRound with state := .closing, closeReserved := false }).setDigest lot { d with owned := d.owned.closedAt p.tick }) (lotCloseRecord p i lot (d.owned.closedAt p.tick)) := by
    simp only [closeLot, hl, hd]
  rw [e]
  refine ⟨rfl, ⟨?_, ?_, rfl, ?_⟩, rfl, ?_⟩
  · show tableFind (tableInsert _ _ _) lot = _
    rw [tableFind_insert_same]; unfold Owned.closedAt; rw [hres]; rfl
  · intro k hk
    show tableFind (tableInsert _ _ _) k = _
    rw [tableFind_insert_other _ _ _ _ hk]; rfl
  · unfold lotCloseRecord; rw [hhost]; unfold Owned.closedAt; rw [hres]; rfl
  · exact modLane_laneSet p i fun l => { l.endRound with state := .closing, closeReserved := false }

/-- R51: the price a step lower, not below the floor. -/
theorem lowered_eq (a b c : Nat) : lowered a b c = max c (a - b) := by
  unfold lowered; split <;> omega

/-- R55: a close, seen from a part that agrees on the lots and the ring. -/
theorem lotCloses_congr (p p' q : Part) (i : Lane) (lot : Nat) (d : Digest) (h : HostFields) (hk : p'.catalogue = p.catalogue) (ht : p'.ticks = p.ticks)
   (hr : ∃ ws, p'.ring = { p.ring with waiters := ws }) (hc : LotCloses p' q i lot d h) : LotCloses p q i lot d h := by
  obtain ⟨a, b, c, e⟩ := hc
  obtain ⟨ws, hr⟩ := hr
  refine ⟨by rw [ht] at a; exact a, fun k hk' => by rw [b k hk', digest_congr (congrArg CatalogueUnit.known hk)], by rw [hk] at c; exact c, ?_⟩
  rw [hr, ht] at e; exact e

/-- R67: RESUME's effect on a lane's own fields. -/
theorem resumed_eq (l : LaneUnit) : l.resumed = laneResumed l := by
  have : l.stopActive = stopHeld l := by
    unfold LaneUnit.stopActive stopHeld
    cases l.params.stopMode <;> cases l.stopLevel <;> rfl
  unfold LaneUnit.resumed laneResumed; rw [this]; rfl

/-- R46: the test of a range. -/
theorem laneParam_inRange (k : LaneParam) (v : Nat) : k.inRange v = true ↔ ((paramRange k).1 ≤ v ∧ v ≤ (paramRange k).2) := by
  cases k <;> simp [LaneParam.inRange, paramRange]

/-- R46: every code up to 4 is a stop mode. -/
theorem stopMode_ofCode (v : Nat) (h : v ≤ 4) : ∃ m, StopMode.ofCode v = some m ∧ m.code = v := by
  match v, h with
  | 0, _ => exact ⟨_, rfl, rfl⟩
  | 1, _ => exact ⟨_, rfl, rfl⟩
  | 2, _ => exact ⟨_, rfl, rfl⟩
  | 3, _ => exact ⟨_, rfl, rfl⟩
  | 4, _ => exact ⟨_, rfl, rfl⟩
  | n + 5, h => omega

/-- R46: a parameter put changes that parameter alone. -/
theorem put_paramOf (l : LaneParams) (v : Nat) (k j : LaneParam) (hv : k.inRange v = true) : paramOf (l.put v k) j = if j = k then v else paramOf l j := by
  by_cases hk : k = .stopMode
  · subst hk
    have : v ≤ 4 := by simpa [LaneParam.inRange] using hv
    obtain ⟨m, h1, h2⟩ := stopMode_ofCode v this
    simp only [LaneParams.put, h1]
    cases j <;> simp [paramOf, h2]
  · cases k <;> first | exact absurd rfl hk | (cases j <;> rfl)

/-- R46: a parameter's candidate value is the shadow's. -/
theorem paramValue_eq (p : Part) (w : PostedWrite) (i : Lane) (k : LaneParam) (q : Part) (h : q.window.shadow = shadowAfter p w) : paramValue q i k = paramAfter p w i k := by
  unfold paramValue paramAfter fieldAfter; rw [h]

/-- An Anchor write that sets off one command sets off no other of a lane. -/
theorem setsOff_laneParams (p : Part) (w : PostedWrite) (i : Lane) (a : AnchorAction) (h : SetsOff p w a) (b : AnchorAction) (hb : b ∈ laneActions (anchorBytes p w) i) : b = a := by
  have : b ∈ anchorActions (anchorBytes p w) := by
    unfold anchorActions
    simp only [List.mem_append, List.mem_flatMap]
    have hi : i ∈ allLanes := by clear hb; revert i; decide
    exact .inl (.inl (.inr ⟨i, hi, hb⟩))
  rw [h.2.2] at this; simpa using this

/-- A lane set to itself. -/
theorem setLane_self (p : Part) (i : Lane) : p.setLane i (p.lane i) = p := by
  unfold Part.setLane Part.lane
  have : p.lanes.set i p.lanes[i] = p.lanes := Vector.set_getElem_self _
  rw [this]

/-- Two changes of one lane. -/
theorem modLane_modLane (p : Part) (i : Lane) (f g : LaneUnit → LaneUnit) : modLane (modLane p i f) i g = modLane p i (fun l => g (f l)) := by
  have : (modLane p i f).lane i = f (p.lane i) := modLane_lane_same _ _ _
  show (modLane p i f).setLane i (g ((modLane p i f).lane i)) = p.setLane i (g (f (p.lane i)))
  rw [this]
  unfold modLane Part.setLane
  simp

/-- R46: the parameters taken one after another. -/
theorem takeParams_law (p : Part) (w : PostedWrite) (i : Lane) (ks : List LaneParam) (q : Part) (hq : q.window.shadow = shadowAfter p w) :
    ∃ params, ks.foldl (takeParam i) q = modLane q i (fun l => { l with params := params }) ∧
      ∀ j, (j ∈ ks ∧ ParamFits p w i j → paramOf params j = paramAfter p w i j) ∧
        (¬ (j ∈ ks ∧ ParamFits p w i j) → paramOf params j = paramOf (q.lane i).params j) := by
  induction ks generalizing q with
  | nil => exact ⟨(q.lane i).params, (setLane_self q i).symm, fun j => ⟨fun h => absurd h.1 (by simp), fun _ => rfl⟩⟩
  | cons k ks ih =>
    rw [List.foldl_cons]
    have hf : k.inRange (paramValue q i k) = true ↔ ParamFits p w i k := by rw [paramValue_eq p w i k q hq, laneParam_inRange]; rfl
    obtain ⟨q', hq'⟩ : ∃ q', q' = takeParam i q k := ⟨_, rfl⟩
    have hsh : q'.window.shadow = shadowAfter p w := by rw [hq']; unfold takeParam; split <;> exact hq
    obtain ⟨params, e, hp⟩ := ih q' hsh
    have hone : (ParamFits p w i k → paramOf (q'.lane i).params k = paramAfter p w i k) ∧
        (∀ j, ¬ (j = k ∧ ParamFits p w i j) → paramOf (q'.lane i).params j = paramOf (q.lane i).params j) := by
      refine ⟨?_, ?_⟩
      · intro hfit
        have : q' = modLane q i fun l => { l with params := l.params.put (paramValue q i k) k } := by
          rw [hq']; unfold takeParam; rw [if_pos (hf.mpr hfit)]
        rw [this, modLane_lane_same]; dsimp only
        rw [put_paramOf _ _ _ _ (hf.mpr hfit), if_pos rfl, paramValue_eq p w i k q hq]
      · intro j hj
        by_cases hfit : ParamFits p w i k
        · have : q' = modLane q i fun l => { l with params := l.params.put (paramValue q i k) k } := by
            rw [hq']; unfold takeParam; rw [if_pos (hf.mpr hfit)]
          have hjk : j ≠ k := fun h => hj ⟨h, by rw [h]; exact hfit⟩
          rw [this, modLane_lane_same]; dsimp only
          rw [put_paramOf _ _ _ _ (hf.mpr hfit), if_neg hjk]
        · have : q' = q := by rw [hq']; unfold takeParam; rw [if_neg (fun h => hfit (hf.mp h))]
          rw [this]
    refine ⟨params, ?_, ?_⟩
    · rw [← hq', e, hq']
      unfold takeParam; split
      · exact modLane_modLane q i _ _
      · rfl
    · intro j
      refine ⟨?_, ?_⟩
      · rintro ⟨hm, hfit⟩
        by_cases hmk : j ∈ ks
        · exact (hp j).1 ⟨hmk, hfit⟩
        · have hjk : j = k := by rcases List.mem_cons.mp hm with h | h; exact h; exact absurd h hmk
          subst hjk
          rw [(hp j).2 (fun h => hmk h.1)]; exact hone.1 hfit
      · intro hn
        rw [(hp j).2 (fun h => hn ⟨List.mem_cons_of_mem _ h.1, h.2⟩)]
        exact hone.2 j (fun h => hn ⟨by rw [h.1]; exact List.mem_cons_self .., h.2⟩)

/-- R46: the parameters that a write covers. -/
theorem coveredParams_iff (p : Part) (w : PostedWrite) (i : Lane) (k : LaneParam) : k ∈ coveredParams (anchorBytes p w) i ↔ ParamCovered p w i k := by
  unfold coveredParams ParamCovered
  rw [List.mem_filter]
  refine ⟨fun h => h.2, fun h => ⟨?_, h⟩⟩
  cases k <;> decide

/-- R46: the parameter result. -/
theorem paramVerdict_law (p : Part) (w : PostedWrite) (i : Lane) (q : Part) (hq : q.window.shadow = shadowAfter p w) :
    ((∀ k, ParamCovered p w i k → ParamFits p w i k) → paramVerdict q i (anchorBytes p w) = .done) ∧
      ((∃ k, ParamCovered p w i k ∧ ¬ ParamFits p w i k) → paramVerdict q i (anchorBytes p w) = .refusedRange) := by
  have hf : ∀ k, k.inRange (paramValue q i k) = true ↔ ParamFits p w i k := by intro k; rw [paramValue_eq p w i k q hq, laneParam_inRange]; rfl
  refine ⟨?_, ?_⟩
  · intro h
    have : ((coveredParams (anchorBytes p w) i).all fun k => k.inRange (paramValue q i k)) = true := by
      rw [List.all_eq_true]; intro k hk; exact (hf k).mpr (h k ((coveredParams_iff p w i k).mp hk))
    simp [paramVerdict, this]
  · rintro ⟨k, hc, hn⟩
    have : ((coveredParams (anchorBytes p w) i).all fun k => k.inRange (paramValue q i k)) = false := by
      rw [List.all_eq_false]; exact ⟨k, (coveredParams_iff p w i k).mpr hc, fun h => hn ((hf k).mp h)⟩
    simp [paramVerdict, this]

end Sys2Proof.Machine
end

