-- ==== Sys2Proof/Laws/Passes.lean ====
section
/-! SUPPORT. The Track Unit's shared operations: lots set to a place's state, trolleys of a queue, insertion into the Late List, and a
pass that faults (R15, R23, R28, R33). -/

namespace Sys2Proof.Machine

open Sys2Proof.Safety

/-- Setting a place's state again changes nothing more. -/
theorem LotsSet.cons {p q r : Part} {lot : Nat} {lots : List Nat} {state : LotState} (h : LotsSet p q [lot] state)
    (k : LotsSet q r lots state) : LotsSet p r (lot :: lots) state := by
  intro x
  rw [k x, h x]
  by_cases hx : x = lot
  · subst hx
    by_cases hm : x ∈ lots
    · simp only [hm, if_true, List.mem_cons, true_or]
      cases p.digest x with
      | none => rfl
      | some d =>
        simp only [Option.map_some]
        by_cases hw : d.owned.state = .withdrawn
        · simp [hw]
        · simp only [hw, if_false]; split <;> rfl
    · simp [hm]
  · by_cases hm : x ∈ lots <;> simp [hm, hx]

/-- R23: the states of a trolley's lots set, and nothing but the table of known lots changed. -/
theorem setLotStates_set (p : Part) (lots : List Nat) (state : LotState) :
    LotsSet p (setLotStates p lots state) lots state ∧
    setLotStates p lots state =
      { p with catalogue := { p.catalogue with known := (setLotStates p lots state).catalogue.known } } := by
  unfold setLotStates
  induction lots generalizing p with
  | nil => exact ⟨fun _ => rfl, rfl⟩
  | cons lot lots ih =>
    rw [List.foldl_cons]
    have one : LotsSet p (p.updateOwned lot fun o => if o.state = .withdrawn then o else { o with state := state }) [lot] state := by
      intro x
      by_cases hx : x = lot
      · subst hx
        simp only [List.mem_singleton, if_true]
        rw [Part.updateOwned, digest_updateDigest_same]
        congr 1
        funext d
        by_cases hw : d.owned.state = .withdrawn
        · simp only [hw, if_true]
        · simp only [hw, if_false]
      · simp only [List.mem_singleton, hx, if_false]
        exact digest_updateDigest_other _ _ _ _ hx
    have oneEq : ∀ f : Owned → Owned, p.updateOwned lot f =
        { p with catalogue := { p.catalogue with known := (p.updateOwned lot f).catalogue.known } } :=
      fun f => updateDigest_eq p lot _
    replace oneEq := oneEq fun o => if o.state = .withdrawn then o else { o with state := state }
    generalize (p.updateOwned lot fun o => if o.state = .withdrawn then o else { o with state := state }) = q at *
    obtain ⟨a, b⟩ := ih q
    refine ⟨LotsSet.cons one a, ?_⟩
    generalize List.foldl _ q lots = r at *
    rw [b, oneEq]

/-- R15: the trolleys of a queue hold its lots, in order. -/
theorem trolleysOf_lots (p : Part) (queue : List Nat) : (trolleysOf p queue).flatMap (fun y => y.lots) = queue := by
  induction queue with
  | nil => rfl
  | cons lot rest ih =>
    unfold trolleysOf
    split
    · rename_i h; rw [h] at ih; simp only [List.flatMap_nil] at ih; subst ih; rfl
    · rename_i y ys h
      rw [h] at ih
      split <;> (simp only [List.flatMap_cons] at ih ⊢; rw [← ih]; rfl)

/-- The trolleys of a queue depend on the digests alone. -/
theorem trolleysOf_congr {p q : Part} (h : q.catalogue.known = p.catalogue.known) (queue : List Nat) :
    trolleysOf q queue = trolleysOf p queue := by
  induction queue with
  | nil => rfl
  | cons lot rest ih =>
    have ht : q.tagOf lot = p.tagOf lot := by simp only [Part.tagOf, Part.host, digest_congr h]
    unfold trolleysOf
    rw [ih, ht]

theorem lotCount_length (ys : List Trolley) : lotCount ys = (ys.flatMap fun y => y.lots).length := by
  simp [lotCount, List.length_flatMap]

/-- R28: an insertion adds the trolley and keeps the others. -/
theorem insertLate_perm (p : Part) (y : Trolley) (late : List Trolley) : (insertLate p y late).Perm (y :: late) := by
  induction late with
  | nil => exact .refl _
  | cons a rest ih =>
    unfold insertLate; split
    · exact (ih.cons a).trans (.swap ..)
    · exact .refl _

/-- R28: an insertion keeps the rising order. -/
theorem insertLate_rising (p : Part) (y : Trolley) (late : List Trolley)
    (h : late.Pairwise fun a b => firstSequence p a ≤ firstSequence p b) :
    (insertLate p y late).Pairwise fun a b => firstSequence p a ≤ firstSequence p b := by
  induction late with
  | nil => exact List.pairwise_singleton _ _
  | cons a rest ih =>
    obtain ⟨h1, h2⟩ := List.pairwise_cons.mp h
    unfold insertLate; split
    · rename_i hlt
      refine List.pairwise_cons.mpr ⟨?_, ih h2⟩
      intro b hb
      rcases List.mem_cons.mp ((insertLate_perm p y rest).mem_iff.mp hb) with rfl | hb
      · exact Nat.le_of_lt hlt
      · exact h1 b hb
    · rename_i hge
      refine List.pairwise_cons.mpr ⟨?_, h⟩
      intro b hb
      rcases List.mem_cons.mp hb with rfl | hb
      · exact Nat.not_lt.mp hge
      · exact Nat.le_trans (Nat.not_lt.mp hge) (h1 b hb)

/-- R28: the trolleys passed over inserted one by one. -/
theorem insertLates (p : Part) (passed late : List Trolley) :
    (passed.foldl (fun l a => insertLate p a l) late).Perm (late ++ passed) ∧
    (late.Pairwise (fun a b => firstSequence p a ≤ firstSequence p b) →
      (passed.foldl (fun l a => insertLate p a l) late).Pairwise fun a b => firstSequence p a ≤ firstSequence p b) := by
  induction passed generalizing late with
  | nil => simp
  | cons a rest ih =>
    obtain ⟨h1, h2⟩ := ih (insertLate p a late)
    refine ⟨?_, fun h => h2 (insertLate_rising p a late h)⟩
    refine h1.trans (((insertLate_perm p a late).append_right rest).trans ?_)
    exact (List.perm_middle (l₁ := late) (a := a) (l₂ := rest)).symm

/-- R33: the first tag of a list, as the statements name it. -/
theorem headTag_eq (ys : List Trolley) : headTag ys = firstTag ys := by cases ys <;> rfl

/-- R33: a pass that faults, with the lane told of it. -/
theorem faultPass_faulted (p : Part) (i : Lane) (pass : Pass) (expected : Word32) (reason : TrackFault) :
    PassFaulted p (tellLane (faultPass (popWrite p) i pass expected reason) i) i pass expected reason := by
  have e : tellLane (faultPass (popWrite p) i pass expected reason) i =
      addHold (faultPass (popWrite p) i pass expected reason).part i .track := rfl
  rw [e]
  refine ⟨rfl, ?_, ?_, ?_, ?_, ?_⟩
  · exact Part.setTrack_track_same _ _ _
  · intro j h; exact Part.setTrack_track_other _ _ _ _ h
  · show HoldAdded _ ((modLane _ i _).lane i) _
    rw [modLane_lane_same]
    exact addHold_added _ _
  · intro j h; exact modLane_lane_other _ _ _ _ h
  · exact AttentionUnit.raise_raised _ _

/-- R19: the reasons of several lots end: each is freed unless a write-back of it is outstanding; the others stay. -/
theorem endReasons_law (p : Part) (lots : List Nat) :
    (∀ lot, (endReasons p lots).digest lot = if lot ∈ lots then
        (if writeBackOutstanding p lot = true then (p.digest lot).map (fun d => { d with ended := true }) else none)
      else p.digest lot) ∧
    endReasons p lots = { p with catalogue := { p.catalogue with known := (endReasons p lots).catalogue.known } } := by
  unfold endReasons
  induction lots generalizing p with
  | nil => exact ⟨fun _ => rfl, rfl⟩
  | cons x xs ih =>
    rw [List.foldl_cons]
    obtain ⟨a, b⟩ := ih (endReason p x)
    have e := endReason_eq p x
    have hw : ∀ lot, writeBackOutstanding (endReason p x) lot = writeBackOutstanding p lot := by
      intro lot; rw [e]; rfl
    have hd : ∀ lot, (endReason p x).digest lot = if lot = x then
        (if writeBackOutstanding p lot = true then (p.digest lot).map (fun d => { d with ended := true }) else none)
      else p.digest lot := by
      intro lot
      by_cases hx : lot = x
      · subst hx
        simp only [if_true]
        by_cases ho : writeBackOutstanding p lot = true
        · rw [endReason_kept p lot ho, digest_updateDigest_same]; simp [ho]
        · simp only [ho]
          unfold endReason freeIfDone
          have hw' : writeBackOutstanding (p.updateDigest lot fun d => { d with ended := true }) lot = false := by
            rw [updateDigest_eq]; exact Bool.eq_false_iff.mpr ho
          rw [hw', digest_updateDigest_same]
          cases hp : p.digest lot with
          | none =>
            simp only [Option.map_none]
            rw [digest_updateDigest_same, hp]; rfl
          | some d =>
            simp only [Option.map_some, Bool.not_false, Bool.and_true, if_true]
            exact tableFind_erase_same _ _
      · simp only [hx, if_false]
        unfold endReason freeIfDone
        split
        · split
          · show tableFind (tableErase _ x) lot = _
            rw [tableFind_erase_other _ _ _ hx]
            exact digest_updateDigest_other _ _ _ _ hx
          · exact digest_updateDigest_other _ _ _ _ hx
        · exact digest_updateDigest_other _ _ _ _ hx
    refine ⟨?_, ?_⟩
    · intro lot
      rw [a lot, hw, hd]
      by_cases hx : lot = x
      · subst hx
        by_cases hm : lot ∈ xs
        · simp only [hm, if_true, List.mem_cons, true_or]
          split
          · cases p.digest lot <;> rfl
          · rfl
        · simp [hm]
      · by_cases hm : lot ∈ xs <;> simp [hm, hx]
    · generalize List.foldl endReason (endReason p x) xs = r at *
      rw [b]
      generalize endReason p x = q at *
      rw [e]

end Sys2Proof.Machine
end

