-- ==== Sys2Proof/Laws/Store.lean ====
section
/-! SUPPORT. The Store Port: what is presented, what an answer notes, and what the end of a fetch, a write-back or a record does. -/

namespace Sys2Proof.Machine

open Sys2Proof.Safety

/-- R169, R170, R183: what a final answer leaves of the Attention Unit. -/
theorem noteAnswer_noted (p q : Part) (t : Transaction) (an : FinalAnswer) (hq : q.attention = p.attention) (ht : q.ticks = p.ticks) :
    noteAnswer q t an = { q with attention := (noteAnswer q t an).attention } ∧
    AnswerNoted p (noteAnswer q t an).attention t an := by
  constructor
  · cases an <;> simp only [noteAnswer]
    · unfold noteCorrected; split <;> rfl
    · rfl
  · have e : ∀ k, t.error k = originOf t k := by intro k; cases t <;> rfl
    refine ⟨?_, ?_, ?_, ?_⟩
    · rintro rfl; exact hq
    · rintro rfl h
      simp only [noteAnswer, noteCorrected]
      rw [hq, h]; simp [Part.setAttention]
    · rintro rfl h
      simp only [noteAnswer, noteCorrected]
      rw [hq, h, ← e]; 
      have := Part.report_reported (q.setAttention { p.attention with corrected := p.attention.corrected + 1 }) (t.error .dramCorrected)
      rw [hq] at *; simpa [Part.tick, Part.setAttention, ht, h] using this
    · rintro rfl
      simp only [noteAnswer]
      have := Part.report_reported q (t.error .dramUncorrectable)
      rw [← e, ← hq, ← ht]; exact this

/-- The port freed and the answer noted. -/
theorem freePort_noteAnswer (p : Part) (t : Transaction) (an : FinalAnswer) :
    noteAnswer (freePort p) t an = portFreed p (noteAnswer (freePort p) t an).attention ∧
    AnswerNoted p (noteAnswer (freePort p) t an).attention t an := by
  obtain ⟨h1, h2⟩ := noteAnswer_noted p (freePort p) t an rfl rfl
  exact ⟨h1, h2⟩

/-- R169: exhausted retries reported. -/
theorem exhaust_reported (p : Part) (t : Transaction) : ∃ a, (freePort p).report (t.error .retryExhausted) = portFreed p a ∧
   Reported p.attention a (originOf t .retryExhausted) p.ticks.count := by
  have e : ∀ k, t.error k = originOf t k := by intro k; cases t <;> rfl
  refine ⟨_, rfl, ?_⟩
  rw [e]; exact Part.report_reported (freePort p) _

/-- R150: the bytes of beats made from a function of their places. -/
theorem beatsAt_bytes (f : Nat → Byte) (n : Nat) (st : Nat) :
    (beatsAt f st n).length = n ∧ ∀ k, k < 8 * n → byteOfBeats (beatsAt f st n) k = f (st + k) := by
  induction n generalizing st with
  | zero => simp [beatsAt]
  | succ n ih =>
    refine ⟨by simp [beatsAt, (ih _).1], ?_⟩
    intro k hk
    by_cases h : k < 8
    · have e1 : k / 8 = 0 := by omega
      have e2 : k % 8 = k := by omega
      unfold byteOfBeats
      rw [e1, e2]
      simp only [beatsAt, List.getD_cons_zero]
      unfold beatByte beatAt byteOf
      apply BitVec.eq_of_toNat_eq
      simp only [BitVec.toNat_ofNat, leNat]
      have b : ∀ x, (f x).toNat < 256 := fun x => (f x).isLt
      have h0 := b st; have h1 := b (st+1); have h2 := b (st+2); have h3 := b (st+3)
      have h4 := b (st+4); have h5 := b (st+5); have h6 := b (st+6); have h7 := b (st+7)
      interval_cases k <;> simp <;> omega
    · have := (ih (st + 8)).2 (k - 8) (by omega)
      have e1 : k / 8 = (k - 8) / 8 + 1 := by omega
      have e2 : k % 8 = (k - 8) % 8 := by omega
      unfold byteOfBeats at this ⊢
      rw [e1, e2]
      simp only [beatsAt, List.getD_cons_succ]
      rw [this]; congr 1; omega

/-- R4: the merged bytes of a LOT read. -/
theorem mergeOwned_bytes (o : Owned) (start : Nat) (data : List Beat) : (mergeOwned o start data).length = data.length ∧
   ∀ k, k < 8 * data.length → byteOfBeats (mergeOwned o start data) k =
     if 0x68 ≤ start + k ∧ start + k < 0x80 then layoutByte o.layout (start + k) else byteOfBeats data k := by
  unfold mergeOwned
  refine ⟨(beatsAt_bytes _ _ _).1, ?_⟩
  intro k hk
  rw [(beatsAt_bytes _ _ _).2 k hk, Nat.zero_add]; rfl

/-- R8: what the fetch offers. -/
theorem fetchReady_iff (p : Part) (t : Transaction) : fetchReady p = some t ↔ FetchOffered p t := by
  unfold fetchReady FetchOffered
  rcases hl : p.catalogue.listing with _ | ⟨e, rest⟩
  · simp
  · rcases hd : p.digest e.lot with _ | d
    · simp [hd]
    · simp only []
      have hb : ∀ ad, fetchBlocked p e.lot ad = true ↔ ¬ (∀ w, p.store.forwardWrite = some w → w.listedLot = some e.lot → w.address.toNat / 64 ≠ ad.toNat / 64) := by
        intro ad
        unfold fetchBlocked lineOf
        rcases p.store.forwardWrite with _ | w <;> simp
      have ha : (if p.catalogue.fetchLower.isSome = true then d.address + 64 else d.address) = (if p.catalogue.fetchLower = none then d.address else d.address + 64) := by
        rcases p.catalogue.fetchLower with _ | x <;> simp
      simp only [hd]; rw [ha]
      generalize hg : (if p.catalogue.fetchLower = none then d.address else d.address + 64) = ad
      constructor
      · intro h
        split at h
        · simp at h
        · rename_i hn
          refine ⟨e, rest, d, rfl, hd, ad, hg.symm, ?_, by simpa using h.symm⟩
          by_contra hx; exact hn ((hb ad).2 hx)
      · rintro ⟨e', rest', d', h1, h2, ad', h3, h4, h5⟩
        cases h1
        rw [hd] at h2; cases h2
        subst h3
        rw [hg] at h4 h5; rw [if_neg (fun hx => (hb _).1 hx h4), h5]

/-- R18: a write-back as it is issued. -/
theorem writeBackOf_iff (p : Part) (e : WriteBackEntry) (t : Transaction) : writeBackOf p e = some t ↔ WriteBackFor p e t := by
  unfold writeBackOf WriteBackFor
  rcases hd : p.digest e.lot with _ | d
  · simp
  · simp; constructor
    · intro h; exact h.symm
    · intro h; exact h.symm

/-- R18: what the write-back queue offers. -/
theorem writeBackReady_iff (p : Part) (t : Transaction) : writeBackReady p = some t ↔ WriteBackOffered p t := by
  unfold writeBackReady WriteBackOffered
  rcases hl : p.catalogue.writeBacks with _ | ⟨e, rest⟩
  · simp
  · simp only [writeBackOf_iff]
    constructor
    · intro h; exact ⟨e, rest, rfl, h⟩
    · rintro ⟨e', r', h1, h2⟩; cases h1; exact h2

/-- R168: what a requester presents. -/
theorem ready_iff (p : Part) (r : Requester) (t : Transaction) : ready p r = some t ↔ Presents p r t := by
  cases r
  · show forwardReady p = some t ↔ _
    unfold forwardReady Presents
    rcases p.store.forwardWrite with _ | w <;> rcases p.store.forwardRead with _ | x <;> simp [eq_comm]
  · show catalogueReady p = some t ↔ _
    unfold catalogueReady Presents
    rcases hw : p.catalogue.writeBackOut with _ | e
    · simp only [← fetchReady_iff, ← writeBackReady_iff]
      rcases hf : fetchReady p with _ | f <;> rcases hb : writeBackReady p with _ | b <;> simp
      · rcases p.store.turn <;> simp [eq_comm]
    · simp [writeBackOf_iff]
  · show ringReady p = some t ↔ _
    unfold ringReady Presents
    rcases p.ring.queue with _ | ⟨x, rest⟩
    · simp
    · rcases p.ring.geometry with _ | g
      · simp
      · simp [slotAddress, RingRecord.beats, eq_comm]

/-- R9: a listing that ends WITHDRAWN. -/
theorem withdrawListing_withdrawn (b : Part) (lot : Nat) (d : Digest) (hd : b.digest lot = some d) : ListingWithdrawn b (withdrawListing b lot) lot d := by
  unfold withdrawListing
  have hk := endReason_kept (requestWriteBack (b.updateOwned lot fun o => { o with state := .withdrawn, closeTick := b.tick }) lot false) lot (requestWriteBack_outstanding _ _ _)
  simp only []
  rw [hk]
  have same : ∀ k, (requestWriteBack (b.updateOwned lot fun o => { o with state := .withdrawn, closeTick := b.tick }) lot false).digest k = (b.updateOwned lot fun o => { o with state := .withdrawn, closeTick := b.tick }).digest k := fun _ => rfl
  refine ⟨?_, ?_, ?_, ?_⟩
  · rw [digest_updateDigest_same, same, Part.updateOwned, digest_updateDigest_same, hd]; rfl
  · intro k hk2
    rw [digest_updateDigest_other _ _ _ _ hk2, same, Part.updateOwned, digest_updateDigest_other _ _ _ _ hk2]
  · rw [updateDigest_eq]; unfold Part.updateOwned; rw [updateDigest_eq b]; exact joinWriteBacks_joined _ _ _
  · rw [updateDigest_eq]; unfold Part.updateOwned; rw [updateDigest_eq b]; rfl

/-- R13: a refused listing changes the catalogue and the Attention Unit alone. -/
theorem refuseListing_frame (p : Part) (lot : Nat) (r : RefusalReason) :
   refuseListing p lot r = { p with catalogue := (refuseListing p lot r).catalogue, attention := (refuseListing p lot r).attention } := by
  let refused : Owned := { Owned.atListing with state := .refused, reason := r }
  let noted := noteRefusal (requestWriteBack (p.updateOwned lot fun _ => refused) lot false) lot r
  have ho : writeBackOutstanding noted lot = true := requestWriteBack_outstanding _ _ _
  have e : refuseListing p lot r = noted.updateDigest lot fun d => { d with ended := true } := endReason_kept _ _ ho
  rw [e, updateDigest_eq]
  show _ = _
  unfold noted Part.updateOwned; rw [updateDigest_eq p]; rfl

/-- R13: a listing refused. -/
theorem refuseListing_refused (b : Part) (lot : Nat) (r : RefusalReason) (d : Digest) (hd : b.digest lot = some d) : ListingRefused b (refuseListing b lot r) lot d r := by
  obtain ⟨h1, h2, h3, h4, h5⟩ := refuseListing_law b lot r d hd
  refine ⟨h1, h2, h3, ?_, h5⟩
  conv_lhs => rw [refuseListing_frame, h4]

/-- R11: the test of the host fields. -/
theorem bad_iff_outOfRange (h : HostFields) : h.bad = false ↔ FieldsInRange h := by
  unfold HostFields.bad FieldsInRange pageValid
  have : (∀ (i : ℕ) (x : i < 8), h.pages[i].toNat % 4096 = 0 ∧ h.pages[i].toNat < 68719476736) ↔ ∀ page ∈ h.pages, page.toNat % 4096 = 0 ∧ page.toNat < 68719476736 := by
    rw [Vector.forall_mem_iff_forall_getElem]
  simp [and_assoc, Nat.one_le_iff_ne_zero, this]

/-- R14: the place of a lot in its queue. -/
theorem insertBySequence_split (p : Part) (lot s : Nat) (xs : List Nat) : ∃ before after, xs = before ++ after ∧ insertBySequence p lot s xs = before ++ lot :: after ∧ (∀ k ∈ before, p.sequenceOf k < s) ∧ ∀ k rest, after = k :: rest → s ≤ p.sequenceOf k := by
  induction xs with
  | nil => exact ⟨[], [], rfl, rfl, by simp, by simp⟩
  | cons a rest ih =>
    unfold insertBySequence
    split
    · rename_i h
      obtain ⟨b, c, h1, h2, h3, h4⟩ := ih
      exact ⟨a :: b, c, by rw [h1]; rfl, by rw [h2]; rfl, by simp [h]; exact h3, h4⟩
    · rename_i h
      exact ⟨[], a :: rest, rfl, rfl, by simp, by intro k r hk; cases hk; omega⟩

/-- R10: the first of the conditions 3 to 8 that fails. -/
theorem laneRefusal_iff (p : Part) (i : Lane) (h : HostFields) :
    (∀ reason, reason ≠ .none → (laneRefusal p i h = reason ↔ LaneRefuses p i h reason)) ∧ ¬ LaneRefuses p i h .none := by
  have e1 : trolleyMoved p i h.tag = true ↔ TagElsewhere p i h.tag := by
    unfold trolleyMoved TagElsewhere trackTrolleys trolleysBeyond
    have : ∀ j, j ∈ allLanes := by decide
    simp only [List.any_eq_true, Bool.or_eq_true, Bool.and_eq_true, decide_eq_true_eq, beq_iff_eq]
    constructor
    · rintro ⟨j, _, h⟩; exact ⟨j, h⟩
    · rintro ⟨j, h⟩; exact ⟨j, this j, h⟩
  have e2 : duplicateSequence p i h.sequence = true ↔ SequenceTaken p i h.sequence := by
    unfold duplicateSequence SequenceTaken trackTrolleys trolleysBeyond
    simp only [List.any_eq_true, List.mem_append, List.mem_flatMap, beq_iff_eq]
    constructor
    · rintro ⟨x, hx | ⟨y, hy, hx⟩, h⟩
      · exact .inl ⟨x, hx, h⟩
      · exact .inr ⟨y, hy, x, hx, h⟩
    · rintro (⟨x, hx, h⟩ | ⟨y, hy, x, hx, h⟩)
      · exact ⟨x, .inl hx, h⟩
      · exact ⟨x, .inr ⟨y, hy, hx⟩, h⟩
  have e3 : positionTaken p i h.tag h.position = true ↔ ∃ k ∈ p.expected i, p.tagOf k = h.tag ∧ p.positionOf k = h.position := by
    unfold positionTaken; simp
  have lowlt : ∀ (g : List Nat) (m x : Nat), g.foldl (fun m lot => min m (p.sequenceOf lot)) m < x ↔ (m < x ∨ ∃ a ∈ g, p.sequenceOf a < x) := by
    intro g; induction g with
    | nil => simp
    | cons a g ih => intro m x; rw [List.foldl_cons, ih]; simp [or_assoc]
  have highlt : ∀ (g : List Nat) (m x : Nat), x < g.foldl (fun m lot => max m (p.sequenceOf lot)) m ↔ (x < m ∨ ∃ a ∈ g, x < p.sequenceOf a) := by
    intro g; induction g with
    | nil => simp
    | cons a g ih => intro m x; rw [List.foldl_cons, ih]; simp [or_assoc]
  have e4 : trolleySplit p i h.tag h.sequence = true ↔ SplitsTrolley p i h.tag h.sequence := by
    unfold trolleySplit SplitsTrolley splitsOwn splitsOther
    simp only []
    by_cases hg : ∃ a ∈ p.expected i, p.tagOf a = h.tag
    · have : ((p.expected i).filter fun lot => p.tagOf lot == h.tag).isEmpty = false := by
        obtain ⟨a, ha, ht⟩ := hg
        rw [List.isEmpty_eq_false_iff_exists_mem]; exact ⟨a, by simp [ha, ht]⟩
      simp only [this, Bool.false_eq_true, if_false]
      simp only [List.any_eq_true, Bool.and_eq_true, decide_eq_true_eq, lowlt, highlt, List.mem_filter, beq_iff_eq, bne_iff_ne]
      constructor
      · rintro ⟨k, hk, ⟨h1, h2⟩, h3⟩
        refine .inl ⟨hg, k, hk, h1, ?_, ?_⟩
        · rcases h2 with h2 | ⟨a, ⟨b, c⟩, d⟩
          · exact .inl h2
          · exact .inr ⟨a, b, c, d⟩
        · rcases h3 with h2 | ⟨a, ⟨b, c⟩, d⟩
          · exact .inl h2
          · exact .inr ⟨a, b, c, d⟩
      · rintro (⟨_, k, hk, h1, h2, h3⟩ | ⟨hn, _⟩)
        · refine ⟨k, hk, ⟨h1, ?_⟩, ?_⟩
          · rcases h2 with h2 | ⟨a, b, c, d⟩
            · exact .inl h2
            · exact .inr ⟨a, ⟨b, c⟩, d⟩
          · rcases h3 with h2 | ⟨a, b, c, d⟩
            · exact .inl h2
            · exact .inr ⟨a, ⟨b, c⟩, d⟩
        · obtain ⟨a, ha, ht⟩ := hg; exact absurd ht (hn a ha)
    · have hn : ∀ a ∈ p.expected i, p.tagOf a ≠ h.tag := fun a ha ht => hg ⟨a, ha, ht⟩
      have : ((p.expected i).filter fun lot => p.tagOf lot == h.tag).isEmpty = true := by
        rw [List.isEmpty_iff, List.filter_eq_nil_iff]; intro a ha; simpa using hn a ha
      rw [this]; simp only [if_true]
      simp only [List.any_eq_true, Bool.and_eq_true, decide_eq_true_eq, beq_iff_eq]
      constructor
      · rintro ⟨a, ha, c, hc, ⟨h1, h2⟩, h3⟩; exact .inr ⟨hn, a, ha, c, hc, h1, h2, h3⟩
      · rintro (⟨h, _⟩ | ⟨_, a, ha, c, hc, h1, h2, h3⟩)
        · exact absurd h hg
        · exact ⟨a, ha, c, hc, ⟨h1, h2⟩, h3⟩
  unfold laneRefusal LaneRefuses
  simp only [← e1, ← e2, ← e3, ← e4, Config.expectedLots]
  generalize trolleyMoved p i h.tag = a; generalize duplicateSequence p i h.sequence = b; generalize positionTaken p i h.tag h.position = c
  generalize trolleySplit p i h.tag h.sequence = d; generalize (p.lane i).enabled = f
  constructor
  · intro reason hr
    clear e1 e2 e3 e4 lowlt highlt
    cases f
    · simp [eq_comm]
    · cases a
      · cases b
        · cases c
          · cases d
            · by_cases hF : 64 ≤ (p.expected i).length <;> simp [hF] <;> first | exact eq_comm | exact fun h => hr h.symm
            · simp [eq_comm]
          · simp [eq_comm]
        · simp [eq_comm]
      · simp [eq_comm]
  · simp

/-- R14: a lot placed. -/
theorem placeLot_placed (b : Part) (i : Lane) (lot : Nat) (h : HostFields) (d : Digest) (hd : b.digest lot = some d) : LotPlaced b (placeLot b i lot h) i lot h d := by
  unfold placeLot
  have hexp : ∀ j, ((b.updateDigest lot fun d => { d with host := some h, owned := .placed h }).setExpected i (insertBySequence b lot h.sequence (b.expected i))).expected j = if j = i then (insertBySequence b lot h.sequence (b.expected i)) else b.expected j := by
    intro j
    rw [updateDigest_eq]
    unfold Part.setExpected Part.expected
    by_cases hj : j = i
    · subst hj; simp [Part.setCatalogue]
    · simp only [Part.setCatalogue, if_neg hj]; exact Vector.getElem_set_ne _ _ (fun e => hj (Fin.ext e.symm))
  refine ⟨?_, ?_, ?_, ?_, ?_, ?_, ?_⟩
  · show (b.updateDigest lot _).digest lot = _
    rw [digest_updateDigest_same, hd]; rfl
  · intro k hk
    show (b.updateDigest lot _).digest k = _
    rw [digest_updateDigest_other _ _ _ _ hk]
  · rw [updateDigest_eq]; exact joinWriteBacks_joined _ _ _
  · obtain ⟨x, y, h1, h2, h3, h4⟩ := insertBySequence_split b lot h.sequence (b.expected i)
    refine ⟨x, y, h1, ?_, h3, h4⟩
    have := hexp i; rw [if_pos rfl] at this
    exact this.trans h2
  · intro j hj
    have := hexp j; rw [if_neg hj] at this; exact this
  · refine ⟨?_, ?_⟩
    · rw [updateDigest_eq]
      exact Vector.getElem_set_self _
    · intro j hj
      rw [updateDigest_eq]
      exact Vector.getElem_set_ne i.isLt _ (fun e => hj (Fin.ext e.symm))
  · rw [updateDigest_eq]; rfl

/-- R8 to R10: a fetch completed. -/
theorem completeFetch_completes (p b : Part) (e : ListingEntry) (rest : List ListingEntry) (d : Digest) (rec : Option (List Beat))
   (hl : p.catalogue.listing = e :: rest) (hb : b = p.setCatalogue { p.catalogue with listing := rest, fetchLower := none })
   (hd : b.digest e.lot = some d) : FetchCompletes b (completeFetch p rec) e d (rec.map hostOfBeats) := by
  unfold completeFetch
  rw [hl]; simp only [← hb]
  refine ⟨?_, ?_, ?_⟩
  · intro hw; rw [if_pos hw]; exact withdrawListing_withdrawn _ _ _ hd
  · intro hw hr
    rw [if_neg (by simp [hw])]
    rcases rec with _ | x
    · exact refuseListing_refused _ _ _ _ hd
    · simp at hr
  · intro hw h hr
    rw [if_neg (by simp [hw])]
    rcases rec with _ | x
    · simp at hr
    · simp only [Option.map_some, Option.some.injEq] at hr
      simp only [hr]
      unfold validate
      refine ⟨?_, ?_, ?_⟩
      · intro h1; rw [if_pos h1]; exact refuseListing_refused _ _ _ _ hd
      · intro h1 h2; rw [if_neg (by simp [h1])]
        have : h.bad = true := by
          by_contra hx; exact h2 ((bad_iff_outOfRange h).1 (by simpa using hx))
        rw [if_pos this]; exact refuseListing_refused _ _ _ _ hd
      · intro h1 h2 i hi
        rw [if_neg (by simp [h1]), (bad_iff_outOfRange h).2 h2]
        have ht : toLane h.lane = some i := by rw [← hi]; simp [toLane]
        simp only [ht]
        obtain ⟨q1, q2⟩ := laneRefusal_iff b i h
        refine ⟨?_, ?_⟩
        · intro reason hre
          have hne : reason ≠ .none := fun hh => q2 (hh ▸ hre)
          have := (q1 reason hne).2 hre
          simp only [Bool.false_eq_true, if_false]
          rw [if_neg (by rw [this]; exact hne), this]; exact refuseListing_refused _ _ _ _ hd
        · intro hno
          have : laneRefusal b i h = .none := by
            by_contra hx; exact hno _ ((q1 _ hx).1 rfl)
          simp only [Bool.false_eq_true, if_false]
          rw [if_pos this]; exact placeLot_placed _ _ _ _ _ hd

/-- R19: whether a write-back is outstanding. -/
theorem writeBackOutstanding_iff (p : Part) (lot : Nat) : writeBackOutstanding p lot = false ↔ (¬ WriteBackQueued p lot ∧ ∀ e, p.catalogue.writeBackOut = some e → e.lot ≠ lot) := by
  unfold writeBackOutstanding WriteBackQueued
  rcases p.catalogue.writeBackOut with _ | e <;> simp

/-- R19: a digest freed where it may be. -/
theorem freeIfDone_freed (b : Part) (lot : Nat) : FreedIfDone b (freeIfDone b lot) lot := by
  unfold FreedIfDone freeIfDone
  rcases hd : b.digest lot with _ | d
  · simp; exact hd
  · simp only []
    by_cases hx : d.ended = true ∧ writeBackOutstanding b lot = false
    · have : (d.ended && !writeBackOutstanding b lot) = true := by simp [hx.1, hx.2]
      simp only [this, if_true]
      have h2 := (writeBackOutstanding_iff b lot).1 hx.2
      refine ⟨?_, ?_, ?_, ?_⟩
      · intro _; exact tableFind_erase_same _ _
      · intro h; exact absurd ⟨⟨d, rfl, hx.1⟩, h2⟩ h
      · intro k hk; exact tableFind_erase_other _ _ _ hk
      · rfl
    · have : (d.ended && !writeBackOutstanding b lot) = false := by
        rw [Bool.eq_false_iff]; intro h; simp at h; exact hx h
      simp only [this, Bool.false_eq_true, if_false]
      refine ⟨?_, ?_, ?_, ?_⟩
      · rintro ⟨⟨d', h1, h2⟩, h3⟩
        cases h1
        exact absurd ⟨h2, (writeBackOutstanding_iff b lot).2 h3⟩ hx
      · intro _; exact hd
      · intro k hk; trivial
      · trivial

/-- R19: lots whose reasons end are released, by the queue as it then stands. -/
theorem endReasons_released (p : Part) (lots : List Nat) (lot : Nat) (h : lot ∈ lots) :
    Released p lot (p.digest lot) ((endReasons p lots).digest lot) := by
  rw [(endReasons_law p lots).1 lot, if_pos h]
  refine ⟨fun hd => ?_, fun hd => ?_⟩
  · rw [if_pos ((writeBackOutstanding_due p lot).2 hd)]
  · rw [if_neg fun ho => hd ((writeBackOutstanding_due p lot).1 ho)]

/-- R41: a kept Display Position emptied on a CLOSING day: the lots' reasons for being known end, and the Display Mapper is told. -/
theorem emptyDisplay_empties (p : Part) (i : Lane) (y : Trolley) (hy : (p.track i).display = some y) :
    let q := emptyDisplay p i
    q = { p with catalogue := { p.catalogue with known := q.catalogue.known }, tracks := q.tracks, displays := q.displays } ∧
      q.track i = { p.track i with display := none } ∧ (∀ j, j ≠ i → q.track j = p.track j) ∧ Told p q i ∧
      (∀ k, k ∉ y.lots → q.digest k = p.digest k) ∧ ∀ k ∈ y.lots, Released p k (p.digest k) (q.digest k) := by
  dsimp only
  unfold emptyDisplay
  rw [hy]; dsimp only
  have hr := endReasons_released (p.setTrack i { p.track i with display := none }) y.lots
  obtain ⟨l1, l2⟩ := endReasons_law (p.setTrack i { p.track i with display := none }) y.lots
  obtain ⟨u, hu⟩ : ∃ u, u = endReasons (p.setTrack i { p.track i with display := none }) y.lots := ⟨_, rfl⟩
  rw [← hu] at l1 l2 hr ⊢
  have ht : u.tracks = p.tracks.set i { p.track i with display := none } := by rw [l2]; rfl
  have hd : u.displays = p.displays := by rw [l2]; rfl
  refine ⟨?_, ?_, ?_, ⟨?_, ?_⟩, ?_, ?_⟩
  · rw [l2]; rfl
  · show u.tracks[i] = _
    rw [ht]; exact Vector.getElem_set_self _
  · intro j hj
    show u.tracks[j] = _
    rw [ht]; exact Vector.getElem_set_ne i.isLt _ fun e => hj (Fin.ext e.symm)
  · have : u.display i = p.display i := by unfold Part.display; rw [hd]
    rw [← this]; exact Vector.getElem_set_self _
  · intro j hj
    have : u.display j = p.display j := by unfold Part.display; rw [hd]
    rw [← this]; exact Vector.getElem_set_ne i.isLt _ fun e => hj (Fin.ext e.symm)
  · intro k hk
    exact (l1 k).trans (if_neg hk)
  · intro k hk
    exact hr k hk

/-- R57: the close of a lot completes. -/
theorem completeClose_completes (b : Part) (i : Lane) (lot : Nat) (d : Digest) (hd : b.digest lot = some d) :
    CloseCompletes b (completeClose b i lot) i lot d := by
  unfold completeClose
  dsimp only
  obtain ⟨c, hc⟩ : ∃ c, c = requestWriteBack (b.updateOwned lot fun o => { o with state := .closed }) lot true := ⟨_, rfl⟩
  rw [← hc]
  have hcf : c = { b with catalogue := { b.catalogue with known := c.catalogue.known, writeBacks := c.catalogue.writeBacks } } := by
    rw [hc]; unfold Part.updateOwned; rw [updateDigest_eq]; rfl
  have hcd : ∀ k, c.digest k = if k = lot then some { d with owned := { d.owned with state := .closed } } else b.digest k := by
    intro k
    rw [hc]; show (b.updateOwned _ _).digest k = _
    by_cases hk : k = lot
    · subst hk; rw [if_pos rfl, Part.updateOwned, digest_updateDigest_same, hd]; rfl
    · rw [if_neg hk, Part.updateOwned, digest_updateDigest_other _ _ _ _ hk]
  have hcw : WriteBackJoined b.catalogue.writeBacks c.catalogue.writeBacks lot true := by
    rw [hc]; unfold Part.updateOwned; rw [updateDigest_eq b]; exact joinWriteBacks_joined _ _ _
  clear hc hd
  have hw : c.window = b.window := by rw [hcf]
  have ht : ∀ j, c.track j = b.track j := by intro j; rw [hcf]; rfl
  have hdi : c.displays = b.displays := by rw [hcf]
  have hdi2 : ∀ j, c.display j = b.display j := by intro j; rw [hcf]; rfl
  have ha : c.attention = b.attention := by rw [hcf]
  have quiet : ¬ (c.window.dayState = .closing ∧ (c.track i).display ≠ none) →
      CloseCompletes b (c.raise .lotClosed) i lot d := by
    intro hn
    rw [hw, ht] at hn
    refine ⟨?_, hcw, ?_, ?_, ?_, ?_, ?_⟩
    · revert hcf; clear * -
      generalize c.catalogue.known = K; generalize c.catalogue.writeBacks = W; intro hcf; subst hcf; rfl
    · rw [← ha]; exact AttentionUnit.raise_raised _ _
    · intro j _; exact ht j
    · intro h
      show c.track i = _
      have : (b.track i).display = none := by by_contra hx; exact hn ⟨h, hx⟩
      rw [ht, ← this]
    · intro _; exact ⟨ht i, hdi, hcd⟩
    · intro h y hy; exact absurd ⟨h, by rw [hy]; simp⟩ hn
  unfold emptyKeptDisplay
  by_cases hcl : c.window.dayState = .closing
  · rw [if_pos hcl]
    rcases hy : (c.track i).display with _ | y
    · have : emptyDisplay c i = c := by unfold emptyDisplay; rw [hy]
      rw [this]; exact quiet fun h => h.2 hy
    · obtain ⟨e1, e2, e3, e4, e5, e6⟩ := emptyDisplay_empties c i y hy
      obtain ⟨u, hu⟩ : ∃ u, u = emptyDisplay c i := ⟨_, rfl⟩
      rw [← hu] at e1 e2 e3 e4 e5 e6 ⊢
      have hwb : u.catalogue.writeBacks = c.catalogue.writeBacks := by rw [e1]
      have hwo : u.catalogue.writeBackOut = c.catalogue.writeBackOut := by rw [e1]
      have hua : u.attention = b.attention := by rw [e1]; exact ha
      refine ⟨?_, ?_, ?_, ?_, ?_, ?_, ?_⟩
      · have : u = { b with catalogue := { b.catalogue with known := u.catalogue.known, writeBacks := u.catalogue.writeBacks },
                            tracks := u.tracks, displays := u.displays } := by
          revert hcf e1 hwb; clear * -
          generalize u.catalogue.known = K2; generalize u.catalogue.writeBacks = W2; generalize u.tracks = T; generalize u.displays = D
          generalize c.catalogue.known = K; generalize c.catalogue.writeBacks = W
          intro hcf e1 hwb; subst hcf; subst e1; subst hwb; rfl
        revert this; clear * -
        generalize u.catalogue.known = K; generalize u.catalogue.writeBacks = W; generalize u.tracks = T; generalize u.displays = D
        intro this; subst this; rfl
      · show WriteBackJoined _ u.catalogue.writeBacks _ _
        rw [hwb]; exact hcw
      · show Raised _ (u.attention.raise _) _
        rw [hua]; exact AttentionUnit.raise_raised _ _
      · intro j hj; rw [← ht j]; exact e3 j hj
      · intro _; rw [← ht i]; exact e2
      · intro h
        rw [← hw, ← ht] at h
        rcases h with h | h
        · exact absurd hcl h
        · rw [hy] at h; cases h
      · intro _ z hz
        rw [← ht, hy] at hz; cases hz
        refine ⟨⟨?_, ?_⟩, ?_, ?_⟩
        · rw [← hdi2]; exact e4.1
        · intro j hj; rw [← hdi2]; exact e4.2 j hj
        · intro k hk; exact (e5 k hk).trans (hcd k)
        · intro k hk
          have := e6 k hk
          rw [hcd] at this
          refine ⟨fun h => this.1 ?_, fun h => this.2 fun hx => h ?_⟩
          · exact (writeBackDue_congr hwb hwo k).1 h
          · exact (writeBackDue_congr hwb hwo k).2 hx
  · rw [if_neg hcl]
    exact quiet fun h => hcl h.1

end Sys2Proof.Machine
end

