-- ==== Sys2Proof/Laws/DayFlush.lean ====
section
/-! SUPPORT. The day close: lots made passengers, lanes emptied, and what DAY-CLOSE leaves. -/

namespace Sys2Proof.Machine

open Sys2Proof.Safety

/-! ### Lots not yet live (R16, R20) -/

/-- R16: a lot made a passenger. -/
theorem makePassenger_law (p : Part) (lot : Nat) :
    let q := makePassenger p lot
    q = { p with catalogue := { p.catalogue with known := q.catalogue.known, writeBacks := q.catalogue.writeBacks } } ∧
      q.catalogue.writeBacks = joinWriteBacks lot false p.catalogue.writeBacks ∧
      (q.digest lot = (p.digest lot).map fun d => { d with owned := d.owned.asPassenger p.tick }) ∧
      ∀ k, k ≠ lot → q.digest k = p.digest k := by
  refine ⟨?_, ?_, ?_, ?_⟩
  · unfold makePassenger Part.updateOwned; rw [updateDigest_eq]; rfl
  · unfold makePassenger Part.updateOwned; rw [updateDigest_eq]; rfl
  · exact digest_updateDigest_same _ _ _
  · intro k hk; exact digest_updateDigest_other _ _ _ _ hk

/-- R20: several lots made passengers. -/
theorem makePassengers_law (xs : List Nat) (hn : xs.Nodup) (p : Part) :
    let q := xs.foldl makePassenger p
    q = { p with catalogue := { p.catalogue with known := q.catalogue.known, writeBacks := q.catalogue.writeBacks } } ∧
      WriteBacksJoined xs p.catalogue.writeBacks q.catalogue.writeBacks ∧
      ∀ k, q.digest k = if k ∈ xs then (p.digest k).map (fun d => { d with owned := d.owned.asPassenger p.tick }) else p.digest k := by
  induction xs generalizing p with
  | nil => exact ⟨rfl, rfl, fun k => by simp⟩
  | cons x xs ih =>
    rw [List.nodup_cons] at hn
    dsimp only
    rw [List.foldl_cons]
    obtain ⟨l1, l2, l3, l4⟩ := makePassenger_law p x
    obtain ⟨i1, i2, i3⟩ := ih hn.2 (makePassenger p x)
    have ht : (makePassenger p x).tick = p.tick := by rw [l1]; rfl
    refine ⟨?_, ⟨_, ?_, i2⟩, ?_⟩
    · generalize xs.foldl makePassenger (makePassenger p x) = r at *
      rw [i1]; rw [l1]
    · rw [l2]; exact joinWriteBacks_joined _ _ _
    · intro k
      rw [i3 k, ht]
      by_cases hk : k = x
      · subst hk; simp [hn.1, l3]
      · simp [hk, l4 k hk]

/-- What a table finds is in it. -/
theorem tableFind_mem {α : Type} (t : List (Nat × α)) (n : Nat) (v : α) (h : tableFind t n = some v) : (n, v) ∈ t := by
  induction t with
  | nil => simp [tableFind] at h
  | cons e t ih =>
    obtain ⟨k, x⟩ := e
    unfold tableFind at h
    split at h
    · rename_i hk; simp at h hk; subst hk; subst h; simp
    · exact List.mem_cons_of_mem _ (ih h)

/-- What stands in a table with rising keys is found. -/
theorem tableFind_of_mem {α : Type} (t : List (Nat × α)) (hs : tableSorted t) (n : Nat) (v : α) (h : (n, v) ∈ t) :
    tableFind t n = some v := by
  induction t with
  | nil => cases h
  | cons e t ih =>
    obtain ⟨k, x⟩ := e
    have hp : List.Pairwise (· < ·) (k :: t.map Prod.fst) := hs
    rw [List.pairwise_cons] at hp
    unfold tableFind
    rcases List.mem_cons.1 h with h | h
    · cases h; simp
    · have : k < n := hp.1 n (List.mem_map.2 ⟨(n, v), h, rfl⟩)
      have hne : ¬ k = n := by omega
      simp [hne]; exact ih hp.2 h

/-- R116: the open buyers are those with an open invoice, in strictly rising order. -/
theorem openBuyers_law (p : Part) (hs : tableSorted p.account.buyers) :
    (openBuyers p).Pairwise (· < ·) ∧ ∀ k, k ∈ openBuyers p ↔ (p.buyer k).invoice ≠ 0 := by
  unfold openBuyers
  refine ⟨hs.sublist (List.filter_sublist.map _), fun k => ?_⟩
  simp only [List.mem_map, List.mem_filter, decide_eq_true_eq]
  constructor
  · rintro ⟨⟨j, b⟩, ⟨hm, hb⟩, rfl⟩
    simpa [Part.buyer, tableGet, tableFind_of_mem _ hs _ _ hm] using hb
  · intro h
    unfold Part.buyer tableGet at h
    rcases hf : tableFind p.account.buyers k with _ | b
    · rw [hf] at h; exact absurd rfl h
    · rw [hf] at h; exact ⟨(k, b), ⟨tableFind_mem _ _ _ hf, h⟩, rfl⟩

/-- R20: the lots not yet live are the known lots of such a state, each once. -/
theorem lotsNotYetLive_law (p : Part) (hs : tableSorted p.catalogue.known) :
    (lotsNotYetLive p).Nodup ∧
      ∀ lot, lot ∈ lotsNotYetLive p ↔ ∃ d, p.digest lot = some d ∧ d.owned.state.notYetLive = true := by
  constructor
  · have : (p.catalogue.known.map Prod.fst).Nodup := (show List.Pairwise _ _ from hs).imp fun h => Nat.ne_of_lt h
    exact this.sublist (List.filter_sublist.map _)
  · intro lot
    unfold lotsNotYetLive
    rw [List.mem_map]
    constructor
    · rintro ⟨⟨k, d⟩, h, rfl⟩
      rw [List.mem_filter] at h
      exact ⟨d, tableFind_of_mem _ hs _ _ h.1, by simpa using h.2⟩
    · rintro ⟨d, hd, hn⟩
      exact ⟨(lot, d), List.mem_filter.2 ⟨tableFind_mem _ _ _ hd, by simpa using hn⟩, rfl⟩

/-- R20: every lot not yet live withdrawn, in a free order. -/
theorem withdrawAll_law (p : Part) (hs : tableSorted p.catalogue.known) :
    let q := withdrawAll p
    q = { p with catalogue := { p.catalogue with known := q.catalogue.known, writeBacks := q.catalogue.writeBacks },
                 freeDraws := q.freeDraws } ∧
      (∀ k, q.digest k = digestAtClose p k) ∧
      ∃ order : List Nat, order.Nodup ∧ (∀ lot, lot ∈ order ↔ ∃ d, p.digest lot = some d ∧ d.owned.state.notYetLive = true) ∧
        WriteBacksJoined order p.catalogue.writeBacks q.catalogue.writeBacks := by
  obtain ⟨hn, hm⟩ := lotsNotYetLive_law p hs
  have hperm := freelyOrdered_perm p.freeDraws (lotsNotYetLive p)
  obtain ⟨p1, p2, p3⟩ := makePassengers_law _ (hperm.nodup_iff.2 hn) p
  obtain ⟨u, hu⟩ : ∃ u, u = (freelyOrdered p.freeDraws (lotsNotYetLive p)).foldl makePassenger p := ⟨_, rfl⟩
  rw [← hu] at p1 p2 p3
  obtain ⟨n, hw⟩ : ∃ n, withdrawAll p = { u with freeDraws := n } := by
    unfold withdrawAll; dsimp only; rw [← hu]
    split
    · exact ⟨u.freeDraws, rfl⟩
    · exact ⟨_, rfl⟩
  dsimp only
  rw [hw]
  refine ⟨?_, ?_, _, hperm.nodup_iff.2 hn, fun lot => (hperm.mem_iff).trans (hm lot), p2⟩
  · clear * - p1
    generalize u.catalogue.known = K at *; generalize u.catalogue.writeBacks = W at *
    subst p1; rfl
  · intro k
    refine (p3 k).trans ?_
    unfold digestAtClose
    rcases hd : p.digest k with _ | d
    · simp
    · have : k ∈ freelyOrdered p.freeDraws (lotsNotYetLive p) ↔ d.owned.state.notYetLive = true := by
        rw [hperm.mem_iff, hm, hd]; simp
      by_cases hl : d.owned.state.notYetLive = true
      · rw [if_pos (this.2 hl)]
        have : d.owned.state = .expected ∨ d.owned.state = .late ∨ d.owned.state = .staged ∨ d.owned.state = .atClock := by
          revert hl; cases d.owned.state <;> simp [LotState.notYetLive]
        simp only [Option.map_some, if_pos this]; rfl
      · rw [if_neg fun h => hl (this.1 h)]
        have : ¬ (d.owned.state = .expected ∨ d.owned.state = .late ∨ d.owned.state = .staged ∨ d.owned.state = .atClock) := by
          revert hl; cases d.owned.state <;> simp [LotState.notYetLive]
        simp only [Option.map_some, if_neg this]

/-! ### The flush (R20, R40) -/

/-- R20, R40: the Display Positions that the flush keeps. -/
theorem keepsDisplay_kept (p : Part) (i : Lane) (y : Trolley) : keepsDisplay p i y = true ↔ KeptAtClose p i y := by
  unfold keepsDisplay KeptAtClose
  rcases (p.lane i).live with _ | lot
  · simp
  · constructor
    · intro h; simp at h; exact ⟨lot, h.1, rfl, h.2⟩
    · rintro ⟨k, h1, h2, h3⟩; cases h2; simp [h1, h3]

/-- R20, R40: the lots that the flush removes from a lane's places. -/
theorem flushedLots_flushed (p : Part) (i : Lane) (lot : Nat) : lot ∈ flushedLots p i ↔ FlushedFrom p i lot := by
  unfold flushedLots FlushedFrom
  simp only [List.mem_append, List.mem_flatMap]
  have hd : (lot ∈ (match (p.track i).display with | some y => if keepsDisplay p i y then [] else y.lots | none => [])) ↔
      ∃ y, (p.track i).display = some y ∧ ¬ KeptAtClose p i y ∧ lot ∈ y.lots := by
    rcases (p.track i).display with _ | y
    · simp
    · simp only [Option.some.injEq, exists_eq_left', ← keepsDisplay_kept]
      by_cases hk : keepsDisplay p i y = true <;> simp [hk]
  refine (or_congr_right hd).trans ?_
  constructor
  · rintro (((h | ⟨y, h1, h2⟩) | ⟨y, h1, h2⟩) | h)
    · exact .inl h
    · exact .inr (.inl ⟨y, .inl h1, h2⟩)
    · exact .inr (.inl ⟨y, .inr h1, h2⟩)
    · exact .inr (.inr h)
  · rintro (h | ⟨y, h1 | h1, h2⟩ | h)
    · exact .inl (.inl (.inl h))
    · exact .inl (.inl (.inr ⟨y, h1, h2⟩))
    · exact .inl (.inr ⟨y, h1, h2⟩)
    · exact .inr h

/-- R20, R40: one lane's flush, judged on `b`. -/
theorem flushLane_law (b p : Part) (i : Lane) :
    let q := flushLane b p i
    q = { p with catalogue := { p.catalogue with known := q.catalogue.known, expected := q.catalogue.expected },
                 tracks := q.tracks, displays := q.displays } ∧
      (∀ j, q.expected j = if j = i then [] else p.expected j) ∧
      (∀ j, q.track j = if j = i then (p.track i).flushed (keepsDisplay b i) else p.track j) ∧
      (∀ j, q.display j = if j = i then { p.display i with notified := true } else p.display j) ∧
      ∀ k, q.digest k = if k ∈ flushedLots b i then
          (if writeBackOutstanding p k = true then (p.digest k).map (fun d => { d with ended := true }) else none)
        else p.digest k := by
  dsimp only
  have e : flushLane b p i = (endReasons ((p.setTrack i ((p.track i).flushed (keepsDisplay b i))).setExpected i [])
      (flushedLots b i)).notify i := rfl
  obtain ⟨l1, l2⟩ := endReasons_law ((p.setTrack i ((p.track i).flushed (keepsDisplay b i))).setExpected i []) (flushedLots b i)
  obtain ⟨r, hr⟩ : ∃ r, r = endReasons ((p.setTrack i ((p.track i).flushed (keepsDisplay b i))).setExpected i []) (flushedLots b i) :=
    ⟨_, rfl⟩
  rw [← hr] at l1 l2 e
  rw [e]
  have he : r.catalogue.expected = p.catalogue.expected.set i [] := by rw [l2]; rfl
  have ht : r.tracks = p.tracks.set i ((p.track i).flushed (keepsDisplay b i)) := by rw [l2]; rfl
  have hd : r.displays = p.displays := by rw [l2]; rfl
  have hdi : r.display i = p.display i := by unfold Part.display; rw [hd]
  refine ⟨?_, ?_, ?_, ?_, ?_⟩
  · revert l2; clear * -; generalize r.catalogue.known = K; intro l2; subst l2; rfl
  · intro j
    show r.catalogue.expected[j] = _
    rw [he]
    by_cases h : j = i
    · subst h; rw [if_pos rfl]; exact Vector.getElem_set_self _
    · rw [if_neg h]; exact Vector.getElem_set_ne i.isLt _ fun e => h (Fin.ext e.symm)
  · intro j
    show r.tracks[j] = _
    rw [ht]
    by_cases h : j = i
    · subst h; rw [if_pos rfl]; exact Vector.getElem_set_self _
    · rw [if_neg h]; exact Vector.getElem_set_ne i.isLt _ fun e => h (Fin.ext e.symm)
  · intro j
    show (r.displays.set i { r.display i with notified := true })[j] = _
    rw [hd, hdi]
    by_cases h : j = i
    · subst h; rw [if_pos rfl]; exact Vector.getElem_set_self _
    · rw [if_neg h]; exact Vector.getElem_set_ne i.isLt _ fun e => h (Fin.ext e.symm)
  · intro k
    exact l1 k

/-- R20, R40: the flush of several lanes, judged on `b`. -/
theorem flushLanes_fold (b : Part) (xs : List Lane) (hn : xs.Nodup) (p : Part) :
    let q := xs.foldl (flushLane b) p
    q = { p with catalogue := { p.catalogue with known := q.catalogue.known, expected := q.catalogue.expected },
                 tracks := q.tracks, displays := q.displays } ∧
      (∀ j, q.expected j = if j ∈ xs then [] else p.expected j) ∧
      (∀ j, q.track j = if j ∈ xs then (p.track j).flushed (keepsDisplay b j) else p.track j) ∧
      (∀ j, q.display j = if j ∈ xs then { p.display j with notified := true } else p.display j) ∧
      ∀ k, q.digest k = if ∃ i ∈ xs, k ∈ flushedLots b i then
          (if writeBackOutstanding p k = true then (p.digest k).map (fun d => { d with ended := true }) else none)
        else p.digest k := by
  induction xs generalizing p with
  | nil => exact ⟨rfl, fun j => by simp, fun j => by simp, fun j => by simp, fun k => by simp⟩
  | cons x xs ih =>
    rw [List.nodup_cons] at hn
    dsimp only
    rw [List.foldl_cons]
    obtain ⟨l1, l2, l3, l4, l5⟩ := flushLane_law b p x
    obtain ⟨i1, i2, i3, i4, i5⟩ := ih hn.2 (flushLane b p x)
    have ho : ∀ k, writeBackOutstanding (flushLane b p x) k = writeBackOutstanding p k := by intro k; rw [l1]; rfl
    refine ⟨?_, ?_, ?_, ?_, ?_⟩
    · generalize xs.foldl (flushLane b) (flushLane b p x) = r at *
      clear * - i1 l1
      generalize r.catalogue.known = K at *; generalize r.catalogue.expected = E at *
      generalize r.tracks = T at *; generalize r.displays = D at *
      subst i1; rw [l1]
    · intro j; rw [i2 j, l2]
      by_cases h : j = x <;> simp [h]
    · intro j; rw [i3 j, l3]
      by_cases h : j = x
      · subst h; simp [hn.1]
      · simp [h]
    · intro j; rw [i4 j, l4]
      by_cases h : j = x
      · subst h; simp [hn.1]
      · simp [h]
    · intro k; rw [i5 k, ho, l5]
      by_cases h : ∃ i ∈ xs, k ∈ flushedLots b i
      · have hc : ∃ i ∈ x :: xs, k ∈ flushedLots b i := by
          obtain ⟨i, hi, hk⟩ := h; exact ⟨i, List.mem_cons_of_mem _ hi, hk⟩
        rw [if_pos h, if_pos hc]
        by_cases hx : k ∈ flushedLots b x
        · rw [if_pos hx]
          by_cases hw : writeBackOutstanding p k = true
          · rw [if_pos hw, if_pos hw]; cases p.digest k <;> rfl
          · rw [if_neg hw, if_neg hw]
        · rw [if_neg hx]
      · rw [if_neg h]
        by_cases hx : k ∈ flushedLots b x
        · have hc : ∃ i ∈ x :: xs, k ∈ flushedLots b i := ⟨x, List.mem_cons_self .., hx⟩
          rw [if_pos hx, if_pos hc]
        · rw [if_neg hx, if_neg]
          rintro ⟨i, hi, hk⟩
          rcases List.mem_cons.1 hi with rfl | hi
          · exact hx hk
          · exact h ⟨i, hi, hk⟩

/-- R20, R40: every lane flushed. -/
theorem flushLanes_law (p : Part) :
    let q := flushLanes p
    q = { p with catalogue := { p.catalogue with known := q.catalogue.known, expected := q.catalogue.expected },
                 tracks := q.tracks, displays := q.displays } ∧
      (∀ j, q.expected j = [] ∧ q.track j = (p.track j).flushed (keepsDisplay p j) ∧
        q.display j = { p.display j with notified := true }) ∧
      ∀ lot, ((∀ i, ¬ FlushedFrom p i lot) → q.digest lot = p.digest lot) ∧
        ((∃ i, FlushedFrom p i lot) → Released p lot (p.digest lot) (q.digest lot)) := by
  obtain ⟨l1, l2, l3, l4, l5⟩ := flushLanes_fold p allLanes (by decide) p
  have hall : ∀ j : Lane, j ∈ allLanes := by decide
  refine ⟨l1, fun j => ⟨?_, ?_, ?_⟩, fun lot => ⟨fun h => ?_, fun h => ?_⟩⟩
  · exact (l2 j).trans (if_pos (hall j))
  · exact (l3 j).trans (if_pos (hall j))
  · exact (l4 j).trans (if_pos (hall j))
  · refine (l5 lot).trans (if_neg ?_)
    rintro ⟨i, _, hi⟩
    exact h i ((flushedLots_flushed p i lot).1 hi)
  · obtain ⟨i, hi⟩ := h
    have : (flushLanes p).digest lot = _ := (l5 lot).trans (if_pos ⟨i, hall i, (flushedLots_flushed p i lot).2 hi⟩)
    rw [this]
    refine ⟨fun hd => ?_, fun hd => ?_⟩
    · rw [if_pos ((writeBackOutstanding_due p lot).2 hd)]
    · rw [if_neg fun ho => hd ((writeBackOutstanding_due p lot).1 ho)]

/-- R191: DAY-CLOSE of an OPEN day, up to the judgement of the day's end. -/
theorem closeDay_flushed (p : Part) (w : PostedWrite) (hs : tableSorted p.catalogue.known) :
    ∃ r order, closeDay (anchorOnly p w) = endDayIfDue r ∧ DayFlushed p r w order := by
  obtain ⟨m, hm⟩ : ∃ m, m = markAllWithdraw (setDayResult ((anchorOnly p w).setWindow
      { (anchorOnly p w).window with dayState := .closing }) .done) := ⟨_, rfl⟩
  have hms : tableSorted m.catalogue.known := by rw [hm]; exact hs
  obtain ⟨a1, a2, order, a3, a4, a5⟩ := withdrawAll_law m hms
  obtain ⟨u, hu⟩ : ∃ u, u = withdrawAll m := ⟨_, rfl⟩
  rw [← hu] at a1 a2 a5
  obtain ⟨b1, b2, b3⟩ := flushLanes_law u
  obtain ⟨r, hr⟩ : ∃ r, r = flushLanes u := ⟨_, rfl⟩
  rw [← hr] at b1 b2 b3
  have hd : ∀ k, u.digest k = digestAtClose p k := by intro k; rw [a2 k, hm]; rfl
  have ht : ∀ j, u.track j = p.track j := by intro j; rw [a1, hm]; rfl
  have hx : ∀ j, u.expected j = p.expected j := by intro j; rw [a1, hm]; rfl
  have hl : ∀ j, u.lane j = p.lane j := by intro j; rw [a1, hm]; rfl
  have hdi : ∀ j, u.display j = p.display j := by intro j; rw [a1, hm]; rfl
  have hlive : ∀ k, u.lotState k = some .live ↔ p.lotState k = some .live := by
    intro k
    unfold Part.lotState
    rw [hd, digestAtClose]
    rcases p.digest k with _ | d
    · rfl
    · dsimp only [Option.map_some]
      split
      · rename_i h; rcases h with h | h | h | h <;> simp [h]
      · rfl
  have hkept : ∀ i y, KeptAtClose u i y ↔ KeptAtClose p i y := by
    intro i y; unfold KeptAtClose; simp only [hl, hlive]
  have hfl : ∀ i k, FlushedFrom u i k ↔ FlushedFrom p i k := by
    intro i k; unfold FlushedFrom; simp only [hx, ht, hkept]
  refine ⟨r, order, ?_, ?_, a3, ?_, ?_, ?_, ?_⟩
  · rw [hr, hu, hm]; rfl
  · have hwb : r.catalogue.writeBacks = u.catalogue.writeBacks := by rw [b1]
    have hfd : r.freeDraws = u.freeDraws := by rw [b1]
    rw [hwb, hfd, b1, a1, hm]; rfl
  · intro lot; rw [a4 lot, hm]; rfl
  · have hwb : r.catalogue.writeBacks = u.catalogue.writeBacks := by rw [b1]
    rw [hwb]; rw [hm] at a5; exact a5
  · intro lot
    obtain ⟨c1, c2⟩ := b3 lot
    rw [hd] at c1 c2
    refine ⟨fun h => c1 fun i hi => h i ((hfl i lot).1 hi), fun h => ?_⟩
    have := c2 (by obtain ⟨i, hi⟩ := h; exact ⟨i, (hfl i lot).2 hi⟩)
    have hdue := writeBackDue_congr (p := u) (q := r) (by rw [b1]) (by rw [b1]) lot
    exact ⟨fun h => this.1 (hdue.1 h), fun h => this.2 fun hx => h (hdue.2 hx)⟩
  · intro i
    obtain ⟨c1, c2, c3⟩ := b2 i
    rw [ht] at c2
    rw [hdi] at c3
    refine ⟨c1, c3, by rw [c2]; rfl, fun h => by rw [c2]; simp [TrackLane.flushed, h], fun y hy => ⟨fun hk => ?_, fun hk => ?_⟩⟩
    · have := (keepsDisplay_kept u i y).2 ((hkept i y).2 hk)
      rw [c2]; simp [TrackLane.flushed, hy, Option.filter, this]
    · have : keepsDisplay u i y = false := by
        rw [Bool.eq_false_iff]; exact fun h => hk ((hkept i y).1 ((keepsDisplay_kept u i y).1 h))
      rw [c2]; simp [TrackLane.flushed, hy, Option.filter, this]

end Sys2Proof.Machine
end

