-- ==== Sys2Proof/Laws/Service.lean ====
section
/-! SUPPORT. The service of contenders and of Ring Waiters, and the leaving of CLOSING. -/

namespace Sys2Proof.Machine

open Sys2Proof.Safety

/-- R90: a contender's service reported. -/
theorem reportService_law (p : Part) (i : Lane) (e : Contender) (pos : Nat) (oc : ReplyOutcome) (rs : PressReason) (units amount : Nat) :
    reportService p i e pos oc rs units amount = { p with press := (reportService p i e pos oc rs units amount).press } ∧
    (reportService p i e pos oc rs units amount).desk e.desk = { p.desk e.desk with reply :=
      { count := (p.desk e.desk).reply.count + 1, lastAccepted := (p.desk e.desk).lastSequence.getD 0, reported := e.sequence, outcome := oc,
        reason := rs, lane := i.val, lot := lotOrNone (p.lane i).live, units := units, position := pos, price := (p.lane i).price,
        amount := amount, credit := (p.buyer e.buyer).available } } ∧
    (∀ k, k ≠ e.desk → (reportService p i e pos oc rs units amount).desk k = p.desk k) ∧
    (reportService p i e pos oc rs units amount).press = ({ p.press with desks := (reportService p i e pos oc rs units amount).press.desks } : PressUnit).counted oc := by
  refine ⟨rfl, ?_, ?_, ?_⟩
  · unfold reportService reportToDesk
    cases oc <;> (show (Part.setDesk _ _ _).desk _ = _; rw [desk_setDesk_same]; rfl)
  · intro k hk
    unfold reportService reportToDesk
    cases oc <;> (show (Part.setDesk _ _ _).desk _ = _; rw [desk_setDesk_other _ _ _ _ hk])
  · cases oc <;> rfl

/-- R90: a service is a report, after a purchase or none. -/
theorem serveContender_cases (p : Part) (i : Lane) (n : Nat) (e : Contender) :
    ∃ q oc rs u a, serveContender p i n e = reportService q i e n oc rs u a ∧ (q = p ∨ ∃ c, q = makePurchase p i c) := by
  unfold serveContender
  cases liveLot p i with
  | none => exact ⟨_, _, _, _, _, rfl, .inl rfl⟩
  | some x =>
    obtain ⟨lot, h, o⟩ := x
    dsimp only
    by_cases h1 : o.remaining = 0
    · rw [if_pos h1]; exact ⟨_, _, _, _, _, rfl, .inl rfl⟩
    · rw [if_neg h1]
      by_cases h2 : (!buyerMayBuy p e.buyer i) = true
      · rw [if_pos h2]; exact ⟨_, _, _, _, _, rfl, .inl rfl⟩
      · rw [if_neg h2]
        cases judgeClaim (claimRequest p i h o e.units) (p.buyer e.buyer) (freeCount p) with
        | refused r u => exact ⟨_, _, _, _, _, rfl, .inl rfl⟩
        | granted u a => exact ⟨_, _, _, _, _, rfl, .inr ⟨_, rfl⟩⟩

/-- R90: the services change of their lane only its slots. -/
theorem serveContenders_lane (p : Part) (i : Lane) (n : Nat) (es : List Contender) :
    (∃ r, (serveContenders i n es p).lane i = { p.lane i with roundReserved := r }) := by
  induction es generalizing p n with
  | nil => exact ⟨_, rfl⟩
  | cons e es ih =>
    obtain ⟨r, hr⟩ := ih (serveContender p i n e) (n + 1)
    have : ∃ r, (serveContender p i n e).lane i = { p.lane i with roundReserved := r } := by
      obtain ⟨q, oc, rs, u, a, hs, hq⟩ := serveContender_cases p i n e
      have hln : (serveContender p i n e).lane i = q.lane i := by rw [hs, (reportService_law q i e n oc rs u a).1]; rfl
      rw [hln]
      rcases hq with rfl | ⟨c, rfl⟩
      · exact ⟨_, rfl⟩
      · exact ⟨_, (makePurchase_purchased p i c).2.2.2.2.2.2.2.1⟩
    obtain ⟨r', hr'⟩ := this
    exact ⟨r, by show (serveContenders i (n+1) es _).lane i = _; rw [hr, hr']⟩

/-- A change of a lane that keeps its return state keeps every return state. -/
theorem modLane_ret (p : Part) (i j : Lane) (f : LaneUnit → LaneUnit) (h : ∀ l, (f l).ret = l.ret) : ((modLane p i f).lane j).ret = (p.lane j).ret := by
  by_cases hj : j = i
  · subst hj; rw [show (modLane p j f).lane j = f (p.lane j) from Vector.getElem_set_self _]; exact h _
  · rw [show (modLane p i f).lane j = p.lane j from Vector.getElem_set_ne i.isLt _ (fun e => hj (Fin.ext e.symm))]

/-- R48: a lot put up keeps every return state. -/
theorem putUp_ret (p : Part) (i j : Lane) (lot : Nat) : ((putUp p i lot).lane j).ret = (p.lane j).ret := by
  have : (putUp p i lot).lanes = (modLane p i fun l =>
    { l with live := some lot, price := (match p.host lot with | some h => h.startPrice | none => 0), nextPrice := (match p.host lot with | some h => h.startPrice | none => 0), round := 0, timer := preRollTimer l, state := .primed,
             closeReserved := true }).lanes := by
    unfold putUp Part.updateOwned; simp only []; rw [updateDigest_eq]; rfl
  unfold Part.lane; rw [this]
  exact modLane_ret p i j _ (fun _ => rfl)

/-- The needs of the Ring Waiters fit their return states. -/
def WaitersFit (p : Part) : Prop := ∀ w ∈ p.ring.waiters, (w.need = 1 ∧ (p.lane w.lane).ret = .idle) ∨ (w.need = 5 ∧ (p.lane w.lane).ret ≠ .idle)

/-- R64: a waiter's service in the words of the statements. -/
theorem serveLane_eq (p : Part) (w : Waiter) (rest : List Waiter) : serveLane (p.setRing { p.ring with waiters := rest }) w = leaveHeldIfFree (servedOne p w rest) w.lane := rfl

/-- R65: a lane served does not join the Ring Waiters again. -/
theorem serveLane_fit (p : Part) (w : Waiter) (rest : List Waiter) (hw : p.ring.waiters = w :: rest) (h : WaitersFit p) :
   (leaveHeldIfFree (servedOne p w rest) w.lane).ring.waiters = rest ∧ WaitersFit (leaveHeldIfFree (servedOne p w rest) w.lane) := by
  have hfit := h w (by rw [hw]; simp)
  have hl : (servedOne p w rest).lane w.lane = { p.lane w.lane with holds := { (p.lane w.lane).holds with ring := false }, closeReserved := (p.lane w.lane).closeReserved || decide (w.need = 1), roundReserved := if w.need = 1 then (p.lane w.lane).roundReserved else w.need } := Vector.getElem_set_self _
  have hr1 : ∀ j, ((servedOne p w rest).lane j).ret = (p.lane j).ret := by
    intro j
    exact modLane_ret (p.setRing { p.ring with waiters := rest }) w.lane j (fun l =>
      { l with holds := { l.holds with ring := false }, closeReserved := l.closeReserved || decide (w.need = 1),
               roundReserved := if w.need = 1 then l.roundReserved else w.need }) (fun _ => rfl)
  have key : (leaveHeldIfFree (servedOne p w rest) w.lane).ring = (servedOne p w rest).ring ∧ ∀ j, ((leaveHeldIfFree (servedOne p w rest) w.lane).lane j).ret = (p.lane j).ret := by
    unfold leaveHeldIfFree
    split
    · unfold leaveHeld
      simp only []
      rcases hfit with ⟨hn, hi⟩ | ⟨hn, hi⟩
      · have : ((servedOne p w rest).lane w.lane).ret = .idle := by rw [hr1]; exact hi
        rw [this]; simp only []
        have : ((servedOne p w rest).lane w.lane).closeReserved = true := by rw [hl]; simp [hn]
        rw [this]; simp only [if_true]
        unfold lookWithSlot; simp only []
        split
        · refine ⟨by simp [putUp, modLane], ?_⟩
          intro j; rw [putUp_ret, modLane_ret, hr1]; intro _; rfl
        · refine ⟨by simp [modLane], ?_⟩
          intro j
          refine (modLane_ret _ _ j (fun l => { l with closeReserved := false }) ?_).trans ?_
          · intro _; rfl
          · rw [modLane_ret, hr1]; intro _; rfl
      · have hrr : ((servedOne p w rest).lane w.lane).roundReserved ≠ 0 := by rw [hl]; simp [hn]
        rcases hret : ((servedOne p w rest).lane w.lane).ret
        · rw [hr1] at hret; exact absurd hret hi
        all_goals
          simp only []
          rw [if_pos hrr]; unfold enterRunning; rw [if_pos (.inl hrr)]
          refine ⟨rfl, ?_⟩
          intro j; rw [modLane_ret, hr1]; intro _; rfl
    · exact ⟨rfl, hr1⟩
  refine ⟨by rw [key.1]; rfl, ?_⟩
  intro x hx
  have hx : x ∈ rest := by rw [key.1] at hx; exact hx
  rw [key.2]
  exact h x (by rw [hw]; simp [hx])

/-- R122: the service of the Ring Waiters, head first to its end. -/
theorem serveWaiters_inOrder (n : Nat) : ∀ p : Part, p.ring.waiters.length = n → WaitersFit p → ServedInOrder p (serveWaiters n p) := by
  induction n with
  | zero => intro p h _; exact .empty p (List.length_eq_zero_iff.1 h)
  | succ n ih =>
    intro p h hf
    unfold serveWaiters
    rcases hw : p.ring.waiters with _ | ⟨w, rest⟩
    · rw [hw] at h; simp at h
    · simp only []
      by_cases hn : w.need ≤ freeCount p
      · rw [if_pos hn, serveLane_eq]
        obtain ⟨h1, h2⟩ := serveLane_fit p w rest hw hf
        refine .serve p _ w rest hw hn (ih _ ?_ h2)
        rw [h1]; rw [hw] at h; simpa using h
      · rw [if_neg hn]; exact .stop p w rest hw (by omega)

/-- R141: a lane that was not told of a change keeps its map. -/
theorem rebuildNotified_display (p : Part) (i : Lane) (h : (p.display i).notified = false) : (rebuildNotified p).display i = p.display i := by
  unfold rebuildNotified
  have : ∀ (xs : List Lane) (q : Part), q.display i = p.display i → (xs.foldl rebuildIfNotified q).display i = p.display i := by
    intro xs
    induction xs with
    | nil => intro q hq; exact hq
    | cons a xs ih =>
      intro q hq
      rw [List.foldl_cons]
      apply ih
      by_cases ha : a = i
      · subst ha; rw [rebuildIfNotified_quiet _ _ (by rw [hq]; exact h)]; exact hq
      · rw [rebuildIfNotified_other _ _ _ ha]; exact hq
  exact this allLanes p rfl

/-- R139 to R142: what a rebuild makes of a lane's map. -/
theorem rebuildMap_rebuilt (p : Part) (i : Lane) : MapRebuilt p i ((rebuildMap p i).display i) := by
  have hc : comingLots p i = lotsComing p i := by
    unfold comingLots lotsComing displayOrder
    simp only [List.flatMap]
    congr 1
    funext lot
    rw [Bool.eq_iff_iff]; simp [and_assoc]
  have e : (rebuildMap p i).display i = _ := Part.setDisplay_display_same _ _ _
  rw [e, hc]
  refine ⟨rfl, rfl, rfl, ?_, ?_, rfl⟩
  · rintro ⟨h1, h2, h3⟩
    exact if_pos (by simp only [Bool.and_eq_true, beq_iff_eq]; exact ⟨⟨h1, h2⟩, h3⟩)
  · intro h
    refine if_neg ?_
    simp only [Bool.and_eq_true, beq_iff_eq]
    rintro ⟨⟨h1, h2⟩, h3⟩
    rcases h with h | h | h
    · exact h h1
    · exact h h2
    · exact h h3

/-- R139: a rebuild of a lane's map rests on that lane's display state alone of the displays. -/
theorem rebuildMap_local (p q : Part) (i : Lane) (h : q = { p with displays := q.displays }) (hi : q.display i = p.display i) :
    (rebuildMap q i).display i = (rebuildMap p i).display i := by
  have hc : comingLots q i = comingLots p i := by rw [h]; rfl
  have hm : mapSlot q = mapSlot p := by rw [h]; rfl
  have hl : q.lane i = p.lane i := by rw [h]; rfl
  unfold rebuildMap
  rw [hc, hm, hl, hi, Part.setDisplay_display_same, Part.setDisplay_display_same]

/-- R141: a lane that was told of a change has its map rebuilt, once. -/
theorem rebuildNotified_rebuilt (p : Part) (i : Lane) (h : (p.display i).notified = true) :
    MapRebuilt p i ((rebuildNotified p).display i) := by
  suffices hs : (rebuildNotified p).display i = (rebuildMap p i).display i by rw [hs]; exact rebuildMap_rebuilt p i
  have after : ∀ (xs : List Lane) (q : Part), (q.display i).notified = false →
      (xs.foldl rebuildIfNotified q).display i = q.display i := by
    intro xs
    induction xs with
    | nil => intro q _; rfl
    | cons a xs ih =>
      intro q hq
      have : (rebuildIfNotified q a).display i = q.display i := by
        by_cases ha : a = i
        · subst ha; rw [rebuildIfNotified_quiet _ _ hq]
        · exact rebuildIfNotified_other _ _ _ ha
      rw [List.foldl_cons, ih _ (by rw [this]; exact hq), this]
  have all : ∀ (xs : List Lane) (q : Part), i ∈ xs → q = { p with displays := q.displays } → q.display i = p.display i →
      (xs.foldl rebuildIfNotified q).display i = (rebuildMap p i).display i := by
    intro xs
    induction xs with
    | nil => intro q hx; cases hx
    | cons a xs ih =>
      intro q hx hf hi
      rw [List.foldl_cons]
      by_cases ha : a = i
      · subst ha
        rw [after xs _ (rebuildIfNotified_same q a)]
        have : rebuildIfNotified q a = rebuildMap q a := by unfold rebuildIfNotified; rw [hi, if_pos h]
        rw [this, rebuildMap_local p q a hf hi]
      · refine ih _ ?_ ?_ ?_
        · rcases List.mem_cons.1 hx with hx | hx
          · exact absurd hx.symm ha
          · exact hx
        · rw [hf]; unfold rebuildIfNotified; split <;> rfl
        · rw [rebuildIfNotified_other _ _ _ ha, hi]
  exact all allLanes p ((by decide : ∀ j : Lane, j ∈ allLanes) i) rfl rfl

/-- R58: the lane leaves CLOSING. -/
theorem leaveClosing_leaves (b : Part) (i : Lane) : LeavesClosing b (leaveClosing b i) i := by
  have hl : ((modLane b i LaneUnit.clearLive).notify i).lane i = (b.lane i).clearLive := by
    show (modLane _ _ _).lane i = _
    simp [modLane]
  have hTold : Told b ((modLane b i LaneUnit.clearLive).notify i) i := by
    refine ⟨Vector.getElem_set_self _, ?_⟩
    intro j hj; exact Vector.getElem_set_ne i.isLt _ (fun e => hj (Fin.ext e.symm))
  have hother : ∀ j, j ≠ i → ((modLane b i LaneUnit.clearLive).notify i).lane j = b.lane j := by
    intro j hj; exact Vector.getElem_set_ne i.isLt _ (fun e => hj (Fin.ext e.symm))
  unfold leaveClosing; simp only []
  obtain ⟨q, hq⟩ : ∃ q, q = (modLane b i LaneUnit.clearLive).notify i := ⟨_, rfl⟩
  rw [← hq] at hl hTold hother ⊢
  have hf : q = { b with lanes := q.lanes, displays := q.displays } := by rw [hq]; rfl
  by_cases hh : (b.lane i).holds.union (b.lane i).pendingHolds = HoldSet.none
  · have : (q.lane i).holds.isEmpty = true := by rw [hl, HoldSet.isEmpty_iff]; exact hh
    rw [if_pos this]
    refine ⟨q, hf, hTold, fun h => absurd hh h, fun _ => ⟨⟨hl, hother⟩, rfl⟩⟩
  · have : (q.lane i).holds.isEmpty = false := by rw [Bool.eq_false_iff]; intro hx; rw [hl, HoldSet.isEmpty_iff] at hx; exact hh hx
    rw [this]; simp only [Bool.false_eq_true, if_false]
    refine ⟨_, ?_, ?_, fun _ => ⟨⟨?_, ?_⟩, rfl⟩, fun h => absurd h hh⟩
    · rw [hf]; rfl
    · exact hTold
    · refine (Vector.getElem_set_self _).trans ?_
      rw [hl]; rfl
    · intro j hj; exact (Vector.getElem_set_ne i.isLt _ (fun e => hj (Fin.ext e.symm))).trans (hother j hj)

/-- R58: the lane whose lot a close write-back carried. -/
theorem closingLane_iff (p : Part) (lot : Nat) :
   ((∀ i, ¬ ((p.lane i).live = some lot ∧ (p.lane i).state = .closing)) → closingLane p lot = none) ∧
   (∀ i, (p.lane i).live = some lot → (p.lane i).state = .closing → (∀ j, j < i → ¬ ((p.lane j).live = some lot ∧ (p.lane j).state = .closing)) → closingLane p lot = some i) := by
  unfold closingLane
  refine ⟨?_, ?_⟩
  · intro h; rw [List.find?_eq_none]; intro x _ hx; simp at hx; exact h x hx
  · intro i h1 h2 h3
    rw [List.find?_eq_some_iff_append]
    refine ⟨by simp [h1, h2], (allLanes).take i.val, allLanes.drop (i.val+1), ?_, ?_⟩
    · fin_cases i <;> rfl
    · intro a ha
      have : a < i := by
        revert ha; fin_cases i <;> fin_cases a <;> decide
      have := h3 a this
      rw [Bool.not_eq_true', Bool.eq_false_iff]; intro hx; simp at hx; exact this hx

end Sys2Proof.Machine
end

