-- ==== Sys2Proof/Tests/Slice0.lean ====
section
/-! SUPPORT. The model's own tests: the form check of the Floor Bus with ill-formed terms, one small step for most commands, and for
every statement that has hypotheses a state and operands that meet them. -/

namespace Sys2Proof.Tests

open Sys2Proof.Machine Sys2Proof.Safety

set_option Elab.async false

/-! ### A small hall -/

/-- A window of a kind, open to every privilege. -/
def entry (kind : WindowKind) (base pages limit : Nat) : WindowEntry :=
  { valid := true, kind := kind, base := base, pages := pages, readLevel := 3, writeLevel := 3, recordLimit := limit }

/-- A master of a role. -/
def masterOf (role : Role) : MasterEntry :=
  { role := role, privilege := 1, grantClass := .normal, firstDesk := 0, deskCount := if role = .desk then 512 else 0,
    laneMask := if role = .track ∨ role = .display then 63 else 0 }

/-- The Window Unit of the hall: every kind of window, a desk, a track and a display master, the day OPEN. -/
def hallWindows : WindowUnit :=
  { WindowUnit.afterReset 0 with
    cache := #v[WindowEntry.anchor 0, entry .lot 0x100000 256 8192, entry .buyer 0x200000 32 2048, entry .desk 0x220000 1 512,
      entry .press 0x230000 12 0, entry .reply 0x240000 4 0, entry .track 0x250000 1 0, entry .display 0x300000 192 0,
      entry .ring 0x400000 64 0, entry .guard 0x500000 1 0, .afterReset, .afterReset, .afterReset, .afterReset, .afterReset,
      .afterReset],
    masters := #v[.zero, masterOf .desk, masterOf .track, masterOf .display, .afterReset, .afterReset, .afterReset, .afterReset],
    dayState := .opened, dayNumber := 1 }

/-- The page list with page 0 at an address. -/
def pagesAt (a : BitVec 64) : Vector (BitVec 64) 8 := #v[a, 0, 0, 0, 0, 0, 0, 0]

/-- Host fields of a lot of lane 0: 10 units of 2 pieces, from 100 down to 20. -/
def hostFields : HostFields :=
  { lane := 0, position := 1, request := 1, sequence := 5, tag := 9, units := 10, pieces := 2, startPrice := 100, floorPrice := 20,
    step := 5, minimum := 2, bump := 0, grower := 77, product := 88, pages := pagesAt 0x600000 }

/-- A digest of a placed lot in a state, with units remaining and sold. -/
def placed (state : LotState) (remaining sold : Nat) : Digest :=
  { owned := { Owned.atListing with state := state, remaining := remaining, sold := sold }, host := some hostFields,
    address := 0x100380, ended := false }

/-- The hall at rest: the day OPEN with its closing mark reserved, a ring of 4,096 slots, buyer 3 ACTIVE with credit, desk 4 its. -/
def hall : Part :=
  { State.reset.part with
    window := hallWindows,
    ring := { RingUnit.afterReset with geometry := some { base := 0x400000, capacity := 4096 }, closingMark := true },
    account := { AccountUnit.afterReset with
      buyers := [(3, { BuyerEntry.afterReset with external := 1234, status := .active, laneMask := 63, limit := 10000 })] },
    press := { PressUnit.afterReset with desks := [(4, { DeskEntry.afterReset with buyer := 3 })] } }

/-- A part with the digest of lot 7 set. -/
def withLot (d : Digest) (p : Part) : Part := { p with catalogue := { p.catalogue with known := [(7, d)] } }

/-- A part with lane 0 changed. -/
def lane0 (f : LaneUnit → LaneUnit) (p : Part) : Part := p.setLane 0 (f (p.lane 0))

/-- A lane with lot 7 on its clock, in a state. -/
def onClock (state : LaneState) (l : LaneUnit) : LaneUnit :=
  { l with state := state, live := some 7, price := 50, nextPrice := 50, round := 1, closeReserved := true, roundReserved := 5,
           enabled := true }

/-- The hall with lot 7 live in lane 0, the lane in a state. -/
def selling (state : LaneState) : Part := lane0 (onClock state) (withLot (placed .live 10 0) hall)

/-- The write that a master presents, as the Floor Port accepts it. -/
def accepted (p : Part) (m : Master) (address : Address) (beats : List WriteBeat) : PostedWrite :=
  { master := m, address := address, beats := beats,
    cls := classify p m .write address beats.length (enabledBytes address.toNat beats) }

/-- The part with a write at the head of its buffer. -/
def withHead (p : Part) (w : PostedWrite) : Part := { p with floor := { p.floor with buffer := [w] } }

/-- One beat. -/
def beat (data : Nat) (mask : BitVec 8) : WriteBeat := { data := BitVec.ofNat 64 data, mask := mask }

/-- The control processor's write of the Anchor at an offset. -/
def anchorWrite (p : Part) (offset : Nat) (beats : List WriteBeat) : PostedWrite :=
  accepted p 0 (BitVec.ofNat 36 (0x3FFF0000 + offset)) beats

/-- A desk concentrator's press: a lane, a desk, a sequence and units. -/
def pressWrite (p : Part) (lane desk sequence units : Nat) : PostedWrite :=
  accepted p 1 (BitVec.ofNat 36 (0x230000 + lane * 8192 + desk * 16)) [beat (sequence + units * 65536) 0x0F]

/-- A track controller's pass: a lane, a station and a tag. -/
def passWrite (p : Part) (lane station tag : Nat) : PostedWrite :=
  accepted p 2 (BitVec.ofNat 36 (0x250000 + lane * 64 + station * 16)) [beat tag 0x0F]

/-- The read that a master presents, as the Floor Port holds it. -/
def reading (p : Part) (m : Master) (address : Address) (n : Nat) : ReadInProgress :=
  { master := m, address := address, beatCount := n, cls := classify p m .read address n [], forwarded := false }

/-- The part with a read that holds the bus. -/
def withRead (p : Part) (r : ReadInProgress) : Part := { p with floor := { p.floor with grant := some r.master, read := some r } }

/-- The part with a transaction in flight. -/
def flying (p : Part) (t : Transaction) (n : Nat) : Part :=
  { p with store := { p.store with inFlight := some { transaction := t, retries := n } } }

/-- One step of a part with one command waiting, seen through a test. -/
def after (p : Part) (c : Instr) (f : Part → Bool) : Bool :=
  match step { part := p, pending := [c] } with
  | .next t => f t.part
  | _ => false

/-- The hypothesis of every taking of a write, as a test. -/
theorem headTakeable_iff (p : Part) (w : PostedWrite) : HeadTakeable p w ↔ takeableWrite p = some w := by
  refine ⟨takeableWrite_of p w, fun h => ?_⟩
  unfold takeableWrite at h
  cases hb : p.floor.buffer with
  | nil => simp [hb] at h
  | cons x rest =>
    rw [hb] at h
    simp only at h
    split at h
    · exact absurd h (by simp)
    · rename_i hc
      obtain rfl : x = w := by simpa using h
      simp only [Bool.or_eq_true, Bool.and_eq_true, not_or, not_and, Bool.not_eq_true, Option.isSome_eq_false_iff,
        Option.isNone_iff_eq_none] at hc
      refine ⟨⟨rest, hb⟩, ?_, hc.2⟩
      have := hc.1
      unfold takingPaused Config.fullQueue at this
      simpa using this

/-- A part whose head is a press. -/
def pressing (p : Part) (lane desk sequence units : Nat) : Part := withHead p (pressWrite p lane desk sequence units)

/-- A part whose head is a pass. -/
def passing (p : Part) (lane station tag : Nat) : Part := withHead p (passWrite p lane station tag)

/-- A part whose head is an Anchor write. -/
def setting (p : Part) (offset : Nat) (beats : List WriteBeat) : Part := withHead p (anchorWrite p offset beats)

/-- The press that the tests send: lane 0, desk 4, sequence 1. -/
def sent (desk units : Nat) : PressIn := { lane := 0, desk := desk, sequence := 1, units := units }

/-- The hall with lane 0's track changed. -/
def tracked (f : TrackLane → TrackLane) (p : Part) : Part := p.setTrack 0 (f (p.track 0))

/-- Lot 7's trolley. -/
def trolley : Trolley := { tag := 9, lots := [7] }

/-- A part with the queue of lane 0. -/
def queued (lots : List Nat) (p : Part) : Part := p.setExpected 0 lots

/-- The ring of a part with no free slot: its occupied records fill it. -/
def ringFull (p : Part) : Part := { p with ring := { p.ring with assigned := 4095 } }

/-- A control write of a record window. -/
def recordWrite (p : Part) (address : Address) (beats : List WriteBeat) : PostedWrite := accepted p 0 address beats

/-- The LOT write of lot 7's request byte. -/
def request (p : Part) (value : Nat) : PostedWrite := recordWrite p 0x100380 [beat (value * 65536) 0x04]

/-- The lane command word of lane 0. -/
def commanding (p : Part) (command disposition : Nat) : Part := setting p 0x800 [beat (command + disposition * 256) 0x03]

/-- The write that a part holds at its head. -/
def head (p : Part) : PostedWrite := p.floor.buffer.headD (accepted p 0 0 [])

/-! ### The form of a transaction (R150), with ill-formed terms -/

/-- The form check refuses no beats, nine beats and a misaligned address, of writes and of reads, and takes one beat and eight. -/
theorem test_wellFormed_refuses :
    (Instr.floorBusWrite 0x40 []).wellFormed = false ∧ (Instr.floorBusWrite 0x40 (List.replicate 9 (beat 0 0))).wellFormed = false ∧
    (Instr.floorBusWrite 0x44 [beat 0 0]).wellFormed = false ∧ (Instr.floorBusRead 0x40 0).wellFormed = false ∧
    (Instr.floorBusRead 0x40 9).wellFormed = false ∧ (Instr.floorBusRead 0x41 1).wellFormed = false ∧
    (Instr.floorBusWrite 0x40 (List.replicate 8 (beat 0 0))).wellFormed = true ∧ (Instr.floorBusRead 0x40 1).wellFormed = true := by decide +kernel

/-- The model stops on an ill-formed term (log 3). -/
theorem test_illFormed_stops :
    step { part := hall, pending := [.floorBusRead 0x41 1] } = .fault .notATransaction ∧
    step { part := hall, pending := [.floorBusWrite 0x40 []] } = .fault .notATransaction := ⟨rfl, rfl⟩

/-- A block decodes no word. -/
theorem test_decodes_nothing : decodeTableWord 32 0 = none := rfl

/-! ### Hypotheses: the machine, its resets and its pins -/

theorem test_hyp_StepTakesFrontCommand :
    (State.mk hall [.hallTick, .press]).pending = Instr.hallTick :: [.press] := rfl

theorem test_hyp_WellFormedCommandsComplete :
    (Instr.floorBusRead 0x40 8).wellFormed = true ∧ transactionForm 0x40 0 = false ∧ transactionForm 0x44 1 = false ∧
    transactionForm 0x40 9 = false := by decide +kernel

theorem test_hyp_Resets :
    (∃ pins, Instr.powerOn State.resetPins = .powerOn pins) ∧ ∃ pins, Instr.resetn State.resetPins = .resetn pins :=
  ⟨⟨_, rfl⟩, ⟨_, rfl⟩⟩

/-- A read of the display engine in the forward path. -/
def displayRead : ForwardedRead := { master := 3, window := some 7, address := 0x600000, beatCount := 8, merge := none }

theorem test_hyp_FloorBusResetFreesTheBus :
    (flying hall (.forwardRead displayRead false) 63).store.inFlight =
      some { transaction := .forwardRead displayRead false, retries := 63 } ∧
    hall.store.inFlight = none ∧ { hall.floor with fbResetLow := true }.fbResetLow = true ∧ hall.floor.grant = none ∧
    transactionForm 0x40 ([beat 0 0]).length = true ∧ transactionForm 0x40 8 = true := by decide +kernel

theorem test_hyp_HallTickCounts :
    (hall.lane 0).timer = .stopped ∧
    ((lane0 (fun l => { l with timer := .counting .step 0 }) hall).lane 0).timer = .counting .step 0 ∧
    ((lane0 (fun l => { l with timer := .counting .preRoll 4095 }) hall).lane 0).timer = .counting .preRoll 4095 := by decide +kernel

/-- The hall with lane 0's stop mode and input level. -/
def stopped (mode : StopMode) (level : Bool) : Part :=
  lane0 (fun l => { l with params := { l.params with stopMode := mode }, stopLevel := level }) hall

theorem test_hyp_StopInputActsByMode :
    QuietPart hall ∧ hall.ring.waiters = [] ∧ false = (hall.lane 5).stopLevel ∧
    (∀ mode ∈ [StopMode.falling, .both, .levelLow], false ≠ ((stopped mode true).lane 0).stopLevel ∧
      stopChangeActs ((stopped mode true).lane 0).params.stopMode false) ∧
    (∀ mode ∈ [StopMode.rising, .both, .levelHigh], true ≠ ((stopped mode false).lane 0).stopLevel ∧
      stopChangeActs ((stopped mode false).lane 0).params.stopMode true) ∧
    (∀ mode ∈ [StopMode.falling, .levelLow], true ≠ ((stopped mode false).lane 0).stopLevel ∧
      ¬ stopChangeActs ((stopped mode false).lane 0).params.stopMode true) ∧
    (∀ mode ∈ [StopMode.rising, .levelHigh], false ≠ ((stopped mode true).lane 0).stopLevel ∧
      ¬ stopChangeActs ((stopped mode true).lane 0).params.stopMode false) := by
  simp only [QuietPart, stopChangeActs]
  decide +kernel

/-! ### Hypotheses: the Floor Bus -/

theorem test_hyp_ArbiterGrantsByClassAndTurn :
    ({ hall.floor with grant := some 3 } : FloorPort).grant ≠ none ∧ hall.floor.grant = none ∧ hall.floor.fbResetLow = false ∧
    ({ hall.floor with streak := 4 } : FloorPort).streak = 4 ∧ ({ hall.floor with streak := 3 } : FloorPort).streak ≠ 4 ∧
    Requested hall 0x83 .normal ∧ ¬ Requested hall 0x01 .normal ∧ ¬ Requested hall 0x82 .high ∧ ¬ Requested hall 0 .high ∧
    ¬ Requested hall 0 .normal := by
  simp only [Requested]
  decide +kernel

/-- The next master, counting upward, round from 7 to 0, and the last granted last. -/
theorem test_hyp_ArbiterGrants_next :
    NextOf hall 0x83 .normal 0 1 ∧ NextOf hall 0x83 .normal 1 7 ∧ NextOf hall 0x82 .normal 7 1 ∧ NextOf hall 0x02 .normal 1 1 ∧
    NextOf hall 0x83 .high 0 0 ∧ NextOf hall 0x01 .high 0 0 := by
  simp only [NextOf]
  decide +kernel

/-- Master 1 granted, with writes in the buffer. -/
def granted (n : Nat) : FloorPort :=
  { hall.floor with grant := some 1, buffer := List.replicate n (pressWrite hall 0 4 1 3) }

theorem test_hyp_TransactionIsAcceptedTurnedAwayOrHoldsTheBus :
    transactionForm 0x230040 ([beat 0 0x0F]).length = true ∧ transactionForm 0x230040 8 = true ∧
    (withRead hall (reading hall 3 0x300000 8)).floor.read ≠ none ∧ hall.floor.grant = none ∧
    (granted 7).grant = some 1 ∧ (granted 7).fbResetLow = false ∧ (granted 7).read = none ∧ (granted 7).buffer.length < 8 ∧
    8 ≤ (granted 8).buffer.length := by decide +kernel

/-- The write that a plain master tries on a LOT record, a press without its four bytes, and a write past a record limit. -/
def lowLimit : Part := { hall with window := { hall.window with cache := hall.window.cache.set 1 (entry .lot 0x100000 256 8) } }
def badWrites : List PostedWrite :=
  [accepted hall 4 0x100380 [beat 0 1], accepted hall 1 0x230040 [beat 0 3], accepted lowLimit 0 0x100400 [beat 0 1]]

theorem test_hyp_FailedAccessIsDroppedAndCaptured :
    badWrites.map (fun w => w.cls.check) = [.rights, .format, .limit] ∧
    (∀ w ∈ badWrites, QuietPart (withHead hall w) ∧ HeadTakeable (withHead hall w) w ∧ w.cls.check ≠ .pass) ∧
    QuietPart (withRead hall (reading hall 4 0x300000 8)) ∧
    ReadTakeable (withRead hall (reading hall 4 0x230000 1)) (reading hall 4 0x230000 1) ∧
    (reading hall 4 0x230000 1).cls.check ≠ .pass := by
  simp only [QuietPart, ReadTakeable, headTakeable_iff]
  decide +kernel

/-! ### Hypotheses: forwarded writes -/

/-- Writes of no window and of a GUARD window, of a LOT record without a request, and over its owned bytes. -/
def plainWrites : List PostedWrite := [accepted hall 4 0x700000 [beat 5 0xFF], accepted hall 4 0x500000 [beat 5 0xFF]]
def unitsWrite : PostedWrite := recordWrite hall 0x100388 [beat 5 0x30]
def ownedWrite : PostedWrite := recordWrite hall 0x1003E8 [beat 5 0x01]

theorem test_hyp_PlainWritesAreForwarded :
    (∀ w ∈ plainWrites, QuietPart (withHead hall w) ∧ HeadTakeable (withHead hall w) w ∧ w.cls.check = .pass ∧
      (w.cls.kind = none ∨ w.cls.kind = some .guard)) ∧
    (let p := withLot (placed .expected 10 0) hall
     ∀ w ∈ [unitsWrite, ownedWrite], QuietPart (withHead p w) ∧ HeadTakeable (withHead p w) w ∧ w.cls.check = .pass ∧
      w.cls.kind = some .lot ∧ lotRequest w = .none) ∧
    lotOwned (withLot (placed .expected 10 0) hall) ownedWrite = true ∧
    lotOwned (withLot (placed .expected 10 0) hall) unitsWrite = false := by
  simp only [QuietPart, headTakeable_iff]
  decide +kernel

/-- A Listing Queue of a length. -/
def listed (n : Nat) (p : Part) : Part :=
  { p with catalogue := { p.catalogue with listing := List.replicate n { lot := 8, withdrawPending := false } } }

/-- A write of lot 7's request byte that also covers its first owned byte. No access within one line does, so no accepted write that
passes its checks looks so. -/
def ownedRequest (p : Part) (value : Nat) : PostedWrite :=
  { request p value with beats := [beat (value * 65536) 0x04] ++ List.replicate 12 (beat 0 0) ++ [beat 0 0x01] }

theorem test_hyp_Requests_owned :
    ∀ x ∈ [(1, LotRequest.list), (2, .withdraw)],
      let p := withLot (placed .expected 10 0) hall
      let w := ownedRequest p x.1
      QuietPart (withHead p w) ∧ HeadTakeable (withHead p w) w ∧ w.cls.check = .pass ∧ w.cls.kind = some .lot ∧ lotRequest w = x.2 ∧
      lotOwned (withHead p w) w = true := by
  simp only [QuietPart, headTakeable_iff]
  decide +kernel

theorem test_hyp_ListRequestJoinsOrIsRefused :
    (∀ p ∈ [listed 7 hall, listed 8 hall, withLot (placed .closed 0 10) hall],
      QuietPart (withHead p (request p 1)) ∧ HeadTakeable (withHead p (request p 1)) (request p 1) ∧
      (request p 1).cls.check = .pass ∧ (request p 1).cls.kind = some .lot ∧ lotRequest (request p 1) = .list ∧
      lotOwned (withHead p (request p 1)) (request p 1) = false) ∧
    (withLot (placed .closed 0 10) hall).known (request hall 1).record = true ∧
    (listed 7 hall).known (request hall 1).record = false ∧ (listed 7 hall).catalogue.listing.length < 8 ∧
    (listed 8 hall).known (request hall 1).record = false ∧ 8 ≤ (listed 8 hall).catalogue.listing.length := by
  simp only [QuietPart, headTakeable_iff]
  decide +kernel

theorem test_hyp_WithdrawRequestActsByLotState :
    (∀ state ∈ [LotState.listing, .expected, .late, .staged, .atClock, .live, .closed, .withdrawn, .refused],
      let p := withLot (placed state 10 0) hall
      QuietPart (withHead p (request p 2)) ∧ HeadTakeable (withHead p (request p 2)) (request p 2) ∧
      (request p 2).cls.check = .pass ∧ (request p 2).cls.kind = some .lot ∧ lotRequest (request p 2) = .withdraw ∧
      lotOwned (withHead p (request p 2)) (request p 2) = false ∧ (request p 2).record = 7 ∧ p.lotState 7 = some state) ∧
    (∀ state ∈ [LotState.expected, .late, .staged, .atClock],
      (withLot (placed state 10 0) hall).digest 7 = some (placed state 10 0) ∧ (placed state 10 0).owned.state.notYetLive = true) ∧
    hall.lotState 7 = none := by
  simp only [QuietPart, headTakeable_iff]
  decide +kernel

/-- Desk 4's buyer index written. -/
def deskSet (value : Nat) : PostedWrite := recordWrite hall 0x220020 [beat value 0x03]

theorem test_hyp_DeskWriteSetsBuyers :
    ∀ value ∈ [2047, 2048],
      QuietPart (withHead hall (deskSet value)) ∧ HeadTakeable (withHead hall (deskSet value)) (deskSet value) ∧
      (deskSet value).cls.check = .pass ∧ (deskSet value).cls.kind = some .desk ∧
      (deskSet value).record ≤ 4 ∧ 4 < (deskSet value).record + (deskSet value).beats.length ∧
      covers (offsetsFrom (deskSet value).address.toNat (deskSet value).bytes) (8 * (4 - (deskSet value).record)) 2 = true := by
  simp only [QuietPart, headTakeable_iff]
  decide +kernel

/-- Writes of a buyer's limit, of its exposure, and of record 0. -/
def buyerWrites : List PostedWrite :=
  [recordWrite hall 0x2000C8 [beat 999 0xFF], recordWrite hall 0x2000D0 [beat 999 0xFF], recordWrite hall 0x200008 [beat 999 0xFF]]

theorem test_hyp_BuyerWriteSetsHostFields :
    (∀ w ∈ buyerWrites, TablesSound { part := withHead hall w, pending := [] } ∧ QuietPart (withHead hall w) ∧
      HeadTakeable (withHead hall w) w ∧ w.cls.check = .pass ∧ w.cls.kind = some .buyer) ∧
    buyerWrites.map (fun w => (coversBuyerOwned (w.inBlock 64), w.record)) = [(false, 3), (true, 3), (false, 0)] := by
  simp only [QuietPart, TablesSound, headTakeable_iff]
  decide +kernel

/-! ### Hypotheses: presses -/

theorem test_hyp_PressWithoutBuyerIsRefused :
    QuietPart (pressing (selling .running) 0 5 1 3) ∧
    PressTakeable (pressing (selling .running) 0 5 1 3) (pressWrite (selling .running) 0 5 1 3) (sent 5 3) ∧
    ((pressing (selling .running) 0 5 1 3).desk 5).buyer = 0 := by
  simp only [PressTakeable, QuietPart, headTakeable_iff]
  decide +kernel

/-- The hall's lot for sale with the press's desk as given. -/
def pressedBy (d : DeskEntry) (p : Part) : Part := { p with press := { p.press with desks := [(4, d)] } }
def repeated : Part := pressedBy { DeskEntry.afterReset with buyer := 3, lastSequence := some 1 } (selling .running)

/-- The hall with buyer 3 as given. -/
def buying (f : BuyerEntry → BuyerEntry) (p : Part) : Part := p.setBuyer 3 (f (p.buyer 3))
def blockedSale : Part := buying (fun b => { b with laneMask := 62 }) (selling .running)
def poorSale : Part := buying (fun b => { b with exposure := 9801 }) (selling .running)

theorem test_hyp_PressIsStoppedByItsFirstFailingCheck :
    (∀ p ∈ [repeated, blockedSale, poorSale, selling .primed, selling .paused, selling .idle, selling .closing, selling .held],
      QuietPart (pressing p 0 4 1 3) ∧ PressTakeable (pressing p 0 4 1 3) (pressWrite p 0 4 1 3) (sent 4 3) ∧
      ((pressing p 0 4 1 3).desk 4).buyer = 3) ∧
    (repeated.desk 4).lastSequence = some 1 ∧
    (blockedSale.desk 4).lastSequence ≠ some 1 ∧ buyerMayBuy blockedSale 3 0 = false ∧
    (∀ state ∈ [LaneState.primed, .paused, .idle, .closing, .held, .running], PressPasses (selling state) (sent 4 3) 3 ∧
      ((selling state).lane 0).state = state) ∧
    PressPasses poorSale (sent 4 3) 3 ∧ (poorSale.lane 0).state = .running ∧
    liveLot poorSale 0 = some (7, hostFields, (placed .live 10 0).owned) ∧
    judgeClaim (claimRequest poorSale 0 hostFields (placed .live 10 0).owned 3) (poorSale.buyer 3) (freeCount poorSale) =
      .refused .credit 1 ∧
    judgeClaim (claimRequest (selling .running) 0 hostFields (placed .live 10 0).owned 1) ((selling .running).buyer 3)
      (freeCount (selling .running)) = .refused .belowMinimum 1 ∧
    judgeClaim (claimRequest (selling .running) 0 hostFields (placed .live 10 0).owned 3) ((selling .running).buyer 3) 0 =
      .refused .ringFull 0 := by
  simp only [PressPasses, PressTakeable, QuietPart, headTakeable_iff]
  decide +kernel

/-- Claims at the edges of each clause: price 50, 2 pieces, minimum 2. -/
def claim (remaining units : Nat) : ClaimRequest := { price := 50, pieces := 2, minimum := 2, remaining := remaining, units := units }
def rich (limit : Nat) (invoice : Word32) : BuyerEntry := { BuyerEntry.afterReset with limit := limit, invoice := invoice }

theorem test_hyp_ClaimsAreJudgedInOrder :
    judgeClaim (claim 10 1) (rich 10000 0) 1 = .refused .belowMinimum 1 ∧ judgeClaim (claim 1 1) (rich 100 0) 1 = .granted 1 100 ∧
    judgeClaim (claim 10 2) (rich 199 0) 1 = .refused .credit 1 ∧ judgeClaim (claim 10 2) (rich 200 0) 1 = .granted 2 200 ∧
    judgeClaim (claim 10 2) (rich 200 0) 0 = .refused .ringFull 0 ∧ judgeClaim (claim 10 2) (rich 200 5) 0 = .granted 2 200 ∧
    judgeClaim (claim 10 0) (rich 700 5) 0 = .granted 7 700 ∧ judgeClaim (claim 10 12) (rich 10000 5) 0 = .granted 10 1000 ∧
    0 < (claim 10 0).minimum ∧ 0 < (claim 10 0).remaining ∧ 0 < (claim 10 0).price ∧ 0 < (claim 10 0).pieces := by decide +kernel

theorem test_hyp_PressStrikesAtTheCurrentPrice :
    let p := pressing (selling .running) 0 4 1 3
    PressTakeable p (pressWrite (selling .running) 0 4 1 3) (sent 4 3) ∧ PressPasses p (sent 4 3) 3 ∧ (p.lane 0).state = .running ∧
    liveLot p 0 = some (7, hostFields, (placed .live 10 0).owned) ∧
    judgeClaim (claimRequest p 0 hostFields (placed .live 10 0).owned 3) (p.buyer 3) (freeCount p) = .granted 3 300 := by
  simp only [PressPasses, PressTakeable, headTakeable_iff]
  decide +kernel

/-- Lane 0 STRUCK with contenders of desks from 10 on. -/
def contended (n first : Nat) : Part :=
  lane0 (fun l => { l with contenders := (List.range n).map fun k => { desk := first + k, buyer := 3, units := 2, sequence := 1 } })
    (selling .struck)

theorem test_hyp_PressContendsBehindAStrike :
    (∀ p ∈ [contended 3 10, contended 4 10, contended 1 4],
      QuietPart (pressing p 0 4 1 3) ∧ PressTakeable (pressing p 0 4 1 3) (pressWrite p 0 4 1 3) (sent 4 3) ∧
      PressPasses (pressing p 0 4 1 3) (sent 4 3) 3 ∧ ((pressing p 0 4 1 3).lane 0).state = .struck) ∧
    4 ≤ ((contended 4 10).lane 0).contenders.length ∧ (∃ e ∈ ((contended 1 4).lane 0).contenders, e.desk = 4) ∧
    ((contended 3 10).lane 0).contenders.length < 4 ∧ (∀ e ∈ ((contended 3 10).lane 0).contenders, e.desk ≠ 4) := by
  simp only [PressPasses, PressTakeable, QuietPart, headTakeable_iff]
  decide +kernel

/-! ### Hypotheses: passes -/

/-- A track stopped with passes waiting. -/
def halted (n : Nat) : Part :=
  tracked (fun t => { t with fault := { t.fault with stopped := true }, backlog := List.replicate n { station := .gate, tag := 1 } })
    hall
def closedHall : Part := { hall with window := { hall.window with dayState := .closed } }

theorem test_hyp_PassesWaitInTheBacklogOrAreDiscarded :
    (∀ p ∈ [halted 7, halted 8, closedHall], ∀ x ∈ [(0, Station.gate), (1, .display), (2, .exit)],
      QuietPart (passing p 0 x.1 9) ∧ PassTakeable (passing p 0 x.1 9) (passWrite p 0 x.1 9) 0 { station := x.2, tag := 9 }) ∧
    ((halted 7).track 0).fault.stopped = true ∧ (halted 7).window.dayState = .opened ∧ ((halted 7).track 0).backlog.length < 8 ∧
    ((halted 8).track 0).fault.stopped = true ∧ (halted 8).window.dayState = .opened ∧ 8 ≤ ((halted 8).track 0).backlog.length ∧
    closedHall.window.dayState ≠ .opened := by
  simp only [PassTakeable, QuietPart, headTakeable_iff]
  decide +kernel

/-- Lot 7's trolley Late, or fourth in the queue behind three others, or fifth. -/
def lateTrolley (staging : List Trolley) : Part :=
  tracked (fun t => { t with late := [trolley], staging := staging }) (withLot (placed .late 10 0) hall)
def others : List Trolley := [{ tag := 21, lots := [1] }, { tag := 22, lots := [2] }, { tag := 23, lots := [3] }]
def inTrolley (tag : Word32) (sequence : Nat) : Digest :=
  { placed .expected 10 0 with host := some { hostFields with tag := tag, sequence := sequence } }
def expecting (late staging : List Trolley) : Part :=
  tracked (fun t => { t with late := late, staging := staging }) (queued [1, 2, 3, 7, 8]
    { hall with catalogue := { hall.catalogue with
        known := [(1, inTrolley 21 1), (2, inTrolley 22 2), (3, inTrolley 23 3), (7, inTrolley 9 4), (8, inTrolley 24 5)] } })
def lateLots (n : Nat) : List Trolley := [{ tag := 30, lots := List.replicate n 40 }]

theorem test_hyp_GatePassStagesItsTrolleyOrFaults :
    (∀ p ∈ [lateTrolley others.tail, lateTrolley others, expecting (lateLots 13) [], expecting (lateLots 14) [],
        expecting [] others, hall],
      PassRuns (passing p 0 0 9) (passWrite p 0 0 9) 0 { station := .gate, tag := 9 }) ∧
    ((lateTrolley others.tail).track 0).staging.length < 3 ∧
    ((lateTrolley others.tail).track 0).late.find? (fun a => a.tag == 9) = some trolley ∧
    (∃ a ∈ ((lateTrolley others).track 0).late, a.tag = 9) ∧ 3 ≤ ((lateTrolley others).track 0).staging.length ∧
    (∀ a ∈ ((expecting (lateLots 13) []).track 0).late, a.tag ≠ 9) ∧ ((expecting (lateLots 13) []).track 0).staging.length < 3 ∧
    trolleysOf (expecting (lateLots 13) []) ((expecting (lateLots 13) []).expected 0) =
      others ++ trolley :: [{ tag := 24, lots := [8] }] ∧
    others.length ≤ 3 ∧ trolley.tag = 9 ∧ (∀ a ∈ others, a.tag ≠ 9) ∧
    lotCount ((expecting (lateLots 13) []).track 0).late + lotCount others ≤ 16 ∧
    16 < lotCount ((expecting (lateLots 14) []).track 0).late + lotCount others ∧
    3 ≤ ((expecting [] others).track 0).staging.length ∧
    (∀ a ∈ (trolleysOf hall (hall.expected 0)).take 4, a.tag ≠ 9) ∧ (∀ a ∈ (hall.track 0).late, a.tag ≠ 9) := by
  simp only [PassRuns, PassTakeable, headTakeable_iff]
  decide +kernel

/-- Lot 7's trolley at the Staging head. -/
def staged (display : Option Trolley) : Part :=
  tracked (fun t => { t with staging := [trolley], display := display }) (withLot (placed .staged 10 0) hall)

theorem test_hyp_DisplayPassBringsTheStagingHead :
    (∀ p ∈ [staged none, staged (some { tag := 21, lots := [] }), hall],
      PassRuns (passing p 0 1 9) (passWrite p 0 1 9) 0 { station := .display, tag := 9 }) ∧
    PassRuns (passing (staged none) 0 1 8) (passWrite (staged none) 0 1 8) 0 { station := .display, tag := 8 } ∧
    ((staged none).track 0).staging = trolley :: [] ∧ trolley.tag = 9 ∧ ((staged none).track 0).display = none ∧
    firstTag ((staged none).track 0).staging ≠ 8 ∧ (hall.track 0).staging = [] ∧
    ((staged (some { tag := 21, lots := [] })).track 0).display = some { tag := 21, lots := [] } := by
  simp only [PassRuns, PassTakeable, headTakeable_iff]
  decide +kernel

/-- Lot 7's trolley at the Display Position, the lot in a state. -/
def shown (state : LotState) : Part := tracked (fun t => { t with display := some trolley }) (withLot (placed state 10 0) hall)

theorem test_hyp_ExitPassEmptiesTheDisplayPosition :
    (∀ p ∈ [shown .closed, shown .withdrawn, shown .live, hall],
      PassRuns (passing p 0 2 9) (passWrite p 0 2 9) 0 { station := .exit, tag := 9 }) ∧
    PassRuns (passing (shown .closed) 0 2 8) (passWrite (shown .closed) 0 2 8) 0 { station := .exit, tag := 8 } ∧
    ((shown .closed).track 0).display = some trolley ∧ trolley.tag = 9 ∧ trolley.tag ≠ 8 ∧
    (∀ lot ∈ trolley.lots, (shown .closed).lotState lot = some .closed) ∧
    (∀ lot ∈ trolley.lots, (shown .withdrawn).lotState lot = some .withdrawn) ∧
    (∃ lot ∈ trolley.lots, ¬ ((shown .live).lotState lot = some .closed ∨ (shown .live).lotState lot = some .withdrawn)) ∧
    (hall.track 0).display = none := by
  simp only [PassRuns, PassTakeable, headTakeable_iff]
  decide +kernel

/-! ### Hypotheses: lanes -/

/-- Whether the part's head is a lane command for lane 0. -/
theorem test_hyp_HoldAddsHost :
    ∀ state ∈ [LaneState.running, .struck, .closing, .held],
      LaneCommandTaken (commanding (selling state) 2 0) (head (commanding (selling state) 2 0)) 0 .hold := by
  simp only [LaneCommandTaken, SetsOff, headTakeable_iff]
  decide +kernel

theorem test_hyp_StartAndExpiriesEnterRunning :
    LaneCommandTaken (commanding (selling .primed) 1 0) (head (commanding (selling .primed) 1 0)) 0 .start ∧
    ((selling .primed).lane 0).state = .primed ∧
    ((lane0 (fun l => { l with timer := .counting .preRoll 0 }) (selling .primed)).lane 0).timer = .counting .preRoll 0 ∧
    ((lane0 (fun l => { l with timer := .counting .restartPause 0 }) (selling .paused)).lane 0).timer =
      .counting .restartPause 0 := by
  simp only [LaneCommandTaken, SetsOff, headTakeable_iff]
  decide +kernel

theorem test_hyp_SimpleLaneCommandsSetTheirResult :
    LaneCommandTaken (commanding (selling .running) 1 0) (head (commanding (selling .running) 1 0)) 0 .start ∧
    ((selling .running).lane 0).state ≠ .primed ∧
    LaneCommandTaken (commanding hall 5 0) (head (commanding hall 5 0)) 0 .enable ∧
    LaneCommandTaken (commanding hall 6 0) (head (commanding hall 6 0)) 0 .disable ∧
    LaneCommandTaken (commanding hall 7 0) (head (commanding hall 7 0)) 0 .unknown ∧
    LaneCommandTaken (commanding hall 3 0) (head (commanding hall 3 0)) 0 .unknown ∧
    (hall.lane 0).state = .idle ∧ hall.expected 0 = [] ∧ (hall.track 0).late = [] ∧ (hall.track 0).staging = [] ∧
    (hall.track 0).display = none ∧ ((selling .running).lane 0).state ≠ .idle := by
  simp only [LaneCommandTaken, SetsOff, headTakeable_iff]
  decide +kernel

/-- A HELD lane whose track is stopped with a pass that can be carried out, and with one that cannot. -/
def heldTrack (tag : Word32) : Part :=
  lane0 (fun l => { l with state := .held, ret := .idle, holds := { HoldSet.none with track := true } })
    (tracked (fun t => { t with fault := { t.fault with stopped := true }, backlog := [{ station := .display, tag := tag }] })
      (staged none))

theorem test_hyp_ResumeClearsReasonsAndDisposesOfTheTrack :
    (∀ p ∈ [hall, heldTrack 9, heldTrack 8],
      LaneCommandTaken (commanding p 3 2) (head (commanding p 3 2)) 0 .resumeFlush ∧
      LaneCommandTaken (commanding p 3 1) (head (commanding p 3 1)) 0 .resumeDiscard) ∧
    (hall.track 0).fault.stopped = false ∧ ((heldTrack 9).track 0).fault.stopped = true ∧
    (carryOut (heldTrack 9) 0 { station := .display, tag := 9 }).faulted = false ∧
    (carryOut (heldTrack 9) 0 { station := .display, tag := 8 }).faulted = true := by
  simp only [LaneCommandTaken, SetsOff, headTakeable_iff]
  decide +kernel

/-- Lot 7 held on the clock. -/
def heldSale (ret : ReturnState) : Part := lane0 (fun l => { l with ret := ret, holds := { HoldSet.none with ring := true } }) (selling .held)

theorem test_hyp_WithdrawClosesTheLiveLot :
    (∀ p ∈ [selling .primed, selling .running, selling .paused, selling .struck, selling .idle, selling .closing, heldSale .idle,
        heldSale .primed, heldSale .paused],
      LaneCommandTaken (commanding p 4 0) (head (commanding p 4 0)) 0 .withdraw ∧ (p.lane 0).live = some 7 ∧
      p.digest 7 = some (placed .live 10 0)) ∧
    (placed .live 10 0).host = some hostFields ∧
    (∀ state ∈ [LaneState.primed, .running, .paused, .struck, .idle, .closing], ((selling state).lane 0).state = state) ∧
    ((heldSale .primed).lane 0).state = .held ∧ ((heldSale .primed).lane 0).ret ≠ .idle ∧
    ((heldSale .idle).lane 0).state = .held ∧ ((heldSale .idle).lane 0).ret = .idle := by
  simp only [LaneCommandTaken, SetsOff, headTakeable_iff]
  decide +kernel

/-- The lane parameters of lane 0 written: the step interval, and the default step. -/
def paramSet (interval step : Nat) : Part := setting hall 0x800 [beat (interval * 2 ^ 32 + step * 2 ^ 48) 0xD0]

theorem test_hyp_LaneParametersTakeValuesInRange :
    (∀ x ∈ [(1, 1), (255, 9999), (0, 9999), (255, 10000)],
      HeadTakeable (paramSet x.1 x.2) (head (paramSet x.1 x.2)) ∧
      SetsOff (paramSet x.1 x.2) (head (paramSet x.1 x.2)) (.laneParams 0) ∧
      ParamCovered (paramSet x.1 x.2) (head (paramSet x.1 x.2)) 0 .stepInterval ∧
      ¬ ParamCovered (paramSet x.1 x.2) (head (paramSet x.1 x.2)) 0 .preRoll) ∧
    ParamFits (paramSet 255 9999) (head (paramSet 255 9999)) 0 .stepInterval ∧
    ParamFits (paramSet 255 9999) (head (paramSet 255 9999)) 0 .defaultStep ∧
    ¬ ParamFits (paramSet 0 9999) (head (paramSet 0 9999)) 0 .stepInterval ∧
    ¬ ParamFits (paramSet 255 10000) (head (paramSet 255 10000)) 0 .defaultStep := by
  simp only [ParamCovered, ParamFits, SetsOff, headTakeable_iff]
  decide +kernel

/-- The stop mode of lane 0 written. -/
def modeSet (code : Nat) : Part := setting hall 0x800 [beat (code * 2 ^ 40) 0x20]

theorem test_hyp_StopModeWriteJudgesTheInput :
    (∀ code ∈ [0, 3, 4, 5], HeadTakeable (modeSet code) (head (modeSet code)) ∧
      SetsOff (modeSet code) (head (modeSet code)) (.stopMode 0) ∧ paramAfter (modeSet code) (head (modeSet code)) 0 .stopMode = code) ∧
    4 < paramAfter (modeSet 5) (head (modeSet 5)) 0 .stopMode ∧ StopMode.levelLow.code = 3 ∧ StopMode.levelHigh.code = 4 ∧
    stopHeld { hall.lane 0 with params := { (hall.lane 0).params with stopMode := .levelLow } } = true ∧
    stopHeld { hall.lane 0 with params := { (hall.lane 0).params with stopMode := .levelHigh } } = false := by
  simp only [SetsOff, headTakeable_iff]
  decide +kernel

/-- Lot 7 at a price with its step timer due. -/
def stepping (price : Nat) : Part := lane0 (fun l => { l with price := price, timer := .counting .step 0 }) (selling .running)

theorem test_hyp_StepExpiryLowersThePriceOrClosesTheLot :
    (∀ price ∈ [20, 21, 100], ((stepping price).lane 0).timer = .counting .step 0 ∧ ((stepping price).lane 0).live = some 7 ∧
      (stepping price).digest 7 = some (placed .live 10 0)) ∧ (placed .live 10 0).host = some hostFields ∧
    hostFields.floorPrice < ((stepping 21).lane 0).price ∧ ((stepping 20).lane 0).price ≤ hostFields.floorPrice := by decide +kernel

/-- A contender of buyer 3. -/
def contender (units : Nat) : Contender := { desk := 4, buyer := 3, units := units, sequence := 2 }

theorem test_hyp_ContenderServedForTheBuyerItCaptured :
    (let p := lane0 (onClock .struck) (withLot (placed .live 0 10) hall)
     liveLot p 0 = some (7, hostFields, (placed .live 0 10).owned) ∧ (placed .live 0 10).owned.remaining = 0) ∧
    liveLot (selling .struck) 0 = some (7, hostFields, (placed .live 10 0).owned) ∧ 0 < (placed .live 10 0).owned.remaining ∧
    buyerMayBuy (buying (fun b => { b with status := .blocked }) (selling .struck)) 3 0 = false ∧
    buyerMayBuy (selling .struck) 3 0 = true ∧
    judgeClaim (claimRequest (selling .struck) 0 hostFields (placed .live 10 0).owned 1) ((selling .struck).buyer 3)
      (freeCount (selling .struck)) = .refused .belowMinimum 1 ∧
    judgeClaim (claimRequest (selling .struck) 0 hostFields (placed .live 10 0).owned 0) ((selling .struck).buyer 3)
      (freeCount (selling .struck)) = .granted 10 1000 := by
  simp only []
  decide +kernel

/-- A contender window due, with one contender for units. -/
def serving (units : Nat) (f : LaneUnit → LaneUnit) : Part :=
  lane0 (fun l => f { l with timer := .counting .contenderWindow 0, contenders := [contender units] }) (selling .struck)

theorem test_hyp_ContenderExpiryServesThenPausesHoldsOrCloses :
    (∀ units ∈ [0, 3], ((serving units id).lane 0).timer = .counting .contenderWindow 0 ∧ ((serving units id).lane 0).live = some 7) ∧
    (let p := serving 0 id
     ((serveContenders 0 1 (p.lane 0).contenders p).digest 7).map (fun d => d.owned.remaining) = some 0) ∧
    (∀ f ∈ [id, fun l : LaneUnit => { l with pendingWithdraw := true }, fun l => { l with pendingHolds := { HoldSet.none with host := true } }],
      let p := serving 3 f
      ((serveContenders 0 1 (p.lane 0).contenders p).digest 7).map (fun d => (d.owned.remaining, d.host)) =
        some (7, some hostFields)) ∧
    (let p := serving 3 fun l => { l with pendingHolds := { HoldSet.none with host := true } }
     ((serveContenders 0 1 (p.lane 0).contenders p).lane 0).pendingHolds ≠ HoldSet.none) ∧
    (let p := serving 3 fun l => { l with pendingWithdraw := true }
     ((serveContenders 0 1 (p.lane 0).contenders p).lane 0).pendingWithdraw = true) := by
  simp only []
  decide +kernel

/-- Lot 7 at the clock is the first; without an AT-CLOCK lot there is none. -/
theorem test_hyp_FirstAtClock :
    FirstAtClock (shown .atClock) 0 7 ∧ (∀ lot, ¬ FirstAtClock (shown .withdrawn) 0 lot) ∧ ∀ lot, ¬ FirstAtClock hall 0 lot :=
  ⟨(atClockLot_first _ _ _).1 (by decide +kernel), (atClockLot_none _ _).1 (by decide +kernel),
    (atClockLot_none _ _).1 (by decide +kernel)⟩

theorem test_hyp_LookPutsUpTheFirstLotAtTheClock :
    (let p := shown .atClock
     (p.lane 0).state = .idle ∧ (p.lane 0).holds = HoldSet.none ∧ (p.lane 0).pendingHolds = HoldSet.none ∧
     p.digest 7 = some (placed .atClock 10 0) ∧ (placed .atClock 10 0).host = some hostFields ∧ Granted p 1 ∧
     (p.lane 0).closeReserved = false) ∧
    (let p := ringFull (shown .atClock)
     (p.lane 0).closeReserved = false ∧ ¬ Granted p 1 ∧ (p.lane 0).state = .idle) ∧
    ((selling .running).lane 0).state ≠ .idle := by
  simp only [Granted]
  decide +kernel

/-- Lane 0 HELD with the close slot it waited for granted, and its trolley's lot in a state. -/
def slotGranted (state : LotState) : Part := lane0 (fun l => { l with state := .held, ret := .idle, closeReserved := true }) (shown state)

theorem test_hyp_LaneLeavesHeld_withSlot :
    (∀ state ∈ [LotState.atClock, .withdrawn],
      ((slotGranted state).lane 0).state = .held ∧ ((slotGranted state).lane 0).holds = HoldSet.none ∧
      ((slotGranted state).lane 0).ret = .idle ∧ ((slotGranted state).lane 0).closeReserved = true ∧
      ((slotGranted state).lane 0).pendingHolds = HoldSet.none) ∧
    (slotGranted .atClock).digest 7 = some (placed .atClock 10 0) ∧ (placed .atClock 10 0).host = some hostFields ∧
    FirstAtClock (slotGranted .atClock) 0 7 ∧ ∀ lot, ¬ FirstAtClock (slotGranted .withdrawn) 0 lot :=
  ⟨by decide +kernel, by decide +kernel, by decide +kernel, (atClockLot_first _ _ _).1 (by decide +kernel),
    (atClockLot_none _ _).1 (by decide +kernel)⟩

theorem test_hyp_LaneLeavesHeldWhenNothingHoldsIt :
    ((selling .running).lane 0).state ≠ .held ∧ ((heldSale .primed).lane 0).holds ≠ HoldSet.none ∧
    (∀ ret ∈ [ReturnState.idle, .primed, .paused],
      let l := (lane0 (fun l => { l with ret := ret, holds := HoldSet.none, roundReserved := 0, closeReserved := false })
        (selling .held)).lane 0
      l.state = .held ∧ l.holds = HoldSet.none ∧ l.ret = ret ∧ l.roundReserved = 0 ∧ l.closeReserved = false) ∧
    ((lane0 (fun l => { l with ret := .paused, holds := HoldSet.none }) (selling .held)).lane 0).roundReserved ≠ 0 := by
  simp only []
  decide +kernel

/-! ### Hypotheses: account words, ring words, the day -/

/-- A payment word. -/
def paying (p : Part) (buyer amount : Nat) : Part := setting p 0x100 [beat buyer 0x03, beat amount 0xFF]

theorem test_hyp_PaymentIsRefusedByItsFirstFailingCheck :
    (∀ x ∈ [(0, 5), (2048, 5), (3, 0), (3, 2 ^ 47), (3, 5)],
      let p := paying hall x.1 x.2
      QuietPart p ∧ WordTaken p (head p) .payment ∧ fieldAfter p (head p) 0x0100 2 = x.1 ∧ fieldAfter p (head p) 0x0108 8 = x.2) ∧
    (let p := paying (ringFull hall) 3 5
     QuietPart p ∧ WordTaken p (head p) .payment ∧ fieldAfter p (head p) 0x0108 8 = 5 ∧ freeCount p = 0) ∧
    inRange hall 2048 = false ∧ inRange hall 3 = true := by
  simp only [QuietPart, SetsOff, WordTaken, headTakeable_iff]
  decide +kernel

theorem test_hyp_PaymentLowersTheExposure :
    (∀ amount ∈ [1, 2 ^ 47 - 1],
      let p := paying (buying (fun b => { b with exposure := 2 }) hall) 3 amount
      WordTaken p (head p) .payment ∧ fieldAfter p (head p) 0x0100 2 = 3 ∧ fieldAfter p (head p) 0x0108 8 = amount ∧
      inRange p 3 = true ∧ 0 < freeCount p) ∧
    1 ≤ (buying (fun b => { b with exposure := 2 }) hall |>.buyer 3).exposure ∧
    (buying (fun b => { b with exposure := 2 }) hall |>.buyer 3).exposure < 2 ^ 47 - 1 := by
  simp only [SetsOff, WordTaken, headTakeable_iff]
  decide +kernel

/-- An invoice-close word. -/
def invoicing (p : Part) (buyer : Nat) : Part := setting p 0x128 [beat buyer 0x03]
def invoiced : Part := buying (fun b => { b with invoice := 1, lines := 63, total := 500 }) hall

theorem test_hyp_InvoiceCloseWordClosesTheOpenInvoice :
    (∀ buyer ∈ [0, 2048, 3],
      let p := invoicing hall buyer
      WordTaken p (head p) .invoiceClose ∧ fieldAfter p (head p) 0x0128 2 = buyer) ∧
    WordTaken (invoicing invoiced 3) (head (invoicing invoiced 3)) .invoiceClose ∧
    fieldAfter (invoicing invoiced 3) (head (invoicing invoiced 3)) 0x0128 2 = 3 ∧
    inRange hall 2048 = false ∧ inRange hall 3 = true ∧ (hall.buyer 3).invoice = 0 ∧ (invoiced.buyer 3).invoice ≠ 0 := by
  simp only [SetsOff, WordTaken, headTakeable_iff]
  decide +kernel

/-- The ring with records published up to 5. -/
def written : Part := { hall with ring := { hall.ring with assigned := 5, published := 5 } }
def consuming (value : Nat) : Part := setting written 0x200 [beat value 0x0F]
def thresholding (p : Part) (value : Nat) : Part := setting p 0x200 [beat (value * 2 ^ 48) 0xC0]

/-- One write of the consumer index and the threshold. -/
def ringWords (p : Part) (value threshold : Nat) : Part := setting p 0x200 [beat (value + threshold * 2 ^ 48) 0xCF]

theorem test_hyp_RingWordsMoveTheConsumerIndexAndTheThreshold :
    (∀ value ∈ [0, 5, 6], WordTaken (consuming value) (head (consuming value)) .consumerIndex ∧
      fieldAfter (consuming value) (head (consuming value)) 0x0200 4 = value) ∧
    (5 : Word32) - written.ring.consumer ≤ written.ring.assigned - written.ring.consumer ∧
    ¬ (6 : Word32) - written.ring.consumer ≤ written.ring.assigned - written.ring.consumer ∧
    (∀ value ∈ [4096, 4095, 4090], QuietPart (thresholding written value) ∧
      WordTaken (thresholding written value) (head (thresholding written value)) .threshold ∧
      fieldAfter (thresholding written value) (head (thresholding written value)) 0x0206 2 = value) ∧
    freeCount (thresholding written 4090) = 4090 ∧ freeCount (thresholding written 4095) = 4090 := by
  simp only [QuietPart, SetsOff, WordTaken, headTakeable_iff]
  decide +kernel

/-- The hall with the day not opened, and a day word. -/
def night : Part := { closedHall with ring := { closedHall.ring with closingMark := false } }
def noRing : Part := { night with ring := { night.ring with geometry := none } }
def oneSlot : Part := { night with ring := { night.ring with assigned := 4095 } }
def dayWord (p : Part) (command number : Nat) : Part := setting p 0 [beat (command + number * 65536) 0x0D]

theorem test_hyp_DayOpenChecksAndOpensTheDay :
    (∀ p ∈ [hall, night, noRing, oneSlot],
      QuietPart (dayWord p 1 1) ∧ DayCommandTaken (dayWord p 1 1) (head (dayWord p 1 1)) .openDay ∧
      fieldAfter (dayWord p 1 1) (head (dayWord p 1 1)) 0x0002 2 = 1) ∧
    (QuietPart (dayWord hall 3 1) ∧ DayCommandTaken (dayWord hall 3 1) (head (dayWord hall 3 1)) .unknown) ∧
    (DayCommandTaken (dayWord night 1 0) (head (dayWord night 1 0)) .openDay ∧
      fieldAfter (dayWord night 1 0) (head (dayWord night 1 0)) 0x0002 2 = 0) ∧
    hall.window.dayState ≠ .closed ∧ night.window.dayState = .closed ∧ night.ring.geometry ≠ none ∧ 2 ≤ freeCount night ∧
    noRing.window.dayState = .closed ∧ noRing.ring.geometry = none ∧ freeCount oneSlot < 2 ∧ oneSlot.window.dayState = .closed := by
  simp only [DayCommandTaken, QuietPart, SetsOff, WordTaken, headTakeable_iff]
  decide +kernel

/-- Lot 7 live in lane 0 with its trolley at the Display Position, and of lane 1 lot 8 AT-CLOCK and lot 9 a passenger in the queue. -/
def openSale : Part :=
  { (selling .running).setTrack 0 { (hall.track 0) with display := some trolley } with
    catalogue := { hall.catalogue with
      known := [(7, placed .live 10 0), (8, placed .atClock 4 0), (9, placed .withdrawn 5 0)],
      expected := hall.catalogue.expected.set 1 [9] },
    tracks := (hall.tracks.set 0 { hall.track 0 with display := some trolley }).set 1
      { hall.track 1 with display := some { tag := 10, lots := [8] } } }

theorem test_hyp_DayCloseWithdrawsAndFlushes :
    (∀ p ∈ [hall, night, openSale, withLot (placed .expected 10 0) hall],
      TablesSound { part := dayWord p 2 0, pending := [] } ∧
      DayCommandTaken (dayWord p 2 0) (head (dayWord p 2 0)) .closeDay) ∧
    night.window.dayState ≠ .opened ∧ hall.window.dayState = .opened ∧ liveLanes openSale ≠ 0 ∧ liveLanes hall = 0 := by
  simp only [DayCommandTaken, SetsOff, TablesSound, WordTaken, headTakeable_iff]
  decide +kernel

theorem test_hyp_DayClose_places :
    (openSale.track 0).display = some trolley ∧ KeptAtClose openSale 0 trolley ∧
    (openSale.track 1).display = some { tag := 10, lots := [8] } ∧ ¬ KeptAtClose openSale 1 { tag := 10, lots := [8] } ∧
    FlushedFrom openSale 1 8 ∧ FlushedFrom openSale 1 9 ∧ (openSale.track 2).display = none := by
  refine ⟨by decide +kernel, (keepsDisplay_kept _ _ _).1 (by decide +kernel), by decide +kernel,
    fun h => absurd ((keepsDisplay_kept _ _ _).2 h) (by decide +kernel), (flushedLots_flushed _ _ _).1 (by decide +kernel),
    (flushedLots_flushed _ _ _).1 (by decide +kernel), by decide +kernel⟩

theorem test_hyp_DayClose_stays : ∀ i, ¬ FlushedFrom openSale i 7 := by
  intro i h
  have := (flushedLots_flushed _ _ _).2 h
  clear h
  revert i; decide +kernel

theorem test_hyp_DayEndClosesInvoicesThenMarksTheDay :
    (let p := { invoiced with window := { invoiced.window with dayState := .closing } }
     p.window.dayState = .closing ∧ liveLanes p = 0 ∧ openBuyers p = [3] ∧ TablesSound { part := p, pending := [] } ∧
     (p.buyer 3).invoice ≠ 0 ∧ (p.buyer 4).invoice = 0) ∧
    (let p := { selling .running with window := { hall.window with dayState := .closing } }
     p.window.dayState = .closing ∧ liveLanes p ≠ 0) := by
  simp only [TablesSound]
  decide +kernel

/-! ### Hypotheses: windows and masters -/

/-- A window's descriptor and commit word written at once. -/
def committing (p : Part) (v : Window) (d : Descriptor) (valid : Nat) : Part :=
  setting p (0x1000 + v.val * 0x20)
    [beat d.base 0xFF, beat (d.pages + d.recordLimit * 2 ^ 32 + d.kindCode * 2 ^ 48 + d.readLevel * 2 ^ 56) 0xFF,
     beat d.writeLevel 0x01, beat valid 0x01]

/-- A descriptor of a kind. -/
def described (kindCode base pages recordLimit : Nat) : Descriptor :=
  { kindCode := kindCode, base := base, pages := pages, readLevel := 3, writeLevel := 3, recordLimit := recordLimit }

/-- The descriptors of the clauses, each with its window: BAD-KIND twice, ALIGN twice, SIZE twice, LIMIT twice, OVERLAP, DUPLICATE-KIND,
DAY-NOT-CLOSED twice, RING-BUSY, and three that pass. -/
def descriptors : List (Window × Descriptor) :=
  [(10, described 10 0x600000 1 0), (10, described 0 0x600000 1 0), (10, described 1 0x600800 1 0),
   (10, described 1 0xFFFFFF000 2 0), (10, described 1 0x600000 0 0), (10, described 9 0x600000 65 0),
   (2, described 3 0x200000 32 1), (2, described 3 0x200000 32 2049), (10, described 1 0x1FF000 1 0),
   (10, described 4 0x600000 1 8), (3, described 4 0x220000 1 8), (3, described 1 0x220000 1 0), (8, described 9 0x400000 128 0),
   (8, described 1 0x400000 1 0), (10, described 1 0x600000 65536 0)]

theorem test_hyp_WindowCommit_words :
    ∀ x ∈ descriptors,
      let p := committing hall x.1 x.2 1
      WordTaken p (head p) (.windowWord x.1) ∧ fieldAfter p (head p) (descriptorAt x.1 + 0x18) 1 ≠ 0 ∧
      readDescriptor (shadowAfter p (head p)) x.1 = x.2 := by
  simp only [SetsOff, WordTaken, headTakeable_iff]
  decide +kernel

theorem test_hyp_WindowCommit_clauses :
    WindowKind.ofCode 10 = none ∧ WindowKind.ofCode 0 = some .anchor ∧ WindowKind.ofCode 1 = some .guard ∧
    WindowKind.ofCode 9 = some .ring ∧ WindowKind.ofCode 3 = some .buyer ∧ WindowKind.ofCode 4 = some .desk ∧
    0x600800 % 4096 ≠ 0 ∧ 2 ^ 36 < 0xFFFFFF000 + 2 * 4096 ∧ ¬ 2 ^ 36 < 0xFFFFFF000 + 1 * 4096 ∧
    WindowKind.guard.sizeAllowed 0 = false ∧ WindowKind.ring.sizeAllowed 65 = false ∧ WindowKind.buyer.limitAllowed 1 = false ∧
    WindowKind.buyer.limitAllowed 2049 = false ∧
    OtherWindow hall 10 (fun e => 0x1FF000 < e.base + e.pages * 4096 ∧ e.base < 0x200000) ∧
    ¬ OtherWindow hall 10 (fun e => 0x600000 < e.base + e.pages * 4096 ∧ e.base < 0x601000) ∧
    OtherWindow hall 10 (fun e => e.kind = .desk) ∧ ¬ OtherWindow hall 3 (fun e => e.kind = .desk) := by
  simp only [OtherWindow]
  decide +kernel

/-- A ring with a record not yet published. -/
def busyRing : Part :=
  { night with ring := { night.ring with queue := [{ index := 0, tick := 0, body := .payment 3 1 1 0 }] } }

theorem test_hyp_WindowCommit_day_and_ring :
    hall.window.dayState ≠ .closed ∧ WindowKind.desk.dayBound = true ∧ night.window.dayState = .closed ∧
    night.window.cache[(3 : Window)].valid = true ∧ night.window.cache[(3 : Window)].kind.dayBound = true ∧
    night.window.cache[(8 : Window)].valid = true ∧ night.window.cache[(8 : Window)].kind = .ring ∧ RingHeld busyRing ∧
    ¬ RingHeld night ∧ WindowKind.ring.sizeAllowed 128 = true ∧ WindowKind.ring.limitAllowed 0 = true ∧
    ¬ OtherWindow night 8 (fun e => 0x400000 < e.base + e.pages * 4096 ∧ e.base < 0x480000) ∧
    ¬ OtherWindow night 8 (fun e => e.kind = .ring) := by
  simp only [OtherWindow, RingHeld]
  decide +kernel

theorem test_hyp_WindowRemovalMarksTheEntryNotValid :
    (∀ p ∈ [hall, night, busyRing], ∀ v ∈ [(3 : Window), 8, 9, 10],
      let q := committing p v (described 0 0 0 0) 0
      WordTaken q (head q) (.windowWord v) ∧ fieldAfter q (head q) (descriptorAt v + 0x18) 1 = 0) ∧
    hall.window.cache[(10 : Window)].valid = false ∧ hall.window.cache[(3 : Window)].valid = true ∧
    hall.window.cache[(3 : Window)].kind.dayBound = true ∧ hall.window.dayState ≠ .closed ∧
    hall.window.cache[(9 : Window)].valid = true ∧ hall.window.cache[(9 : Window)].kind.dayBound = false ∧
    hall.window.cache[(9 : Window)].kind ≠ .ring ∧ night.window.cache[(3 : Window)].kind ≠ .ring := by
  simp only [SetsOff, WordTaken, headTakeable_iff]
  decide +kernel

/-- A master's descriptor and commit word. -/
def mastering (m : Master) (role privilege grantClass mask first count : Nat) : Part :=
  setting hall (0x1200 + m.val * 0x10)
    [beat (role + privilege * 2 ^ 8 + grantClass * 2 ^ 16 + mask * 2 ^ 24 + first * 2 ^ 32 + count * 2 ^ 48) 0xFF, beat 0 0x01]

/-- Entry 0; role 5; privilege 4; class 2; a desk range past 512; a desk range of all; the last desk; a track role with a mask. -/
def masterParts : List (Master × Part) :=
  [(0, mastering 0 1 0 1 0 0 0), (1, mastering 1 5 0 0 0 0 0), (1, mastering 1 1 4 0 0 0 0), (1, mastering 1 1 0 2 0 0 0),
   (1, mastering 1 2 0 0 0 511 2), (1, mastering 1 2 3 1 0 0 512), (7, mastering 7 2 3 1 0 511 1), (7, mastering 7 3 0 0 255 0 0)]

theorem test_hyp_MasterCommitInstallsTheEntry :
    (∀ x ∈ masterParts, QuietPart x.2 ∧ WordTaken x.2 (head x.2) (.masterWord x.1)) ∧
    masterParts.map (fun x => (Role.ofCode (fieldAfter x.2 (head x.2) (masterAt x.1 + 0) 1),
      GrantClass.ofCode (fieldAfter x.2 (head x.2) (masterAt x.1 + 2) 1), fieldAfter x.2 (head x.2) (masterAt x.1 + 1) 1,
      fieldAfter x.2 (head x.2) (masterAt x.1 + 4) 2, fieldAfter x.2 (head x.2) (masterAt x.1 + 6) 2)) =
      [(some .control, some .high, 0, 0, 0), (none, some .normal, 0, 0, 0), (some .control, some .normal, 4, 0, 0),
       (some .control, none, 0, 0, 0), (some .desk, some .normal, 0, 511, 2), (some .desk, some .high, 3, 0, 512),
       (some .desk, some .high, 3, 511, 1), (some .track, some .normal, 0, 0, 0)] := by
  simp only [QuietPart, SetsOff, WordTaken, headTakeable_iff]
  decide +kernel

/-! ### Hypotheses: the attention area and plain Anchor writes -/

/-- The words of the attention area: a flag clear, a capture release, an event map write of entries 6, 7 and 8, the switch. -/
def flagWord : Part := setting hall 0x320 [beat (0x3FFFF * 2 ^ 32) 0xF0]
def releaseWord (p : Part) : Part := setting p 0x330 [beat 0 0x02]
def mapWord : Part := setting hall 0x340 [beat (2 * 2 ^ 48 + 2 * 2 ^ 56) 0xC0, beat 3 0x01]
def switchWord : Part := setting hall 0x338 [beat 256 0x02]
def lockedHall : Part := { hall with attention := { hall.attention with capture := { hall.attention.capture with locked := true } } }

theorem test_hyp_AttentionWordsActOnTheirFieldsAlone :
    (∀ p ∈ [flagWord, releaseWord hall, releaseWord lockedHall, mapWord, switchWord], QuietPart p) ∧
    WordTaken flagWord (head flagWord) .flagClear ∧ WordTaken (releaseWord hall) (head (releaseWord hall)) .captureRelease ∧
    WordTaken (releaseWord lockedHall) (head (releaseWord lockedHall)) .captureRelease ∧
    WordTaken mapWord (head mapWord) .eventMap ∧ WordTaken switchWord (head switchWord) .correctedSwitch ∧
    hall.attention.capture.locked = false ∧ lockedHall.attention.capture.locked = true ∧
    covers (anchorBytes mapWord (head mapWord)) (0x0340 + 6) 1 = true ∧
    fieldAfter mapWord (head mapWord) (0x0340 + 6) 1 = MapEntry.attnR.code ∧
    2 < fieldAfter mapWord (head mapWord) (0x0340 + 8) 1 ∧
    ¬ covers (anchorBytes mapWord (head mapWord)) (0x0340 + 9) 1 = true := by
  simp only [QuietPart, SetsOff, WordTaken, headTakeable_iff]
  decide +kernel

/-- A write of no command's field, one of no byte, and one of two commands. -/
def plainWord : Part := setting hall 0x108 [beat 5 0xFF]
def emptyWord : Part := setting hall 0x100 [beat 5 0]
def twoWords : Part := setting hall 0x330 [beat 0 0x02, beat 256 0x02]

theorem test_hyp_AnchorWriteIsShadowedForwardedAndActedOn :
    (∀ p ∈ [plainWord, emptyWord, twoWords], QuietPart p ∧ HeadTakeable p (head p) ∧ (head p).cls.check = .pass ∧
      (head p).cls.kind = some .anchor) ∧
    anchorActions (anchorBytes plainWord (head plainWord)) = [] ∧ anchorActions (anchorBytes emptyWord (head emptyWord)) = [] ∧
    anchorActions (anchorBytes twoWords (head twoWords)) = [.captureRelease, .correctedSwitch] ∧
    (anchorActions (anchorBytes twoWords (head twoWords))).any (isAction .captureRelease (shadowAfter twoWords (head twoWords))) =
      true ∧
    (∀ value ∈ [4096, 4095], let p := ringWords written 5 value
      HeadTakeable p (head p) ∧ (head p).cls.check = .pass ∧ (head p).cls.kind = some .anchor ∧
      AnchorAction.threshold ∈ anchorActions (anchorBytes p (head p)) ∧ fieldAfter p (head p) 0x0206 2 = value) := by
  simp only [QuietPart, headTakeable_iff]
  decide +kernel

/-! ### Hypotheses: classification and reads -/

theorem test_hyp_Accesses_matched :
    (∀ v, ¬ InWindow hall v 0x700000) ∧ (∀ v, ¬ InWindow hall v 0x0FFFFF) ∧ InWindow hall 1 0x100000 ∧ InWindow hall 1 0x1FFFFF ∧
    (∀ x, x < 1 → ¬ InWindow hall x 0x100000) ∧ InWindow hall 2 0x200000 ∧ (∀ x, x < 2 → ¬ InWindow hall x 0x200000) ∧
    InWindow hall 0 0x3FFF0000 ∧ 64 < 0x700000 % 64 + 8 * 9 ∧ ¬ 64 < 0x700000 % 64 + 8 * 8 ∧ 64 < 0x700008 % 64 + 8 * 8 := by
  simp only [InWindow]
  decide +kernel

theorem test_hyp_Accesses_roles :
    RoleAllows hall.window.masters[(0 : Master)] hall.window.cache[(1 : Window)] .write ∧
    RoleAllows hall.window.masters[(3 : Master)] hall.window.cache[(7 : Window)] .read := by
  simp only [RoleAllows]
  decide +kernel

theorem test_hyp_Accesses_roles_refused :
    ¬ RoleAllows hall.window.masters[(1 : Master)] hall.window.cache[(1 : Window)] .write ∧
    ¬ RoleAllows hall.window.masters[(2 : Master)] hall.window.cache[(7 : Window)] .read := by
  simp only [RoleAllows]
  decide +kernel

theorem test_hyp_Accesses_ranges :
    RangeFits hall.window.masters[(1 : Master)] .press .write 64 8 64 ∧
    RangeFits hall.window.masters[(1 : Master)] .press .write 8176 8 8176 ∧
    ¬ RangeFits hall.window.masters[(4 : Master)] .press .write 64 8 64 := by
  refine ⟨⟨fun _ _ => ?_, by simp, by simp, by simp⟩, ⟨fun _ _ => ?_, by simp, by simp, by simp⟩, fun h => ?_⟩
  · unfold InDesks; decide +kernel
  · unfold InDesks; decide +kernel
  · exact absurd (h.1 rfl rfl) (by unfold InDesks; decide +kernel)

theorem test_hyp_Accesses_limits :
    LimitFits hall.window.cache[(1 : Window)] (8191 * 128) 64 ∧ ¬ LimitFits lowLimit.window.cache[(1 : Window)] (8 * 128) 8 ∧
    LimitFits lowLimit.window.cache[(1 : Window)] (7 * 128) 64 := by
  simp only [LimitFits]
  decide +kernel

/-- The places that accesses name: a record of LOT, BUYER and DESK, a press, a pass, a reply slot and a display page. -/
theorem test_hyp_Accesses_places :
    [accepted hall 0 0x1003C0 [beat 0 1], accepted hall 0 0x2000C8 [beat 0 1], accepted hall 0 0x220020 [beat 0 1],
      pressWrite hall 5 4 1 3, passWrite hall 2 1 9].map (fun w => w.cls.place) =
      [.record 7, .record 3, .record 4, .press 5 4, .track 2 1] ∧
    [reading hall 1 0x240080 4, reading hall 3 0x318040 8, reading hall 0 0x3FFF0000 8, reading hall 4 0x700000 8].map
      (fun r => r.cls.place) = [.reply 4, .display 0 3 0 64, .none, .none] := by decide +kernel

theorem test_hyp_Accesses_form :
    FormFits .press .write [(64, 1), (65, 0), (66, 3), (67, 0)] ∧ ¬ FormFits .press .write [(64, 1), (65, 0)] ∧
    FormFits .lot .write [] := by
  refine ⟨fun _ => ⟨fun _ => ⟨64, by decide, rfl⟩, by simp⟩, fun h => ?_, fun _ => ⟨by simp, by simp⟩⟩
  obtain ⟨slot, -, h⟩ := (h rfl).1 rfl
  simp at h

theorem test_hyp_ReadsAreAnsweredOrForwarded :
    (∀ x ∈ [((0 : Master), (0x2000C0 : Address), WindowKind.buyer), (0, 0x220000, .desk), (1, 0x240080, .reply), (0, 0x3FFF1400, .anchor),
        (0, 0x1003C0, .lot)],
      ReadInto (withRead hall (reading hall x.1 x.2.1 8)) (reading hall x.1 x.2.1 8) x.2.2) ∧
    (∀ x ∈ [((4 : Master), (0x700000 : Address), (none : Option WindowKind)), (4, 0x500000, some .guard), (4, 0x400000, some .ring)],
      ReadTakeable (withRead hall (reading hall x.1 x.2.1 8)) (reading hall x.1 x.2.1 8) ∧
      (reading hall x.1 x.2.1 8).cls.check = .pass ∧ (reading hall x.1 x.2.1 8).cls.kind = x.2.2) ∧
    hall.window.cache[(9 : Window)].valid = true ∧ hall.window.cache[(10 : Window)].valid = false ∧
    RoleAllows hall.window.masters[(4 : Master)] hall.window.cache[(9 : Window)] .read ∧
    ¬ RoleAllows hall.window.masters[(4 : Master)] hall.window.cache[(6 : Window)] .read := by
  simp only [ReadInto, ReadTakeable, RoleAllows]
  decide +kernel

/-- Lot 7 shown as CURRENT, with page 0 and without. -/
def mapped (page : BitVec 64) (p : Part) : Part :=
  p.setDisplay 0 { p.display 0 with current := some { lot := 7, pages := pagesAt page } }

theorem test_hyp_DisplayReadIsBlankLiveOrTranslated :
    (∀ x ∈ [((0x300000 : Address), Place.display 0 0 0 0), (0x300040, .display 0 0 0 64), (0x307FC0, .display 0 0 7 4032),
        (0x308000, .display 0 1 0 0), (0x318000, .display 0 3 0 0), (0x3B8000, .display 5 3 0 0)],
      ReadInto (withRead (mapped 0x600000 hall) (reading hall 3 x.1 8)) (reading hall 3 x.1 8) .display ∧
      (reading hall 3 x.1 8).cls.place = x.2) ∧
    ((mapped 0x600000 hall).display 0).current = some { lot := 7, pages := pagesAt 0x600000 } ∧
    ((mapped 0x600000 hall).display 0).next1 = none ∧
    (pagesAt 0x600000).toList.getD 0 0 ≠ 0 ∧ (pagesAt 0x600000).toList.getD 7 0 = 0 := by
  simp only [ReadInto, ReadTakeable]
  decide +kernel

theorem test_hyp_DisplayRead_slots :
    SlotHolds ((mapped 0x600000 hall).display 0) 0 { lot := 7, pages := pagesAt 0x600000 } ∧
    (∀ m, ¬ SlotHolds ((mapped 0x600000 hall).display 0) 3 m) ∧ ∀ m, ¬ SlotHolds ((mapped 0x600000 hall).display 0) 1 m := by
  have h : ((mapped 0x600000 hall).display 0).next1 = none := by decide +kernel
  refine ⟨Or.inl ⟨rfl, by decide +kernel⟩, fun m => ?_, fun m => ?_⟩
  · rintro (⟨h1, -⟩ | ⟨h1, -⟩ | ⟨h1, -⟩) <;> exact absurd h1 (by decide)
  · rintro (⟨h1, -⟩ | ⟨-, h2⟩ | ⟨h1, -⟩)
    · exact absurd h1 (by decide)
    · exact absurd (h.symm.trans h2) (by simp)
    · exact absurd h1 (by decide)

/-! ### Hypotheses: the Store Port -/

/-- A part in which every requester has a transaction ready. -/
def entryOf (lot : Nat) (forClose : Bool) : WriteBackEntry := { lot := lot, forClose := forClose }
def record (body : RecordBody) : RingRecord := { index := 0, tick := 0, body := body }
def crowded (turn : CatalogueTurn) : Part :=
  { hall with
    catalogue := { hall.catalogue with
      known := [(7, placed .expected 10 0), (8, placed .listing 0 0)], listing := [{ lot := 8, withdrawPending := false }],
      writeBacks := [entryOf 7 false] },
    ring := { hall.ring with queue := [record (.payment 3 1 1 0)] },
    store := { hall.store with
      turn := turn, forwardWrite := some (forwardedOf (accepted hall 4 0x700000 [beat 5 0xFF]) none),
      forwardRead := some displayRead } }

theorem test_hyp_StorePortGrantsInRoundOrder :
    hall.store.inFlight = none ∧ (flying hall (.fetch 8 0x100400) 0).store.inFlight ≠ none ∧
    (∀ r t, ¬ Presents hall r t) ∧
    (∃ x, Presents (crowded .fetchRead) .forward x) ∧ (crowded .fetchRead).store.inFlight = none ∧
    (∃ e address data, Presents (crowded .fetchRead) .catalogue (.writeBack e address data)) ∧
    (∃ lot address, Presents (crowded .writeBack) .catalogue (.fetch lot address)) ∧
    (∃ x, Presents (crowded .fetchRead) .ringWriter x) ∧
    (crowded .fetchRead).store.lastGranted = .ringWriter ∧ roundPlace .ringWriter .forward = 0 := by
  have quiet : ready hall .forward = none ∧ ready hall .catalogue = none ∧ ready hall .ringWriter = none := by decide +kernel
  refine ⟨rfl, by decide +kernel, fun r t h => ?_, ⟨_, (ready_iff _ _ _).mp rfl⟩, rfl, ⟨_, _, _, (ready_iff _ _ _).mp rfl⟩,
    ⟨_, _, (ready_iff _ _ _).mp rfl⟩, ⟨_, (ready_iff _ _ _).mp rfl⟩, rfl, rfl⟩
  have h := (ready_iff hall r t).mpr h
  cases r
  · exact absurd (quiet.1.symm.trans h) (by simp)
  · exact absurd (quiet.2.1.symm.trans h) (by simp)
  · exact absurd (quiet.2.2.symm.trans h) (by simp)

/-- The transactions in flight of each kind. -/
def transactions : List Transaction :=
  [.forwardWrite (forwardedOf (accepted hall 4 0x700000 [beat 5 0xFF]) none), .forwardRead displayRead false,
   .forwardRead displayRead true, .fetch 8 0x100400, .writeBack (entryOf 7 false) 0x1003E8 [0, 0, 0],
   .ringRecord (record (.payment 3 1 1 0)) 0x400000 (List.replicate 8 0)]

theorem test_hyp_RetriesAreExhaustedAtTheSixtyFourth :
    (∀ t ∈ transactions, ∀ n ∈ [0, 62, 63],
      (flying (crowded .fetchRead) t n).store.inFlight = some { transaction := t, retries := n }) ∧ 62 < 63 ∧ 63 ≤ 63 ∧
    (crowded .fetchRead).catalogue.listing = { lot := 8, withdrawPending := false } :: [] ∧
    (crowded .fetchRead).digest 8 = some (placed .listing 0 0) := by decide +kernel

theorem test_hyp_ForwardedTransactionsEndWithTheirAnswer :
    (∀ t ∈ transactions.take 3, (flying hall t 5).store.inFlight = some { transaction := t, retries := 5 }) ∧
    (transactions.take 3).length = 3 ∧ displayRead.merge = none ∧
    { displayRead with merge := some Owned.atListing }.merge = some Owned.atListing ∧
    (∃ k, k < 8 * 8 ∧ 0x68 ≤ 0x1003C0 % 128 + k ∧ 0x1003C0 % 128 + k < 0x80) ∧
    (∃ k, k < 8 * 8 ∧ ¬ (0x68 ≤ 0x1003C0 % 128 + k ∧ 0x1003C0 % 128 + k < 0x80)) := by
  refine ⟨by decide +kernel, rfl, rfl, rfl, ⟨63, by decide⟩, ⟨39, by decide⟩⟩

/-- The upper line's fetch of lot 8 in flight, its lower line kept. -/
def fetched : Part := { crowded .fetchRead with catalogue := { (crowded .fetchRead).catalogue with fetchLower := some (Vector.replicate 8 0) } }

theorem test_hyp_FetchCompletionPlacesRefusesOrWithdraws :
    (∀ p ∈ [crowded .fetchRead, fetched],
      (flying p (.fetch 8 0x100440) 0).store.inFlight = some { transaction := .fetch 8 0x100440, retries := 0 } ∧
      p.catalogue.listing = { lot := 8, withdrawPending := false } :: [] ∧ p.digest 8 = some (placed .listing 0 0)) ∧
    (crowded .fetchRead).catalogue.fetchLower = none ∧ fetched.catalogue.fetchLower = some (Vector.replicate 8 0) := by decide +kernel

/-- Lot 7's close in lane 0. -/
def closingSale : Part := { selling .closing with catalogue := { (selling .closing).catalogue with writeBackOut := some (entryOf 7 true) } }
def closeBody : LotCloseFields :=
  { lane := 0, result := .unsold, lot := 7, sold := 0, withdrawn := 10, strikes := 0, grower := 77, product := 88 }

theorem test_hyp_PartMadeWritesCompleteOrAreIssuedAfresh :
    (∀ t ∈ [Transaction.writeBack (entryOf 7 true) 0x1003E8 [0, 0, 0], .writeBack (entryOf 7 false) 0x1003E8 [0, 0, 0],
        .ringRecord (record (.lotClose closeBody)) 0x400000 [], .ringRecord (record (.payment 3 1 1 0)) 0x400000 []],
      (flying closingSale t 0).store.inFlight = some { transaction := t, retries := 0 }) ∧
    (entryOf 7 false).forClose = false ∧ (entryOf 7 true).forClose = true ∧ (closingSale.lane 0).live = some 7 ∧
    (closingSale.lane 0).state = .closing ∧ closingSale.digest 7 = some (placed .live 10 0) ∧
    (∀ j : Lane, j < 0 → ¬ ((closingSale.lane j).live = some 7 ∧ (closingSale.lane j).state = .closing)) ∧
    (∀ i : Lane, ¬ ((hall.lane i).live = some 7 ∧ (hall.lane i).state = .closing)) ∧
    (let p := { shown .live with window := { hallWindows with dayState := .closing } }
     p.window.dayState = .closing ∧ (p.track 0).display = some trolley ∧ p.digest 7 = some (placed .live 10 0)) := by
  simp only []
  decide +kernel

/-! ### Hypotheses: the end of an event, and what every step keeps -/

/-- Lane 0 waiting on the ring for its round. -/
def waiting (need : Nat) (ret : ReturnState) : Part :=
  { lane0 (fun l => { l with state := .held, ret := ret, holds := { HoldSet.none with ring := true } }) hall with
    ring := { hall.ring with waiters := [{ lane := 0, need := need }], threshold := 4000 } }

theorem test_hyp_EventEndServesTheRingWaiters :
    WaitersSound (waiting 5 .paused) ∧ WaitersSound (waiting 1 .idle) ∧
    freeCount (ringFull (waiting 5 .paused)) < freeCount (waiting 5 .paused) ∧
    hall.ring.waiters.head? ≠ (waiting 5 .paused).ring.waiters.head? ∧
    (waiting 5 .paused).ring.threshold ≤ freeCount (waiting 5 .paused) ∧
    freeCount (ringFull (waiting 5 .paused)) < (waiting 5 .paused).ring.threshold ∧
    (let p := (waiting 5 .paused).notify 1
     WaitersSound p ∧ (p.display 1).notified = true ∧ (p.display 2).notified = false) := by
  simp only [WaitersSound]
  decide +kernel

theorem test_hyp_StepKeepsTheBusWindowsAndAttention :
    (let s : State := { part := hall, pending := [.hallTick] }
     WindowsSound s ∧ FloorSound s ∧ AttentionSound s ∧ s.part.store.inFlight = none) ∧
    after hall .hallTick (fun p => p.ticks.count == 1) = true := by
  simp only [AttentionSound, FloorSound, WindowsSound]
  decide +kernel

theorem test_hyp_StepKeepsLanesQueuesAndTables :
    (let s : State := { part := selling .running, pending := [.hallTick] }
     QueuesSound s ∧ TablesSound s ∧ Quiet s ∧ WaitersSound s.part) ∧
    after (selling .running) .hallTick (fun p => p.ticks.count == 1) = true := by
  simp only [QueuesSound, Quiet, TablesSound, WaitersSound]
  decide +kernel

theorem test_hyp_StepKeepsLanes_sound : LanesSound { part := hall, pending := [.hallTick] } := by
  intro i
  have h : ∀ i : Lane, hall.lane i = LaneUnit.afterReset false := by decide +kernel
  show LaneSound (hall.lane i)
  rw [h i]
  exact ⟨trivial, by decide, by decide, by decide, by decide⟩

/-! ### The numeric encodings (11.2) -/

theorem test_codes_windows :
    (List.range 11).map WindowKind.ofCode = [some .anchor, some .guard, some .lot, some .buyer, some .desk, some .press, some .reply,
      some .track, some .display, some .ring, none] ∧
    (List.range 6).map Role.ofCode = [some .plain, some .control, some .desk, some .track, some .display, none] ∧
    (List.range 3).map GrantClass.ofCode = [some .normal, some .high, none] := by decide +kernel

theorem test_codes_words :
    (List.range 6).map StopMode.ofCode = [some .falling, some .rising, some .both, some .levelLow, some .levelHigh, none] ∧
    (List.range 4).map MapEntry.ofCode = [some .none, some .attnU, some .attnR, none] ∧
    (List.range 4).map DayCommand.ofCode = [.unknown, .openDay, .closeDay, .unknown] ∧
    (List.range 4).map Station.ofCode = [some .gate, some .display, some .exit, none] ∧
    (List.range 3).map BuyerStatus.ofCode = [.blocked, .active, .blocked] ∧
    (List.range 8).map (fun c => LaneCommand.ofCodes c 1) =
      [.unknown, .start, .hold, .resumeDiscard, .withdraw, .enable, .disable, .unknown] ∧
    (List.range 4).map (LaneCommand.ofCodes 3) = [.unknown, .resumeDiscard, .resumeFlush, .unknown] := by decide +kernel

/-! ### One step of a command, and what it leaves -/

theorem test_powerOn : after hall (.powerOn ⟨5, true, 2⟩) (fun p => (p.lane 1).stopLevel && !(p.lane 0).stopLevel &&
    p.window.cache[(0 : Window)].base == 0x17FFF0000 && p.ticks.refSel && p.window.dayState == .closed) = true := by decide +kernel

theorem test_resetn : after (selling .running) (.resetn ⟨0, false, 0⟩) (fun p => p == State.reset.part) = true := by decide +kernel

theorem test_fbRstn : after (withRead hall (reading hall 3 0x300000 8)) .fbRstn (fun p => p.floor.grant == none &&
    p.floor.read == none && p.floor.fbResetLow) = true := by decide +kernel

theorem test_stopInputChange : after (stopped .falling true) (.stopInputChange 0 false) (fun p => (p.lane 0).state == .held &&
    (p.lane 0).holds.stop && p.attention.counts[(10 : Fin 18)] == 1) = true := by decide +kernel

theorem test_hallTick : after (lane0 (fun l => { l with timer := .counting .step 3 }) hall) .hallTick (fun p => p.ticks.count == 1 &&
    (p.lane 0).timer == .counting .step 2) = true := by decide +kernel

theorem test_grantChoice : after hall (.grantChoice 0x83) (fun p => p.floor.grant == some 0 && p.floor.streak == 1) = true := by decide +kernel

theorem test_floorBusWrite : after { hall with floor := granted 8 } (.floorBusWrite 0x230040 [beat 1 15]) (fun p =>
    p.floor.buffer.length == 8 && p.floor.response == some { master := 1, answer := .backoff }) = true := by decide +kernel

theorem test_floorBusRead : after { hall with floor := granted 0 } (.floorBusRead 0x240080 8) (fun p =>
    p.floor.grant == some 1 && (p.floor.read.map fun r => r.cls.place) == some (.reply 4)) = true := by decide +kernel

theorem test_forwardedWrite : after (withHead hall (accepted hall 4 0x500000 [beat 5 1])) .forwardedWrite (fun p =>
    p.floor.buffer == [] && p.store.forwardWrite.isSome) = true := by decide +kernel

theorem test_lotWrite : after (withHead (withLot (placed .expected 10 0) hall) ownedWrite) .lotWrite (fun p =>
    p.store.forwardWrite == none && p.attention.capture.kind == some .owned) = true := by decide +kernel

theorem test_listRequest : after (withHead hall (request hall 1)) .listRequest (fun p => p.lotState 7 == some .listing &&
    p.catalogue.listing == [{ lot := 7, withdrawPending := false }]) = true := by decide +kernel

theorem test_withdrawRequest : after (withHead (withLot (placed .expected 10 0) hall) (request hall 2)) .withdrawRequest (fun p =>
    p.lotState 7 == some .withdrawn && p.catalogue.writeBacks.length == 1) = true := by decide +kernel

/-- R5: a request whose write covers an owned byte of a known lot is dropped. -/
theorem test_withdrawRequest_owned : after (withHead (withLot (placed .expected 10 0) hall) (ownedRequest hall 2)) .withdrawRequest
    (fun p => p.lotState 7 == some .expected && p.attention.capture.kind == some .owned && p.store.forwardWrite == none) = true := by decide +kernel

/-- R139, R140, R142: the map of a withdrawn lot's lane is rebuilt from what comes. -/
theorem test_withdrawRequest_map : after (withHead (queued [7] (mapped 0x600000 (withLot (placed .expected 10 0) hall))) (request hall 2))
    .withdrawRequest (fun p => (p.display 0).current == none && (p.display 0).next1 == none && (p.display 0).generation == 1) =
    true := by decide +kernel

theorem test_press : after (pressing (selling .running) 0 4 1 3) .press (fun p => (p.lane 0).state == .struck &&
    (p.buyer 3).exposure == 300 && (p.desk 4).reply.outcome == .accepted && p.ring.queue.length == 1) = true := by decide +kernel

theorem test_gatePass : after (passing (expecting [] []) 0 0 9) .gatePass (fun p => (p.track 0).staging == [trolley] &&
    (p.track 0).late == others && p.lotState 7 == some .staged && p.lotState 1 == some .late) = true := by decide +kernel

theorem test_displayPass : after (passing (staged none) 0 1 9) .displayPass (fun p => (p.lane 0).state == .primed &&
    (p.lane 0).live == some 7 && (p.lane 0).price == 100 && ((p.display 0).current.map fun m => m.lot) == some 7) = true := by decide +kernel

theorem test_exitPass : after (passing (shown .closed) 0 2 9) .exitPass (fun p => (p.track 0).display == none &&
    p.digest 7 == none) = true := by decide +kernel

theorem test_start : after (commanding (selling .primed) 1 0) .start (fun p => (p.lane 0).state == .running &&
    (p.lane 0).commandResult == .done) = true := by decide +kernel

theorem test_hold : after (commanding (selling .running) 2 0) .hold (fun p => (p.lane 0).state == .held &&
    (p.lane 0).ret == .paused && (p.lane 0).roundReserved == 0) = true := by decide +kernel

theorem test_resumeDiscard : after (commanding (heldTrack 9) 3 1) .resumeDiscard (fun p => (p.lane 0).state == .primed &&
    !(p.track 0).fault.stopped && (p.track 0).backlog == []) = true := by decide +kernel

theorem test_resumeFlush : after (commanding (heldTrack 9) 3 2) .resumeFlush (fun p => (p.lane 0).state == .idle &&
    (p.track 0).staging == [trolley] && (p.track 0).backlog == []) = true := by decide +kernel

theorem test_withdrawCommand : after (commanding (selling .running) 4 0) .withdrawCommand (fun p => (p.lane 0).state == .closing &&
    ((p.digest 7).map fun d => d.owned.withdrawn) == some 10 && p.ring.queue.length == 1) = true := by decide +kernel

theorem test_enable : after (commanding hall 5 0) .enable (fun p => (p.lane 0).enabled) = true := by decide +kernel

theorem test_disable : after (commanding (selling .running) 6 0) .disable (fun p => (p.lane 0).enabled &&
    (p.lane 0).commandResult == .refusedState) = true := by decide +kernel

theorem test_unknownLaneCommand : after (commanding hall 3 0) .unknownLaneCommand (fun p =>
    (p.lane 0).commandResult == .unknown) = true := by decide +kernel

theorem test_laneParameterWrite : after (paramSet 255 10000) .laneParameterWrite (fun p => (p.lane 0).params.stepInterval == 255 &&
    (p.lane 0).params.defaultStep == 10 && (p.lane 0).parameterResult == .refusedRange) = true := by decide +kernel

theorem test_stopModeWrite : after (modeSet 3) .stopModeWrite (fun p => (p.lane 0).state == .held &&
    (p.lane 0).params.stopMode == .levelLow) = true := by decide +kernel

theorem test_deskWrite : after (withHead hall (deskSet 2048)) .deskWrite (fun p => (p.desk 4).buyer == 0) = true := by decide +kernel

theorem test_buyerWrite : after (withHead hall (recordWrite hall 0x2000C8 [beat 999 0xFF])) .buyerWrite (fun p =>
    (p.buyer 3).limit == 999 && (p.buyer 3).external == 1234) = true := by decide +kernel

theorem test_payment : after (paying (buying (fun b => { b with exposure := 9 }) hall) 3 5) .payment (fun p =>
    (p.buyer 3).exposure == 4 && p.account.paymentResult == { outcome := .done, applied := 5, exposureAfter := 4 } &&
    p.ring.queue.length == 1) = true := by decide +kernel

theorem test_invoiceCloseWord : after (invoicing invoiced 3) .invoiceCloseWord (fun p => (p.buyer 3).invoice == 0 &&
    p.account.closeResult == { outcome := .done, number := 1, lines := 63, total := 500 }) = true := by decide +kernel

theorem test_consumerIndexWord : after (consuming 6) .consumerIndexWord (fun p => p.ring.consumer == 0 &&
    p.ring.consumerResult == .refusedIndex && p.attention.capture.kind == some .ringIndex) = true := by decide +kernel

theorem test_ringLowThresholdWrite : after (thresholding written 4095) .ringLowThresholdWrite (fun p => p.ring.threshold == 4095 &&
    p.attention.counts[(12 : Fin 18)] == 1) = true := by decide +kernel

/-- Lane 0 waiting with need 5, or no lane, and 3 slots free. -/
def shortRing (waiters : List Waiter) : Part :=
  { waiting 5 .paused with ring := { hall.ring with waiters := waiters, assigned := 4092, published := 4092 } }

/-- R133: a write of consumer index 7 and threshold 8 is judged by the free count after the waiters' service, in either order. -/
theorem test_ringWordsTogether : ∀ order ∈ [[AnchorAction.consumerIndex, .threshold], [.threshold, .consumerIndex]],
    ∀ x ∈ [([{ lane := 0, need := 5 }], 5, 1), ([], 10, 0)],
      let p := ringWords (shortRing x.1) 7 8
      let q := settleAnchor (head p) p (order.foldl (perform (head p) (anchorBytes p (head p))) (anchorBefore p (head p)))
      freeCount p = 3 ∧ anchorActions (anchorBytes p (head p)) = [.consumerIndex, .threshold] ∧ freeCount q = x.2.1 ∧
        q.attention.counts[(12 : Fin 18)] = x.2.2 := by
  simp only []
  decide +kernel

/-- Lane 0 waiting with need 5 and 3 slots free, lane 1 RUNNING with 5 reserved and a FALLING stop input that is high. -/
def runningBesideWaiter : Part :=
  let p := shortRing [{ lane := 0, need := 5 }]
  let l := p.lane 1
  { p with ring := { p.ring with assigned := 4087, published := 4087 } }.setLane 1
    { l with state := .running, roundReserved := 5, stopLevel := true, params := { l.params with stopMode := .falling } }

/-- R70, R61, R65: a STOP of a RUNNING lane returns its round slots, which serve the waiting lane. -/
theorem test_stopInputChange_waiter :
    freeCount runningBesideWaiter = 3 ∧ runningBesideWaiter.ring.waiters ≠ [] ∧
    after runningBesideWaiter (.stopInputChange 1 false) (fun p => p.ring.waiters.isEmpty && (p.lane 1).state == .held &&
      (p.lane 1).roundReserved == 0 && (p.lane 0).state == .running && (p.lane 0).roundReserved == 5 && freeCount p == 3) = true := by decide +kernel

theorem test_dayOpen : after (dayWord night 1 9) .dayOpen (fun p => p.window.dayState == .opened && p.window.dayNumber == 9 &&
    p.ring.closingMark && p.ring.queue.length == 1) = true := by decide +kernel

theorem test_dayClose : after (dayWord hall 2 0) .dayClose (fun p => p.window.dayState == .closed && p.ring.queue.length == 1 &&
    p.attention.counts[(17 : Fin 18)] == 1) = true := by decide +kernel

/-- R20, R40: the live lot and its Display Position stay, and lane 1's lot is withdrawn with its write-back. -/
theorem test_dayClose_kept : after (dayWord openSale 2 0) .dayClose (fun p => p.window.dayState == .closing &&
    (p.track 0).display == some trolley && p.digest 7 == some (placed .live 10 0) && p.lotState 8 == some .withdrawn &&
    (p.track 1).display == none && p.expected 1 == [] && p.catalogue.writeBacks.length == 1 &&
    p.digest 9 == none) = true := by decide +kernel

theorem test_unknownDayCommand : after (dayWord hall 3 0) .unknownDayCommand (fun p => p.window.dayResult == .unknown &&
    p.window.dayState == .opened) = true := by decide +kernel

theorem test_windowCommit : after (committing night 8 (described 9 0x400000 128 0) 1) .windowCommit (fun p =>
    p.ring.geometry == some { base := 0x400000, capacity := 8192 } && p.window.windowResults[(8 : Window)].result == .done) = true := by decide +kernel

/-- Each descriptor that a check refuses or passes, with the reason it gets in an OPEN day (DAY-NOT-CLOSED before RING-BUSY). -/
theorem test_windowCommit_reasons :
    descriptors.map (fun x => match step { part := committing hall x.1 x.2 1, pending := [.windowCommit] } with
      | .next t => t.part.window.windowResults[x.1].reason | _ => .badEntry) =
    [.badKind, .badKind, .align, .align, .size, .size, .limit, .limit, .overlap, .duplicateKind, .dayNotClosed, .dayNotClosed,
     .dayNotClosed, .dayNotClosed, .none] := by decide +kernel

theorem test_windowRemoval : after (committing busyRing 8 (described 0 0 0 0) 0) .windowRemoval (fun p =>
    p.window.cache[(8 : Window)].valid && p.window.windowResults[(8 : Window)].reason == .ringBusy) = true := by decide +kernel

theorem test_masterCommit : after (mastering 7 3 0 0 255 5 5) .masterCommit (fun p =>
    p.window.masters[(7 : Master)] == { role := .track, privilege := 0, grantClass := .normal, firstDesk := 0, deskCount := 0,
                                        laneMask := 63 }) = true := by decide +kernel

theorem test_flagClear : after flagWord .flagClear (fun p => p.attention.flags == 0 &&
    p.attention.clearResult.outcome == .done) = true := by decide +kernel

theorem test_captureRelease : after (releaseWord lockedHall) .captureRelease (fun p => !p.attention.capture.locked &&
    p.attention.releaseResult.outcome == .done) = true := by decide +kernel

theorem test_eventMapWrite : after mapWord .eventMapWrite (fun p => p.attention.map[(6 : Fin 18)] == .attnR &&
    p.attention.map[(7 : Fin 18)] == .attnU && p.attention.map[(8 : Fin 18)] == .none) = true := by decide +kernel

/-- R180: an entry that does not name NONE, ATTN_U or ATTN_R keeps its value. -/
theorem test_eventMapWrite_keeps : after (setting { hall with attention := { hall.attention with map := hall.attention.map.set 8 .attnR } }
    0x348 [beat 3 0x01]) .eventMapWrite (fun p => p.attention.map[(8 : Fin 18)] == .attnR) = true := by decide +kernel

theorem test_reportCorrectedSwitchWrite : after switchWord .reportCorrectedSwitchWrite (fun p => p.attention.reportCorrected) =
    true := by decide +kernel

theorem test_anchorWrite : after plainWord .anchorWrite (fun p => Memory.field p.window.shadow 0x108 8 == 5 &&
    p.store.forwardWrite.isSome) = true := by decide +kernel

theorem test_refusedWindowWrite : after (withHead hall (accepted hall 4 0x100380 [beat 0 1])) .refusedWindowWrite (fun p =>
    p.floor.buffer == [] && p.attention.capture.kind == some .rights && p.attention.capture.master == some 4) = true := by decide +kernel

/-- The beats that a read was answered with. -/
def answered (p : Part) : List Beat := match p.floor.response with | some { answer := .done data, .. } => data | _ => []

theorem test_lotRead : after (withRead (withLot (placed .live 10 0) hall) (reading hall 0 0x1003C0 8)) .lotRead (fun p =>
    (p.store.forwardRead.map fun r => r.merge) == some (some (placed .live 10 0).owned)) = true := by decide +kernel

theorem test_buyerRead : after (withRead hall (reading hall 0 0x2000C0 2)) .buyerRead (fun p =>
    answered p == [1234 + 2 ^ 24 + 63 * 2 ^ 32, 10000]) = true := by decide +kernel

theorem test_deskRead : after (withRead hall (reading hall 0 0x220020 1)) .deskRead (fun p => answered p == [3]) = true := by decide +kernel

theorem test_replyRead : after (withRead hall (reading hall 1 0x240080 4)) .replyRead (fun p => answered p == [0, 0, 0, 0]) =
    true := by decide +kernel

theorem test_displayRead : after (withRead (mapped 0x600000 hall) (reading hall 3 0x300040 8)) .displayRead (fun p =>
    (p.store.forwardRead.map fun r => r.address) == some 0x600040) = true := by decide +kernel

theorem test_displayRead_blank : after (withRead hall (reading hall 3 0x318000 2)) .displayRead (fun p =>
    answered p == [0, 0] && (p.display 0).holeCount == 1) = true := by decide +kernel

theorem test_rightsProbe : after (withRead hall (reading hall 0 0x3FFF1488 1)) .rightsProbe (fun p =>
    answered p == [1 + 256]) = true := by decide +kernel

/-- R73: the lane status shows the live lot, the round and the timer's count. -/
theorem test_rightsProbe_status : after (withRead (selling .running) (reading hall 0 0x3FFF0820 2)) .rightsProbe (fun p =>
    answered p == [2, 7 + 2 ^ 16 + 2 ^ 48 + 5 * 2 ^ 56]) = true := by decide +kernel

theorem test_forwardedRead : after (withRead hall (reading hall 4 0x700000 8)) .forwardedRead (fun p =>
    (p.store.forwardRead.map fun r => r.address) == some 0x700000) = true := by decide +kernel

theorem test_storePortGrant : after (crowded .fetchRead) .storePortGrant (fun p => p.store.lastGranted == .forward &&
    p.store.inFlight.isSome) = true := by decide +kernel

theorem test_storePortRetry : after (flying hall (.fetch 8 0x100400) 62) .storePortRetry (fun p =>
    (p.store.inFlight.map fun f => f.retries) == some 63) = true := by decide +kernel

theorem test_retryExhausted : after (flying (crowded .fetchRead) (.fetch 8 0x100400) 63) .retryExhausted (fun p =>
    p.store.inFlight == none && p.attention.capture.kind == some .retryExhausted && p.lotState 8 == some .refused) = true := by decide +kernel

theorem test_forwardedReadCompletion : after (flying hall (.forwardRead displayRead false) 0)
    (.forwardedReadCompletion .uncorrectable (Vector.replicate 8 0)) (fun p =>
      p.floor.response == some { master := 3, answer := .fault } && p.attention.flags.getLsbD 7) = true := by decide +kernel

theorem test_forwardedWriteCompletion : after (flying (crowded .fetchRead) (transactions.headD (.fetch 0 0)) 0)
    (.forwardedWriteCompletion .ok) (fun p => p.store.inFlight == none && p.store.forwardWrite == none) = true := by decide +kernel

/-- The lower line of lot 8's record: lane 0, position 1, sequence 3, tag 50, 10 units of 2 pieces, prices 100 and 20, minimum 1. -/
def lowerLine : Vector Beat 8 :=
  #v[0x0000000300000100, 0x0002000A00000032, 0x0000001400000064, 0x0000000000010000, 0, 0, 0, 0]

theorem test_fetchReadCompletion : after (flying (lane0 (fun l => { l with enabled := true })
      { fetched with catalogue := { fetched.catalogue with fetchLower := some lowerLine } }) (.fetch 8 0x100440) 0)
    (.fetchReadCompletion .ok (Vector.replicate 8 0)) (fun p => p.expected 0 == [8] && p.lotState 8 == some .expected &&
      p.catalogue.placedCount == 1) = true := by decide +kernel

theorem test_writeBackCompletion : after (flying { closingSale with catalogue := { closingSale.catalogue with
      known := [(7, placed .closed 0 10)] } } (.writeBack (entryOf 7 true) 0x1003E8 [0, 0, 0]) 0)
    (.writeBackCompletion false) (fun p => (p.lane 0).state == .idle && (p.lane 0).live == none) = true := by decide +kernel

theorem test_ringRecordCompletion : after (flying { closingSale with ring := { hall.ring with
      queue := [record (.lotClose closeBody)], assigned := 1 } } (.ringRecord (record (.lotClose closeBody)) 0x400000 []) 0)
    (.ringRecordCompletion false) (fun p => p.lotState 7 == some .closed && p.ring.published == 1 && p.ring.queue == []) = true := by decide +kernel

theorem test_preRollExpiry : after (lane0 (fun l => { l with timer := .counting .preRoll 0 }) (selling .primed)) (.preRollExpiry 0)
    (fun p => (p.lane 0).state == .running && (p.lane 0).round == 2) = true := by decide +kernel

theorem test_restartPauseExpiry : after (ringFull (lane0 (fun l => { l with timer := .counting .restartPause 0, roundReserved := 0 })
    (selling .paused))) (.restartPauseExpiry 0) (fun p => (p.lane 0).state == .held && p.ring.waiters.length == 1) = true := by decide +kernel

theorem test_stepTimerExpiry : after (stepping 22) (.stepTimerExpiry 0) (fun p => (p.lane 0).price == 20) = true := by decide +kernel

theorem test_contenderWindowExpiry : after (serving 3 id) (.contenderWindowExpiry 0) (fun p => (p.lane 0).state == .paused &&
    (p.buyer 3).exposure == 300 && (p.desk 4).reply.position == 1) = true := by decide +kernel

theorem test_partMadeWriteUncorrectable : after (flying closingSale (.ringRecord (record (.lotClose closeBody)) 0x400000 []) 0)
    .partMadeWriteUncorrectable (fun p => p.store.inFlight == none && p.attention.capture.mark == .ringRecord) = true := by decide +kernel

theorem test_readAnsweredFault : after (withRead hall (reading hall 4 0x230000 1)) .readAnsweredFault (fun p =>
    p.floor.response == some { master := 4, answer := .fault } && p.attention.capture.kind == some .rights) = true := by decide +kernel

theorem test_fbRstnRelease : after { hall with floor := { hall.floor with fbResetLow := true } } (.fbRstnRelease 0x02) (fun p =>
    !p.floor.fbResetLow && p.floor.grant == some 1) = true := by decide +kernel

theorem test_idle : step { part := hall, pending := [] } = .next { part := hall, pending := [] } := rfl

end Sys2Proof.Tests
end

section
/-! PROOFS. Passes at the stations: the one law of their taking, passes that wait or are discarded, and what a DISPLAY and an EXIT pass
do (R24, R29, R31, R33, R35, R42). -/

namespace Sys2Proof.Machine

open Sys2Proof.Safety

/-! ### The taking of a pass -/

/-- R24: the three rows of passes are one taking, each of its station. -/
theorem exec_passCommand (st : Station) (s : State) :
    exec (passCommand st) s = actOn s (takeWrite (isPass st) takePassWrite) := by cases st <;> rfl

/-- A pass that may be taken is of its station's row. -/
theorem isPass_of_takeable {p : Part} {w : PostedWrite} {i : Lane} {pass : Pass} (h : PassTakeable p w i pass) :
    isPass pass.station p w = true := by
  obtain ⟨_, hcheck, hkind, hpass⟩ := h
  simp [isPass, PostedWrite.into, hcheck, hkind, hpass]

/-- R24: the taking of a pass, as one event. -/
theorem exec_pass_taken {s : State} {w : PostedWrite} {i : Lane} {pass : Pass} (h : PassTakeable s.part w i pass) :
    exec (passCommand pass.station) s = .next { s with part := settle s.part (takePass (popWrite s.part) i pass) } := by
  have hrow := isPass_of_takeable h
  obtain ⟨hhead, _, _, hpass⟩ := h
  rw [exec_passCommand, actOn, takeWrite_of _ _ _ w hhead hrow, takePassWrite, hpass]

theorem takePass_runs (p : Part) (i : Lane) (pass : Pass) (hday : p.window.dayState = .opened)
    (hrun : (p.track i).fault.stopped = false) : takePass p i pass = tellLane (carryOut p i pass) i := by
  simp [takePass, hday, hrun]

/-- R24: a pass on an OPEN day with its track running is carried out, and the lane is told of it. -/
theorem exec_pass_runs {s : State} {w : PostedWrite} {i : Lane} {pass : Pass} (h : PassRuns s.part w i pass) :
    ∃ t, exec (passCommand pass.station) s = .next t ∧
      t.part = settle s.part (tellLane (carryOut (popWrite s.part) i pass) i) := by
  obtain ⟨htake, hday, hrun⟩ := h
  refine ⟨_, exec_pass_taken htake, ?_⟩
  rw [takePass_runs (popWrite s.part) i pass hday hrun]

/-- R33: a pass whose carrying out faults. -/
theorem exec_pass_faults {s : State} {w : PostedWrite} {i : Lane} {pass : Pass} {expected : Word32} {reason : TrackFault}
    (h : PassRuns s.part w i pass)
    (hc : carryOut (popWrite s.part) i pass = faultPass (popWrite s.part) i pass expected reason) :
    ∃ t q, exec (passCommand pass.station) s = .next t ∧ t.part = settle s.part q ∧
      PassFaulted s.part q i pass expected reason := by
  obtain ⟨t, hexec, hpart⟩ := exec_pass_runs h
  rw [hc] at hpart
  exact ⟨t, _, hexec, hpart, faultPass_faulted s.part i pass expected reason⟩

/-! ### Passes that wait (R35, R42) -/

/-- What a pass that is not carried out makes of its track: it joins the backlog's tail on an OPEN day while there is room, and else is
discarded and counted. -/
def trackAfterWait (p : Part) (i : Lane) (pass : Pass) : TrackLane :=
  if p.window.dayState = .opened ∧ (p.track i).backlog.length < 8 then
    { p.track i with backlog := (p.track i).backlog ++ [pass] }
  else { p.track i with discarded := (p.track i).discarded + 1 }

/-- R35, R42: a pass taken on a day that is not OPEN, or while its track is stopped, changes its track alone. -/
theorem takePass_waits (p : Part) (i : Lane) (pass : Pass)
    (h : p.window.dayState ≠ .opened ∨ (p.track i).fault.stopped = true) :
    takePass p i pass = p.setTrack i (trackAfterWait p i pass) := by
  unfold takePass trackAfterWait
  by_cases hday : p.window.dayState = .opened
  · have hstop : (p.track i).fault.stopped = true := h.resolve_left (not_not_intro hday)
    by_cases hroom : (p.track i).backlog.length < 8 <;>
      simp [hday, hstop, hroom, backlogPass, discardPass, Config.backlogPasses]
  · simp [hday, discardPass]

/-- An event that changes a track alone, beside the buffer's head, ends as it stands. -/
theorem settle_setTrack_popWrite (p : Part) (i : Lane) (t : TrackLane) (h : QuietPart p) :
    settle p ((popWrite p).setTrack i t) = (popWrite p).setTrack i t :=
  settle_same _ _ (.of_blocks rfl rfl rfl) (quietPart_congr (p := p) rfl h)

/-- Settles O21: the taking changes the track alone, so the event's end changes nothing, and the clauses are the cases of
`trackAfterWait`. -/
theorem passesWaitInTheBacklogOrAreDiscarded : Obligations.PassesWaitInTheBacklogOrAreDiscarded := by
  intro s w i pass hquiet htake hwait
  have hexec := exec_pass_taken htake
  rw [takePass_waits (popWrite s.part) i pass hwait, settle_setTrack_popWrite _ _ _ hquiet] at hexec
  have htrack : ((popWrite s.part).setTrack i (trackAfterWait s.part i pass)).track i = trackAfterWait s.part i pass :=
    Part.setTrack_track_same _ _ _
  refine ⟨_, hexec, rfl, fun j hj => Part.setTrack_track_other _ _ _ _ hj, ?_, ?_, ?_⟩
  · intro hday hroom
    exact htrack.trans (if_pos ⟨hday, hroom⟩)
  · intro _ hfull
    exact htrack.trans (if_neg fun hc => Nat.not_lt.mpr hfull hc.2)
  · intro hday
    exact htrack.trans (if_neg fun hc => hday hc.1)

/-! ### DISPLAY passes (R29) -/

/-- R141: a notice after an operation that leaves the displays alone tells the Display Mapper of that lane only. -/
theorem notify_told {p q : Part} (i : Lane) (h : q.displays = p.displays) : Told p (q.notify i) i := by
  have hd : ∀ j, q.display j = p.display j := fun j => by simp only [Part.display, h]
  refine ⟨?_, fun j hj => ?_⟩
  · rw [← hd i]; exact Part.setDisplay_display_same _ _ _
  · rw [← hd j]; exact Part.setDisplay_display_other _ _ _ _ hj

/-- R29: the part with the Staging head `y` moved to the Display Position and the trolleys `rest` left in the Staging List. -/
def broughtToDisplay (p : Part) (i : Lane) (y : Trolley) (rest : List Trolley) : Part :=
  (setLotStates (p.setTrack i { p.track i with staging := rest, display := some y }) y.lots .atClock).notify i

theorem broughtToDisplay_tracks (p : Part) (i : Lane) (y : Trolley) (rest : List Trolley) :
    (broughtToDisplay p i y rest).tracks =
      (p.setTrack i { p.track i with staging := rest, display := some y }).tracks := by
  simp [broughtToDisplay]

@[simp] theorem broughtToDisplay_track_same (p : Part) (i : Lane) (y : Trolley) (rest : List Trolley) :
    (broughtToDisplay p i y rest).track i = { p.track i with staging := rest, display := some y } := by
  rw [Part.track, broughtToDisplay_tracks]
  exact Part.setTrack_track_same _ _ _

theorem broughtToDisplay_track_other (p : Part) (i j : Lane) (y : Trolley) (rest : List Trolley) (h : j ≠ i) :
    (broughtToDisplay p i y rest).track j = p.track j := by
  rw [Part.track, broughtToDisplay_tracks]
  exact Part.setTrack_track_other _ _ _ _ h

/-- R23: the trolley's lots are AT-CLOCK, but for those WITHDRAWN. -/
theorem broughtToDisplay_lotsSet (p : Part) (i : Lane) (y : Trolley) (rest : List Trolley) :
    LotsSet p (broughtToDisplay p i y rest) y.lots .atClock :=
  (setLotStates_set (p.setTrack i { p.track i with staging := rest, display := some y }) y.lots .atClock).1

theorem broughtToDisplay_told (p : Part) (i : Lane) (y : Trolley) (rest : List Trolley) :
    Told p (broughtToDisplay p i y rest) i := notify_told i (by simp)

/-- Beside the track and the notice only the table of known lots differs. -/
theorem broughtToDisplay_catalogue (p : Part) (i : Lane) (y : Trolley) (rest : List Trolley) :
    (broughtToDisplay p i y rest).catalogue =
      { p.catalogue with known := (broughtToDisplay p i y rest).catalogue.known } :=
  congrArg Part.catalogue
    (setLotStates_set (p.setTrack i { p.track i with staging := rest, display := some y }) y.lots .atClock).2

theorem broughtToDisplay_frame (p : Part) (i : Lane) (y : Trolley) (rest : List Trolley) :
    let q := broughtToDisplay p i y rest
    q = { p with tracks := q.tracks, catalogue := q.catalogue, displays := q.displays } := by
  apply Part.ext_blocks <;> simp [broughtToDisplay]

theorem displayPass_brings {p : Part} {i : Lane} {pass : Pass} {y : Trolley} {rest : List Trolley}
    (hs : (p.track i).staging = y :: rest) (htag : y.tag = pass.tag) (hd : (p.track i).display = none) :
    displayPass p i pass = { part := broughtToDisplay p i y rest, arrived := true, faulted := false } := by
  simp [displayPass, hs, htag, hd, broughtToDisplay]

theorem displayPass_order {p : Part} {i : Lane} {pass : Pass}
    (h : firstTag (p.track i).staging ≠ pass.tag ∨ (p.track i).staging = []) :
    displayPass p i pass = faultPass p i pass (firstTag (p.track i).staging) .order := by
  cases hs : (p.track i).staging with
  | nil => simp [displayPass, hs, firstTag]
  | cons y rest =>
    have htag : y.tag ≠ pass.tag := by simpa [hs, firstTag] using h
    simp [displayPass, hs, firstTag, htag]

theorem displayPass_overrun {p : Part} {i : Lane} {pass : Pass} {y z : Trolley} {rest : List Trolley}
    (hs : (p.track i).staging = y :: rest) (htag : y.tag = pass.tag) (hd : (p.track i).display = some z) :
    displayPass p i pass = faultPass p i pass z.tag .overrun := by
  simp [displayPass, hs, htag, hd]

/-- Settles O23: a DISPLAY pass is carried out by `displayPass`, whose three outcomes are the statement's clauses; at an arrival
the lane's look follows. -/
theorem displayPassBringsTheStagingHead : Obligations.DisplayPassBringsTheStagingHead := by
  intro s w i pass hruns hst
  have hcarry : carryOut (popWrite s.part) i pass = displayPass (popWrite s.part) i pass := by simp only [carryOut, hst]
  have hcmd : passCommand pass.station = .displayPass := by rw [hst]; rfl
  rw [← hcmd]
  refine ⟨fun y rest hs htag hd => ?_, fun horder => ?_, fun y z rest hs htag hd => ?_⟩
  · obtain ⟨t, hexec, hpart⟩ := exec_pass_runs hruns
    rw [hcarry, displayPass_brings (p := popWrite s.part) hs htag hd] at hpart
    exact ⟨t, broughtToDisplay (popWrite s.part) i y rest, hexec, hpart, broughtToDisplay_frame (popWrite s.part) i y rest,
      broughtToDisplay_track_same .., fun j hj => broughtToDisplay_track_other _ _ _ _ _ hj,
      broughtToDisplay_lotsSet (popWrite s.part) i y rest, broughtToDisplay_catalogue .., broughtToDisplay_told ..⟩
  · exact exec_pass_faults hruns (hcarry.trans (displayPass_order horder))
  · exact exec_pass_faults hruns (hcarry.trans (displayPass_overrun hs htag hd))

/-! ### EXIT passes (R31) -/

/-- R31: what the EXIT check asks of a lot. -/
theorem lotFinished_iff (p : Part) (lot : Nat) :
    lotFinished p lot = true ↔ p.lotState lot = some .closed ∨ p.lotState lot = some .withdrawn := by
  simp [lotFinished]

theorem emptyDisplay_frame (p : Part) (i : Lane) :
    let q := emptyDisplay p i
    q = { p with tracks := q.tracks, catalogue := q.catalogue, displays := q.displays } := by
  apply Part.ext_blocks <;> simp

/-- R19: the digests once the Display Position is emptied: those of its lots are freed unless a write-back is outstanding. -/
theorem emptyDisplay_digest {p : Part} {i : Lane} {y : Trolley} (hy : (p.track i).display = some y) (lot : Nat) :
    (emptyDisplay p i).digest lot = if lot ∈ y.lots then
        (if writeBackOutstanding p lot = true then (p.digest lot).map (fun d => { d with ended := true }) else none)
      else p.digest lot := by
  rw [emptyDisplay, hy]
  exact (endReasons_law (p.setTrack i { p.track i with display := none }) y.lots).1 lot

theorem exitPass_empties {p : Part} {i : Lane} {pass : Pass} {y : Trolley} (hd : (p.track i).display = some y)
    (htag : y.tag = pass.tag) (hfin : ∀ lot ∈ y.lots, lotFinished p lot = true) :
    exitPass p i pass = { part := emptyDisplay p i, arrived := false, faulted := false } := by
  simp [exitPass, hd, htag, List.all_eq_true.mpr hfin]

theorem exitPass_order {p : Part} {i : Lane} {pass : Pass}
    (h : (p.track i).display = none ∨ ∃ y, (p.track i).display = some y ∧ y.tag ≠ pass.tag) :
    exitPass p i pass = faultPass p i pass (firstTag (p.track i).display.toList) .order := by
  rcases h with hd | ⟨y, hd, htag⟩
  · simp [exitPass, hd, firstTag]
  · simp [exitPass, hd, htag, firstTag]

theorem exitPass_early {p : Part} {i : Lane} {pass : Pass} {y : Trolley} (hd : (p.track i).display = some y)
    (htag : y.tag = pass.tag) (hlot : ∃ lot ∈ y.lots, ¬ lotFinished p lot = true) :
    exitPass p i pass = faultPass p i pass y.tag .earlyExit := by
  have hall : ¬ y.lots.all (lotFinished p) = true := by simpa using hlot
  simp [exitPass, hd, htag, hall]

/-- Settles O24: an EXIT pass is carried out by `exitPass`, whose three outcomes are the statement's clauses. -/
theorem exitPassEmptiesTheDisplayPosition : Obligations.ExitPassEmptiesTheDisplayPosition := by
  intro s w i pass hruns hst
  have hcarry : carryOut (popWrite s.part) i pass = exitPass (popWrite s.part) i pass := by simp only [carryOut, hst]
  have hcmd : passCommand pass.station = .exitPass := by rw [hst]; rfl
  rw [← hcmd]
  refine ⟨fun y hd htag hfin => ?_, fun horder => ?_, fun y hd htag ⟨lot, hlot, hnot⟩ => ?_⟩
  · obtain ⟨t, hexec, hpart⟩ := exec_pass_runs hruns
    have hall : ∀ lot ∈ y.lots, lotFinished (popWrite s.part) lot = true := fun lot hlot =>
      (lotFinished_iff _ _).mpr (hfin lot hlot)
    rw [hcarry, exitPass_empties (p := popWrite s.part) hd htag hall] at hpart
    obtain ⟨hframe, htrack, hothers, htold, _, _⟩ := emptyDisplay_empties (popWrite s.part) i y hd
    exact ⟨t, emptyDisplay (popWrite s.part) i, hexec, hpart, emptyDisplay_frame _ _, htrack, hothers,
      emptyDisplay_digest (p := popWrite s.part) hd, congrArg Part.catalogue hframe, htold⟩
  · exact exec_pass_faults hruns (hcarry.trans (exitPass_order horder))
  · exact exec_pass_faults hruns
      (hcarry.trans (exitPass_early hd htag ⟨lot, hlot, fun h => hnot ((lotFinished_iff _ _).mp h)⟩))

end Sys2Proof.Machine
end

section
/-! PROOFS. The clock lanes: a write of the stop mode, and the stop input judged under the new mode (R46, R72). -/

namespace Sys2Proof.Machine

open Sys2Proof.Safety

/-! ### Stop modes and the input -/

/-- R72: a lane with its stop mode replaced. -/
def LaneUnit.inStopMode (l : LaneUnit) (mode : StopMode) : LaneUnit := { l with params := { l.params with stopMode := mode } }

theorem stopActive_eq_stopHeld (l : LaneUnit) : l.stopActive = stopHeld l := by
  unfold LaneUnit.stopActive stopHeld
  cases l.params.stopMode <;> simp

theorem stopMode_ofCode_code (mode : StopMode) : StopMode.ofCode mode.code = some mode := by cases mode <;> rfl

theorem stopMode_code_le (mode : StopMode) : mode.code ≤ 4 := by cases mode <;> decide

/-- R72: an active input adds STOP to the lane and raises the STOP event. -/
theorem judgeStop_held {p : Part} {i : Lane} (h : stopHeld (p.lane i) = true) :
    judgeStop p i = (modLane p i fun l => l.addHold .stop).raise .stop := by
  rw [judgeStop, stopActive_eq_stopHeld, if_pos h]; rfl

theorem judgeStop_free {p : Part} {i : Lane} (h : stopHeld (p.lane i) = false) : judgeStop p i = p := by
  simp [judgeStop, stopActive_eq_stopHeld, h]

/-! ### A step of one lane -/

/-- A further change of the one lane that differs. -/
theorem laneSet_modLane {p q : Part} {i : Lane} {l : LaneUnit} (h : Safety.LaneSet p q i l) (f : LaneUnit → LaneUnit) :
    Safety.LaneSet p (modLane q i f) i (f l) := by
  obtain ⟨hsame, hother⟩ := h
  exact ⟨by rw [modLane_lane_same, hsame], fun j hj => (modLane_lane_other _ _ _ _ hj).trans (hother j hj)⟩

theorem laneSet_raise {p q : Part} {i : Lane} {l : LaneUnit} (h : Safety.LaneSet p q i l) (k : EventKind) :
    Safety.LaneSet p (q.raise k) i l := h

theorem laneSet_setParamResult {p q : Part} {i : Lane} {l : LaneUnit} (h : Safety.LaneSet p q i l) (r : WordResult) :
    Safety.LaneSet p (setParamResult q i r) i { l with parameterResult := r } := laneSet_modLane h _

/-- An Anchor write leaves every lane to its command. -/
theorem anchorBefore_laneSet (p : Part) (w : PostedWrite) (i : Lane) : Safety.LaneSet p (anchorBefore p w) i (p.lane i) :=
  ⟨anchorBefore_lane p w i, fun j _ => anchorBefore_lane p w j⟩

/-! ### What a write of the stop mode covers and is answered -/

/-- Of the words of an Anchor write only the lane's own sets off its stop mode. -/
theorem stopMode_covered_of_mem {bytes : List (Nat × Byte)} {i : Lane} (h : .stopMode i ∈ anchorActions bytes) :
    .stopMode ∈ coveredParams bytes i := by
  simp only [anchorActions, List.mem_append, List.mem_flatMap] at h
  rcases h with ((hword | ⟨j, _, hlane⟩) | ⟨v, _, hwindow⟩) | ⟨m, _, hmaster⟩
  · simp [wordActions] at hword
  · obtain ⟨hcovered, rfl⟩ : .stopMode ∈ coveredParams bytes j ∧ i = j := by simpa [laneActions] using hlane
    exact hcovered
  · simp [windowActions] at hwindow
  · simp [masterActions] at hmaster

/-- R157: a write that sets off the stop mode alone covers that parameter of the lane and no other. -/
theorem paramCovered_iff_stopMode {p : Part} {w : PostedWrite} {i : Lane} (hs : SetsOff p w (.stopMode i)) (k : LaneParam) :
    ParamCovered p w i k ↔ k = .stopMode := by
  rw [← coveredParams_iff]
  constructor
  · intro hk
    by_contra hne
    have hany : ((coveredParams (anchorBytes p w) i).any fun k => k ≠ .stopMode) = true :=
      List.any_eq_true.mpr ⟨k, hk, decide_eq_true hne⟩
    have hmem : .laneParams i ∈ laneActions (anchorBytes p w) i := by simp only [laneActions, hany]; simp
    exact AnchorAction.noConfusion (setsOff_laneParams p w i _ hs _ hmem)
  · rintro rfl
    exact stopMode_covered_of_mem (by rw [hs.2.2]; exact List.mem_singleton_self _)

theorem paramFits_stopMode_iff (p : Part) (w : PostedWrite) (i : Lane) :
    ParamFits p w i .stopMode ↔ paramAfter p w i .stopMode ≤ 4 := by simp [ParamFits, paramRange]

/-- R46: the verdict on a write of the stop mode alone is the verdict on its value. -/
theorem paramVerdict_stopMode {p : Part} {w : PostedWrite} {i : Lane} (hs : SetsOff p w (.stopMode i)) :
    paramVerdict (anchorBefore p w) i (anchorBytes p w) =
      if paramAfter p w i .stopMode ≤ 4 then .done else .refusedRange := by
  obtain ⟨hdone, hrefused⟩ := paramVerdict_law p w i (anchorBefore p w) (anchorBefore_shadow p w)
  split
  next hv =>
    refine hdone fun k hk => ?_
    rw [(paramCovered_iff_stopMode hs k).mp hk]
    exact (paramFits_stopMode_iff p w i).mpr hv
  next hv =>
    exact hrefused ⟨.stopMode, (paramCovered_iff_stopMode hs _).mpr rfl, mt (paramFits_stopMode_iff p w i).mp hv⟩

/-! ### The taking -/

theorem inRange_stopMode_iff (p : Part) (w : PostedWrite) (i : Lane) :
    LaneParam.stopMode.inRange (paramValue (anchorBefore p w) i .stopMode) = true ↔ paramAfter p w i .stopMode ≤ 4 := by
  rw [paramValue_eq p w i .stopMode _ (anchorBefore_shadow p w)]
  exact decide_eq_true_iff

/-- R46: a value out of range sets the result alone. -/
theorem takeStopMode_refused {p : Part} {w : PostedWrite} {i : Lane} (hs : SetsOff p w (.stopMode i))
    (hv : 4 < paramAfter p w i .stopMode) :
    takeStopMode (anchorBefore p w) i (anchorBytes p w) = setParamResult (anchorBefore p w) i .refusedRange := by
  have hout := Nat.not_le.mpr hv
  simp only [takeStopMode, paramVerdict_stopMode hs, inRange_stopMode_iff, if_neg hout]

/-- R72: a mode in range is put into the lane, and the input is judged under it. -/
theorem takeStopMode_taken {p : Part} {w : PostedWrite} {i : Lane} {mode : StopMode} (hs : SetsOff p w (.stopMode i))
    (hm : mode.code = paramAfter p w i .stopMode) :
    takeStopMode (anchorBefore p w) i (anchorBytes p w) =
      setParamResult (judgeStop (modLane (anchorBefore p w) i fun l => l.inStopMode mode) i) i .done := by
  have hv : paramAfter p w i .stopMode ≤ 4 := hm ▸ stopMode_code_le mode
  have hput (l : LaneParams) : l.put (paramAfter p w i .stopMode) .stopMode = { l with stopMode := mode } := by
    simp only [LaneParams.put, ← hm, stopMode_ofCode_code]
  have htake : takeParam i (anchorBefore p w) .stopMode = modLane (anchorBefore p w) i fun l => l.inStopMode mode := by
    rw [takeParam, if_pos ((inRange_stopMode_iff p w i).mpr hv), paramValue_eq p w i .stopMode _ (anchorBefore_shadow p w)]
    simp only [hput]; rfl
  simp only [takeStopMode, paramVerdict_stopMode hs, inRange_stopMode_iff, if_pos hv, htake]

/-- R157: beside what every Anchor write does, a write of the stop mode changes the lanes and the Attention Unit alone. -/
theorem takeStopMode_frame (p : Part) {w : PostedWrite} (i : Lane) (hb : w.bytes ≠ []) :
    let q := takeStopMode (anchorBefore p w) i (anchorBytes p w)
    AnchorTaken p q w ∧
      q = { p with floor := q.floor, window := { p.window with shadow := q.window.shadow }, store := q.store,
                   lanes := q.lanes, attention := q.attention } := by
  refine ⟨anchorTaken_of p w hb _ (by simp) (by simp) (by simp) (by simp) (by simp), ?_⟩
  apply Part.ext_blocks <;> simp

/-- R72: the taking of a write of the stop mode, as one event. -/
theorem exec_stopModeWrite_taken {s : State} {w : PostedWrite} {i : Lane} (htake : HeadTakeable s.part w)
    (hs : SetsOff s.part w (.stopMode i)) :
    ∃ t, exec .stopModeWrite s = .next t ∧
      t.part = settle s.part (takeStopMode (anchorBefore s.part w) i (anchorBytes s.part w)) :=
  ⟨{ s with part := takeAnchor isStopMode s.part }, rfl,
    takeAnchor_of isStopMode s.part w (.stopMode i) htake hs rfl (by simp)⟩

/-- Settles O31: the taking acts by `takeStopMode`, whose outcomes on a value out of range and on a mode are the statement's
clauses; the input judged under the new mode splits the latter. -/
theorem stopModeWriteJudgesTheInput : Obligations.StopModeWriteJudgesTheInput := by
  intro s w i htake hs
  obtain ⟨t, hexec, hpart⟩ := exec_stopModeWrite_taken htake hs
  obtain ⟨htaken, hframe⟩ := takeStopMode_frame s.part i (bytes_of_setsOff hs)
  have hbefore := anchorBefore_laneSet s.part w i
  refine ⟨t, _, hexec, hpart, htaken, hframe, fun hv => ?_, fun mode hm => ?_⟩
  · rw [takeStopMode_refused hs hv]
    exact ⟨laneSet_setParamResult hbefore .refusedRange, anchorBefore_attention s.part w⟩
  · have hmode := laneSet_modLane hbefore fun l => l.inStopMode mode
    rw [takeStopMode_taken hs hm]
    refine ⟨fun hheld => ?_, fun hfree => ?_⟩
    · rw [judgeStop_held (by rw [hmode.1]; exact hheld)]
      have hadded := laneSet_raise (laneSet_modLane hmode fun l => l.addHold .stop) .stop
      refine ⟨_, addHold_added _ .stop, laneSet_setParamResult hadded .done, ?_⟩
      rw [← anchorBefore_attention s.part w]
      exact AttentionUnit.raise_raised _ .stop
    · rw [judgeStop_free (by rw [hmode.1]; exact hfree)]
      exact ⟨laneSet_setParamResult hmode .done, anchorBefore_attention s.part w⟩

end Sys2Proof.Machine
end

section
/-! PROOFS. Presses: the one law of their taking, a refusal at the taking, a strike, and a contender behind it (R76, R79, R82, R86,
R88, R93). -/

namespace Sys2Proof.Machine

open Sys2Proof.Safety

/-! ### The taking of a press -/

/-- R76, R96: the part in which a press is judged: the buffer's head gone, the press counted as taken. -/
def pressTaken (p : Part) : Part := (popWrite p).setPress { p.press with taken := p.press.taken + 1 }

/-- Of what a press is judged by, its taking changes nothing. -/
@[simp] theorem pressTaken_desk (p : Part) (k : Nat) : (pressTaken p).desk k = p.desk k := rfl
@[simp] theorem pressTaken_lane (p : Part) (i : Lane) : (pressTaken p).lane i = p.lane i := rfl
@[simp] theorem pressTaken_buyer (p : Part) (k : Nat) : (pressTaken p).buyer k = p.buyer k := rfl
theorem buyerMayBuy_pressTaken (p : Part) (k : Nat) (i : Lane) : buyerMayBuy (pressTaken p) k i = buyerMayBuy p k i := rfl
theorem liveLot_pressTaken (p : Part) (i : Lane) : liveLot (pressTaken p) i = liveLot p i := rfl

/-- A press that may be taken is of the row. -/
theorem isPress_of_takeable {p : Part} {w : PostedWrite} {c : PressIn} (h : PressTakeable p w c) : isPress p w = true := by
  obtain ⟨_, hcheck, hkind, hpress⟩ := h
  simp [isPress, PostedWrite.into, hcheck, hkind, hpress]

/-- R76: the taking of a press, as one event. -/
theorem exec_press_taken {s : State} {w : PostedWrite} {c : PressIn} (h : PressTakeable s.part w c) :
    exec .press s = .next { s with part := settle s.part (judgePress (pressTaken s.part) c) } := by
  have hrow := isPress_of_takeable h
  obtain ⟨hhead, _, _, hpress⟩ := h
  show actOn s (takeWrite isPress takePressWrite) = _
  rw [actOn, takeWrite_of _ _ _ w hhead hrow, takePressWrite, hpress]
  rfl

/-- R82: a press that passes the first three checks goes where its lane's state sends it. -/
theorem judgePress_passes {p : Part} {c : PressIn} {buyer : Nat} (h : PressPasses p c buyer) :
    judgePress (pressTaken p) c = pressByState (pressTaken p) c buyer := by
  obtain ⟨hdesk, hbuyer, hfresh, hmay⟩ := h
  simp [judgePress, hdesk, hbuyer, hfresh, buyerMayBuy_pressTaken, hmay]

/-- An event that changes no display and no slot of the ring ends as it stands. -/
theorem settle_of_slotsSame {p q : Part} (hquiet : QuietPart p) (hslots : SlotsSame p q) (hdisplays : q.displays = p.displays) :
    settle p q = q :=
  settle_same p q hslots (quietPart_congr hdisplays hquiet)

/-! ### Reports to a desk (R93, R94) -/

/-- R93: of the desks a report writes its own desk's reply slot. -/
theorem reportToDesk_desks (p : Part) (k : Nat) (r : Report) :
    (reportToDesk p k r).press.desks = (p.setDesk k ((p.desk k).reported r)).press.desks := by
  unfold reportToDesk
  cases r.outcome <;> rfl

theorem reportToDesk_desk_same (p : Part) (k : Nat) (r : Report) : (reportToDesk p k r).desk k = (p.desk k).reported r := by
  rw [desk_congr (reportToDesk_desks p k r), desk_setDesk_same]

theorem reportToDesk_desk_other (p : Part) (k j : Nat) (r : Report) (h : j ≠ k) : (reportToDesk p k r).desk j = p.desk j := by
  rw [desk_congr (reportToDesk_desks p k r), desk_setDesk_other _ _ _ _ h]

/-- Beside the desks a report changes the counters of its outcome alone. -/
theorem reportToDesk_press (p : Part) (k : Nat) (r : Report) :
    (reportToDesk p k r).press = ({ p.press with desks := (reportToDesk p k r).press.desks } : PressUnit).counted r.outcome := by
  unfold reportToDesk
  cases r.outcome <;> rfl

/-- R80, R93: a press that sets its desk's sequence and is then reported. -/
theorem report_acceptSequence_desk_same (p : Part) (k : Nat) (sequence : Byte) (r : Report) :
    (reportToDesk (acceptSequence p k sequence) k r).desk k = { p.desk k with lastSequence := some sequence }.reported r := by
  rw [reportToDesk_desk_same, acceptSequence, desk_setDesk_same]

theorem report_acceptSequence_desk_other (p : Part) (k j : Nat) (sequence : Byte) (r : Report) (h : j ≠ k) :
    (reportToDesk (acceptSequence p k sequence) k r).desk j = p.desk j := by
  rw [reportToDesk_desk_other _ _ _ _ h, acceptSequence, desk_setDesk_other _ _ _ _ h]

theorem report_acceptSequence_press (p : Part) (k : Nat) (sequence : Byte) (r : Report) :
    (reportToDesk (acceptSequence p k sequence) k r).press =
      ({ p.press with desks := (reportToDesk (acceptSequence p k sequence) k r).press.desks } : PressUnit).counted r.outcome :=
  reportToDesk_press (acceptSequence p k sequence) k r

theorem lotOrNone_eq_getD (lot : Option Nat) : lotOrNone lot = lot.getD 65535 := by cases lot <;> rfl

/-! ### Refusals at the taking (R79, R93) -/

/-- R93: the price that a refusal shows. -/
theorem shownPrice_eq (l : LaneUnit) : l.shownPrice = if l.live = none then 0 else l.price := by
  unfold LaneUnit.shownPrice
  cases l.live <;> rfl

theorem refusePress_refused (p : Part) (c : PressIn) (reason : PressReason) (units credit : Nat) :
    PressRefused p (refusePress (pressTaken p) c reason units credit) c reason units credit := by
  refine ⟨rfl, reportToDesk_press _ _ _, ?_, fun k hk => reportToDesk_desk_other _ _ _ _ hk⟩
  rw [refusePress, reportToDesk_desk_same, DeskEntry.reported, shownPrice_eq, lotOrNone_eq_getD]
  rfl

/-- A press refused at its taking: the event ends with the refusal. -/
theorem settle_refusePress {p : Part} (hquiet : QuietPart p) (c : PressIn) (reason : PressReason) (units credit : Nat) :
    settle p (refusePress (pressTaken p) c reason units credit) = refusePress (pressTaken p) c reason units credit :=
  settle_of_slotsSame hquiet (.of_blocks rfl rfl rfl) rfl

theorem judgePress_noBuyer {p : Part} {c : PressIn} (h : (p.desk c.desk).buyer = 0) :
    judgePress (pressTaken p) c = refusePress (pressTaken p) c .noBuyer 0 0 := by
  simp [judgePress, h]

/-- Settles O16: the buyer's index is the first check of `judgePress`, and the refusal changes the Press Unit alone. -/
theorem pressWithoutBuyerIsRefused : Obligations.PressWithoutBuyerIsRefused := by
  intro s w c hquiet htake hbuyer
  refine ⟨_, exec_press_taken htake, ?_⟩
  rw [judgePress_noBuyer hbuyer, settle_refusePress hquiet]
  exact refusePress_refused s.part c .noBuyer 0 0

/-! ### Strikes (R86, R52) -/

/-- R86: what a purchase does is apart from the Floor Port and the Press Unit, which it neither reads nor changes. -/
theorem purchased_pressTaken {p q : Part} {i : Lane} {c : Purchase} (h : Purchased (pressTaken p) q i c) :
    Purchased p { q with floor := p.floor, press := p.press } i c := by
  obtain ⟨hframe, heffects⟩ := h
  refine ⟨?_, heffects⟩
  rw [hframe]
  rfl

/-- R84, R86: the credit left to a buyer charged with an amount. -/
theorem entryCharged_available (p : Part) (buyer amount : Nat) :
    (entryCharged p buyer amount).available = (p.buyer buyer).limit - ((p.buyer buyer).exposure + amount) := by
  unfold entryCharged BuyerEntry.available
  dsimp only
  split <;> rfl

/-- R83 to R86: on a RUNNING lane a granted claim strikes. -/
theorem pressByState_strikes {p : Part} {c : PressIn} {buyer lot : Nat} {h : HostFields} {o : Owned} {units amount : Nat}
    (hrun : (p.lane c.lane).state = .running) (hlive : liveLot p c.lane = some (lot, h, o))
    (hclaim : judgeClaim (claimRequest p c.lane h o c.units) (p.buyer buyer) (freeCount p) = .granted units amount) :
    pressByState (pressTaken p) c buyer = strikeWith (pressTaken p) c buyer lot h units amount := by
  have hfree : freeCount (pressTaken p) = freeCount p := freeCount_congr rfl rfl rfl
  have hrequest : claimRequest (pressTaken p) c.lane h o c.units = claimRequest p c.lane h o c.units := rfl
  simp [pressByState, hrun, winnerPath, liveLot_pressTaken, hlive, hfree, hrequest, hclaim]

/-- The purchase that a strike makes. -/
def strikePurchase (p : Part) (c : PressIn) (buyer lot : Nat) (h : HostFields) (units amount : Nat) : Purchase :=
  { desk := c.desk, buyer := buyer, lot := lot, host := h, position := 0, units := units,
    price := (p.lane c.lane).price, amount := amount }

/-- R93: the report of a strike, with the credit that the purchase leaves. -/
def strikeReport (p : Part) (c : PressIn) (lot units amount credit : Nat) : Report :=
  { sequence := c.sequence, outcome := .accepted, reason := .none, lane := c.lane, lot := some lot, units := units,
    position := 0, price := (p.lane c.lane).price, amount := amount, credit := credit }

theorem strikePurchase_pressTaken (p : Part) (c : PressIn) (buyer lot : Nat) (h : HostFields) (units amount : Nat) :
    strikePurchase (pressTaken p) c buyer lot h units amount = strikePurchase p c buyer lot h units amount := rfl
theorem strikeReport_pressTaken (p : Part) (c : PressIn) (lot units amount credit : Nat) :
    strikeReport (pressTaken p) c lot units amount credit = strikeReport p c lot units amount credit := rfl

/-- R86, R52: what follows the purchase of a strike: the lane struck, the desk's sequence set, and the report made. -/
def struckAfter (q : Part) (c : PressIn) (r : Report) : Part :=
  reportToDesk (acceptSequence (modLane q c.lane LaneUnit.strike) c.desk c.sequence) c.desk r

/-- R86: a strike is its purchase and what follows it. -/
theorem strikeWith_eq (p : Part) (c : PressIn) (buyer lot : Nat) (h : HostFields) (units amount : Nat) :
    strikeWith p c buyer lot h units amount =
      struckAfter (makePurchase p c.lane (strikePurchase p c buyer lot h units amount)) c
        (strikeReport p c lot units amount
          ((makePurchase p c.lane (strikePurchase p c buyer lot h units amount)).buyer buyer).available) := by
  unfold strikeWith strikePurchase
  dsimp only
  generalize makePurchase p c.lane _ = q
  rfl

/-- R52: the lane as its strike leaves it. -/
theorem struckAfter_lane_same (q : Part) (c : PressIn) (r : Report) :
    (struckAfter q c r).lane c.lane = (q.lane c.lane).strike := modLane_lane_same q c.lane LaneUnit.strike

theorem struckAfter_lane_other (q : Part) (c : PressIn) (r : Report) (j : Lane) (h : j ≠ c.lane) :
    (struckAfter q c r).lane j = q.lane j := modLane_lane_other q c.lane j LaneUnit.strike h

/-- What follows the purchase of a strike changes the lanes and the Press Unit alone. -/
theorem struckAfter_frame (q : Part) (c : PressIn) (r : Report) :
    struckAfter q c r = { q with lanes := (struckAfter q c r).lanes, press := (struckAfter q c r).press } := rfl

theorem struckAfter_press (q : Part) (c : PressIn) (r : Report) :
    (struckAfter q c r).press = ({ q.press with desks := (struckAfter q c r).press.desks } : PressUnit).counted r.outcome :=
  report_acceptSequence_press _ _ _ _

theorem struckAfter_desk_same (q : Part) (c : PressIn) (r : Report) :
    (struckAfter q c r).desk c.desk = { q.desk c.desk with lastSequence := some c.sequence }.reported r :=
  report_acceptSequence_desk_same _ _ _ _

theorem struckAfter_desk_other (q : Part) (c : PressIn) (r : Report) (k : Nat) (h : k ≠ c.desk) :
    (struckAfter q c r).desk k = q.desk k := report_acceptSequence_desk_other _ _ _ _ _ h

/-- R86: the event of a press whose claim is granted on a RUNNING lane: the purchase `m`, made on the part with the press taken, and
what follows it. -/
theorem exec_press_strikes {s : State} {w : PostedWrite} {c : PressIn} {buyer lot : Nat} {h : HostFields} {o : Owned}
    {units amount : Nat} (htake : PressTakeable s.part w c) (hpass : PressPasses s.part c buyer)
    (hrun : (s.part.lane c.lane).state = .running) (hlive : liveLot s.part c.lane = some (lot, h, o))
    (hclaim : judgeClaim (claimRequest s.part c.lane h o c.units) (s.part.buyer buyer) (freeCount s.part) =
      .granted units amount) :
    ∃ t m, exec .press s = .next t ∧
      t.part = settle s.part (struckAfter m c (strikeReport s.part c lot units amount (m.buyer buyer).available)) ∧
      m.floor = headGone s.part ∧ m.press = (pressTaken s.part).press ∧
      Purchased (pressTaken s.part) m c.lane (strikePurchase s.part c buyer lot h units amount) := by
  have hpart : judgePress (pressTaken s.part) c = strikeWith (pressTaken s.part) c buyer lot h units amount :=
    (judgePress_passes hpass).trans (pressByState_strikes hrun hlive hclaim)
  have hexec := exec_press_taken htake
  rw [hpart, strikeWith_eq, strikePurchase_pressTaken, strikeReport_pressTaken] at hexec
  refine ⟨_, makePurchase (pressTaken s.part) c.lane (strikePurchase s.part c buyer lot h units amount), hexec, ?_,
    makePurchase_floor _ _ _, makePurchase_press _ _ _, makePurchase_purchased _ _ _⟩
  dsimp only

/-- Settles O19: the purchase of the strike is the one that the part before the press would make, since no purchase touches the Floor
Port or the Press Unit; the lane, the desk and the counters are what `struckAfter` leaves. -/
theorem pressStrikesAtTheCurrentPrice : Obligations.PressStrikesAtTheCurrentPrice := by
  intro s w c buyer lot h o units amount htake hpass hrun hlive hclaim
  obtain ⟨t, m, hexec, hpart, hfloor, hpress, hpurchase⟩ := exec_press_strikes htake hpass hrun hlive hclaim
  refine ⟨t, _, _, hexec, hpart, purchased_pressTaken hpurchase, ?_⟩
  obtain ⟨-, hbuyer, -, -, -, -, -, hlane, -⟩ := hpurchase
  have hdesk : ∀ k, m.desk k = s.part.desk k := desk_congr (p := pressTaken s.part) (congrArg PressUnit.desks hpress)
  refine ⟨?_, ?_, struckAfter_lane_other m c _, ?_, ?_, ?_⟩
  · rw [← hfloor]
    exact struckAfter_frame _ _ _
  · rw [struckAfter_lane_same]
    have hparams : (m.lane c.lane).params = (s.part.lane c.lane).params := by rw [hlane]; rfl
    rw [← hparams]
    rfl
  · rw [struckAfter_press, hpress]
    rfl
  · have hcredit : (m.buyer buyer).available = (s.part.buyer buyer).limit - ((s.part.buyer buyer).exposure + amount) :=
      (congrArg BuyerEntry.available hbuyer).trans (entryCharged_available (pressTaken s.part) buyer amount)
    rw [struckAfter_desk_same, hdesk, hcredit]
    rfl
  · intro k hk
    rw [struckAfter_desk_other _ _ _ _ hk, hdesk]

/-! ### Contenders (R88) -/

/-- R88: a press may join behind a strike where the Contender List has room and holds no entry of its desk. -/
theorem mayJoin_iff (l : LaneUnit) (desk : Nat) :
    l.mayJoin desk = true ↔ l.contenders.length < 4 ∧ ∀ e ∈ l.contenders, e.desk ≠ desk := by
  rw [LaneUnit.mayJoin, Bool.and_eq_true, decide_eq_true_iff]
  simp [Config.contenders]

/-- R88: a lane whose Contender List a press has joined. -/
def LaneUnit.joinedBy (l : LaneUnit) (c : PressIn) (buyer : Nat) : LaneUnit :=
  { l with contenders := l.contenders ++ [{ desk := c.desk, buyer := buyer, units := c.units, sequence := c.sequence }] }

/-- R88, R93: the report of a press that has joined the Contender List of lane `l`. -/
def contendingReport (l : LaneUnit) (c : PressIn) (credit : Nat) : Report :=
  { sequence := c.sequence, outcome := .contending, reason := .none, lane := c.lane, lot := l.live, units := 0,
    position := l.contenders.length + 1, price := l.price, amount := 0, credit := credit }

/-- R88: the part with the entry joined, the desk's sequence set, and CONTENDING reported. -/
def joinContenders (p : Part) (c : PressIn) (buyer : Nat) : Part :=
  reportToDesk (acceptSequence (modLane p c.lane fun l => l.joinedBy c buyer) c.desk c.sequence) c.desk
    (contendingReport (p.lane c.lane) c (p.buyer buyer).available)

theorem contenderPath_late {p : Part} {c : PressIn} (buyer : Nat) (h : (p.lane c.lane).mayJoin c.desk = false) :
    contenderPath p c buyer = refusePress p c .late 0 (p.buyer buyer).available := by
  simp [contenderPath, h]

theorem contenderPath_joins {p : Part} {c : PressIn} (buyer : Nat) (h : (p.lane c.lane).mayJoin c.desk = true) :
    contenderPath p c buyer = joinContenders p c buyer := by
  have hlane : (acceptSequence (modLane p c.lane fun l => l.joinedBy c buyer) c.desk c.sequence).lane c.lane =
      (p.lane c.lane).joinedBy c buyer := modLane_lane_same p c.lane fun l => l.joinedBy c buyer
  simp only [LaneUnit.joinedBy] at hlane
  simp [contenderPath, h, joinContenders, contendingReport, LaneUnit.joinedBy, hlane]

theorem joinContenders_lane_same (p : Part) (c : PressIn) (buyer : Nat) :
    (joinContenders p c buyer).lane c.lane = (p.lane c.lane).joinedBy c buyer :=
  modLane_lane_same p c.lane fun l => l.joinedBy c buyer

theorem joinContenders_lane_other (p : Part) (c : PressIn) (buyer : Nat) (j : Lane) (h : j ≠ c.lane) :
    (joinContenders p c buyer).lane j = p.lane j :=
  modLane_lane_other p c.lane j (fun l => l.joinedBy c buyer) h

/-- Joining the Contender List takes and frees no slot of the ring. -/
theorem joinContenders_slotsSame (p : Part) (c : PressIn) (buyer : Nat) : SlotsSame p (joinContenders (pressTaken p) c buyer) := by
  refine ⟨rfl, fun i => ?_, rfl⟩
  by_cases hi : i = c.lane
  · subst hi
    rw [joinContenders_lane_same]
    exact ⟨rfl, rfl⟩
  · rw [joinContenders_lane_other _ _ _ _ hi]
    exact ⟨rfl, rfl⟩

/-- Settles O20: the two clauses are the branches of `contenderPath`, told apart by `mayJoin`; neither changes a slot of the ring. -/
theorem pressContendsBehindAStrike : Obligations.PressContendsBehindAStrike := by
  intro s w c buyer hquiet htake hpass hstruck credit list
  have hexec := exec_press_taken htake
  have hpath : judgePress (pressTaken s.part) c = contenderPath (pressTaken s.part) c buyer := by
    simp [judgePress_passes hpass, pressByState, hstruck]
  rw [hpath] at hexec
  refine ⟨_, hexec, fun hlate => ?_, fun hroom hfresh => ?_⟩
  · have hno : (s.part.lane c.lane).mayJoin c.desk = false := by
      rw [Bool.eq_false_iff, ne_eq, mayJoin_iff]
      rintro ⟨hroom, hfresh⟩
      rcases hlate with hfull | ⟨e, he, hdesk⟩
      · exact absurd hroom (Nat.not_lt.mpr hfull)
      · exact hfresh e he hdesk
    rw [contenderPath_late (p := pressTaken s.part) buyer hno, settle_refusePress hquiet]
    exact refusePress_refused s.part c .late 0 _
  · have hyes : (s.part.lane c.lane).mayJoin c.desk = true := (mayJoin_iff _ _).mpr ⟨hroom, hfresh⟩
    rw [contenderPath_joins (p := pressTaken s.part) buyer hyes, settle_of_slotsSame hquiet (joinContenders_slotsSame s.part c buyer) rfl]
    refine ⟨rfl, joinContenders_lane_same _ _ _, joinContenders_lane_other _ _ _, report_acceptSequence_press _ _ _ _, ?_,
      fun k hk => report_acceptSequence_desk_other _ _ _ _ _ hk⟩
    refine (report_acceptSequence_desk_same _ _ _ _).trans ?_
    rw [DeskEntry.reported, lotOrNone_eq_getD]
    rfl

end Sys2Proof.Machine
end

section
/-! PROOFS. DISPLAY reads: what a map slot holds, and the three answers of a read: a blank, the live block, and the read translated to
its page (R138, R139, R143 to R145). -/

namespace Sys2Proof.Machine

open Sys2Proof.Safety

/-! ### What a taken read leaves of the part -/

/-- R143: a blank answers zeros and adds 1 to the lane's hole count. -/
theorem answerBlank_eq (r : ReadInProgress) (i : Lane) (p : Part) : answerBlank r i p = blankAnswered p r i := rfl

/-- R145: the live block answers the bytes of its layout, from the read's place in the page on. -/
theorem answerLive_eq (r : ReadInProgress) (i : Lane) (lot inPage : Nat) (p : Part) :
    answerLive r i lot inPage p = bytesAnswered p r (fun k => layoutByte (liveBlockLayout p i lot) (inPage + k)) := rfl

/-- R155: forwarding a read changes the Floor Port's read and the forward path's. -/
theorem forwardReadAt_eq (r : ReadInProgress) (address : Address) (merge : Option Owned) (p : Part) :
    forwardReadAt r address merge p = readForwarded p r address merge := rfl

/-- R144: a read of an absent page is a blank. -/
theorem translate_absent {m : MapSlot} {page : Nat} (r : ReadInProgress) (i : Lane) (inPage : Nat) (p : Part)
    (h : m.pages.toList.getD page 0 = 0) : translate r i m page inPage p = blankAnswered p r i := by
  rw [translate, if_pos h, answerBlank_eq]

/-- R144: a read of a page that stands is forwarded to the page's address. -/
theorem translate_present {m : MapSlot} {page : Nat} (r : ReadInProgress) (i : Lane) (inPage : Nat) (p : Part)
    (h : m.pages.toList.getD page 0 ≠ 0) :
    translate r i m page inPage p =
      readForwarded p r (BitVec.ofNat 36 ((m.pages.toList.getD page 0).toNat + inPage)) none := by
  rw [translate, if_neg h, forwardReadAt_eq]

/-! ### The slot of a read (R139) -/

theorem toLane_val (i : Lane) : toLane i.val = some i := by simp [toLane]

/-- R139: the slots 0, 1 and 2 are CURRENT, NEXT1 and NEXT2; no other number names a slot. -/
theorem slot_eq_some_iff (d : DisplayLane) (n : Nat) (m : MapSlot) : d.slot n = some m ↔ SlotHolds d n m := by
  match n with
  | 0 | 1 | 2 | _ + 3 => simp [DisplayLane.slot, SlotHolds]

/-- R139: a slot that holds nothing is slot 3 or an empty one. -/
theorem slot_eq_none_iff (d : DisplayLane) (n : Nat) : d.slot n = none ↔ ∀ m, ¬ SlotHolds d n m := by
  simp only [Option.eq_none_iff_forall_ne_some, ne_eq, slot_eq_some_iff]

/-! ### The answer by slot and page (R143 to R145) -/

section
variable {p : Part} {r : ReadInProgress} {i : Lane} {slot page inPage : Nat}

/-- R143: a read of slot 3 or of an empty slot is a blank. -/
theorem answerDisplay_empty (hplace : r.cls.place = .display i.val slot page inPage) (hslot : (p.display i).slot slot = none) :
    answerDisplay r p = blankAnswered p r i := by
  simp only [answerDisplay, hplace, toLane_val, hslot, answerBlank_eq]

/-- R144, R145: a read of a filled slot is the live block's or is translated. -/
theorem answerDisplay_filled {m : MapSlot} (hplace : r.cls.place = .display i.val slot page inPage)
    (hslot : (p.display i).slot slot = some m) :
    answerDisplay r p =
      if slot = 0 ∧ page = 0 ∧ inPage < 64 then answerLive r i m.lot inPage p else translate r i m page inPage p := by
  simp only [answerDisplay, hplace, toLane_val, hslot]

end

/-- R138, R155: the taking of a DISPLAY read that is ready. -/
theorem exec_displayRead_taken {s : State} {r : ReadInProgress} (h : ReadInto s.part r .display) :
    exec .displayRead s = .next { s with part := answerDisplay r s.part } := by
  obtain ⟨htake, hcheck, hkind⟩ := h
  have hrow : r.into .display = true := by simp [ReadInProgress.into, hcheck, hkind]
  exact congrArg (fun q => Host.Outcome.next { s with part := q })
    (takeRead_of (·.into .display) answerDisplay s.part r htake hrow)

/-- Settles O51: an empty slot is a blank; of a filled one the live block comes first, and every other read goes by its page. -/
theorem displayReadIsBlankLiveOrTranslated : Obligations.DisplayReadIsBlankLiveOrTranslated := by
  intro s r i slot page inPage hread hplace _
  refine ⟨_, exec_displayRead_taken hread, fun hempty => ?_, fun m hholds => ?_⟩
  · exact answerDisplay_empty hplace ((slot_eq_none_iff _ _).mpr hempty)
  · have hfilled := answerDisplay_filled hplace ((slot_eq_some_iff _ _ _).mpr hholds)
    refine ⟨fun hlive => ?_, fun hrest habsent => ?_, fun hrest hpresent => ?_⟩
    · exact (hfilled.trans (if_pos hlive)).trans (answerLive_eq r i m.lot inPage s.part)
    · exact (hfilled.trans (if_neg hrest)).trans (translate_absent r i inPage s.part habsent)
    · exact (hfilled.trans (if_neg hrest)).trans (translate_present r i inPage s.part hpresent)

end Sys2Proof.Machine
end

section
/-! PROOFS. Failed accesses: the taking of a write and of a read whose check failed, each as a report of its error (R163, R174). -/

namespace Sys2Proof.Machine

open Sys2Proof.Safety

/-! ### Failed writes (R154, R163) -/

/-- R174, R179: a report changes the Attention Unit alone. -/
theorem Part.report_eq (p : Part) (r : ErrorReport) : p.report r = { p with attention := (p.report r).attention } := rfl

/-- The event that drops the buffer's head and reports an error ends as it stands. -/
theorem settle_report_popWrite {p : Part} (hquiet : QuietPart p) (r : ErrorReport) :
    settle p ((popWrite p).report r) = (popWrite p).report r :=
  settle_of_slotsSame hquiet (.of_blocks rfl rfl rfl) rfl

/-- A write whose check failed is of the row of refused writes. -/
theorem isRefused_of_failed (p : Part) {w : PostedWrite} (hfail : w.cls.check ≠ .pass) : isRefused p w = true :=
  bne_iff_ne.mpr hfail

/-- R163: the taking of a write whose check failed drops it from the buffer and reports its error. -/
theorem exec_refusedWindowWrite_taken {s : State} {w : PostedWrite} (hquiet : QuietPart s.part)
    (hhead : HeadTakeable s.part w) (hfail : w.cls.check ≠ .pass) :
    exec .refusedWindowWrite s =
      .next { s with part := (popWrite s.part).report (errorOfWrite w w.cls.check.kind w.cls.window) } := by
  have htaken : takeWrite isRefused takeRefused s.part =
      (popWrite s.part).report (errorOfWrite w w.cls.check.kind w.cls.window) := by
    rw [takeWrite_of _ _ _ w hhead (isRefused_of_failed s.part hfail)]
    exact settle_report_popWrite hquiet _
  exact congrArg (fun q => Host.Outcome.next { s with part := q }) htaken

/-! ### Failed reads (R155, R163) -/

/-- R163: the taking of a read whose check failed reports its error and answers it FAULT. -/
theorem exec_readAnsweredFault_taken {s : State} {r : ReadInProgress} (hread : ReadTakeable s.part r)
    (hfail : r.cls.check ≠ .pass) :
    exec .readAnsweredFault s =
      .next { s with part := answerRead r .fault (s.part.report (errorOfRead r r.cls.check.kind)) } := by
  have htaken : takeRead (fun r => r.cls.check != .pass) answerFault s.part =
      answerRead r .fault (s.part.report (errorOfRead r r.cls.check.kind)) :=
    takeRead_of _ _ s.part r hread (bne_iff_ne.mpr hfail)
  exact congrArg (fun q => Host.Outcome.next { s with part := q }) htaken

/-- Settles O10: each taking is one report beside the Floor Port's change, and a report changes the Attention Unit alone. -/
theorem failedAccessIsDroppedAndCaptured : Obligations.FailedAccessIsDroppedAndCaptured := by
  refine ⟨fun s w hquiet hhead hfail => ?_, fun s r hread hfail => ?_⟩
  · refine ⟨_, exec_refusedWindowWrite_taken hquiet hhead hfail, ?_, Part.report_reported (popWrite s.part) _⟩
    exact Part.report_eq (popWrite s.part) _
  · refine ⟨_, exec_readAnsweredFault_taken hread hfail, ?_, Part.report_reported s.part _⟩
    exact congrArg (answerRead r .fault) (Part.report_eq s.part _)

end Sys2Proof.Machine
end

section
/-! PROOFS. The day word: the one law of its taking, DAY-OPEN's checks in their order, and the day it opens (R189, R190). -/

namespace Sys2Proof.Machine

open Sys2Proof.Safety

/-! ### The taking of a day word (R157, R189) -/

/-- A write of the day word with the command `c` in the shadow is of that command's row. -/
theorem isDayCommand_of_taken {p : Part} {w : PostedWrite} {c : DayCommand} (h : DayCommandTaken p w c) :
    isDayCommand c (shadowAfter p w) .day = true := by
  obtain ⟨_, hcommand⟩ := h
  have hshadow : shadowDayCommand (shadowAfter p w) = c := hcommand
  simp [isDayCommand, hshadow]

/-- R189: the owner acts on the command and the day number that the shadow holds after the write. -/
theorem perform_dayWord {p : Part} {w : PostedWrite} {c : DayCommand} (h : DayCommandTaken p w c) :
    perform w (anchorBytes p w) (anchorOnly p w) .day = takeDayWord (anchorOnly p w) (fieldAfter p w 0x0002 2) c := by
  obtain ⟨_, hcommand⟩ := h
  exact congrArg (takeDayWord (anchorOnly p w) (fieldAfter p w 0x0002 2)) hcommand

theorem takeAnchor_dayWord {p : Part} {w : PostedWrite} {c : DayCommand} (h : DayCommandTaken p w c) :
    takeAnchor (isDayCommand c) p = settle p (takeDayWord (anchorOnly p w) (fieldAfter p w 0x0002 2) c) := by
  rw [takeAnchor_only _ p w .day h.1 (isDayCommand_of_taken h) (by decide), perform_dayWord h]

/-- R190: the taking of a DAY-OPEN, as one event. -/
theorem exec_dayOpen_taken {s : State} {w : PostedWrite} (h : DayCommandTaken s.part w .openDay) :
    ∃ t, exec .dayOpen s = .next t ∧
      t.part = settle s.part (takeDayOpen (anchorOnly s.part w) (fieldAfter s.part w 0x0002 2)) :=
  ⟨{ s with part := takeAnchor (isDayCommand .openDay) s.part }, rfl, takeAnchor_dayWord h⟩

/-- R189: the taking of a day word that names no command, as one event. -/
theorem exec_unknownDayCommand_taken {s : State} {w : PostedWrite} (h : DayCommandTaken s.part w .unknown) :
    ∃ t, exec .unknownDayCommand s = .next t ∧ t.part = settle s.part (setDayResult (anchorOnly s.part w) .unknown) :=
  ⟨{ s with part := takeAnchor (isDayCommand .unknown) s.part }, rfl, takeAnchor_dayWord h⟩

/-! ### Day words that are only answered -/

theorem setDayResult_anchorOnly (p : Part) (w : PostedWrite) (r : WordResult) :
    setDayResult (anchorOnly p w) r = dayAnswered p w r := rfl

/-- R190: the event of a day word that only sets its result ends as it stands. -/
theorem settle_setDayResult_anchorOnly {p : Part} (hquiet : QuietPart p) (w : PostedWrite) (r : WordResult) :
    settle p (setDayResult (anchorOnly p w) r) = dayAnswered p w r := by
  rw [setDayResult_anchorOnly]
  exact settle_keeps p (dayAnswered p w r) hquiet rfl rfl rfl rfl

/-- R190: a DAY-OPEN whose checks give only a result leaves the part with that answer. -/
theorem exec_dayOpen_answers {s : State} {w : PostedWrite} {r : WordResult} (hquiet : QuietPart s.part)
    (htaken : DayCommandTaken s.part w .openDay)
    (hanswer : takeDayOpen (anchorOnly s.part w) (fieldAfter s.part w 0x0002 2) = setDayResult (anchorOnly s.part w) r) :
    ∃ t, exec .dayOpen s = .next t ∧ t.part = dayAnswered s.part w r := by
  obtain ⟨t, hexec, hpart⟩ := exec_dayOpen_taken htaken
  rw [hanswer, settle_setDayResult_anchorOnly hquiet] at hpart
  exact ⟨t, hexec, hpart⟩

/-! ### DAY-OPEN's checks (R190) -/

section
variable {p : Part} {number : Nat}

theorem takeDayOpen_notClosed (hday : p.window.dayState ≠ .closed) : takeDayOpen p number = setDayResult p .refusedState := by
  simp [takeDayOpen, hday]

theorem takeDayOpen_numberZero (hday : p.window.dayState = .closed) (hnumber : number = 0) :
    takeDayOpen p number = setDayResult p .refusedRange := by
  simp [takeDayOpen, hday, hnumber]

theorem takeDayOpen_noRing (hday : p.window.dayState = .closed) (hnumber : number ≠ 0) (hring : p.ring.geometry = none) :
    takeDayOpen p number = setDayResult p .noRing := by
  simp [takeDayOpen, hday, hnumber, hring]

theorem takeDayOpen_ringFull (hday : p.window.dayState = .closed) (hnumber : number ≠ 0) (hring : p.ring.geometry ≠ none)
    (hfree : freeCount p < 2) : takeDayOpen p number = setDayResult p .refusedRing := by
  simp [takeDayOpen, hday, hnumber, hring, hfree]

theorem takeDayOpen_opens (hday : p.window.dayState = .closed) (hnumber : number ≠ 0) (hring : p.ring.geometry ≠ none)
    (hfree : 2 ≤ freeCount p) : takeDayOpen p number = openDay p number := by
  simp [takeDayOpen, hday, hnumber, hring, Nat.not_lt.mpr hfree]

end

/-- An Anchor write leaves the free count to its command. -/
theorem freeCount_anchorOnly (p : Part) (w : PostedWrite) : freeCount (anchorOnly p w) = freeCount p :=
  freeCount_congr rfl rfl rfl

/-! ### The day opened (R131, R190) -/

theorem openDay_window (p : Part) (number : Nat) :
    (openDay p number).window = { p.window with dayNumber := number, dayState := .opened, dayResult := .done } := rfl

/-- R131, R190: the opening DAY-MARK joins the Record Queue with the counts as they stood, which become 0; the closing mark's slot is
held. -/
theorem openDay_ring (p : Part) (number : Nat) :
    (openDay p number).ring =
      { p.ring with queue := p.ring.queue ++ [dayMarked p p.ring .opening number],
                    assigned := p.ring.assigned + 1, purchases := 0, payments := 0, closingMark := true } := rfl

/-- R190: opening the day changes the Window Unit and the Ring Unit alone. -/
theorem openDay_frame (p : Part) (number : Nat) :
    openDay p number = { p with window := (openDay p number).window, ring := (openDay p number).ring } := by
  apply Part.ext_blocks <;> simp

/-- Settles O41: the refusals are the answers of DAY-OPEN's checks in their order, which end the event as they stand; a DAY-OPEN that
passes them is `openDay`, given by its window, its ring and its frame. -/
theorem dayOpenChecksAndOpensTheDay : Obligations.DayOpenChecksAndOpensTheDay := by
  intro s w hquiet number
  have hfreeCount := freeCount_anchorOnly s.part w
  refine ⟨fun htaken => ?unknown, fun htaken => ⟨fun hday => ?state, fun hday => ⟨fun hzero => ?range,
    fun hnumber hring => ?noRing, fun hnumber hring hfree => ?ringFull, fun hnumber hring hfree => ?opens⟩⟩⟩
  case unknown =>
    obtain ⟨t, hexec, hpart⟩ := exec_unknownDayCommand_taken htaken
    exact ⟨t, hexec, hpart.trans (settle_setDayResult_anchorOnly hquiet w .unknown)⟩
  case state => exact exec_dayOpen_answers hquiet htaken (takeDayOpen_notClosed hday)
  case range => exact exec_dayOpen_answers hquiet htaken (takeDayOpen_numberZero hday hzero)
  case noRing => exact exec_dayOpen_answers hquiet htaken (takeDayOpen_noRing hday hnumber hring)
  case ringFull =>
    exact exec_dayOpen_answers hquiet htaken (takeDayOpen_ringFull hday hnumber hring (hfreeCount.trans_lt hfree))
  case opens =>
    obtain ⟨t, hexec, hpart⟩ := exec_dayOpen_taken htaken
    rw [takeDayOpen_opens (p := anchorOnly s.part w) hday hnumber hring (hfree.trans_eq hfreeCount.symm)] at hpart
    refine ⟨t, openDay (anchorOnly s.part w) number, hexec, hpart, ?_⟩
    rw [openDay_frame, openDay_window, openDay_ring]
    rfl

end Sys2Proof.Machine
end

section
/-! PROOFS. What one step can make of the part, said once, and the package of the invariants: a predicate on the part that every such
event keeps is kept by every step. -/

namespace Sys2Proof.Machine

open Sys2Proof.Safety

/-! ### The events of the part -/

/-- What the owner of a posted write outside the Anchor does with it, by the write's row. -/
inductive WriteAct : (PostedWrite → Part → Part) → Prop where
  | forwarded : WriteAct takeForwarded
  | refused : WriteAct takeRefused
  | lot : WriteAct takeLot
  | press : WriteAct takePressWrite
  | pass : WriteAct takePassWrite
  | desk : WriteAct takeDesk
  | buyer : WriteAct takeBuyer

/-- What the owner of the read in progress does with it, by the read's row. -/
inductive ReadAct : (ReadInProgress → Part → Part) → Prop where
  | buyer : ReadAct answerBuyer
  | desk : ReadAct answerDesk
  | reply : ReadAct answerReply
  | anchor : ReadAct answerAnchor
  | lot : ReadAct forwardLot
  | plain : ReadAct forwardPlain
  | display : ReadAct answerDisplay
  | fault : ReadAct answerFault

/-- What a lane does at the expiry of each of its timers. -/
inductive ExpiryAct : TimerKind → (Part → Lane → Part) → Prop where
  | preRoll : ExpiryAct .preRoll preRollExpiry
  | restartPause : ExpiryAct .restartPause restartPauseExpiry
  | step : ExpiryAct .step stepExpiry
  | contenderWindow : ExpiryAct .contenderWindow contenderExpiry

/-- What one command can make of the part, with the guards that its event needs. -/
inductive PartEvent : Part → Part → Prop where
  | idle (p) : PartEvent p p
  | reset (p) (pins : SampledPins) : PartEvent p (resetPart pins p)
  | busReset (p) : PartEvent p (resetFloorBus p)
  | busRelease (p) (requests : BitVec 8) : PartEvent p (chooseGrant (releaseFloorBus p) requests)
  | grant (p) (requests : BitVec 8) : PartEvent p (chooseGrant p requests)
  | presentWrite (p) (m : Master) (a : Address) (beats : List WriteBeat) : PartEvent p (presentWrite p m a beats)
  | presentRead (p) (m : Master) (a : Address) (n : Nat) : PartEvent p (presentRead p m a n)
  | stopInput (p) (i : Lane) (level : Bool) : PartEvent p (settle p (changeStop p i level))
  | tick (p) : PartEvent p (takeTick p)
  | write (p) {act} (h : WriteAct act) (w : PostedWrite) : PartEvent p (settle p (act w (popWrite p)))
  | anchorWrite (p) (w : PostedWrite) : PartEvent p (settle p (takeAnchorWrite w (popWrite p)))
  | thresholdWrite (p) (w : PostedWrite) : PartEvent p (settleThreshold p (takeAnchorWrite w (popWrite p)))
  | read (p) {act} (h : ReadAct act) (r : ReadInProgress) : PartEvent p (act r p)
  | storeGrant (p) : PartEvent p (grantStorePort p)
  | retry (p) : PartEvent p (takeRetry p)
  | exhaustion (p) : PartEvent p (takeExhaustion p)
  | readCompletion (p) (a : FinalAnswer) (data : Vector Beat 8) : PartEvent p (completeForwardedRead p a data)
  | writeCompletion (p) (a : FinalAnswer) : PartEvent p (completeForwardedWrite p a)
  | fetchCompletion (p) (a : FinalAnswer) (data : Vector Beat 8) : PartEvent p (completeFetchRead p a data)
  | writeBackCompletion (p) (corrected : Bool) : PartEvent p (finishWriteBack p corrected)
  | recordCompletion (p) (corrected : Bool) : PartEvent p (finishRingRecord p corrected)
  | uncorrectable (p) : PartEvent p (partMadeUncorrectable p)
  | expiry (p) {kind act} (h : ExpiryAct kind act) (i : Lane) (hdue : (p.lane i).timer.due kind = true) :
      PartEvent p (settle p (act p i))

/-- A taking of the buffer's head by a row of writes outside the Anchor. -/
theorem takeWrite_event (row : Part → PostedWrite → Bool) {act : PostedWrite → Part → Part} (h : WriteAct act) (p : Part) :
    PartEvent p (takeWrite row act p) := by
  unfold takeWrite takeWriteThen
  split
  · split
    · exact .write p h _
    · exact .idle p
  · exact .idle p

/-- A taking of an Anchor write that sets off a command of a row. -/
theorem takeAnchor_event (row : List Host.Cell → AnchorAction → Bool) (p : Part) : PartEvent p (takeAnchor row p) := by
  unfold takeAnchor takeWriteThen settleAnchor
  split
  · split
    · split
      · exact .thresholdWrite p _
      · exact .anchorWrite p _
    · exact .idle p
  · exact .idle p

/-- A taking of an Anchor write that sets off no command. -/
theorem takePlainAnchor_event (p : Part) : PartEvent p (takeWrite isPlainAnchor takeAnchorWrite p) := by
  unfold takeWrite takeWriteThen
  split
  · split
    · exact .anchorWrite p _
    · exact .idle p
  · exact .idle p

theorem takeRead_event (row : ReadInProgress → Bool) {act : ReadInProgress → Part → Part} (h : ReadAct act) (p : Part) :
    PartEvent p (takeRead row act p) := by
  unfold takeRead
  split
  · split
    · exact .read p h _
    · exact .idle p
  · exact .idle p

theorem takeExpiry_event {kind : TimerKind} {act : Part → Lane → Part} (h : ExpiryAct kind act) (p : Part) (i : Lane) :
    PartEvent p (takeExpiry p i kind act) := by
  unfold takeExpiry
  split
  · exact .expiry p h i ‹_›
  · exact .idle p

/-- A command that acts on the part by an event is that event. -/
theorem actOn_event {f : Part → Part} (hf : ∀ p, PartEvent p (f p)) {s t : State} (h : actOn s f = .next t) :
    PartEvent s.part t.part := by
  cases h
  exact hf s.part

/-- R150: a transaction presented under a grant, or nothing. -/
theorem present_event {f : Part → Master → Part} (hf : ∀ p m, PartEvent p (f p m)) (p : Part) :
    PartEvent p (match presenter p with | some m => f p m | none => p) := by
  cases presenter p with
  | none => exact .idle p
  | some m => exact hf p m

theorem grantIfFree_event (requests : BitVec 8) (p : Part) :
    PartEvent p (if busFree p then chooseGrant p requests else p) := by
  split
  · exact .grant p requests
  · exact .idle p

theorem releaseIfLow_event (requests : BitVec 8) (p : Part) :
    PartEvent p (if p.floor.fbResetLow then chooseGrant (releaseFloorBus p) requests else p) := by
  split
  · exact .busRelease p requests
  · exact .idle p

/-- Every command that answers a next state acts on the part by one event. -/
theorem exec_event (c : Instr) {s t : State} (h : exec c s = .next t) : PartEvent s.part t.part := by
  cases c with
  | powerOn pins => exact actOn_event (fun p => .reset p pins) h
  | resetn pins => exact actOn_event (fun p => .reset p pins) h
  | fbRstn => exact actOn_event .busReset h
  | stopInputChange i level => exact actOn_event (fun p => .stopInput p i level) h
  | hallTick => exact actOn_event .tick h
  | grantChoice requests => exact actOn_event (grantIfFree_event requests) h
  | fbRstnRelease requests => exact actOn_event (releaseIfLow_event requests) h
  | floorBusWrite a beats =>
    rw [exec, execFloorBusWrite] at h
    split at h
    · exact actOn_event (present_event fun p m => .presentWrite p m a beats) h
    · cases h
  | floorBusRead a n =>
    rw [exec, execFloorBusRead] at h
    split at h
    · exact actOn_event (present_event fun p m => .presentRead p m a n) h
    · cases h
  | forwardedWrite => exact actOn_event (takeWrite_event _ .forwarded) h
  | refusedWindowWrite => exact actOn_event (takeWrite_event _ .refused) h
  | lotWrite | listRequest | withdrawRequest => exact actOn_event (takeWrite_event _ .lot) h
  | press => exact actOn_event (takeWrite_event _ .press) h
  | gatePass | displayPass | exitPass => exact actOn_event (takeWrite_event _ .pass) h
  | deskWrite => exact actOn_event (takeWrite_event _ .desk) h
  | buyerWrite => exact actOn_event (takeWrite_event _ .buyer) h
  | anchorWrite => exact actOn_event takePlainAnchor_event h
  | lotRead => exact actOn_event (takeRead_event _ .lot) h
  | buyerRead => exact actOn_event (takeRead_event _ .buyer) h
  | deskRead => exact actOn_event (takeRead_event _ .desk) h
  | replyRead => exact actOn_event (takeRead_event _ .reply) h
  | displayRead => exact actOn_event (takeRead_event _ .display) h
  | rightsProbe => exact actOn_event (takeRead_event _ .anchor) h
  | forwardedRead => exact actOn_event (takeRead_event _ .plain) h
  | readAnsweredFault => exact actOn_event (takeRead_event _ .fault) h
  | storePortGrant => exact actOn_event .storeGrant h
  | storePortRetry => exact actOn_event .retry h
  | retryExhausted => exact actOn_event .exhaustion h
  | forwardedReadCompletion a data => exact actOn_event (fun p => .readCompletion p a data) h
  | forwardedWriteCompletion a => exact actOn_event (fun p => .writeCompletion p a) h
  | fetchReadCompletion a data => exact actOn_event (fun p => .fetchCompletion p a data) h
  | writeBackCompletion corrected => exact actOn_event (fun p => .writeBackCompletion p corrected) h
  | ringRecordCompletion corrected => exact actOn_event (fun p => .recordCompletion p corrected) h
  | partMadeWriteUncorrectable => exact actOn_event .uncorrectable h
  | preRollExpiry i => exact actOn_event (fun p => takeExpiry_event .preRoll p i) h
  | restartPauseExpiry i => exact actOn_event (fun p => takeExpiry_event .restartPause p i) h
  | stepTimerExpiry i => exact actOn_event (fun p => takeExpiry_event .step p i) h
  | contenderWindowExpiry i => exact actOn_event (fun p => takeExpiry_event .contenderWindow p i) h
  | start | hold | resumeDiscard | resumeFlush | withdrawCommand | enable | disable | unknownLaneCommand | laneParameterWrite
  | stopModeWrite | payment | invoiceCloseWord | consumerIndexWord | ringLowThresholdWrite | dayOpen | dayClose | unknownDayCommand
  | windowCommit | windowRemoval | masterCommit | flagClear | captureRelease | eventMapWrite | reportCorrectedSwitchWrite =>
    exact actOn_event (takeAnchor_event _) h

/-- A predicate on the part that every event keeps is kept by every step. -/
theorem kept_of_events {P : Part → Prop} (hP : ∀ p q, PartEvent p q → P p → P q) : Kept fun s => P s.part := by
  intro s t hs hstep
  unfold step at hstep
  split at hstep
  · cases hstep
    exact hs
  · exact hP _ _ (exec_event _ hstep) hs

end Sys2Proof.Machine
end

section
/-! PROOFS. What every operation of the part keeps: the bounds and fixed entries of the Floor Port, the Window Unit, the Store Port, the
Attention Unit, the queues and the tables. Each operation has one lemma, made of those of the operations it is made of. -/

namespace Sys2Proof.Machine

open Sys2Proof.Safety

/-! ### The kept bounds, as predicates on the part -/

/-- R151, R153: the bounds of the Floor Port. -/
def FloorOk (p : Part) : Prop := p.floor.buffer.length ≤ 8 ∧ p.floor.streak ≤ 4

/-- R157, R159, R160: the fixed entries of the Window Unit and the shadow's canonical form. -/
def WindowsOk (p : Part) : Prop :=
  p.window.cache[0] = WindowEntry.anchor p.window.anchorSel ∧ p.window.masters[0] = MasterEntry.zero ∧ Memory.wf p.window.shadow

/-- R169: the bound of the RETRY count. -/
def RetriesOk (p : Part) : Prop := ∀ f, p.store.inFlight = some f → f.retries ≤ 63

/-- R175, R180: the capture's counts and the fixed entry of the event map. -/
def AttentionOk (p : Part) : Prop :=
  p.attention.capture.lost ≤ 255 ∧ (p.attention.capture.locked = false → p.attention.capture.lost = 0) ∧
    p.attention.map[7] = .attnU

/-- R7, R35: the bounds of the Listing Queue and the Pass Backlogs. -/
def QueuesOk (p : Part) : Prop := p.catalogue.listing.length ≤ 8 ∧ ∀ i, (p.track i).backlog.length ≤ 8

/-- R3, R77, R98: the canonical form of the tables. -/
def TablesOk (p : Part) : Prop :=
  tableSorted p.catalogue.known ∧ tableWf DeskEntry.afterReset p.press.desks ∧ tableWf BuyerEntry.afterReset p.account.buyers

/-- `q` keeps each of the bounds and forms that `p` has. -/
structure Moves (p q : Part) : Prop where
  floor : FloorOk p → FloorOk q
  windows : WindowsOk p → WindowsOk q
  retries : RetriesOk p → RetriesOk q
  attention : AttentionOk p → AttentionOk q
  queues : QueuesOk p → QueuesOk q
  tables : TablesOk p → TablesOk q

theorem Moves.refl (p : Part) : Moves p p := ⟨id, id, id, id, id, id⟩

theorem Moves.trans {p q r : Part} (h : Moves p q) (k : Moves q r) : Moves p r :=
  ⟨k.floor ∘ h.floor, k.windows ∘ h.windows, k.retries ∘ h.retries, k.attention ∘ h.attention, k.queues ∘ h.queues,
    k.tables ∘ h.tables⟩

/-- A fold of operations that each keep the bounds keeps them. -/
theorem foldl_moves {α : Type} {f : Part → α → Part} {b p : Part} (hf : ∀ {q a}, Moves b q → Moves b (f q a)) (xs : List α)
    (h : Moves b p) : Moves b (xs.foldl f p) := by
  induction xs generalizing p with
  | nil => exact h
  | cons x xs ih => exact ih (hf h)

/-! ### One block changed -/

theorem FloorOk.congr {p q : Part} (h : q.floor = p.floor) (hp : FloorOk p) : FloorOk q := by rwa [FloorOk, h]
theorem WindowsOk.congr {p q : Part} (h : q.window = p.window) (hp : WindowsOk p) : WindowsOk q := by
  unfold WindowsOk; rw [h]; exact hp
theorem RetriesOk.congr {p q : Part} (h : q.store = p.store) (hp : RetriesOk p) : RetriesOk q := by rwa [RetriesOk, h]
theorem AttentionOk.congr {p q : Part} (h : q.attention = p.attention) (hp : AttentionOk p) : AttentionOk q := by
  unfold AttentionOk; rw [h]; exact hp
theorem QueuesOk.congr {p q : Part} (hc : q.catalogue = p.catalogue) (ht : q.tracks = p.tracks) (hp : QueuesOk p) : QueuesOk q := by
  unfold QueuesOk Part.track; rw [hc, ht]; exact hp
theorem TablesOk.congr {p q : Part} (hc : q.catalogue = p.catalogue) (hd : q.press = p.press) (ha : q.account = p.account)
    (hp : TablesOk p) : TablesOk q := by
  unfold TablesOk; rw [hc, hd, ha]; exact hp

/-- An operation on the lanes, the ring, the displays and the ticks alone. -/
theorem Moves.of_blocks {p q : Part} (hf : q.floor = p.floor := by simp) (hw : q.window = p.window := by simp)
    (hs : q.store = p.store := by simp) (hat : q.attention = p.attention := by simp) (hc : q.catalogue = p.catalogue := by simp)
    (ht : q.tracks = p.tracks := by simp) (hp : q.press = p.press := by simp) (ha : q.account = p.account := by simp) :
    Moves p q :=
  ⟨.congr hf, .congr hw, .congr hs, .congr hat, .congr hc ht, .congr hc hp ha⟩

/-- An operation on the Attention Unit. -/
theorem Moves.of_attention {p q : Part} (h : AttentionOk p → AttentionOk q) (hf : q.floor = p.floor := by simp)
    (hw : q.window = p.window := by simp) (hs : q.store = p.store := by simp) (hc : q.catalogue = p.catalogue := by simp)
    (ht : q.tracks = p.tracks := by simp) (hp : q.press = p.press := by simp) (ha : q.account = p.account := by simp) :
    Moves p q :=
  ⟨.congr hf, .congr hw, .congr hs, h, .congr hc ht, .congr hc hp ha⟩

/-- An operation on the Floor Port. -/
theorem Moves.of_floor {p q : Part} (h : FloorOk p → FloorOk q)
    (hw : q.window = p.window := by simp) (hs : q.store = p.store := by simp) (hat : q.attention = p.attention := by simp)
    (hc : q.catalogue = p.catalogue := by simp) (ht : q.tracks = p.tracks := by simp) (hp : q.press = p.press := by simp)
    (ha : q.account = p.account := by simp) : Moves p q :=
  ⟨h, .congr hw, .congr hs, .congr hat, .congr hc ht, .congr hc hp ha⟩

/-- An operation on the Window Unit. -/
theorem Moves.of_window {p q : Part} (h : WindowsOk p → WindowsOk q) (hf : q.floor = p.floor := by simp)
    (hs : q.store = p.store := by simp) (hat : q.attention = p.attention := by simp) (hc : q.catalogue = p.catalogue := by simp)
    (ht : q.tracks = p.tracks := by simp) (hp : q.press = p.press := by simp) (ha : q.account = p.account := by simp) :
    Moves p q :=
  ⟨.congr hf, h, .congr hs, .congr hat, .congr hc ht, .congr hc hp ha⟩

/-- An operation on the Store Port. -/
theorem Moves.of_store {p q : Part} (h : RetriesOk p → RetriesOk q) (hf : q.floor = p.floor := by simp)
    (hw : q.window = p.window := by simp) (hat : q.attention = p.attention := by simp) (hc : q.catalogue = p.catalogue := by simp)
    (ht : q.tracks = p.tracks := by simp) (hp : q.press = p.press := by simp) (ha : q.account = p.account := by simp) :
    Moves p q :=
  ⟨.congr hf, .congr hw, h, .congr hat, .congr hc ht, .congr hc hp ha⟩

/-- An operation on the queues and the tables. -/
theorem Moves.of_data {p q : Part} (hq : QueuesOk p → QueuesOk q) (ht : TablesOk p → TablesOk q)
    (hf : q.floor = p.floor := by simp) (hw : q.window = p.window := by simp) (hs : q.store = p.store := by simp)
    (hat : q.attention = p.attention := by simp) : Moves p q :=
  ⟨.congr hf, .congr hw, .congr hs, .congr hat, hq, ht⟩

/-- An operation on the Catalogue Unit that takes no listing in and keeps the known lots in order. -/
theorem Moves.of_catalogue {p q : Part} (hl : q.catalogue.listing.length ≤ p.catalogue.listing.length)
    (hk : tableSorted p.catalogue.known → tableSorted q.catalogue.known) (hf : q.floor = p.floor := by simp)
    (hw : q.window = p.window := by simp) (hs : q.store = p.store := by simp) (hat : q.attention = p.attention := by simp)
    (ht : q.tracks = p.tracks := by simp) (hp : q.press = p.press := by simp) (ha : q.account = p.account := by simp) :
    Moves p q := by
  refine .of_data (fun h => ⟨hl.trans h.1, ?_⟩) (fun h => ⟨hk h.1, ?_⟩) hf hw hs hat
  · unfold Part.track; rw [ht]; exact h.2
  · rw [hp, ha]; exact h.2

/-! ### Updates -/

section

variable {b p : Part} {i : Lane} {lot buyer : Nat}

/-- An update of a lane's track that adds no pass to its backlog beyond the bound. -/
theorem setTrack_moves {t : TrackLane} (h : Moves b p) (hlen : QueuesOk b → t.backlog.length ≤ 8) :
    Moves b (p.setTrack i t) := by
  refine ⟨h.floor, h.windows, h.retries, h.attention, fun hb => ⟨(h.queues hb).1, fun j => ?_⟩, h.tables⟩
  by_cases hj : j = i
  · subst hj
    rw [Part.setTrack_track_same]
    exact hlen hb
  · rw [Part.setTrack_track_other _ _ _ _ hj]
    exact (h.queues hb).2 j

/-- An update of a lane's track that leaves its backlog. -/
theorem setTrack_moves_of_backlog {t : TrackLane} (h : Moves b p) (hsame : t.backlog = (p.track i).backlog) :
    Moves b (p.setTrack i t) := setTrack_moves h fun hb => hsame ▸ (h.queues hb).2 i

theorem modLane_moves {f : LaneUnit → LaneUnit} (h : Moves b p) : Moves b (modLane p i f) := h.trans .of_blocks

theorem setDisplay_moves {d : DisplayLane} (h : Moves b p) : Moves b (p.setDisplay i d) := h.trans .of_blocks

theorem notify_moves (h : Moves b p) : Moves b (p.notify i) := h.trans .of_blocks

theorem setRing_moves {r : RingUnit} (h : Moves b p) : Moves b (p.setRing r) := h.trans .of_blocks

theorem raise_moves {k : EventKind} (h : Moves b p) : Moves b (p.raise k) := h.trans (.of_attention id)

/-- R175: an error taken by the capture keeps its lost count in its bound, and leaves the capture locked. -/
theorem report_moves {r : ErrorReport} (h : Moves b p) : Moves b (p.report r) := by
  refine h.trans (.of_attention fun ⟨hlost, hfree, hmap⟩ => ?_)
  cases hlock : p.attention.capture.locked with
  | true =>
    refine ⟨?_, ?_, hmap⟩
    · simp [Part.report, AttentionUnit.raise, ErrorCapture.take, hlock, Config.maxLost]
    · simp [Part.report, AttentionUnit.raise, ErrorCapture.take, hlock]
  | false =>
    refine ⟨?_, ?_, hmap⟩ <;> simp [Part.report, AttentionUnit.raise, ErrorCapture.take, hlock]

theorem setExpected_moves {queue : List Nat} (h : Moves b p) : Moves b (p.setExpected i queue) :=
  h.trans (.of_catalogue le_rfl id)

theorem setDigest_moves {d : Digest} (h : Moves b p) : Moves b (p.setDigest lot d) :=
  h.trans (.of_catalogue le_rfl (tableInsert_sorted lot d))

theorem dropDigest_moves (h : Moves b p) : Moves b (p.dropDigest lot) :=
  h.trans (.of_catalogue le_rfl (tableErase_sorted lot))

theorem updateDigest_moves {f : Digest → Digest} (h : Moves b p) : Moves b (p.updateDigest lot f) := by
  unfold Part.updateDigest
  split
  · exact setDigest_moves h
  · exact h

theorem updateOwned_moves {f : Owned → Owned} (h : Moves b p) : Moves b (p.updateOwned lot f) := updateDigest_moves h

theorem setDesk_moves {k : Nat} {d : DeskEntry} (h : Moves b p) : Moves b (p.setDesk k d) :=
  h.trans (.of_data id fun ⟨hk, hd, hb⟩ => ⟨hk, tableSet_wf k d hd, hb⟩)

theorem setBuyer_moves {e : BuyerEntry} (h : Moves b p) : Moves b (p.setBuyer buyer e) :=
  h.trans (.of_data id fun ⟨hk, hd, hb⟩ => ⟨hk, hd, tableSet_wf buyer e hb⟩)

/-- An update of the Press Unit's counts. -/
theorem setPress_moves {u : PressUnit} (h : Moves b p) (hu : u.desks = p.press.desks) : Moves b (p.setPress u) :=
  h.trans (.of_data id fun ⟨hk, hd, hb⟩ => ⟨hk, by rw [Part.setPress_press, hu]; exact hd, hb⟩)

/-- An update of the Account Unit beside its buyers. -/
theorem setAccount_moves {a : AccountUnit} (h : Moves b p) (ha : a.buyers = p.account.buyers) : Moves b (p.setAccount a) :=
  h.trans (.of_data id fun ⟨hk, hd, hb⟩ => ⟨hk, hd, by rw [Part.setAccount_account, ha]; exact hb⟩)

/-- An update of the Catalogue Unit that takes no listing in and leaves the known lots. -/
theorem setCatalogue_moves {c : CatalogueUnit} (h : Moves b p) (hl : c.listing.length ≤ p.catalogue.listing.length)
    (hk : c.known = p.catalogue.known) : Moves b (p.setCatalogue c) :=
  h.trans (.of_catalogue hl fun hs => by rw [Part.setCatalogue_catalogue, hk]; exact hs)

/-- An update of the Window Unit that leaves its cache, its masters, its straps and its shadow. -/
theorem setWindow_moves {u : WindowUnit} (h : Moves b p) (hc : u.cache = p.window.cache) (hm : u.masters = p.window.masters)
    (hs : u.shadow = p.window.shadow) (ha : u.anchorSel = p.window.anchorSel) : Moves b (p.setWindow u) := by
  refine h.trans (.of_window fun hp => ?_)
  unfold WindowsOk
  rw [Part.setWindow_window, hc, hm, hs, ha]
  exact hp

/-! ### The ring's slots, records and digests -/

theorem joinWaiters_moves {need : Nat} (h : Moves b p) : Moves b (joinWaiters p i need) := raise_moves (setRing_moves h)

theorem leaveWaiters_moves (h : Moves b p) : Moves b (leaveWaiters p i) := setRing_moves h

theorem createRecord_moves {body : RecordBody} (h : Moves b p) : Moves b (createRecord p body) := setRing_moves h

theorem createDayMark_moves {mark : DayMark} (h : Moves b p) : Moves b (createDayMark p mark) := createRecord_moves h

theorem judgeRingLow_moves {before : Part} (h : Moves b p) : Moves b (judgeRingLow before p) := by
  unfold judgeRingLow
  split
  · exact raise_moves h
  · exact h

theorem judgeThreshold_moves (h : Moves b p) : Moves b (judgeThreshold p) := by
  unfold judgeThreshold
  split
  · exact raise_moves h
  · exact h

theorem requestWriteBack_moves {forClose : Bool} (h : Moves b p) : Moves b (requestWriteBack p lot forClose) :=
  setCatalogue_moves h le_rfl rfl

theorem freeIfDone_moves (h : Moves b p) : Moves b (freeIfDone p lot) := by
  unfold freeIfDone
  split
  · split
    · exact dropDigest_moves h
    · exact h
  · exact h

theorem endReason_moves (h : Moves b p) : Moves b (endReason p lot) := freeIfDone_moves (updateDigest_moves h)

theorem endReasons_moves {lots : List Nat} (h : Moves b p) : Moves b (endReasons p lots) := foldl_moves endReason_moves lots h

theorem makePassenger_moves (h : Moves b p) : Moves b (makePassenger p lot) := requestWriteBack_moves (updateOwned_moves h)

theorem setLotStates_moves {lots : List Nat} {state : LotState} (h : Moves b p) : Moves b (setLotStates p lots state) :=
  foldl_moves updateOwned_moves lots h

theorem rebuildNotified_moves (h : Moves b p) : Moves b (rebuildNotified p) := h.trans .of_blocks

/-! ### The lanes' own steps -/

theorem putUp_moves (h : Moves b p) : Moves b (putUp p i lot) :=
  notify_moves (setDisplay_moves (updateOwned_moves (modLane_moves h)))

theorem waitOnRing_moves {ret : ReturnState} {need : Nat} (h : Moves b p) : Moves b (waitOnRing p i ret need) :=
  joinWaiters_moves (modLane_moves h)

theorem prime_moves (h : Moves b p) : Moves b (prime p i lot) := by
  unfold prime
  split
  · exact putUp_moves h
  · exact waitOnRing_moves h

theorem look_moves (h : Moves b p) : Moves b (look p i) := by
  unfold look
  split
  · exact prime_moves h
  · exact h

theorem enterIdle_moves (h : Moves b p) : Moves b (enterIdle p i) := look_moves (notify_moves (modLane_moves h))

theorem enterRunning_moves {leaving : ReturnState} (h : Moves b p) : Moves b (enterRunning p i leaving) := by
  unfold enterRunning
  split
  · exact modLane_moves h
  · exact waitOnRing_moves h

theorem addHold_moves {r : HoldReason} (h : Moves b p) : Moves b (addHold p i r) := modLane_moves h

theorem lookWithSlot_moves (h : Moves b p) : Moves b (lookWithSlot p i) := by
  unfold lookWithSlot
  dsimp only
  split
  · exact putUp_moves (modLane_moves h)
  · exact notify_moves (modLane_moves (modLane_moves h))

theorem leaveHeld_moves (h : Moves b p) : Moves b (leaveHeld p i) := by
  unfold leaveHeld
  dsimp only
  split
  · split
    · exact lookWithSlot_moves h
    · exact enterIdle_moves h
  all_goals
    split
    · exact enterRunning_moves h
    · exact modLane_moves h

theorem leaveHeldIfFree_moves (h : Moves b p) : Moves b (leaveHeldIfFree p i) := by
  unfold leaveHeldIfFree
  split
  · exact leaveHeld_moves h
  · exact h

theorem serveLane_moves {w : Waiter} (h : Moves b p) : Moves b (serveLane p w) := leaveHeldIfFree_moves (modLane_moves h)

theorem serveWaiters_moves {fuel : Nat} (h : Moves b p) : Moves b (serveWaiters fuel p) := by
  induction fuel generalizing p with
  | zero => exact h
  | succ fuel ih =>
    unfold serveWaiters
    split
    · exact h
    · split
      · exact ih (serveLane_moves (setRing_moves h))
      · exact h

theorem serveIfDue_moves {before : Part} (h : Moves b p) : Moves b (serveIfDue before p) := by
  unfold serveIfDue
  split
  · exact serveWaiters_moves h
  · exact h

theorem settle_moves {before : Part} (h : Moves b p) : Moves b (settle before p) :=
  rebuildNotified_moves (judgeRingLow_moves (serveIfDue_moves h))

theorem settleThreshold_moves {before : Part} (h : Moves b p) : Moves b (settleThreshold before p) :=
  rebuildNotified_moves (judgeThreshold_moves (serveIfDue_moves h))

theorem closeLot_moves (h : Moves b p) : Moves b (closeLot p i) := by
  unfold closeLot
  split
  · exact h
  · dsimp only
    split
    · exact modLane_moves h
    · exact createRecord_moves (setDigest_moves (modLane_moves h))

/-! ### Accounts and presses -/

theorem openInvoice_moves (h : Moves b p) : Moves b (openInvoice p buyer) := by
  unfold openInvoice
  dsimp only
  split
  · exact setAccount_moves (setBuyer_moves h) rfl
  · exact h

theorem closeInvoice_moves (h : Moves b p) : Moves b (closeInvoice p buyer) :=
  raise_moves (setBuyer_moves (createRecord_moves h))

theorem addLine_moves {amount : Nat} (h : Moves b p) : Moves b (addLine p buyer amount) := by
  unfold addLine
  dsimp only
  split
  · exact closeInvoice_moves (setBuyer_moves h)
  · exact setBuyer_moves h

theorem chargeBuyer_moves {amount : Nat} (h : Moves b p) : Moves b (chargeBuyer p buyer amount) :=
  openInvoice_moves (setBuyer_moves h)

theorem recordPurchase_moves {c : Purchase} (h : Moves b p) : Moves b (recordPurchase p i c) := h.trans .of_blocks

theorem makePurchase_moves {c : Purchase} (h : Moves b p) : Moves b (makePurchase p i c) :=
  addLine_moves (recordPurchase_moves (updateOwned_moves (chargeBuyer_moves h)))

theorem setPaymentResult_moves {outcome : WordResult} {applied after : Nat} (h : Moves b p) :
    Moves b (setPaymentResult p outcome applied after) := setAccount_moves h rfl

theorem setCloseResult_moves {r : InvoiceCloseResult} (h : Moves b p) : Moves b (setCloseResult p r) := setAccount_moves h rfl

theorem applyPayment_moves {amount : Nat} (h : Moves b p) : Moves b (applyPayment p buyer amount) := by
  unfold applyPayment
  refine setPaymentResult_moves ?_
  split
  · exact raise_moves (createRecord_moves (setBuyer_moves h))
  · exact createRecord_moves (setBuyer_moves h)

theorem takePayment_moves {amount : Nat} (h : Moves b p) : Moves b (takePayment p buyer amount) := by
  unfold takePayment
  split
  · exact setPaymentResult_moves h
  split
  · exact setPaymentResult_moves h
  split
  · exact setPaymentResult_moves h
  · exact applyPayment_moves h

theorem takeInvoiceClose_moves (h : Moves b p) : Moves b (takeInvoiceClose p buyer) := by
  unfold takeInvoiceClose
  dsimp only
  split
  · exact setCloseResult_moves h
  split
  · exact setCloseResult_moves h
  · exact setCloseResult_moves (closeInvoice_moves h)

theorem closeAllInvoices_moves (h : Moves b p) : Moves b (closeAllInvoices p) := foldl_moves closeInvoice_moves _ h

theorem PressUnit.counted_desks (u : PressUnit) (o : ReplyOutcome) : (u.counted o).desks = u.desks := by cases o <;> rfl

theorem reportToDesk_moves {desk : Nat} {r : Report} (h : Moves b p) : Moves b (reportToDesk p desk r) :=
  setPress_moves (setDesk_moves h) (PressUnit.counted_desks ..)

theorem acceptSequence_moves {desk : Nat} {sequence : Byte} (h : Moves b p) : Moves b (acceptSequence p desk sequence) :=
  setDesk_moves h

theorem refusePress_moves {c : PressIn} {reason : PressReason} {units credit : Nat} (h : Moves b p) :
    Moves b (refusePress p c reason units credit) := reportToDesk_moves h

theorem countDuplicate_moves {desk : Nat} (h : Moves b p) : Moves b (countDuplicate p desk) :=
  setPress_moves (setDesk_moves h) rfl

theorem strikeWith_moves {c : PressIn} {host : HostFields} {units amount : Nat} (h : Moves b p) :
    Moves b (strikeWith p c buyer lot host units amount) :=
  reportToDesk_moves (acceptSequence_moves (modLane_moves (makePurchase_moves h)))

theorem winnerPath_moves {c : PressIn} (h : Moves b p) : Moves b (winnerPath p c buyer) := by
  unfold winnerPath
  dsimp only
  split
  · exact refusePress_moves h
  · split
    · exact refusePress_moves h
    · exact strikeWith_moves h

theorem contenderPath_moves {c : PressIn} (h : Moves b p) : Moves b (contenderPath p c buyer) := by
  unfold contenderPath
  dsimp only
  split
  · exact reportToDesk_moves (acceptSequence_moves (modLane_moves h))
  · exact refusePress_moves h

theorem pressByState_moves {c : PressIn} (h : Moves b p) : Moves b (pressByState p c buyer) := by
  unfold pressByState
  dsimp only
  cases (p.lane c.lane).state with
  | running => exact winnerPath_moves h
  | struck => exact contenderPath_moves h
  | primed | paused | idle | closing | held => exact refusePress_moves h

theorem judgePress_moves {c : PressIn} (h : Moves b p) : Moves b (judgePress p c) := by
  unfold judgePress
  dsimp only
  split
  · exact refusePress_moves h
  split
  · exact countDuplicate_moves h
  split
  · exact pressByState_moves h
  · exact refusePress_moves h

theorem takePress_moves {c : PressIn} (h : Moves b p) : Moves b (takePress p c) := judgePress_moves (setPress_moves h rfl)

theorem reportService_moves {e : Contender} {position : Nat} {outcome : ReplyOutcome} {reason : PressReason} {units amount : Nat}
    (h : Moves b p) : Moves b (reportService p i e position outcome reason units amount) := reportToDesk_moves h

theorem serveContender_moves {position : Nat} {e : Contender} (h : Moves b p) : Moves b (serveContender p i position e) := by
  obtain ⟨q, oc, rs, u, a, heq, rfl | ⟨c, rfl⟩⟩ := serveContender_cases p i position e <;> rw [heq]
  · exact reportService_moves h
  · exact reportService_moves (makePurchase_moves h)

theorem serveContenders_moves {position : Nat} {es : List Contender} (h : Moves b p) : Moves b (serveContenders i position es p) := by
  induction es generalizing position p with
  | nil => exact h
  | cons e es ih => exact ih (serveContender_moves h)

theorem setNextRound_moves (h : Moves b p) : Moves b (setNextRound p i) := by
  unfold setNextRound
  split
  · exact modLane_moves h
  · exact h

theorem afterService_moves (h : Moves b p) : Moves b (afterService p i) := by
  unfold afterService
  split
  · exact closeLot_moves (modLane_moves h)
  split
  · exact modLane_moves (setNextRound_moves h)
  · exact modLane_moves (setNextRound_moves h)

theorem contenderExpiry_moves (h : Moves b p) : Moves b (contenderExpiry p i) :=
  afterService_moves (modLane_moves (serveContenders_moves h))

/-! ### The catalogue -/

theorem noteRefusal_moves {reason : RefusalReason} (h : Moves b p) : Moves b (noteRefusal p lot reason) :=
  raise_moves (setCatalogue_moves h le_rfl rfl)

theorem refuseListing_moves {reason : RefusalReason} (h : Moves b p) : Moves b (refuseListing p lot reason) :=
  endReason_moves (noteRefusal_moves (requestWriteBack_moves (updateOwned_moves h)))

/-- R7: a LIST request joins the Listing Queue only while it holds fewer than 8 entries. -/
theorem takeList_moves {address : Address} (h : Moves b p) : Moves b (takeList p lot address) := by
  unfold takeList
  split
  · exact noteRefusal_moves h
  · dsimp only
    split
    · next hroom =>
      refine (setDigest_moves h).trans (.of_data (fun hq => ⟨?_, hq.2⟩) id)
      rw [Part.setCatalogue_catalogue, List.length_append]
      exact hroom
    · exact refuseListing_moves (setDigest_moves h)

theorem markWithdraw_moves (h : Moves b p) : Moves b (markWithdraw p lot) := setCatalogue_moves h (List.length_map _).le rfl

theorem notifyLot_moves (h : Moves b p) : Moves b (notifyLot p lot) := by
  unfold notifyLot
  split
  · exact notify_moves h
  · exact h

theorem takeWithdraw_moves (h : Moves b p) : Moves b (takeWithdraw p lot) := by
  unfold takeWithdraw
  cases p.lotState lot with
  | none => exact h
  | some state =>
    cases state with
    | listing => exact markWithdraw_moves h
    | expected | late | staged | atClock => exact notifyLot_moves (makePassenger_moves h)
    | live => exact setCatalogue_moves h le_rfl rfl
    | closed | withdrawn | refused | empty => exact h

theorem placeLot_moves {host : HostFields} (h : Moves b p) : Moves b (placeLot p i lot host) := by
  unfold placeLot
  exact notify_moves (setCatalogue_moves (requestWriteBack_moves (setExpected_moves (updateDigest_moves h))) le_rfl rfl)

theorem validate_moves {host : HostFields} (h : Moves b p) : Moves b (validate p lot host) := by
  unfold validate
  split
  · exact refuseListing_moves h
  split
  · exact refuseListing_moves h
  split
  · exact refuseListing_moves h
  split
  · exact placeLot_moves h
  · exact refuseListing_moves h

theorem withdrawListing_moves (h : Moves b p) : Moves b (withdrawListing p lot) :=
  endReason_moves (requestWriteBack_moves (updateOwned_moves h))

theorem completeFetch_moves {record : Option (List Beat)} (h : Moves b p) : Moves b (completeFetch p record) := by
  unfold completeFetch
  split
  · exact h
  · next e rest hlisting =>
    have hout : Moves b (p.setCatalogue { p.catalogue with listing := rest, fetchLower := none }) := by
      refine setCatalogue_moves h ?_ rfl
      rw [hlisting]
      exact Nat.le_succ _
    dsimp only
    split
    · exact withdrawListing_moves hout
    · split
      · exact refuseListing_moves hout
      · exact validate_moves hout

/-! ### Passes -/

section

variable {pass : Pass}

theorem faultPass_moves {expected : Word32} {reason : TrackFault} (h : Moves b p) :
    Moves b (faultPass p i pass expected reason).part := raise_moves (setTrack_moves_of_backlog h rfl)

theorem stageFromLate_moves {y : Trolley} (h : Moves b p) : Moves b (stageFromLate p i y) :=
  notify_moves (setLotStates_moves (setTrack_moves_of_backlog h rfl))

theorem stageFromLookahead_moves {passed : List Trolley} {y : Trolley} (h : Moves b p) :
    Moves b (stageFromLookahead p i passed y) :=
  notify_moves (setLotStates_moves (setLotStates_moves (setExpected_moves (setTrack_moves_of_backlog h rfl))))

theorem gateLookahead_moves (h : Moves b p) : Moves b (gateLookahead p i pass).part := by
  unfold gateLookahead
  dsimp only
  split
  · exact faultPass_moves h
  split
  · exact faultPass_moves h
  split
  · exact faultPass_moves h
  · exact stageFromLookahead_moves h

theorem gatePass_moves (h : Moves b p) : Moves b (gatePass p i pass).part := by
  unfold gatePass
  dsimp only
  split
  · split
    · exact faultPass_moves h
    · exact stageFromLate_moves h
  · exact gateLookahead_moves h

theorem displayPass_moves (h : Moves b p) : Moves b (displayPass p i pass).part := by
  unfold displayPass
  dsimp only
  split
  · exact faultPass_moves h
  split
  · exact faultPass_moves h
  split
  · exact faultPass_moves h
  · exact notify_moves (setLotStates_moves (setTrack_moves_of_backlog h rfl))

theorem emptyDisplay_moves (h : Moves b p) : Moves b (emptyDisplay p i) := by
  unfold emptyDisplay
  split
  · exact notify_moves (endReasons_moves (setTrack_moves_of_backlog h rfl))
  · exact h

theorem exitPass_moves (h : Moves b p) : Moves b (exitPass p i pass).part := by
  unfold exitPass
  split
  · exact faultPass_moves h
  split
  · exact faultPass_moves h
  split
  · exact emptyDisplay_moves h
  · exact faultPass_moves h

theorem carryOut_moves (h : Moves b p) : Moves b (carryOut p i pass).part := by
  unfold carryOut
  cases pass.station with
  | gate => exact gatePass_moves h
  | display => exact displayPass_moves h
  | exit => exact exitPass_moves h

theorem discardPass_moves (h : Moves b p) : Moves b (discardPass p i) := setTrack_moves_of_backlog h rfl

/-- R35: a pass joins the Pass Backlog only while it holds fewer than 8. -/
theorem backlogPass_moves (h : Moves b p) : Moves b (backlogPass p i pass) := by
  unfold backlogPass
  split
  · next hroom =>
    refine setTrack_moves h fun _ => ?_
    rw [List.length_append]
    exact hroom
  · exact discardPass_moves h

theorem tellLane_moves {o : PassOutcome} (h : Moves b o.part) : Moves b (tellLane o i) := by
  unfold tellLane
  split
  · exact addHold_moves h
  split
  · exact look_moves h
  · exact h

theorem takePass_moves (h : Moves b p) : Moves b (takePass p i pass) := by
  unfold takePass
  split
  · exact discardPass_moves h
  split
  · exact backlogPass_moves h
  · exact tellLane_moves (carryOut_moves h)

end

/-- R36: a replay leaves a rest of the passes it was given as the backlog. -/
theorem replay_moves {passes : List Pass} {arrived : Bool} (h : Moves b p) (hlen : QueuesOk b → passes.length ≤ 8) :
    Moves b (replay i passes arrived p).part := by
  induction passes generalizing arrived p with
  | nil => exact setTrack_moves h fun _ => Nat.zero_le 8
  | cons pass rest ih =>
    have hrest : QueuesOk b → rest.length ≤ 8 := fun hb => (Nat.le_succ _).trans (hlen hb)
    unfold replay
    dsimp only
    split
    · exact setTrack_moves (carryOut_moves h) hrest
    · exact ih (carryOut_moves h) hrest

theorem disposeTrack_moves {d : Disposition} (h : Moves b p) : Moves b (disposeTrack p i d).part := by
  cases d with
  | discard =>
    simp only [disposeTrack]
    split
    · exact replay_moves (setTrack_moves_of_backlog h rfl) fun hb => (h.queues hb).2 i
    · exact h
  | flush =>
    simp only [disposeTrack]
    split
    · exact setTrack_moves h fun _ => Nat.zero_le 8
    · exact h

/-! ### Lane commands, parameters and expiries -/

theorem addStop_moves (h : Moves b p) : Moves b (addStop p i) := raise_moves (addHold_moves h)

theorem changeStop_moves {level : Bool} (h : Moves b p) : Moves b (changeStop p i level) := by
  unfold changeStop
  dsimp only
  split
  · exact h
  split
  · exact addStop_moves (modLane_moves h)
  · exact modLane_moves h

theorem setCommandResult_moves {r : WordResult} (h : Moves b p) : Moves b (setCommandResult p i r) := modLane_moves h

theorem startLane_moves (h : Moves b p) : Moves b (startLane p i) := by
  unfold startLane
  split
  · exact setCommandResult_moves (enterRunning_moves h)
  · exact setCommandResult_moves h

theorem resumeLane_moves {d : Disposition} (h : Moves b p) : Moves b (resumeLane p i d) := by
  have hleft : Moves b (leaveHeldIfFree (disposeTrack (modLane p i LaneUnit.resumed) i d).part i) :=
    leaveHeldIfFree_moves (disposeTrack_moves (modLane_moves h))
  unfold resumeLane
  dsimp only
  split
  · refine addHold_moves ?_
    split
    · exact look_moves hleft
    · exact hleft
  · split
    · exact look_moves hleft
    · exact hleft

theorem withdrawHeld_moves (h : Moves b p) : Moves b (withdrawHeld p i) := closeLot_moves (leaveWaiters_moves (modLane_moves h))

theorem withdrawLane_moves (h : Moves b p) : Moves b (withdrawLane p i) := by
  unfold withdrawLane
  split
  · exact setCommandResult_moves (closeLot_moves h)
  · exact setCommandResult_moves (closeLot_moves h)
  · exact setCommandResult_moves (closeLot_moves h)
  · exact setCommandResult_moves (modLane_moves h)
  · exact setCommandResult_moves (withdrawHeld_moves h)
  · exact setCommandResult_moves (withdrawHeld_moves h)
  all_goals exact setCommandResult_moves h

theorem disableLane_moves (h : Moves b p) : Moves b (disableLane p i) := by
  unfold disableLane
  split
  · exact setCommandResult_moves (modLane_moves h)
  · exact setCommandResult_moves h

theorem takeLaneCommand_moves {c : LaneCommand} (h : Moves b p) : Moves b (takeLaneCommand p i c) := by
  cases c with
  | start => exact startLane_moves h
  | hold => exact setCommandResult_moves (addHold_moves h)
  | resumeDiscard => exact resumeLane_moves h
  | resumeFlush => exact resumeLane_moves h
  | withdraw => exact withdrawLane_moves h
  | enable => exact setCommandResult_moves (modLane_moves h)
  | disable => exact disableLane_moves h
  | unknown => exact setCommandResult_moves h

theorem takeParam_moves {k : LaneParam} (h : Moves b p) : Moves b (takeParam i p k) := by
  unfold takeParam
  split
  · exact modLane_moves h
  · exact h

theorem setParamResult_moves {r : WordResult} (h : Moves b p) : Moves b (setParamResult p i r) := modLane_moves h

theorem takeLaneParams_moves {bytes : List (Nat × Byte)} (h : Moves b p) : Moves b (takeLaneParams p i bytes) :=
  setParamResult_moves (foldl_moves takeParam_moves _ h)

theorem judgeStop_moves (h : Moves b p) : Moves b (judgeStop p i) := by
  unfold judgeStop
  split
  · exact addStop_moves h
  · exact h

theorem takeStopMode_moves {bytes : List (Nat × Byte)} (h : Moves b p) : Moves b (takeStopMode p i bytes) := by
  unfold takeStopMode
  refine setParamResult_moves ?_
  split
  · exact judgeStop_moves (takeParam_moves h)
  · exact h

theorem takeTick_moves (h : Moves b p) : Moves b (takeTick p) := h.trans .of_blocks

theorem stepExpiry_moves (h : Moves b p) : Moves b (stepExpiry p i) := by
  unfold stepExpiry
  split
  · exact h
  split
  · exact modLane_moves h
  · exact closeLot_moves h

theorem ExpiryAct.moves {kind : TimerKind} {act : Part → Lane → Part} (ha : ExpiryAct kind act) (h : Moves b p) :
    Moves b (act p i) := by
  cases ha with
  | preRoll => exact enterRunning_moves h
  | restartPause => exact enterRunning_moves h
  | step => exact stepExpiry_moves h
  | contenderWindow => exact contenderExpiry_moves h

/-! ### The day -/

theorem setDayResult_moves {r : WordResult} (h : Moves b p) : Moves b (setDayResult p r) := setWindow_moves h rfl rfl rfl rfl

theorem openDay_moves {number : Nat} (h : Moves b p) : Moves b (openDay p number) := by
  unfold openDay
  exact setDayResult_moves (setWindow_moves (setRing_moves (createDayMark_moves (setWindow_moves h rfl rfl rfl rfl)))
    rfl rfl rfl rfl)

theorem takeDayOpen_moves {number : Nat} (h : Moves b p) : Moves b (takeDayOpen p number) := by
  unfold takeDayOpen
  split
  · exact setDayResult_moves h
  split
  · exact setDayResult_moves h
  split
  · exact setDayResult_moves h
  split
  · exact setDayResult_moves h
  · exact openDay_moves h

theorem markAllWithdraw_moves (h : Moves b p) : Moves b (markAllWithdraw p) := setCatalogue_moves h (List.length_map _).le rfl

/-- The counter of the free orders is of no block. -/
theorem freeDraws_moves {n : Nat} (h : Moves b p) : Moves b { p with freeDraws := n } :=
  h.trans (.of_blocks rfl rfl rfl rfl rfl rfl rfl rfl)

theorem withdrawAll_moves (h : Moves b p) : Moves b (withdrawAll p) := by
  unfold withdrawAll
  dsimp only
  split
  · exact foldl_moves makePassenger_moves _ h
  · exact freeDraws_moves (foldl_moves makePassenger_moves _ h)

theorem flushLane_moves {before : Part} (h : Moves b p) : Moves b (flushLane before p i) := by
  unfold flushLane
  exact notify_moves (endReasons_moves (setExpected_moves (setTrack_moves h fun _ => Nat.zero_le 8)))

theorem flushLanes_moves (h : Moves b p) : Moves b (flushLanes p) := foldl_moves flushLane_moves allLanes h

theorem endDay_moves (h : Moves b p) : Moves b (endDay p) := by
  unfold endDay
  exact raise_moves (setWindow_moves (setRing_moves (createDayMark_moves (closeAllInvoices_moves h))) rfl rfl rfl rfl)

theorem endDayIfDue_moves (h : Moves b p) : Moves b (endDayIfDue p) := by
  unfold endDayIfDue
  split
  · exact endDay_moves h
  · exact h

theorem closeDay_moves (h : Moves b p) : Moves b (closeDay p) := by
  unfold closeDay
  exact endDayIfDue_moves (flushLanes_moves (withdrawAll_moves (markAllWithdraw_moves
    (setDayResult_moves (setWindow_moves h rfl rfl rfl rfl)))))

theorem takeDayClose_moves (h : Moves b p) : Moves b (takeDayClose p) := by
  unfold takeDayClose
  split
  · exact closeDay_moves h
  · exact setDayResult_moves h

theorem takeDayWord_moves {number : Nat} {c : DayCommand} (h : Moves b p) : Moves b (takeDayWord p number c) := by
  cases c with
  | openDay => exact takeDayOpen_moves h
  | closeDay => exact takeDayClose_moves h
  | unknown => exact setDayResult_moves h

theorem emptyKeptDisplay_moves (h : Moves b p) : Moves b (emptyKeptDisplay p i) := by
  unfold emptyKeptDisplay
  split
  · exact emptyDisplay_moves h
  · exact h

theorem completeClose_moves (h : Moves b p) : Moves b (completeClose p i lot) := by
  unfold completeClose
  exact raise_moves (emptyKeptDisplay_moves (requestWriteBack_moves (updateOwned_moves h)))

theorem leaveClosing_moves (h : Moves b p) : Moves b (leaveClosing p i) := by
  unfold leaveClosing
  dsimp only
  split
  · exact look_moves (notify_moves (modLane_moves h))
  · exact modLane_moves (notify_moves (modLane_moves h))

theorem completeWriteBack_moves {e : WriteBackEntry} (h : Moves b p) : Moves b (completeWriteBack p e) := by
  have hout : Moves b (p.setCatalogue { p.catalogue with writeBackOut := none }) := setCatalogue_moves h le_rfl rfl
  unfold completeWriteBack
  refine endDayIfDue_moves (freeIfDone_moves ?_)
  split
  · split
    · exact leaveClosing_moves hout
    · exact hout
  · exact hout

end

end Sys2Proof.Machine
end

section
/-! PROOFS. The bounds and fixed entries along every event: the Anchor's words, the buses, the Store Port and the resets; and the
statements that every step keeps them. -/

namespace Sys2Proof.Machine

open Sys2Proof.Safety

section

variable {b p : Part} {i : Lane} {lot buyer : Nat}

/-! ### Window and master commits -/

theorem setWindowResult_moves {w : Window} {result : WordResult} {reason : CommitReason} (h : Moves b p) :
    Moves b (setWindowResult p w result reason) := setWindow_moves h rfl rfl rfl rfl

theorem setMasterResult_moves {m : Master} {result : WordResult} {reason : CommitReason} (h : Moves b p) :
    Moves b (setMasterResult p m result reason) := setWindow_moves h rfl rfl rfl rfl

/-- R157: an entry of the Window Cache other than the Anchor's set. -/
theorem setCache_moves {w : Window} {e : WindowEntry} (h : Moves b p) (hw : w ≠ 0) :
    Moves b (p.setWindow { p.window with cache := p.window.cache.set w e }) := by
  refine h.trans (.of_window fun ⟨hcache, hrest⟩ => ⟨?_, hrest⟩)
  have hval : w.val ≠ 0 := fun hv => hw (Fin.ext hv)
  exact (Vector.getElem_set_ne (by omega) (by omega) hval).trans hcache

/-- R159: an entry of the Master Table other than entry 0 set. -/
theorem setMasters_moves {m : Master} {e : MasterEntry} (h : Moves b p) (hm : m ≠ 0) :
    Moves b (p.setWindow { p.window with masters := p.window.masters.set m e }) := by
  refine h.trans (.of_window fun ⟨hcache, hmasters, hshadow⟩ => ⟨hcache, ?_, hshadow⟩)
  have hval : m.val ≠ 0 := fun hv => hm (Fin.ext hv)
  exact (Vector.getElem_set_ne (by omega) (by omega) hval).trans hmasters

theorem refuseWindow_moves {m : Master} {w : Window} {reason : CommitReason} (h : Moves b p) :
    Moves b (refuseWindow p m w reason) := report_moves (setWindowResult_moves h)

theorem commitRing_moves {held : WindowEntry} {kind : WindowKind} {d : Descriptor} (h : Moves b p) :
    Moves b (commitRing p held kind d) := by
  unfold commitRing
  split
  · exact setRing_moves h
  split
  · exact setRing_moves h
  · exact h

theorem installWindow_moves {w : Window} {kind : WindowKind} {d : Descriptor} (h : Moves b p) (hw : w ≠ 0) :
    Moves b (installWindow p w kind d) := by
  unfold installWindow
  exact setWindowResult_moves (setCache_moves (commitRing_moves h) hw)

theorem commitWindow_moves {m : Master} {w : Window} (h : Moves b p) (hw : w ≠ 0) : Moves b (commitWindow p m w) := by
  unfold commitWindow
  dsimp only
  split
  · exact refuseWindow_moves h
  · exact refuseWindow_moves h
  · split
    · exact installWindow_moves h hw
    · exact refuseWindow_moves h

theorem clearWindow_moves {w : Window} (h : Moves b p) (hw : w ≠ 0) : Moves b (clearWindow p w) := by
  unfold clearWindow
  refine setWindowResult_moves (setCache_moves ?_ hw)
  split
  · exact setRing_moves h
  · exact h

theorem removeWindow_moves {m : Master} {w : Window} (h : Moves b p) (hw : w ≠ 0) : Moves b (removeWindow p m w) := by
  unfold removeWindow
  dsimp only
  split
  · exact setWindowResult_moves h
  split
  · exact refuseWindow_moves h
  split
  · exact refuseWindow_moves h
  · exact clearWindow_moves h hw

theorem refuseMaster_moves {m e : Master} (h : Moves b p) : Moves b (refuseMaster p m e) :=
  report_moves (setMasterResult_moves h)

theorem commitMaster_moves {m e : Master} (h : Moves b p) : Moves b (commitMaster p m e) := by
  unfold commitMaster
  split
  · exact refuseMaster_moves h
  split
  · exact refuseMaster_moves h
  · exact setMasterResult_moves (setMasters_moves h ‹_›)

/-! ### The words of the ring and attention areas -/

theorem takeConsumerIndex_moves {w : PostedWrite} {value : Word32} (h : Moves b p) : Moves b (takeConsumerIndex w p value) := by
  unfold takeConsumerIndex
  split
  · exact setRing_moves (setRing_moves h)
  · exact report_moves (setRing_moves h)

theorem takeThreshold_moves {value : Nat} (h : Moves b p) : Moves b (takeThreshold p value) := by
  unfold takeThreshold
  split
  · exact setRing_moves h
  · exact h

theorem clearFlags_moves {set : BitVec 18} (h : Moves b p) : Moves b (p.setAttention (p.attention.clearFlags set)) :=
  h.trans (.of_attention id)

/-- R178: a released capture reads 0. -/
theorem release_moves (h : Moves b p) : Moves b (p.setAttention p.attention.release) := by
  refine h.trans (.of_attention fun ⟨hlost, hfree, hmap⟩ => ?_)
  simp only [AttentionOk, Part.setAttention_attention, AttentionUnit.release]
  split
  · exact ⟨Nat.zero_le _, fun _ => rfl, hmap⟩
  · exact ⟨hlost, hfree, hmap⟩

/-- R180: one covered entry of the event map leaves the capture and DRAM-UNCORRECTABLE's entry. -/
theorem mapEntry_keeps (bytes : List (Nat × Byte)) (shadow : List Host.Cell) (a : AttentionUnit) (k : Fin 18) :
    (a.mapEntry bytes shadow k).capture = a.capture ∧ (a.mapEntry bytes shadow k).map[7] = a.map[7] := by
  unfold AttentionUnit.mapEntry
  split
  · next hk =>
    split
    · exact ⟨rfl, Vector.getElem_set_ne (by omega) (by omega) fun hv => hk.1 (Fin.ext hv)⟩
    · exact ⟨rfl, rfl⟩
  · exact ⟨rfl, rfl⟩

theorem mapEntries_keep (bytes : List (Nat × Byte)) (shadow : List Host.Cell) (ks : List (Fin 18)) (a : AttentionUnit) :
    (ks.foldl (AttentionUnit.mapEntry bytes shadow) a).capture = a.capture ∧
      (ks.foldl (AttentionUnit.mapEntry bytes shadow) a).map[7] = a.map[7] := by
  induction ks generalizing a with
  | nil => exact ⟨rfl, rfl⟩
  | cons k ks ih =>
    obtain ⟨hcapture, hmap⟩ := mapEntry_keeps bytes shadow a k
    rw [List.foldl_cons, (ih _).1, (ih _).2, hcapture, hmap]
    exact ⟨rfl, rfl⟩

theorem takeEventMap_moves {bytes : List (Nat × Byte)} (h : Moves b p) : Moves b (takeEventMap p bytes) := by
  refine h.trans (.of_attention fun hp => ?_)
  obtain ⟨hcapture, hmap⟩ := mapEntries_keep bytes p.window.shadow (List.finRange 18) p.attention
  simp only [AttentionOk, takeEventMap, Part.setAttention_attention, hcapture, hmap]
  exact hp

theorem takeSwitch_moves (h : Moves b p) : Moves b (takeSwitch p) := h.trans (.of_attention id)

/-! ### Anchor writes -/

theorem perform_moves {w : PostedWrite} {bytes : List (Nat × Byte)} {a : AnchorAction} (h : Moves b p)
    (ha : a ≠ .windowWord 0) : Moves b (perform w bytes p a) := by
  cases a with
  | day => exact takeDayWord_moves h
  | payment => exact takePayment_moves h
  | invoiceClose => exact takeInvoiceClose_moves h
  | consumerIndex => exact takeConsumerIndex_moves h
  | threshold => exact takeThreshold_moves h
  | flagClear => exact clearFlags_moves h
  | captureRelease => exact release_moves h
  | eventMap => exact takeEventMap_moves h
  | correctedSwitch => exact takeSwitch_moves h
  | laneCommand i => exact takeLaneCommand_moves h
  | laneParams i => exact takeLaneParams_moves h
  | stopMode i => exact takeStopMode_moves h
  | windowWord v =>
    have hv : v ≠ 0 := fun hv => ha (hv ▸ rfl)
    simp only [perform]
    split
    · exact commitWindow_moves h hv
    · exact removeWindow_moves h hv
  | masterWord m => exact commitMaster_moves h

/-- R166: window 0 has no commit word. -/
theorem anchorActions_windowZero (bytes : List (Nat × Byte)) : .windowWord 0 ∉ anchorActions bytes := by
  simp [anchorActions, wordActions, laneActions, windowActions, masterActions]

/-- A fold of the commands of one write, each of a kind that keeps the bounds. -/
theorem performs_moves {w : PostedWrite} {bytes : List (Nat × Byte)} (actions : List AnchorAction) (h : Moves b p)
    (hactions : .windowWord 0 ∉ actions) : Moves b (actions.foldl (perform w bytes) p) := by
  induction actions generalizing p with
  | nil => exact h
  | cons a actions ih =>
    obtain ⟨ha, hrest⟩ := not_or.mp (mt List.mem_cons.mpr hactions)
    exact ih (perform_moves h (Ne.symm ha)) hrest

/-- An update of the Store Port that leaves the transaction in flight. -/
theorem setStore_moves {u : StorePort} (h : Moves b p) (hu : ∀ f, u.inFlight = some f → RetriesOk p → f.retries ≤ 63) :
    Moves b (p.setStore u) := h.trans (.of_store fun hp f hf => hu f hf hp)

theorem forward_moves {w : PostedWrite} {listed : Option Nat} (h : Moves b p) : Moves b (forward w listed p) := by
  unfold forward
  dsimp only
  split
  · exact h
  · exact setStore_moves h fun f hf hp => hp f hf

/-- R157: the shadow keeps its canonical form under a write. -/
theorem setShadow_moves {w : PostedWrite} (h : Moves b p) :
    Moves b (p.setWindow { p.window with shadow := shadowAfter p w }) :=
  h.trans (.of_window fun ⟨hcache, hmasters, hshadow⟩ => ⟨hcache, hmasters, Memory.write_wf _ hshadow⟩)

theorem takeAnchorWrite_moves {w : PostedWrite} (h : Moves b p) : Moves b (takeAnchorWrite w p) := by
  have hactions : .windowWord 0 ∉ freelyOrdered p.freeDraws (anchorActions (anchorBytes p w)) := fun hmem =>
    anchorActions_windowZero _ ((freelyOrdered_perm _ _).mem_iff.mp hmem)
  have hperformed := performs_moves (w := w) (bytes := anchorBytes p w) _ (forward_moves (w := w) (listed := none) (setShadow_moves (w := w) h)) hactions
  unfold takeAnchorWrite
  dsimp only
  split
  · exact hperformed
  · exact freeDraws_moves hperformed

/-! ### Writes outside the Anchor -/

theorem takeDeskEntry_moves {w : PostedWrite} {k : Nat} (h : Moves b p) : Moves b (takeDeskEntry w p k) := by
  unfold takeDeskEntry
  dsimp only
  split
  · exact setDesk_moves h
  · exact h

theorem takeLot_moves {w : PostedWrite} (h : Moves b p) : Moves b (takeLot w p) := by
  unfold takeLot
  split
  · exact report_moves h
  · unfold takeLotRequest
    split
    · exact forward_moves h
    · exact takeList_moves (forward_moves h)
    · exact takeWithdraw_moves (forward_moves h)

theorem takeBuyer_moves {w : PostedWrite} (h : Moves b p) : Moves b (takeBuyer w p) := by
  unfold takeBuyer
  split
  · exact report_moves h
  · unfold takeBuyerFields
    split
    · exact forward_moves h
    · exact setBuyer_moves (forward_moves h)

theorem WriteAct.moves {act : PostedWrite → Part → Part} (ha : WriteAct act) {w : PostedWrite} (h : Moves b p) :
    Moves b (act w p) := by
  cases ha with
  | forwarded => exact forward_moves h
  | refused => exact report_moves h
  | lot => exact takeLot_moves h
  | press =>
    unfold takePressWrite
    split
    · exact takePress_moves h
    · exact h
  | pass =>
    unfold takePassWrite
    split
    · exact takePass_moves h
    · exact h
  | desk => exact foldl_moves takeDeskEntry_moves _ (forward_moves h)
  | buyer => exact takeBuyer_moves h

/-! ### The Floor Bus -/

/-- An update of the Floor Port that adds no write beyond the buffer's bound and no grant beyond the streak's. -/
theorem setFloor_moves {u : FloorPort} (h : Moves b p) (hbuffer : FloorOk p → u.buffer.length ≤ 8)
    (hstreak : FloorOk p → u.streak ≤ 4) : Moves b (p.setFloor u) :=
  h.trans (.of_floor fun hp => ⟨hbuffer hp, hstreak hp⟩)

theorem popWrite_moves (h : Moves b p) : Moves b (popWrite p) := by
  refine setFloor_moves h (fun hp => ?_) And.right
  rw [List.length_tail]
  exact (Nat.sub_le _ _).trans hp.1

/-- R151: a HIGH master is granted while a NORMAL one waits only at a streak other than 4. -/
theorem chooseGrant_moves {requests : BitVec 8} (h : Moves b p) : Moves b (chooseGrant p requests) := by
  have hnormal {m : Master} : Moves b (grantNormal p m) := setFloor_moves h And.left fun _ => Nat.zero_le 4
  unfold chooseGrant
  split
  · split
    · exact hnormal
    · next hstreak => exact setFloor_moves h And.left fun hp => Nat.lt_of_le_of_ne hp.2 hstreak
  · exact setFloor_moves h And.left fun _ => Nat.zero_le 4
  · exact hnormal
  · exact h

theorem presentWrite_moves {m : Master} {address : Address} {beats : List WriteBeat} (h : Moves b p) :
    Moves b (presentWrite p m address beats) := by
  unfold presentWrite
  split
  · next hroom =>
    refine setFloor_moves (setFloor_moves h (fun _ => ?_) And.right) And.left And.right
    rw [List.length_append]
    exact hroom
  · exact setFloor_moves h And.left And.right

theorem abandonRead_retries (sp : StorePort) (f : InFlight) (hf : sp.abandonRead.inFlight = some f) :
    ∃ g, sp.inFlight = some g ∧ f.retries = g.retries := by
  unfold StorePort.abandonRead at hf
  split at hf
  · next heq => exact ⟨_, heq, by cases hf; rfl⟩
  · exact ⟨f, hf, rfl⟩

theorem resetFloorBus_moves (h : Moves b p) : Moves b (resetFloorBus p) := by
  refine setStore_moves (setFloor_moves h And.left fun _ => Nat.zero_le 4) fun f hf hp => ?_
  obtain ⟨g, hg, hretries⟩ := abandonRead_retries _ f hf
  exact hretries.le.trans (hp g hg)

theorem answerRead_moves {r : ReadInProgress} {answer : Answer} (h : Moves b p) : Moves b (answerRead r answer p) :=
  setFloor_moves h And.left And.right

theorem forwardReadAt_moves {r : ReadInProgress} {address : Address} {merge : Option Owned} (h : Moves b p) :
    Moves b (forwardReadAt r address merge p) := by
  unfold forwardReadAt
  exact setStore_moves (setFloor_moves h And.left And.right) fun f hf hp => hp f hf

theorem answerDisplay_moves {r : ReadInProgress} (h : Moves b p) : Moves b (answerDisplay r p) := by
  have hblank {i : Lane} : Moves b (answerBlank r i p) := answerRead_moves (setDisplay_moves h)
  unfold answerDisplay
  split
  · split
    · split
      · exact hblank
      · split
        · exact answerRead_moves h
        · unfold translate
          dsimp only
          split
          · exact hblank
          · exact forwardReadAt_moves h
    · exact h
  · exact h

theorem ReadAct.moves {act : ReadInProgress → Part → Part} (ha : ReadAct act) {r : ReadInProgress} (h : Moves b p) :
    Moves b (act r p) := by
  cases ha with
  | buyer | desk | reply | anchor => exact answerRead_moves h
  | lot | plain => exact forwardReadAt_moves h
  | display => exact answerDisplay_moves h
  | fault => exact answerRead_moves (report_moves h)

/-! ### The Store Port -/

theorem grantStorePort_moves (h : Moves b p) : Moves b (grantStorePort p) := by
  unfold grantStorePort
  split
  · exact h
  split
  · next r t _ =>
    have hissued : Moves b (p.setCatalogue (p.catalogue.issue t)) := by
      refine setCatalogue_moves h ?_ ?_ <;> cases t <;> rfl
    refine setStore_moves hissued fun f hf _ => ?_
    cases hf
    exact Nat.zero_le 63
  · exact h

theorem freePort_moves (h : Moves b p) : Moves b (freePort p) := setStore_moves h fun _ hf _ => nomatch hf

theorem noteAnswer_moves {t : Transaction} {answer : FinalAnswer} (h : Moves b p) : Moves b (noteAnswer p t answer) := by
  cases answer with
  | ok => exact h
  | okCorrected =>
    have hcounted : Moves b (p.setAttention { p.attention with corrected := p.attention.corrected + 1 }) :=
      h.trans (.of_attention id)
    unfold noteAnswer noteCorrected
    dsimp only
    split
    · exact report_moves hcounted
    · exact hcounted
  | uncorrectable => exact report_moves h

theorem endForwardedRead_moves {r : ForwardedRead} {abandoned : Bool} {answer : Answer} (h : Moves b p) :
    Moves b (endForwardedRead p r abandoned answer) := by
  unfold endForwardedRead
  split
  · exact h
  · exact setFloor_moves (setStore_moves h fun f hf hp => hp f hf) And.left And.right

theorem freeWritePlace_moves (h : Moves b p) : Moves b (freeWritePlace p) := setStore_moves h fun f hf hp => hp f hf

theorem endFetchRead_moves {data : Vector Beat 8} {answer : FinalAnswer} (h : Moves b p) :
    Moves b (endFetchRead p data answer) := by
  have hline : Moves b (keepLine p data) := by
    unfold keepLine
    split
    · exact setCatalogue_moves h le_rfl rfl
    · exact completeFetch_moves h
  cases answer with
  | ok => exact hline
  | okCorrected => exact hline
  | uncorrectable => exact completeFetch_moves (record := none) h

theorem publishRecord_moves {r : RingRecord} (h : Moves b p) : Moves b (publishRecord p r) := by
  unfold publishRecord
  dsimp only
  split
  · exact completeClose_moves (setRing_moves h)
  all_goals exact setRing_moves h

theorem exhaust_moves {t : Transaction} (h : Moves b p) : Moves b (exhaust p t) := by
  have hfreed : Moves b ((freePort p).report (t.error .retryExhausted)) := report_moves (freePort_moves h)
  unfold exhaust
  cases t with
  | forwardWrite w => exact freeWritePlace_moves hfreed
  | forwardRead r abandoned => exact endForwardedRead_moves hfreed
  | fetch lot address => exact settle_moves (completeFetch_moves hfreed)
  | writeBack e address data => exact hfreed
  | ringRecord r address data => exact hfreed

/-- R169: a RETRY below the 64th leaves a count of at most 63. -/
theorem takeRetry_moves (h : Moves b p) : Moves b (takeRetry p) := by
  unfold takeRetry
  split
  · split
    · next hcount =>
      refine setStore_moves h fun g hg _ => ?_
      cases hg
      exact Nat.le_of_lt_succ hcount
    · exact exhaust_moves h
  · exact h

theorem takeExhaustion_moves (h : Moves b p) : Moves b (takeExhaustion p) := by
  unfold takeExhaustion
  split
  · split
    · exact h
    · exact exhaust_moves h
  · exact h

theorem partMadeUncorrectable_moves (h : Moves b p) : Moves b (partMadeUncorrectable p) := by
  unfold partMadeUncorrectable
  split
  · exact report_moves (freePort_moves h)
  · exact report_moves (freePort_moves h)
  · exact h

theorem completeForwardedRead_moves {answer : FinalAnswer} {data : Vector Beat 8} (h : Moves b p) :
    Moves b (completeForwardedRead p answer data) := by
  unfold completeForwardedRead
  split
  · exact endForwardedRead_moves (noteAnswer_moves (freePort_moves h))
  · exact h

theorem completeForwardedWrite_moves {answer : FinalAnswer} (h : Moves b p) : Moves b (completeForwardedWrite p answer) := by
  unfold completeForwardedWrite
  split
  · exact freeWritePlace_moves (noteAnswer_moves (freePort_moves h))
  · exact h

theorem completeFetchRead_moves {answer : FinalAnswer} {data : Vector Beat 8} (h : Moves b p) :
    Moves b (completeFetchRead p answer data) := by
  unfold completeFetchRead
  split
  · exact settle_moves (endFetchRead_moves (noteAnswer_moves (freePort_moves h)))
  · exact h

theorem finishWriteBack_moves {corrected : Bool} (h : Moves b p) : Moves b (finishWriteBack p corrected) := by
  unfold finishWriteBack
  split
  · exact settle_moves (completeWriteBack_moves (noteAnswer_moves (freePort_moves h)))
  · exact h

theorem finishRingRecord_moves {corrected : Bool} (h : Moves b p) : Moves b (finishRingRecord p corrected) := by
  unfold finishRingRecord
  split
  · exact settle_moves (publishRecord_moves (noteAnswer_moves (freePort_moves h)))
  · exact h

end

/-! ### Resets, and every event -/

theorem afterReset_track (pins : SampledPins) (low : Bool) (n : Nat) (i : Lane) :
    (Part.afterReset pins low n).track i = TrackLane.afterReset := Vector.getElem_replicate _

/-- R187: the part after a reset has every bound and form. -/
theorem afterReset_moves (pins : SampledPins) (low : Bool) (n : Nat) (b : Part) : Moves b (Part.afterReset pins low n) where
  floor _ := ⟨Nat.zero_le 8, Nat.zero_le 4⟩
  windows _ := ⟨rfl, rfl, List.Pairwise.nil, fun _ h => nomatch h⟩
  retries _ := fun _ h => nomatch h
  attention _ := ⟨Nat.zero_le 255, fun _ => rfl, rfl⟩
  queues _ := ⟨Nat.zero_le 8, fun i => by rw [afterReset_track]; exact Nat.zero_le 8⟩
  tables _ := ⟨List.Pairwise.nil, ⟨List.Pairwise.nil, fun _ h => nomatch h⟩, List.Pairwise.nil, fun _ h => nomatch h⟩

theorem PartEvent.moves {p q : Part} (h : PartEvent p q) : Moves p q := by
  have hrefl := Moves.refl p
  cases h with
  | idle => exact hrefl
  | reset pins => exact afterReset_moves ..
  | busReset => exact resetFloorBus_moves hrefl
  | busRelease requests => exact chooseGrant_moves (setFloor_moves hrefl And.left And.right)
  | grant requests => exact chooseGrant_moves hrefl
  | presentWrite m a beats => exact presentWrite_moves hrefl
  | presentRead m a n => exact setFloor_moves hrefl And.left And.right
  | stopInput i level => exact settle_moves (changeStop_moves hrefl)
  | tick => exact takeTick_moves hrefl
  | write hact w => exact settle_moves (hact.moves (popWrite_moves hrefl))
  | anchorWrite w => exact settle_moves (takeAnchorWrite_moves (popWrite_moves hrefl))
  | thresholdWrite w => exact settleThreshold_moves (takeAnchorWrite_moves (popWrite_moves hrefl))
  | read hact r => exact hact.moves hrefl
  | storeGrant => exact grantStorePort_moves hrefl
  | retry => exact takeRetry_moves hrefl
  | exhaustion => exact takeExhaustion_moves hrefl
  | readCompletion a data => exact completeForwardedRead_moves hrefl
  | writeCompletion a => exact completeForwardedWrite_moves hrefl
  | fetchCompletion a data => exact completeFetchRead_moves hrefl
  | writeBackCompletion corrected => exact finishWriteBack_moves hrefl
  | recordCompletion corrected => exact finishRingRecord_moves hrefl
  | uncorrectable => exact partMadeUncorrectable_moves hrefl
  | expiry hact i hdue => exact settle_moves (hact.moves hrefl)

theorem queuesSound_kept : Kept QueuesSound := kept_of_events fun _ _ h => h.moves.queues

theorem tablesSound_kept : Kept TablesSound := kept_of_events fun _ _ h => h.moves.tables

/-- Settles O58: each of the four is a field of what every event keeps. -/
theorem stepKeepsTheBusWindowsAndAttention : Obligations.StepKeepsTheBusWindowsAndAttention :=
  ⟨kept_of_events fun _ _ h => h.moves.windows, kept_of_events fun _ _ h => h.moves.floor,
    kept_of_events fun _ _ h => h.moves.retries, kept_of_events fun _ _ h => h.moves.attention⟩

end Sys2Proof.Machine
end

section
/-! PROOFS. The lanes and the Ring Waiters along every event, and that no display notice stands between events. -/

namespace Sys2Proof.Machine

open Sys2Proof.Safety

/-! ### No notice stands between events (R141) -/

/-- R169: a transaction's exhaustion leaves the displays, or ends as every event does. -/
theorem exhaust_quiet (p : Part) (t : Transaction) (hq : QuietPart p) : QuietPart (exhaust p t) := by
  unfold exhaust
  cases t with
  | forwardWrite w => exact quietPart_congr (by simp [endExhausted]) hq
  | forwardRead r abandoned => exact quietPart_congr (by simp [endExhausted]) hq
  | fetch lot address => exact settle_quiet _ _
  | writeBack e address data => exact quietPart_congr (by simp [endExhausted]) hq
  | ringRecord r address data => exact quietPart_congr (by simp [endExhausted]) hq

theorem takeRetry_quiet (p : Part) (hq : QuietPart p) : QuietPart (takeRetry p) := by
  unfold takeRetry
  split
  · split
    · exact quietPart_congr (by simp) hq
    · exact exhaust_quiet p _ hq
  · exact hq

theorem takeExhaustion_quiet (p : Part) (hq : QuietPart p) : QuietPart (takeExhaustion p) := by
  unfold takeExhaustion
  split
  · split
    · exact hq
    · exact exhaust_quiet p _ hq
  · exact hq

/-- R143: a blank adds to a lane's hole count and tells the Display Mapper nothing. -/
theorem answerBlank_quiet (r : ReadInProgress) (i : Lane) (p : Part) (hq : QuietPart p) : QuietPart (answerBlank r i p) := by
  intro j
  show (((p.setDisplay i _)).display j).notified = false
  by_cases hj : j = i
  · subst hj
    rw [Part.setDisplay_display_same]
    exact hq j
  · rw [Part.setDisplay_display_other _ _ _ _ hj]
    exact hq j

theorem answerDisplay_quiet (r : ReadInProgress) (p : Part) (hq : QuietPart p) : QuietPart (answerDisplay r p) := by
  unfold answerDisplay
  split
  · split
    · split
      · exact answerBlank_quiet r _ p hq
      · split
        · exact quietPart_congr (by simp [answerLive]) hq
        · unfold translate
          dsimp only
          split
          · exact answerBlank_quiet r _ p hq
          · exact quietPart_congr (by simp) hq
    · exact hq
  · exact hq

theorem ReadAct.quiet {act : ReadInProgress → Part → Part} (h : ReadAct act) (r : ReadInProgress) (p : Part)
    (hq : QuietPart p) : QuietPart (act r p) := by
  cases h with
  | buyer | desk | reply | anchor => exact quietPart_congr (answerBytes_displays ..) hq
  | lot | plain => exact quietPart_congr (forwardReadAt_displays ..) hq
  | display => exact answerDisplay_quiet r p hq
  | fault => exact quietPart_congr (by simp [answerFault]) hq

theorem chooseGrant_displays (p : Part) (requests : BitVec 8) : (chooseGrant p requests).displays = p.displays := by
  unfold chooseGrant
  split
  · split <;> rfl
  all_goals rfl

/-- R141: every event clears the notices it made. -/
theorem PartEvent.quiet {p q : Part} (h : PartEvent p q) (hq : QuietPart p) : QuietPart q := by
  cases h with
  | idle => exact hq
  | reset pins => exact fun i => congrArg DisplayLane.notified (Vector.getElem_replicate _)
  | busReset => exact hq
  | busRelease requests => exact quietPart_congr (chooseGrant_displays ..) hq
  | grant requests => exact quietPart_congr (chooseGrant_displays ..) hq
  | presentWrite m a beats => exact quietPart_congr (by unfold Machine.presentWrite; split <;> rfl) hq
  | presentRead m a n => exact hq
  | stopInput i level => exact settle_quiet _ _
  | tick => exact hq
  | write hact w => exact settle_quiet _ _
  | anchorWrite w => exact settle_quiet _ _
  | thresholdWrite w => exact settleThreshold_quiet _ _
  | read hact r => exact hact.quiet r p hq
  | storeGrant => exact quietPart_congr (by unfold grantStorePort; (repeat' split) <;> rfl) hq
  | retry => exact takeRetry_quiet p hq
  | exhaustion => exact takeExhaustion_quiet p hq
  | readCompletion a data => exact quietPart_congr (by unfold completeForwardedRead; split <;> simp) hq
  | writeCompletion a => exact quietPart_congr (by unfold completeForwardedWrite; split <;> simp) hq
  | fetchCompletion a data =>
    unfold completeFetchRead
    split
    · exact settle_quiet _ _
    · exact hq
  | writeBackCompletion corrected =>
    unfold finishWriteBack
    split
    · exact settle_quiet _ _
    · exact hq
  | recordCompletion corrected =>
    unfold finishRingRecord
    split
    · exact settle_quiet _ _
    · exact hq
  | uncorrectable => exact quietPart_congr (by unfold partMadeUncorrectable; split <;> simp) hq
  | expiry hact i hdue => exact settle_quiet _ _

theorem quiet_kept : Kept Quiet := kept_of_events fun _ _ h => h.quiet

/-! ### Lanes that keep what their soundness rests on -/

/-- Every lane is sound, and so are the Ring Waiters. -/
def LanesOk (p : Part) : Prop := (∀ i, LaneSound (p.lane i)) ∧ WaitersSound p

/-- Two states of a lane that agree in its state, timer, contenders, round, RING and return state. -/
structure LaneKept (l l' : LaneUnit) : Prop where
  state : l'.state = l.state
  timer : l'.timer = l.timer
  contenders : l'.contenders = l.contenders
  round : l'.round = l.round
  ring : l'.holds.ring = l.holds.ring
  ret : l'.ret = l.ret

theorem LaneKept.refl (l : LaneUnit) : LaneKept l l := ⟨rfl, rfl, rfl, rfl, rfl, rfl⟩

theorem LaneKept.trans {a b c : LaneUnit} (h : LaneKept a b) (k : LaneKept b c) : LaneKept a c :=
  ⟨k.state.trans h.state, k.timer.trans h.timer, k.contenders.trans h.contenders, k.round.trans h.round, k.ring.trans h.ring,
    k.ret.trans h.ret⟩

/-- Every lane so kept, and the Ring Waiters as they were. -/
structure LanesKept (p q : Part) : Prop where
  lanes : ∀ i, LaneKept (p.lane i) (q.lane i)
  waiters : q.ring.waiters = p.ring.waiters

theorem LanesKept.trans {p q r : Part} (h : LanesKept p q) (k : LanesKept q r) : LanesKept p r :=
  ⟨fun i => (h.lanes i).trans (k.lanes i), k.waiters.trans h.waiters⟩

/-- An operation that leaves the lanes and the ring. -/
theorem LanesKept.of_eq {p q : Part} (hl : q.lanes = p.lanes := by simp) (hr : q.ring = p.ring := by simp) : LanesKept p q :=
  ⟨fun i => by unfold Part.lane; rw [hl]; exact .refl _, by rw [hr]⟩

theorem LanesKept.refl (p : Part) : LanesKept p p := .of_eq rfl rfl

/-- A lane's timer, contenders and round fit, with all four read off another lane. -/
theorem LaneSound.kept {l l' : LaneUnit} (h : LaneSound l) (k : LaneKept l l') : LaneSound l' := by
  unfold LaneSound timerFits
  rw [k.state, k.timer, k.contenders, k.round]
  exact h

theorem LanesOk.kept {p q : Part} (h : LanesOk p) (k : LanesKept p q) : LanesOk q := by
  refine ⟨fun i => LaneSound.kept (h.1 i) (k.lanes i), ?_⟩
  unfold WaitersSound
  rw [k.waiters]
  refine ⟨h.2.1, fun w hw => ?_⟩
  rw [(k.lanes w.lane).state, (k.lanes w.lane).ring, (k.lanes w.lane).ret]
  exact h.2.2 w hw

theorem foldl_lanesKept {α : Type} {f : Part → α → Part} {b p : Part} (hf : ∀ {q a}, LanesKept b q → LanesKept b (f q a))
    (xs : List α) (h : LanesKept b p) : LanesKept b (xs.foldl f p) := by
  induction xs generalizing p with
  | nil => exact h
  | cons x xs ih => exact ih (hf h)

section

variable {b p : Part} {i : Lane} {lot buyer : Nat}

theorem modLane_lanesKept {f : LaneUnit → LaneUnit} (h : LanesKept b p) (hf : ∀ l, LaneKept l (f l)) :
    LanesKept b (modLane p i f) := by
  refine h.trans ⟨fun j => ?_, rfl⟩
  by_cases hj : j = i
  · subst hj
    rw [modLane_lane_same]
    exact hf _
  · rw [modLane_lane_other _ _ _ _ hj]
    exact .refl _

theorem setRing_lanesKept {r : RingUnit} (h : LanesKept b p) (hr : r.waiters = p.ring.waiters) : LanesKept b (p.setRing r) :=
  h.trans ⟨fun _ => .refl _, hr⟩

theorem raise_lanesKept {e : EventKind} (h : LanesKept b p) : LanesKept b (p.raise e) := h.trans .of_eq

theorem report_lanesKept {e : ErrorReport} (h : LanesKept b p) : LanesKept b (p.report e) := h.trans .of_eq

theorem setBuyer_lanesKept {e : BuyerEntry} (h : LanesKept b p) : LanesKept b (p.setBuyer buyer e) := h.trans .of_eq

theorem setWindow_lanesKept {u : WindowUnit} (h : LanesKept b p) : LanesKept b (p.setWindow u) := h.trans (.of_eq rfl rfl)

theorem setAccount_lanesKept {u : AccountUnit} (h : LanesKept b p) : LanesKept b (p.setAccount u) := h.trans (.of_eq rfl rfl)

theorem setDisplay_lanesKept {u : DisplayLane} (h : LanesKept b p) : LanesKept b (p.setDisplay i u) := h.trans .of_eq

theorem updateOwned_lanesKept {f : Owned → Owned} (h : LanesKept b p) : LanesKept b (p.updateOwned lot f) := h.trans .of_eq

theorem chargeBuyer_lanesKept {amount : Nat} (h : LanesKept b p) : LanesKept b (chargeBuyer p buyer amount) := h.trans .of_eq

/-! ### Operations on the ring that leave its waiters -/

theorem RingUnit.counted_waiters (r : RingUnit) (body : RecordBody) : (r.counted body).waiters = r.waiters := by
  cases body <;> rfl

theorem createRecord_lanesKept {body : RecordBody} (h : LanesKept b p) : LanesKept b (createRecord p body) :=
  setRing_lanesKept h (RingUnit.counted_waiters ..)

theorem closeInvoice_lanesKept (h : LanesKept b p) : LanesKept b (closeInvoice p buyer) :=
  raise_lanesKept (setBuyer_lanesKept (createRecord_lanesKept h))

theorem closeAllInvoices_lanesKept (h : LanesKept b p) : LanesKept b (closeAllInvoices p) :=
  foldl_lanesKept closeInvoice_lanesKept _ h

theorem endDay_lanesKept (h : LanesKept b p) : LanesKept b (endDay p) :=
  raise_lanesKept (setWindow_lanesKept (setRing_lanesKept (createRecord_lanesKept (closeAllInvoices_lanesKept h)) rfl))

theorem endDayIfDue_lanesKept (h : LanesKept b p) : LanesKept b (endDayIfDue p) := by
  unfold endDayIfDue
  split
  · exact endDay_lanesKept h
  · exact h

theorem openDay_lanesKept {number : Nat} (h : LanesKept b p) : LanesKept b (openDay p number) :=
  setWindow_lanesKept (setWindow_lanesKept (setRing_lanesKept (createRecord_lanesKept (setWindow_lanesKept h)) rfl))

theorem takeDayOpen_lanesKept {number : Nat} (h : LanesKept b p) : LanesKept b (takeDayOpen p number) := by
  have hresult {r : WordResult} : LanesKept b (setDayResult p r) := setWindow_lanesKept h
  unfold takeDayOpen
  split
  · exact hresult
  split
  · exact hresult
  split
  · exact hresult
  split
  · exact hresult
  · exact openDay_lanesKept h

theorem takeDayWord_lanesKept {number : Nat} {c : DayCommand} (h : LanesKept b p) : LanesKept b (takeDayWord p number c) := by
  cases c with
  | openDay => exact takeDayOpen_lanesKept h
  | closeDay =>
    simp only [takeDayWord, takeDayClose]
    split
    · exact endDayIfDue_lanesKept (h.trans .of_eq)
    · exact setWindow_lanesKept h
  | unknown => exact setWindow_lanesKept h

theorem applyPayment_lanesKept {amount : Nat} (h : LanesKept b p) : LanesKept b (applyPayment p buyer amount) := by
  unfold applyPayment
  dsimp only
  refine setAccount_lanesKept ?_
  split
  · exact raise_lanesKept (createRecord_lanesKept (setBuyer_lanesKept h))
  · exact createRecord_lanesKept (setBuyer_lanesKept h)

theorem takePayment_lanesKept {amount : Nat} (h : LanesKept b p) : LanesKept b (takePayment p buyer amount) := by
  unfold takePayment
  split
  · exact setAccount_lanesKept h
  split
  · exact setAccount_lanesKept h
  split
  · exact setAccount_lanesKept h
  · exact applyPayment_lanesKept h

theorem takeInvoiceClose_lanesKept (h : LanesKept b p) : LanesKept b (takeInvoiceClose p buyer) := by
  unfold takeInvoiceClose
  dsimp only
  split
  · exact setAccount_lanesKept h
  split
  · exact setAccount_lanesKept h
  · exact setAccount_lanesKept (closeInvoice_lanesKept h)

theorem takeConsumerIndex_lanesKept {w : PostedWrite} {value : Word32} (h : LanesKept b p) :
    LanesKept b (takeConsumerIndex w p value) := by
  unfold takeConsumerIndex
  split
  · exact setRing_lanesKept (setRing_lanesKept h rfl) rfl
  · exact report_lanesKept (setRing_lanesKept h rfl)

theorem takeThreshold_lanesKept {value : Nat} (h : LanesKept b p) : LanesKept b (takeThreshold p value) := by
  unfold takeThreshold
  split
  · exact setRing_lanesKept h rfl
  · exact h

theorem commitRing_lanesKept {held : WindowEntry} {kind : WindowKind} {d : Descriptor} (h : LanesKept b p) :
    LanesKept b (commitRing p held kind d) := by
  unfold commitRing
  split
  · exact setRing_lanesKept h rfl
  split
  · exact setRing_lanesKept h rfl
  · exact h

theorem refuseWindow_lanesKept {m : Master} {w : Window} {r : CommitReason} (h : LanesKept b p) :
    LanesKept b (refuseWindow p m w r) := h.trans .of_eq

theorem commitWindow_lanesKept {m : Master} {w : Window} (h : LanesKept b p) : LanesKept b (commitWindow p m w) := by
  unfold commitWindow
  dsimp only
  split
  · exact refuseWindow_lanesKept h
  · exact refuseWindow_lanesKept h
  · split
    · exact setWindow_lanesKept (setWindow_lanesKept (commitRing_lanesKept h))
    · exact refuseWindow_lanesKept h

theorem removeWindow_lanesKept {m : Master} {w : Window} (h : LanesKept b p) : LanesKept b (removeWindow p m w) := by
  unfold removeWindow
  dsimp only
  split
  · exact setWindow_lanesKept h
  split
  · exact refuseWindow_lanesKept h
  split
  · exact refuseWindow_lanesKept h
  · refine setWindow_lanesKept (setWindow_lanesKept ?_)
    split
    · exact setRing_lanesKept h rfl
    · exact h

theorem publishRecord_lanesKept {r : RingRecord} (h : LanesKept b p) : LanesKept b (publishRecord p r) := by
  have hpublished : LanesKept b (p.setRing { p.ring with queue := p.ring.queue.tail, published := p.ring.published + 1 }) :=
    setRing_lanesKept h rfl
  unfold publishRecord
  dsimp only
  split
  · exact hpublished.trans .of_eq
  all_goals exact hpublished

/-- R86: a purchase uses a slot of its lane's round reservation, and changes nothing else that soundness rests on. -/
theorem recordPurchase_lanesKept {c : Purchase} (h : LanesKept b p) : LanesKept b (recordPurchase p i c) :=
  setDisplay_lanesKept (modLane_lanesKept (createRecord_lanesKept h) fun _ => ⟨rfl, rfl, rfl, rfl, rfl, rfl⟩)

theorem addLine_lanesKept {amount : Nat} (h : LanesKept b p) : LanesKept b (addLine p buyer amount) := by
  unfold addLine
  dsimp only
  split
  · exact closeInvoice_lanesKept (setBuyer_lanesKept h)
  · exact setBuyer_lanesKept h

theorem makePurchase_lanesKept {c : Purchase} (h : LanesKept b p) : LanesKept b (makePurchase p i c) :=
  addLine_lanesKept (recordPurchase_lanesKept (updateOwned_lanesKept (chargeBuyer_lanesKept h)))

theorem notify_lanesKept (h : LanesKept b p) : LanesKept b (p.notify i) := h.trans .of_eq

theorem reportToDesk_lanesKept {desk : Nat} {r : Report} (h : LanesKept b p) : LanesKept b (reportToDesk p desk r) :=
  h.trans .of_eq

theorem acceptSequence_lanesKept {desk : Nat} {n : Byte} (h : LanesKept b p) : LanesKept b (acceptSequence p desk n) :=
  h.trans .of_eq

theorem reportService_lanesKept {e : Contender} {position units amount : Nat} {o : ReplyOutcome} {r : PressReason}
    (h : LanesKept b p) : LanesKept b (reportService p i e position o r units amount) := reportToDesk_lanesKept h

theorem serveContender_lanesKept {position : Nat} {e : Contender} (h : LanesKept b p) :
    LanesKept b (serveContender p i position e) := by
  obtain ⟨q, oc, rs, u, a, heq, rfl | ⟨c, rfl⟩⟩ := serveContender_cases p i position e <;> rw [heq]
  · exact reportService_lanesKept h
  · exact reportService_lanesKept (makePurchase_lanesKept h)

theorem serveContenders_lanesKept {position : Nat} {es : List Contender} (h : LanesKept b p) :
    LanesKept b (serveContenders i position es p) := by
  induction es generalizing position p with
  | nil => exact h
  | cons e es ih => exact ih (serveContender_lanesKept h)

theorem takeParam_lanesKept {k : LaneParam} (h : LanesKept b p) : LanesKept b (takeParam i p k) := by
  unfold takeParam
  split
  · exact modLane_lanesKept h fun _ => ⟨rfl, rfl, rfl, rfl, rfl, rfl⟩
  · exact h

theorem setNextRound_lanesKept (h : LanesKept b p) : LanesKept b (setNextRound p i) := by
  unfold setNextRound
  split
  · exact modLane_lanesKept h fun _ => ⟨rfl, rfl, rfl, rfl, rfl, rfl⟩
  · exact h

/-! ### Lanes that move -/

/-- A lane free to move: no contender, and no place among the Ring Waiters that it could hold. -/
def Clear (l : LaneUnit) : Prop := l.contenders = [] ∧ (l.state = .held → l.holds.ring = false)

/-- A sound lane that is neither STRUCK nor HELD is free to move. -/
theorem Clear.of_state {l : LaneUnit} (h : LaneSound l) (hstruck : l.state ≠ .struck) (hheld : l.state ≠ .held) : Clear l :=
  ⟨by_contra fun hc => hstruck (h.2.1 hc), fun hs => absurd hs hheld⟩

theorem Clear.kept {l l' : LaneUnit} (h : Clear l) (k : LaneKept l l') : Clear l' := by
  unfold Clear
  rw [k.contenders, k.state, k.ring]
  exact h

theorem Clear.not_waiter (hc : Clear (p.lane i)) (h : LanesOk p) (w : Waiter) (hw : w ∈ p.ring.waiters) : w.lane ≠ i := by
  intro hwi
  obtain ⟨hheld, hring, -⟩ := h.2.2 w hw
  rw [hwi] at hheld hring
  rw [hc.2 hheld] at hring
  cases hring

/-- A lane that is no waiter takes any sound state. -/
theorem modLane_lanesOk {f : LaneUnit → LaneUnit} (h : LanesOk p) (hw : ∀ w ∈ p.ring.waiters, w.lane ≠ i)
    (hf : LaneSound (f (p.lane i))) : LanesOk (modLane p i f) := by
  refine ⟨fun j => ?_, h.2.1, fun w hmem => ?_⟩
  · by_cases hj : j = i
    · subst hj
      rw [modLane_lane_same]
      exact hf
    · rw [modLane_lane_other _ _ _ _ hj]
      exact h.1 j
  · rw [modLane_lane_other _ _ _ _ (hw w hmem)]
    exact h.2.2 w hmem

/-- A lane free to move takes a state without contenders whose timer fits it. -/
theorem moveLane_lanesOk {f : LaneUnit → LaneUnit} (h : LanesOk p) (hc : Clear (p.lane i))
    (hcont : (f (p.lane i)).contenders = (p.lane i).contenders) (hround : (f (p.lane i)).round ≤ 65535)
    (htimer : timerFits (f (p.lane i))) : LanesOk (modLane p i f) := by
  refine modLane_lanesOk h (hc.not_waiter h) ⟨htimer, ?_⟩
  rw [hcont, hc.1]
  exact ⟨fun hne => absurd rfl hne, Nat.zero_le 4, List.Pairwise.nil, hround⟩

theorem LanesOk.round (h : LanesOk p) (i : Lane) : (p.lane i).round ≤ 65535 := (h.1 i).2.2.2.2

theorem preRollTimer_fits (l l' : LaneUnit) (hs : l'.state = .primed) (ht : l'.timer = preRollTimer l) : timerFits l' := by
  unfold timerFits
  rw [ht, hs]
  unfold preRollTimer
  by_cases hnone : l.params.preRoll = 0
  · rw [if_pos hnone]
    trivial
  · rw [if_neg hnone]
    rfl

/-- R48: a lane free to move puts a lot up. -/
theorem putUp_lanesOk (h : LanesOk p) (hc : Clear (p.lane i)) : LanesOk (putUp p i lot) := by
  refine LanesOk.kept (moveLane_lanesOk (i := i) (f := fun l => { l with
    live := some lot, price := match p.host lot with | some h => h.startPrice | none => 0,
    nextPrice := match p.host lot with | some h => h.startPrice | none => 0, round := 0, timer := preRollTimer l,
    state := .primed, closeReserved := true }) h hc rfl (Nat.zero_le _) (preRollTimer_fits _ _ rfl rfl)) ?_
  exact .of_eq (by simp [putUp] <;> rfl) (by simp [putUp])

theorem joinWaiters_lane (p : Part) (i : Lane) (need : Nat) (j : Lane) : (joinWaiters p i need).lane j = p.lane j := rfl

theorem leaveWaiters_lane (p : Part) (i j : Lane) : (leaveWaiters p i).lane j = p.lane j := rfl

/-- R48, R50: a lane free to move waits on the ring: no waiter before, it joins the tail with the need of its return state. -/
theorem waitOnRing_lanesOk {ret : ReturnState} {need : Nat} (h : LanesOk p) (hc : Clear (p.lane i))
    (hneed : (need = 1 ∧ ret = .idle) ∨ (need = 5 ∧ ret ≠ .idle)) : LanesOk (waitOnRing p i ret need) := by
  obtain ⟨hlanes, hnodup, hwaiters⟩ := moveLane_lanesOk (i := i)
    (f := fun l => { l with state := .held, ret := ret, timer := .stopped, holds := l.holds.add .ring }) h hc rfl (h.round i)
    trivial
  refine ⟨hlanes, ?_, fun w hw => ?_⟩
  · show (List.map _ (p.ring.waiters ++ [_])).Nodup
    rw [List.map_append, List.nodup_append]
    refine ⟨hnodup, List.nodup_singleton _, fun a ha c hcmem hac => ?_⟩
    obtain ⟨w, hw, rfl⟩ := List.mem_map.mp ha
    exact hc.not_waiter h w hw (hac.trans (List.mem_singleton.mp hcmem))
  · rcases List.mem_append.mp hw with hold | hnew
    · exact hwaiters w hold
    · cases List.mem_singleton.mp hnew
      unfold waitOnRing
      rw [joinWaiters_lane, modLane_lane_same]
      exact ⟨rfl, rfl, hneed⟩

theorem prime_lanesOk (h : LanesOk p) (hc : Clear (p.lane i)) : LanesOk (prime p i lot) := by
  unfold prime
  split
  · exact putUp_lanesOk h hc
  · exact waitOnRing_lanesOk h hc (.inl ⟨rfl, rfl⟩)

/-- R47: a look finds a lot only in an IDLE lane. -/
theorem lookLot_idle (h : lookLot p i = some lot) : (p.lane i).state = .idle := by
  unfold lookLot at h
  dsimp only at h
  split at h
  · next hidle => exact hidle.1
  · cases h

theorem look_lanesOk (h : LanesOk p) : LanesOk (look p i) := by
  unfold look
  split
  · next hlot =>
    have hidle := lookLot_idle hlot
    exact prime_lanesOk h (.of_state (h.1 i) (by simp [hidle]) (by simp [hidle]))
  · exact h

/-- A lane free to move that goes IDLE is free to move. -/
theorem idle_lanesOk (h : LanesOk p) (hc : Clear (p.lane i)) :
    LanesOk (modLane p i fun l => { l with state := .idle, timer := .stopped }) :=
  moveLane_lanesOk h hc rfl (h.round i) trivial

theorem enterIdle_lanesOk (h : LanesOk p) (hc : Clear (p.lane i)) : LanesOk (enterIdle p i) :=
  look_lanesOk ((idle_lanesOk h hc).kept .of_eq)

/-- R50: a lane free to move enters RUNNING, or waits on the ring for its round. -/
theorem enterRunning_lanesOk {leaving : ReturnState} (h : LanesOk p) (hc : Clear (p.lane i)) (hl : leaving ≠ .idle) :
    LanesOk (enterRunning p i leaving) := by
  unfold enterRunning
  split
  · exact moveLane_lanesOk h hc rfl (Nat.min_le_left _ _) rfl
  · exact waitOnRing_lanesOk h hc (.inr ⟨rfl, hl⟩)

theorem lookWithSlot_lanesOk (h : LanesOk p) (hc : Clear (p.lane i)) : LanesOk (lookWithSlot p i) := by
  have hidle := idle_lanesOk h hc
  unfold lookWithSlot
  dsimp only
  split
  · refine putUp_lanesOk hidle ?_
    rw [modLane_lane_same]
    exact ⟨hc.1, fun hs => nomatch hs⟩
  · exact hidle.kept (notify_lanesKept (modLane_lanesKept (.refl _) fun _ => ⟨rfl, rfl, rfl, rfl, rfl, rfl⟩))

theorem leaveHeld_lanesOk (h : LanesOk p) (hc : Clear (p.lane i)) : LanesOk (leaveHeld p i) := by
  unfold leaveHeld
  dsimp only
  split
  · split
    · exact lookWithSlot_lanesOk h hc
    · exact enterIdle_lanesOk h hc
  · split
    · exact enterRunning_lanesOk h hc (by decide)
    · exact moveLane_lanesOk h hc rfl (h.round i) (preRollTimer_fits _ _ rfl rfl)
  · split
    · exact enterRunning_lanesOk h hc (by decide)
    · exact moveLane_lanesOk h hc rfl (h.round i) rfl

/-- R61: a HELD lane without a hold reason is free to move. -/
theorem leaveHeldIfFree_lanesOk (h : LanesOk p) : LanesOk (leaveHeldIfFree p i) := by
  unfold leaveHeldIfFree
  split
  · next hfree =>
    obtain ⟨hheld, hempty⟩ := hfree
    refine leaveHeld_lanesOk h ⟨by_contra fun hc => ?_, fun _ => ?_⟩
    · have := (h.1 i).2.1 hc
      rw [hheld] at this
      cases this
    · rw [(HoldSet.isEmpty_iff _).mp hempty]
      rfl
  · exact h

/-- R64: a waiter out of the list, its RING gone: the other waiters stand in other lanes. -/
theorem serveLane_lanesOk {w : Waiter} {rest : List Waiter} (h : LanesOk p) (hw : p.ring.waiters = w :: rest) :
    LanesOk (serveLane (p.setRing { p.ring with waiters := rest }) w) := by
  obtain ⟨hlanes, hnodup, hwaiters⟩ := h
  rw [hw] at hwaiters hnodup
  obtain ⟨hout, hrest⟩ := List.nodup_cons.mp hnodup
  refine leaveHeldIfFree_lanesOk ⟨fun j => ?_, hrest, fun x hx => ?_⟩
  · by_cases hj : j = w.lane
    · subst hj
      rw [modLane_lane_same]
      exact hlanes w.lane
    · rw [modLane_lane_other _ _ _ _ hj]
      exact hlanes j
  · have hne : x.lane ≠ w.lane := fun heq => hout (List.mem_map.mpr ⟨x, hx, heq⟩)
    rw [modLane_lane_other _ _ _ _ hne]
    exact hwaiters x (List.mem_cons_of_mem _ hx)

theorem serveWaiters_lanesOk {fuel : Nat} (h : LanesOk p) : LanesOk (serveWaiters fuel p) := by
  induction fuel generalizing p with
  | zero => exact h
  | succ fuel ih =>
    unfold serveWaiters
    split
    · exact h
    · split
      · exact ih (serveLane_lanesOk h ‹_›)
      · exact h

theorem serveIfDue_lanesOk {before : Part} (h : LanesOk p) : LanesOk (serveIfDue before p) := by
  unfold serveIfDue
  split
  · exact serveWaiters_lanesOk h
  · exact h

theorem settle_lanesOk {before : Part} (h : LanesOk p) : LanesOk (settle before p) :=
  LanesOk.kept (serveIfDue_lanesOk (before := before) h) (.of_eq (by simp [settle]) (by simp [settle]))

theorem settleThreshold_lanesOk {before : Part} (h : LanesOk p) : LanesOk (settleThreshold before p) :=
  LanesOk.kept (serveIfDue_lanesOk (before := before) h) (.of_eq (by simp [settleThreshold]) (by simp [settleThreshold]))

/-- R55: a lane free to move closes its lot. -/
theorem closeLot_lanesOk (h : LanesOk p) (hc : Clear (p.lane i)) : LanesOk (closeLot p i) := by
  have hclosing : LanesOk (modLane p i fun l => { l.endRound with state := .closing, closeReserved := false }) :=
    moveLane_lanesOk h hc rfl (h.round i) trivial
  unfold closeLot
  split
  · exact h
  · dsimp only
    split
    · exact hclosing
    · exact hclosing.kept (createRecord_lanesKept .of_eq)

/-! ### Hold reasons and lane commands -/

/-- R59, R60: a hold reason added leaves a lane sound; a HELD lane keeps its place. -/
theorem addHold_lanesOk {r : HoldReason} (h : LanesOk p) : LanesOk (addHold p i r) := by
  have hheld (l : LaneUnit) (hs : l.state ≠ .held) (hl : LaneSound l) (hstruck : l.state ≠ .struck) : Clear l :=
    .of_state hl hstruck hs
  cases hs : (p.lane i).state with
  | struck | closing =>
    refine modLane_lanesOk h (fun w hw hwi => ?_) ?_
    · have := (h.2.2 w hw).1
      rw [hwi, hs] at this
      cases this
    · simp only [LaneUnit.addHold, hs]
      exact LaneSound.kept (h.1 i) ⟨hs.symm, rfl, rfl, rfl, rfl, rfl⟩
  | idle | primed | paused | running =>
    refine moveLane_lanesOk h (.of_state (h.1 i) (by simp [hs]) (by simp [hs])) ?_ ?_ ?_ <;>
      simp only [LaneUnit.addHold, hs, LaneUnit.endRound, timerFits, h.round i]
  | held =>
    refine ⟨fun j => ?_, h.2.1, fun w hw => ?_⟩
    · by_cases hj : j = i
      · subst hj
        rw [addHold, modLane_lane_same]
        simp only [LaneUnit.addHold, hs]
        have hsound := h.1 j
        unfold LaneSound timerFits at hsound ⊢
        rw [hs] at hsound
        exact hsound
      · rw [addHold, modLane_lane_other _ _ _ _ hj]
        exact h.1 j
    · obtain ⟨hstate, hring, hneed⟩ := h.2.2 w hw
      by_cases hj : w.lane = i
      · rw [hj] at hstate hring hneed ⊢
        rw [addHold, modLane_lane_same]
        simp only [LaneUnit.addHold, hs]
        refine ⟨trivial, ?_, hneed⟩
        cases r <;> simp [HoldSet.add, hring]
      · rw [addHold, modLane_lane_other _ _ _ _ hj]
        exact ⟨hstate, hring, hneed⟩

theorem setCommandResult_lanesOk {r : WordResult} (h : LanesOk p) : LanesOk (setCommandResult p i r) :=
  h.kept (modLane_lanesKept (.refl _) fun _ => ⟨rfl, rfl, rfl, rfl, rfl, rfl⟩)

theorem addStop_lanesOk (h : LanesOk p) : LanesOk (addStop p i) :=
  (addHold_lanesOk h).kept (raise_lanesKept (.refl _))

theorem changeStop_lanesOk {level : Bool} (h : LanesOk p) : LanesOk (changeStop p i level) := by
  have hlevel : LanesOk (modLane p i fun l => { l with stopLevel := level }) :=
    h.kept (modLane_lanesKept (.refl _) fun _ => ⟨rfl, rfl, rfl, rfl, rfl, rfl⟩)
  unfold changeStop
  dsimp only
  split
  · exact h
  split
  · exact addStop_lanesOk hlevel
  · exact hlevel

theorem startLane_lanesOk (h : LanesOk p) : LanesOk (startLane p i) := by
  unfold startLane
  split
  · next hprimed =>
    exact setCommandResult_lanesOk
      (enterRunning_lanesOk h (.of_state (h.1 i) (by simp [hprimed]) (by simp [hprimed])) (by decide))
  · exact setCommandResult_lanesOk h

/-- R67: RESUME leaves RING to a lane that waits. -/
theorem resumeLane_lanesOk {d : Disposition} (h : LanesOk p) : LanesOk (resumeLane p i d) := by
  have hresumed : LanesOk (modLane p i LaneUnit.resumed) :=
    h.kept (modLane_lanesKept (.refl _) fun _ => ⟨rfl, rfl, rfl, rfl, rfl, rfl⟩)
  have hleft : LanesOk (leaveHeldIfFree (disposeTrack (modLane p i LaneUnit.resumed) i d).part i) :=
    leaveHeldIfFree_lanesOk (hresumed.kept .of_eq)
  unfold resumeLane
  dsimp only
  split
  · refine addHold_lanesOk ?_
    split
    · exact look_lanesOk hleft
    · exact hleft
  · split
    · exact look_lanesOk hleft
    · exact hleft

/-- R68: a HELD lane gives up RING and its place among the Ring Waiters together. -/
theorem withdrawHeld_lanesOk (h : LanesOk p) (hheld : (p.lane i).state = .held) : LanesOk (withdrawHeld p i) := by
  have hout : LanesOk (leaveWaiters (modLane p i fun l => { l with holds := { l.holds with ring := false } }) i) := by
    refine ⟨fun j => ?_, ?_, fun w hw => ?_⟩
    · rw [leaveWaiters_lane]
      by_cases hj : j = i
      · subst hj
        rw [modLane_lane_same]
        exact h.1 j
      · rw [modLane_lane_other _ _ _ _ hj]
        exact h.1 j
    · exact h.2.1.sublist ((List.filter_sublist).map _)
    · obtain ⟨hmem, hne⟩ := List.mem_filter.mp hw
      have hlane : ((modLane p i fun l => { l with holds := { l.holds with ring := false } }).lane w.lane) = p.lane w.lane :=
        modLane_lane_other _ _ _ _ (by simpa using hne)
      have := h.2.2 w hmem
      rw [← hlane] at this
      exact this
  refine closeLot_lanesOk hout ?_
  rw [leaveWaiters_lane, modLane_lane_same]
  refine ⟨by_contra fun hc => ?_, fun _ => rfl⟩
  have hstruck := (h.1 i).2.1 hc
  rw [hheld] at hstruck
  cases hstruck

theorem withdrawLane_lanesOk (h : LanesOk p) : LanesOk (withdrawLane p i) := by
  unfold withdrawLane
  split
  case h_1 hs | h_2 hs | h_3 hs =>
    exact setCommandResult_lanesOk (closeLot_lanesOk h (.of_state (h.1 i) (by simp [hs]) (by simp [hs])))
  case h_4 =>
    exact setCommandResult_lanesOk (h.kept (modLane_lanesKept (.refl _) fun _ => ⟨rfl, rfl, rfl, rfl, rfl, rfl⟩))
  case h_5 hs _ | h_6 hs _ => exact setCommandResult_lanesOk (withdrawHeld_lanesOk h hs)
  all_goals exact setCommandResult_lanesOk h

theorem takeLaneCommand_lanesOk {c : LaneCommand} (h : LanesOk p) : LanesOk (takeLaneCommand p i c) := by
  have henabled {e : Bool} : LanesOk (modLane p i fun l => { l with enabled := e }) :=
    h.kept (modLane_lanesKept (.refl _) fun _ => ⟨rfl, rfl, rfl, rfl, rfl, rfl⟩)
  cases c with
  | start => exact startLane_lanesOk h
  | hold => exact setCommandResult_lanesOk (addHold_lanesOk h)
  | resumeDiscard => exact resumeLane_lanesOk h
  | resumeFlush => exact resumeLane_lanesOk h
  | withdraw => exact withdrawLane_lanesOk h
  | enable => exact setCommandResult_lanesOk henabled
  | disable =>
    simp only [takeLaneCommand, disableLane]
    split
    · exact setCommandResult_lanesOk henabled
    · exact setCommandResult_lanesOk h
  | unknown => exact setCommandResult_lanesOk h

theorem setParamResult_lanesOk {r : WordResult} (h : LanesOk p) : LanesOk (setParamResult p i r) :=
  h.kept (modLane_lanesKept (.refl _) fun _ => ⟨rfl, rfl, rfl, rfl, rfl, rfl⟩)

theorem takeLaneParams_lanesOk {bytes : List (Nat × Byte)} (h : LanesOk p) : LanesOk (takeLaneParams p i bytes) :=
  setParamResult_lanesOk (h.kept (foldl_lanesKept takeParam_lanesKept _ (.refl p)))

theorem takeStopMode_lanesOk {bytes : List (Nat × Byte)} (h : LanesOk p) : LanesOk (takeStopMode p i bytes) := by
  have hparam : LanesOk (takeParam i p .stopMode) := h.kept (takeParam_lanesKept (.refl p))
  unfold takeStopMode judgeStop
  refine setParamResult_lanesOk ?_
  split
  · split
    · exact addStop_lanesOk hparam
    · exact hparam
  · exact h

/-! ### Presses and expiries -/

/-- R86: a RUNNING lane is struck. -/
theorem struckAfter_lanesOk {c : PressIn} {r : Report} (h : LanesOk p) (hrun : (p.lane c.lane).state = .running) :
    LanesOk (struckAfter p c r) := by
  have hstruck := moveLane_lanesOk (f := LaneUnit.strike) h
    (.of_state (h.1 c.lane) (by simp [hrun]) (by simp [hrun])) rfl (h.round c.lane) rfl
  exact hstruck.kept (reportToDesk_lanesKept (acceptSequence_lanesKept (.refl _)))

theorem strikeWith_lanesOk {c : PressIn} {host : HostFields} {units amount : Nat} (h : LanesOk p)
    (hrun : (p.lane c.lane).state = .running) : LanesOk (strikeWith p c buyer lot host units amount) := by
  have hkept : LanesKept p (makePurchase p c.lane (strikePurchase p c buyer lot host units amount)) :=
    makePurchase_lanesKept (.refl p)
  rw [strikeWith_eq]
  exact struckAfter_lanesOk (h.kept hkept) ((hkept.lanes c.lane).state.trans hrun)

/-- R88: a contender joins a STRUCK lane while fewer than 4 entries stand, none of its desk. -/
theorem joinContenders_lanesOk {c : PressIn} (h : LanesOk p) (hstruck : (p.lane c.lane).state = .struck)
    (hjoin : (p.lane c.lane).mayJoin c.desk = true) : LanesOk (joinContenders p c buyer) := by
  obtain ⟨hroom, hdesks⟩ := (mayJoin_iff _ _).mp hjoin
  obtain ⟨htimer, -, -, hnodup, hround⟩ := h.1 c.lane
  refine LanesOk.kept (modLane_lanesOk (i := c.lane) (f := fun l => l.joinedBy c buyer) h (fun w hw hwi => ?_) ?_)
    (reportToDesk_lanesKept (acceptSequence_lanesKept (.refl _)))
  · have := (h.2.2 w hw).1
    rw [hwi, hstruck] at this
    cases this
  · refine ⟨htimer, fun _ => hstruck, ?_, ?_, hround⟩
    · simp only [LaneUnit.joinedBy, List.length_append]
      exact hroom
    · simp only [LaneUnit.joinedBy, List.map_append, List.nodup_append]
      refine ⟨hnodup, List.nodup_singleton _, fun a ha d hd had => ?_⟩
      obtain ⟨e, he, rfl⟩ := List.mem_map.mp ha
      exact hdesks e he (had.trans (List.mem_singleton.mp hd))

theorem pressByState_lanesOk {c : PressIn} (h : LanesOk p) : LanesOk (pressByState p c buyer) := by
  have hrefused {r : PressReason} {u k : Nat} : LanesOk (refusePress p c r u k) := h.kept .of_eq
  unfold pressByState
  dsimp only
  cases hs : (p.lane c.lane).state with
  | running =>
    simp only [winnerPath]
    split
    · exact hrefused
    · split
      · exact hrefused
      · exact strikeWith_lanesOk h hs
  | struck =>
    cases hjoin : (p.lane c.lane).mayJoin c.desk with
    | true => exact contenderPath_joins buyer hjoin ▸ joinContenders_lanesOk h hs hjoin
    | false => exact contenderPath_late buyer hjoin ▸ hrefused
  | primed | paused | idle | closing | held => exact hrefused

theorem takePress_lanesOk {c : PressIn} (h : LanesOk p) : LanesOk (takePress p c) := by
  have htaken : LanesOk (p.setPress { p.press with taken := p.press.taken + 1 }) := h.kept .of_eq
  unfold takePress judgePress
  dsimp only
  split
  · exact htaken.kept .of_eq
  split
  · exact htaken.kept .of_eq
  split
  · exact pressByState_lanesOk htaken
  · exact htaken.kept .of_eq

theorem takePass_lanesOk {pass : Pass} (h : LanesOk p) : LanesOk (takePass p i pass) := by
  have hcarried : LanesOk (carryOut p i pass).part := h.kept .of_eq
  unfold takePass tellLane
  split
  · exact h.kept .of_eq
  split
  · exact h.kept .of_eq
  split
  · exact addHold_lanesOk hcarried
  split
  · exact look_lanesOk hcarried
  · exact hcarried

/-- R45: a due timer is the one of the lane's state. -/
theorem state_of_due {kind : TimerKind} {l : LaneUnit} (h : LaneSound l) (hdue : l.timer.due kind = true) :
    l.state = match kind with
      | .preRoll => .primed
      | .step => .running
      | .contenderWindow => .struck
      | .restartPause => .paused := by
  have htimer : l.timer = .counting kind 0 := by simpa [Timer.due] using hdue
  have hfits := h.1
  unfold timerFits at hfits
  rw [htimer] at hfits
  cases kind <;> exact hfits

theorem stepExpiry_lanesOk (h : LanesOk p) (hrun : (p.lane i).state = .running) : LanesOk (stepExpiry p i) := by
  have hclear : Clear (p.lane i) := .of_state (h.1 i) (by simp [hrun]) (by simp [hrun])
  unfold stepExpiry
  split
  · exact h
  split
  · exact moveLane_lanesOk h hclear rfl (h.round i) hrun
  · exact closeLot_lanesOk h hclear

/-- R53: a lane whose contenders are served goes on from no contender. -/
theorem afterService_lanesOk (h : LanesOk p) (hc : Clear (p.lane i)) : LanesOk (afterService p i) := by
  have hnext : LanesKept p (setNextRound p i) := setNextRound_lanesKept (.refl p)
  have hnextOk := h.kept hnext
  unfold afterService
  split
  · have hpending : LanesKept p (modLane p i fun l => { l with pendingWithdraw := false }) :=
      modLane_lanesKept (.refl p) fun _ => ⟨rfl, rfl, rfl, rfl, rfl, rfl⟩
    exact closeLot_lanesOk (h.kept hpending) (hc.kept (hpending.lanes i))
  split
  · exact moveLane_lanesOk hnextOk (hc.kept (hnext.lanes i)) rfl (hnextOk.round i) rfl
  · exact moveLane_lanesOk hnextOk (hc.kept (hnext.lanes i)) rfl (hnextOk.round i) trivial

theorem contenderExpiry_lanesOk (h : LanesOk p) (hstruck : (p.lane i).state = .struck) : LanesOk (contenderExpiry p i) := by
  have hserved : LanesKept p (serveContenders i 1 (p.lane i).contenders p) := serveContenders_lanesKept (.refl p)
  have hok := h.kept hserved
  have hstate := (hserved.lanes i).state.trans hstruck
  have hemptied : LanesOk (modLane (serveContenders i 1 (p.lane i).contenders p) i fun l => { l.endRound with contenders := [] }) := by
    refine modLane_lanesOk hok (fun w hw hwi => ?_)
      ⟨trivial, fun hne => absurd rfl hne, Nat.zero_le 4, List.Pairwise.nil, hok.round i⟩
    have := (hok.2.2 w hw).1
    rw [hwi, hstate] at this
    cases this
  refine afterService_lanesOk hemptied ?_
  rw [modLane_lane_same]
  refine ⟨rfl, fun hs => ?_⟩
  have : ((serveContenders i 1 (p.lane i).contenders p).lane i).state = .held := hs
  rw [hstate] at this
  cases this

theorem ExpiryAct.lanesOk {kind : TimerKind} {act : Part → Lane → Part} (ha : ExpiryAct kind act) (h : LanesOk p)
    (hdue : (p.lane i).timer.due kind = true) : LanesOk (act p i) := by
  have hs := state_of_due (h.1 i) hdue
  cases ha with
  | preRoll => exact enterRunning_lanesOk h (.of_state (h.1 i) (by simp [hs]) (by simp [hs])) (by decide)
  | restartPause => exact enterRunning_lanesOk h (.of_state (h.1 i) (by simp [hs]) (by simp [hs])) (by decide)
  | step => exact stepExpiry_lanesOk h hs
  | contenderWindow => exact contenderExpiry_lanesOk h hs

/-- R45: a tick leaves every timer of its kind. -/
theorem takeTick_lanesOk (h : LanesOk p) : LanesOk (takeTick p) := by
  have hlane (j : Lane) : (takeTick p).lane j = { p.lane j with timer := (p.lane j).timer.tick } := Vector.getElem_map _ _
  refine ⟨fun j => ?_, h.2.1, fun w hw => ?_⟩
  · rw [hlane]
    obtain ⟨htimer, hrest⟩ := h.1 j
    refine ⟨?_, hrest⟩
    unfold timerFits at htimer ⊢
    cases ht : (p.lane j).timer with
    | stopped => trivial
    | counting kind n =>
      rw [ht] at htimer
      cases kind <;> exact htimer
  · rw [hlane]
    exact h.2.2 w hw

/-! ### Closes and write-backs -/

theorem leaveClosing_lanesOk (h : LanesOk p) (hclosing : (p.lane i).state = .closing) : LanesOk (leaveClosing p i) := by
  have hclear : Clear (p.lane i) := .of_state (h.1 i) (by simp [hclosing]) (by simp [hclosing])
  have hidle : LanesOk ((modLane p i LaneUnit.clearLive).notify i) :=
    LanesOk.kept (moveLane_lanesOk (f := LaneUnit.clearLive) h hclear rfl (h.round i) trivial) .of_eq
  unfold leaveClosing
  dsimp only
  split
  · exact look_lanesOk hidle
  · refine moveLane_lanesOk hidle ?_ rfl (hidle.round i) ?_
    · show Clear ((modLane p i LaneUnit.clearLive).lane i)
      rw [modLane_lane_same]
      exact ⟨hclear.1, fun hs => nomatch hs⟩
    · show timerFits { (modLane p i LaneUnit.clearLive).lane i with state := .held, ret := .idle }
      rw [modLane_lane_same]
      trivial

theorem completeWriteBack_lanesOk {e : WriteBackEntry} (h : LanesOk p) : LanesOk (completeWriteBack p e) := by
  have hout : LanesOk (p.setCatalogue { p.catalogue with writeBackOut := none }) := h.kept .of_eq
  have hend {q : Part} (hq : LanesOk q) : LanesOk (endDayIfDue (freeIfDone q e.lot)) :=
    hq.kept (endDayIfDue_lanesKept .of_eq)
  unfold completeWriteBack
  refine hend ?_
  split
  · split
    · next hfound =>
      have hclosing := List.find?_some hfound
      simp only [Bool.and_eq_true, beq_iff_eq] at hclosing
      exact leaveClosing_lanesOk hout hclosing.2
    · exact hout
  · exact hout

/-! ### Anchor writes and writes outside the Anchor -/

theorem perform_lanesOk {w : PostedWrite} {bytes : List (Nat × Byte)} {a : AnchorAction} (h : LanesOk p) :
    LanesOk (perform w bytes p a) := by
  have hrefl := LanesKept.refl p
  cases a with
  | day => exact h.kept (takeDayWord_lanesKept hrefl)
  | payment => exact h.kept (takePayment_lanesKept hrefl)
  | invoiceClose => exact h.kept (takeInvoiceClose_lanesKept hrefl)
  | consumerIndex => exact h.kept (takeConsumerIndex_lanesKept hrefl)
  | threshold => exact h.kept (takeThreshold_lanesKept hrefl)
  | flagClear => exact h.kept (.of_eq rfl rfl)
  | captureRelease => exact h.kept (.of_eq rfl rfl)
  | eventMap => exact h.kept (.of_eq rfl rfl)
  | correctedSwitch => exact h.kept (.of_eq rfl rfl)
  | laneCommand i => exact takeLaneCommand_lanesOk h
  | laneParams i => exact takeLaneParams_lanesOk h
  | stopMode i => exact takeStopMode_lanesOk h
  | windowWord v =>
    simp only [perform]
    split
    · exact h.kept (commitWindow_lanesKept hrefl)
    · exact h.kept (removeWindow_lanesKept hrefl)
  | masterWord m => exact h.kept (.of_eq (commitMaster_lanes ..) (commitMaster_ring ..))

theorem forward_lanesKept {w : PostedWrite} {l : Option Nat} (h : LanesKept b p) : LanesKept b (forward w l p) := h.trans .of_eq

theorem performs_lanesOk {w : PostedWrite} {bytes : List (Nat × Byte)} (actions : List AnchorAction) (h : LanesOk p) :
    LanesOk (actions.foldl (perform w bytes) p) := by
  induction actions generalizing p with
  | nil => exact h
  | cons a actions ih => exact ih (perform_lanesOk h)

theorem freeDraw_lanesOk {n : Nat} (h : LanesOk p) : LanesOk { p with freeDraws := n } := h.kept (.of_eq rfl rfl)

theorem takeAnchorWrite_lanesOk {w : PostedWrite} (h : LanesOk p) : LanesOk (takeAnchorWrite w p) := by
  have hbefore : LanesOk (forward w none (p.setWindow { p.window with shadow := shadowAfter p w })) :=
    h.kept (forward_lanesKept (setWindow_lanesKept (.refl p)))
  unfold takeAnchorWrite
  dsimp only
  split
  · exact performs_lanesOk _ hbefore
  · exact freeDraw_lanesOk (performs_lanesOk _ hbefore)

theorem takeDesk_lanesKept {w : PostedWrite} : LanesKept p (takeDesk w p) := by
  refine foldl_lanesKept (fun {q k} hq => ?_) _ .of_eq
  unfold takeDeskEntry
  dsimp only
  split
  · exact hq.trans .of_eq
  · exact hq

theorem takeLot_lanesKept {w : PostedWrite} : LanesKept p (takeLot w p) := by
  unfold takeLot
  split
  · exact .of_eq
  · unfold takeLotRequest
    split <;> exact .of_eq

theorem takeBuyer_lanesKept {w : PostedWrite} : LanesKept p (takeBuyer w p) := by
  unfold takeBuyer
  split
  · exact .of_eq
  · unfold takeBuyerFields
    split <;> exact .of_eq

theorem WriteAct.lanesOk {act : PostedWrite → Part → Part} (ha : WriteAct act) {w : PostedWrite} (h : LanesOk p) :
    LanesOk (act w p) := by
  cases ha with
  | forwarded => exact h.kept (.of_eq (forward_lanes ..) (forward_ring ..))
  | refused => exact h.kept (.of_eq rfl rfl)
  | lot => exact h.kept takeLot_lanesKept
  | press =>
    unfold takePressWrite
    split
    · exact takePress_lanesOk h
    · exact h
  | pass =>
    unfold takePassWrite
    split
    · exact takePass_lanesOk h
    · exact h
  | desk => exact h.kept takeDesk_lanesKept
  | buyer => exact h.kept takeBuyer_lanesKept

/-! ### Reads, the buses and the Store Port leave the lanes and the waiters -/

theorem answerDisplay_lanesKept {r : ReadInProgress} : LanesKept p (answerDisplay r p) := by
  unfold answerDisplay answerLive translate answerBlank
  dsimp only
  split
  · split
    · split
      · exact .of_eq
      · split
        · exact .of_eq
        · split <;> exact .of_eq
    · exact .refl p
  · exact .refl p

theorem ReadAct.lanesKept {act : ReadInProgress → Part → Part} (ha : ReadAct act) {r : ReadInProgress} :
    LanesKept p (act r p) := by
  cases ha with
  | buyer | desk | reply | anchor => exact .of_eq (answerBytes_lanes ..) (answerBytes_ring ..)
  | lot | plain => exact .of_eq (forwardReadAt_lanes ..) (forwardReadAt_ring ..)
  | display => exact answerDisplay_lanesKept
  | fault => exact .of_eq (by simp [answerFault]) (by simp [answerFault])

theorem exhaust_lanesOk {t : Transaction} (h : LanesOk p) : LanesOk (exhaust p t) := by
  have hfreed : LanesOk ((freePort p).report (t.error .retryExhausted)) := h.kept .of_eq
  unfold exhaust
  cases t with
  | forwardWrite w => exact hfreed.kept (.of_eq rfl rfl)
  | forwardRead r abandoned => exact hfreed.kept (.of_eq (endForwardedRead_lanes ..) (endForwardedRead_ring ..))
  | fetch lot address => exact settle_lanesOk (hfreed.kept .of_eq)
  | writeBack e address data => exact hfreed
  | ringRecord r address data => exact hfreed

theorem takeRetry_lanesOk (h : LanesOk p) : LanesOk (takeRetry p) := by
  unfold takeRetry
  split
  · split
    · exact h.kept .of_eq
    · exact exhaust_lanesOk h
  · exact h

theorem takeExhaustion_lanesOk (h : LanesOk p) : LanesOk (takeExhaustion p) := by
  unfold takeExhaustion
  split
  · split
    · exact h
    · exact exhaust_lanesOk h
  · exact h

theorem chooseGrant_lanesKept {requests : BitVec 8} : LanesKept p (chooseGrant p requests) := by
  unfold chooseGrant
  split
  · split <;> exact .of_eq rfl rfl
  all_goals exact .of_eq rfl rfl

theorem grantStorePort_lanesKept : LanesKept p (grantStorePort p) := by
  unfold grantStorePort
  split
  · exact .refl p
  split
  · exact .of_eq rfl rfl
  · exact .refl p

end

/-! ### Every event -/

/-- R187: after a reset every lane is IDLE without a contender, and no lane waits. -/
theorem afterReset_lanesOk (pins : SampledPins) (low : Bool) (n : Nat) : LanesOk (Part.afterReset pins low n) := by
  refine ⟨fun i => ?_, List.Pairwise.nil, fun _ h => nomatch h⟩
  have hlane : ∃ level, (Part.afterReset pins low n).lane i = LaneUnit.afterReset level := by
    fin_cases i <;> exact ⟨_, rfl⟩
  obtain ⟨level, hlane⟩ := hlane
  rw [hlane]
  exact ⟨trivial, fun hne => absurd rfl hne, Nat.zero_le 4, List.Pairwise.nil, Nat.zero_le _⟩

theorem PartEvent.lanesOk {p q : Part} (h : PartEvent p q) (hp : LanesOk p) : LanesOk q := by
  cases h with
  | idle => exact hp
  | reset pins => exact afterReset_lanesOk ..
  | busReset => exact hp.kept (.of_eq rfl rfl)
  | busRelease requests => exact hp.kept (LanesKept.trans (q := releaseFloorBus p) (.of_eq rfl rfl) chooseGrant_lanesKept)
  | grant requests => exact hp.kept chooseGrant_lanesKept
  | presentWrite m a beats => exact hp.kept (by unfold Machine.presentWrite; split <;> exact .of_eq rfl rfl)
  | presentRead m a n => exact hp.kept (.of_eq rfl rfl)
  | stopInput i level => exact settle_lanesOk (changeStop_lanesOk hp)
  | tick => exact takeTick_lanesOk hp
  | write hact w => exact settle_lanesOk (hact.lanesOk (hp.kept .of_eq))
  | anchorWrite w => exact settle_lanesOk (takeAnchorWrite_lanesOk (hp.kept .of_eq))
  | thresholdWrite w => exact settleThreshold_lanesOk (takeAnchorWrite_lanesOk (hp.kept .of_eq))
  | read hact r => exact hp.kept hact.lanesKept
  | storeGrant => exact hp.kept grantStorePort_lanesKept
  | retry => exact takeRetry_lanesOk hp
  | exhaustion => exact takeExhaustion_lanesOk hp
  | readCompletion a data =>
    unfold completeForwardedRead
    split
    · exact hp.kept .of_eq
    · exact hp
  | writeCompletion a =>
    unfold completeForwardedWrite
    split
    · exact hp.kept .of_eq
    · exact hp
  | fetchCompletion a data =>
    unfold completeFetchRead
    split
    · exact settle_lanesOk (hp.kept .of_eq)
    · exact hp
  | writeBackCompletion corrected =>
    unfold finishWriteBack
    split
    · exact settle_lanesOk (completeWriteBack_lanesOk (hp.kept .of_eq))
    · exact hp
  | recordCompletion corrected =>
    unfold finishRingRecord
    split
    · exact settle_lanesOk (hp.kept (publishRecord_lanesKept .of_eq))
    · exact hp
  | uncorrectable =>
    unfold partMadeUncorrectable
    split
    · exact hp.kept .of_eq
    · exact hp.kept .of_eq
    · exact hp
  | expiry hact i hdue => exact settle_lanesOk (hact.lanesOk hp hdue)

/-- Settles O59: the queues and tables are among what every event keeps, every event clears its notices, and the lanes go on with the
Ring Waiters. -/
theorem stepKeepsLanesQueuesAndTables : Obligations.StepKeepsLanesQueuesAndTables :=
  ⟨queuesSound_kept, tablesSound_kept, quiet_kept, kept_of_events (P := LanesOk) fun _ _ h => h.lanesOk⟩

/-- Settles O60: the part after reset has every bound and form, whatever was before, and its lanes and displays are at rest. -/
theorem resetMeetsTheInvariants : Obligations.ResetMeetsTheInvariants := by
  obtain ⟨hlanes, hwaiters⟩ := afterReset_lanesOk State.resetPins false 0
  refine ⟨?_, ?_, ?_, ?_, ?_, ?_, ?_, hlanes, hwaiters⟩
  · exact ⟨rfl, rfl, List.Pairwise.nil, fun _ h => nomatch h⟩
  · exact ⟨Nat.zero_le 8, Nat.zero_le 4⟩
  · exact fun _ h => nomatch h
  · exact ⟨Nat.zero_le 255, fun _ => rfl, rfl⟩
  · exact ⟨Nat.zero_le 8, fun i => by rw [State.reset, afterReset_track]; exact Nat.zero_le 8⟩
  · exact ⟨List.Pairwise.nil, ⟨List.Pairwise.nil, fun _ h => nomatch h⟩, List.Pairwise.nil, fun _ h => nomatch h⟩
  · exact fun i => congrArg DisplayLane.notified (Vector.getElem_replicate _)

end Sys2Proof.Machine
end

section
/-! PROOFS. The commands as they complete, the resets, the pins and the Floor Bus. -/

namespace Sys2Proof.Machine

open Sys2Proof.Safety

/-! ### Commands that complete -/

/-- What acts on the part answers a next state, with the queue as it was. -/
theorem actOn_completes (s : State) (f : Part → Part) : ∃ t, actOn s f = .next t ∧ t.pending = s.pending := ⟨_, rfl, rfl⟩

/-- Every command of the form of R150 is an act on the part. -/
theorem exec_completes (c : Instr) (s : State) (hform : c.wellFormed = true) : ∃ t, exec c s = .next t ∧ t.pending = s.pending := by
  cases c with
  | floorBusWrite address beats =>
    rw [Instr.wellFormed] at hform
    rw [exec, execFloorBusWrite, if_pos hform]
    exact actOn_completes ..
  | floorBusRead address n =>
    rw [Instr.wellFormed] at hform
    rw [exec, execFloorBusRead, if_pos hform]
    exact actOn_completes ..
  | _ => exact ⟨_, rfl, rfl⟩

/-- Settles O1: the step of a queue with a front command. -/
theorem stepTakesFrontCommand : Obligations.StepTakesFrontCommand := by
  intro s c rest hqueue
  unfold step
  rw [hqueue]
  rfl

/-- Settles O2: every command but a transaction acts whatever its operands; a transaction acts where it has the form of R150. -/
theorem wellFormedCommandsComplete : Obligations.WellFormedCommandsComplete := by
  refine ⟨exec_completes, fun s address beats hform => ?_, fun s address n hform => ?_⟩
  · rw [exec, execFloorBusWrite, hform]
    rfl
  · rw [exec, execFloorBusRead, hform]
    rfl

/-! ### Resets -/

/-- R187: either reset sets the part to its reset state with the pins sampled. -/
theorem exec_reset (pins : SampledPins) (s : State) {c : Instr} (hc : c = .powerOn pins ∨ c = .resetn pins) :
    exec c s = .next { s with part := resetPart pins s.part } := by
  rcases hc with rfl | rfl <;> rfl

/-- R43, R71: a lane after reset holds its stop input's sampled level. -/
theorem afterReset_lane (pins : SampledPins) (low : Bool) (n : Nat) (i : Lane) :
    (Part.afterReset pins low n).lane i = .afterReset (pins.stopLevels.getLsbD i.val) := by
  fin_cases i <;> rfl

theorem afterReset_display (pins : SampledPins) (low : Bool) (n : Nat) (i : Lane) :
    (Part.afterReset pins low n).display i = .afterReset := Vector.getElem_replicate _

/-- R159: after reset only the Anchor's own entry is valid. -/
theorem windowReset_cache (sel : BitVec 3) (w : Window) :
    (WindowUnit.afterReset sel).cache[w] = if w = 0 then WindowEntry.anchor sel else WindowEntry.afterReset := by
  fin_cases w <;> rfl

theorem windowReset_masters (sel : BitVec 3) (m : Master) :
    (WindowUnit.afterReset sel).masters[m] = if m = 0 then MasterEntry.zero else MasterEntry.afterReset := by
  fin_cases m <;> rfl

/-- R180: after reset DRAM-UNCORRECTABLE alone is mapped. -/
theorem attentionReset_map (k : Fin 18) :
    AttentionUnit.afterReset.map[k] = if k = EventKind.dramUncorrectable.num then .attnU else .none := by
  fin_cases k <;> rfl

theorem attentionReset_counts (k : Fin 18) : AttentionUnit.afterReset.counts[k] = 0 := Vector.getElem_replicate _

theorem attnLine_noFlags {a : AttentionUnit} (h : a.flags = 0) (line : MapEntry) : a.attnLine line = false := by
  simp [AttentionUnit.attnLine, h]

/-- Settles O3: each unit's reset state, read off. -/
theorem resetEmptiesTheUnits : Obligations.ResetEmptiesTheUnits := by
  intro pins s c hc
  refine ⟨_, exec_reset pins s hc, rfl, ?_, ?_, fun _ => rfl, rfl, rfl, rfl, rfl, fun _ => rfl, rfl, rfl, rfl, rfl, rfl, ?_, ?_⟩
  · exact afterReset_track _ _ _
  · exact afterReset_lane _ _ _
  · show reservedCount (Part.afterReset pins _ _) = 0
    have hlanes := afterReset_lane pins s.part.floor.fbResetLow s.part.freeDraws
    have hclose : closeSlots (Part.afterReset pins s.part.floor.fbResetLow s.part.freeDraws) = 0 := by
      simp [closeSlots, hlanes, LaneUnit.afterReset, flagNat]
    have hround : roundSlots (Part.afterReset pins s.part.floor.fbResetLow s.part.freeDraws) = 0 := by
      simp [roundSlots, hlanes, LaneUnit.afterReset]
    simp only [reservedCount, hclose, hround]
    rfl
  · exact afterReset_display _ _ _

/-- Settles O4: each block's reset state, read off. -/
theorem resetClearsBusWindowsPortAndAttention : Obligations.ResetClearsBusWindowsPortAndAttention := by
  intro pins s c hc
  refine ⟨_, exec_reset pins s hc, rfl, fun w => ?_, fun m => ?_, fun _ => rfl, fun w => ?_, fun m => ?_, rfl, rfl, rfl, rfl, rfl,
    rfl, rfl, ?_, rfl, ?_, rfl, rfl, rfl, attnLine_noFlags rfl _, attnLine_noFlags rfl _, rfl⟩
  · show (WindowUnit.afterReset pins.anchorSel).cache[w] = _
    rw [windowReset_cache]
    by_cases hw : w = 0 <;> simp [hw, WindowEntry.anchor, WindowEntry.afterReset, anchorBase]
  · show (WindowUnit.afterReset pins.anchorSel).masters[m] = _
    rw [windowReset_masters]
    by_cases hm : m = 0 <;> simp [hm, MasterEntry.zero, MasterEntry.afterReset]
  · exact Vector.getElem_replicate _
  · exact Vector.getElem_replicate _
  · exact attentionReset_map
  · exact attentionReset_counts

/-! ### Pins -/

/-- R172: an abandoned read leaves the forward path, and the one in flight is marked. -/
theorem abandonRead_law (u : StorePort) :
    u.abandonRead = { u with forwardRead := none, inFlight := u.abandonRead.inFlight } ∧
    (∀ r n, u.inFlight = some { transaction := .forwardRead r false, retries := n } →
      u.abandonRead.inFlight = some { transaction := .forwardRead r true, retries := n }) ∧
    ((∀ r n, u.inFlight ≠ some { transaction := .forwardRead r false, retries := n }) →
      u.abandonRead.inFlight = u.inFlight) := by
  unfold StorePort.abandonRead
  split
  · next r n heq =>
    refine ⟨rfl, fun r' n' h => ?_, fun h => absurd heq (h r n)⟩
    rw [heq] at h
    cases h
    rfl
  · next hnone => exact ⟨rfl, fun r n h => absurd h (hnone r n), fun _ => rfl⟩

theorem presenter_low {p : Part} (h : p.floor.fbResetLow = true) : presenter p = none := by
  simp [presenter, h]

/-- R152: without a grant, or while a read holds the bus, no master may present. -/
theorem presenter_none {p : Part} (h : p.floor.grant = none ∨ p.floor.read ≠ none) : presenter p = none := by
  unfold presenter
  split
  · rfl
  · next hbus =>
    rcases h with hgrant | hread
    · exact hgrant
    · simp only [Bool.or_eq_true, Option.isSome_iff_ne_none] at hbus
      exact absurd (.inr hread) hbus

theorem presenter_some {p : Part} {m : Master} (hgrant : p.floor.grant = some m) (hlow : p.floor.fbResetLow = false)
    (hread : p.floor.read = none) : presenter p = some m := by
  simp [presenter, hgrant, hlow, hread]

theorem exec_write_presented (s : State) (address : Address) (beats : List WriteBeat)
    (hform : transactionForm address beats.length = true) :
    exec (.floorBusWrite address beats) s =
      .next { s with part := match presenter s.part with | some m => presentWrite s.part m address beats | none => s.part } := by
  rw [exec, execFloorBusWrite, if_pos hform]
  rfl

theorem exec_read_presented (s : State) (address : Address) (n : Nat) (hform : transactionForm address n = true) :
    exec (.floorBusRead address n) s =
      .next { s with part := match presenter s.part with | some m => presentRead s.part m address n | none => s.part } := by
  rw [exec, execFloorBusRead, if_pos hform]
  rfl

theorem exec_write_not_presented (s : State) (address : Address) (beats : List WriteBeat)
    (hform : transactionForm address beats.length = true) (hnone : presenter s.part = none) :
    exec (.floorBusWrite address beats) s = .next s := by
  rw [exec_write_presented s address beats hform, hnone]

theorem exec_read_not_presented (s : State) (address : Address) (n : Nat) (hform : transactionForm address n = true)
    (hnone : presenter s.part = none) : exec (.floorBusRead address n) s = .next s := by
  rw [exec_read_presented s address n hform, hnone]

theorem exec_grantChoice (requests : BitVec 8) (s : State) :
    exec (.grantChoice requests) s =
      .next { s with part := if busFree s.part then chooseGrant s.part requests else s.part } := rfl

theorem exec_grantChoice_busy (requests : BitVec 8) (s : State) (h : busFree s.part = false) :
    exec (.grantChoice requests) s = .next s := by
  rw [exec_grantChoice, h]
  rfl

theorem chooseGrant_fbResetLow (p : Part) (requests : BitVec 8) :
    (chooseGrant p requests).floor.fbResetLow = p.floor.fbResetLow := by
  unfold chooseGrant
  split
  · split <;> rfl
  all_goals rfl

/-- Settles O5: FB_RSTn frees the bus and its arbiter; while it is low nothing is granted or presented, and its release is a choice. -/
theorem floorBusResetFreesTheBus : Obligations.FloorBusResetFreesTheBus := by
  refine ⟨fun s => ?_, fun s hlow => ⟨fun requests => ?_, fun address beats hform => ?_, fun address n hform => ?_,
    fun hgrant requests => ?_⟩⟩
  · obtain ⟨hstore, hmarked, hkept⟩ := abandonRead_law s.part.store
    refine ⟨_, rfl, rfl, ?_, ?_, hmarked, hkept⟩
    · exact congrArg StorePort.forwardRead hstore
    · exact congrArg (fun u => { s.part with
        floor := { s.part.floor with grant := none, read := none, fbResetLow := true, lastHigh := 0, lastNormal := 0, streak := 0 },
        store := u }) hstore
  · exact exec_grantChoice_busy requests s (by simp [busFree, hlow])
  · exact exec_write_not_presented s address beats hform (presenter_low hlow)
  · exact exec_read_not_presented s address n hform (presenter_low hlow)
  · refine ⟨{ s with part := chooseGrant (releaseFloorBus s.part) requests }, ?_, ?_, chooseGrant_fbResetLow ..⟩
    · exact congrArg (fun q => Host.Outcome.next { s with part := q }) (if_pos hlow)
    · have hfree : busFree (releaseFloorBus s.part) = true := by simp [busFree, releaseFloorBus, Part.setFloor, hgrant]
      show Host.Outcome.next { s with
        part := if busFree (releaseFloorBus s.part) then chooseGrant (releaseFloorBus s.part) requests else releaseFloorBus s.part } = _
      rw [if_pos hfree]

theorem takeTick_lane (p : Part) (i : Lane) : (takeTick p).lane i = { p.lane i with timer := (p.lane i).timer.tick } :=
  Vector.getElem_map _ _

/-- Settles O6: the tick counts, and every lane's timer takes it. -/
theorem hallTickCounts : Obligations.HallTickCounts := by
  refine fun s => ⟨_, rfl, rfl, fun i => ⟨fun hstopped => ?_, fun k n hcounting => ?_⟩⟩
  · refine (takeTick_lane s.part i).trans ?_
    rw [hstopped]
    exact congrArg (fun timer => { s.part.lane i with timer := timer }) hstopped.symm
  · refine (takeTick_lane s.part i).trans ?_
    rw [hcounting]
    rfl

/-! ### A stop input's change -/

theorem changeStop_eq (p : Part) (i : Lane) (level : Bool) :
    changeStop p i level = { p with lanes := (changeStop p i level).lanes, attention := (changeStop p i level).attention } := by
  unfold changeStop
  dsimp only
  split
  · rfl
  split <;> rfl

theorem changeStop_same {p : Part} {i : Lane} {level : Bool} (h : level = (p.lane i).stopLevel) : changeStop p i level = p := by
  simp [changeStop, h]

/-- R70: a new level that acts in the lane's mode. -/
theorem changeStop_acts {p : Part} {i : Lane} {level : Bool} (h : level ≠ (p.lane i).stopLevel)
    (hacts : stopChangeActs (p.lane i).params.stopMode level) :
    changeStop p i level = addStop (modLane p i fun l => { l with stopLevel := level }) i := by
  simp [changeStop, h.symm, (StopMode.acts_iff _ _).mpr hacts]

/-- R70: a new level that does not act is held by its lane. -/
theorem changeStop_holds {p : Part} {i : Lane} {level : Bool} (h : level ≠ (p.lane i).stopLevel)
    (hacts : ¬ stopChangeActs (p.lane i).params.stopMode level) :
    changeStop p i level = modLane p i fun l => { l with stopLevel := level } := by
  have hfalse := mt (StopMode.acts_iff _ _).mp hacts
  simp [changeStop, h.symm, hfalse]

theorem addStop_lane (p : Part) (i j : Lane) : (addStop p i).lane j = (addHold p i .stop).lane j := rfl

theorem freeCount_addStop (p : Part) (i : Lane) : freeCount p ≤ freeCount (addStop p i) :=
  (freeCount_addHold p i .stop).trans_eq (freeCount_congr rfl rfl rfl).symm

theorem changeStop_otherLane (p : Part) {i j : Lane} (level : Bool) (h : j ≠ i) : (changeStop p i level).lane j = p.lane j := by
  have hlevel : (modLane p i fun l => { l with stopLevel := level }).lane j = p.lane j := modLane_lane_other _ _ _ _ h
  unfold changeStop
  dsimp only
  split
  · rfl
  split
  · rw [addStop_lane]
    exact (modLane_lane_other _ _ _ _ h).trans hlevel
  · exact hlevel

/-- R133: a stop input's change gives up slots at most. -/
theorem freeCount_changeStop (p : Part) (i : Lane) (level : Bool) : freeCount p ≤ freeCount (changeStop p i level) := by
  have hlevel : freeCount (modLane p i fun l => { l with stopLevel := level }) = freeCount p :=
    freeCount_same (slotsSame_modLane p i _ ⟨rfl, rfl⟩)
  unfold changeStop
  dsimp only
  split
  · exact Nat.le_refl _
  split
  · exact hlevel.ge.trans (freeCount_addStop _ i)
  · exact hlevel.ge

/-- R70: where no lane waits on the ring, the event of a stop input ends with rebuilds at most. -/
theorem settle_changeStop (p : Part) (i : Lane) (level : Bool) (hwaiters : p.ring.waiters = []) :
    settle p (changeStop p i level) = rebuildNotified (changeStop p i level) := by
  have hnone : (changeStop p i level).ring.waiters = [] := by
    rw [changeStop_eq]
    exact hwaiters
  rw [settle_noWaiters _ _ hnone, judgeRingLow_of_le _ _ (freeCount_changeStop ..)]

theorem changeStop_held {p : Part} {i : Lane} {level : Bool} (h : level ≠ (p.lane i).stopLevel)
    (hacts : stopChangeActs (p.lane i).params.stopMode level) :
    HoldAdded { p.lane i with stopLevel := level } ((changeStop p i level).lane i) .stop ∧
      Raised p.attention (changeStop p i level).attention .stop := by
  rw [changeStop_acts h hacts, addStop_lane, addHold, modLane_lane_same, modLane_lane_same]
  exact ⟨addHold_added _ _, AttentionUnit.raise_raised ..⟩

theorem changeStop_level {p : Part} {i : Lane} {level : Bool} (h : level ≠ (p.lane i).stopLevel)
    (hacts : ¬ stopChangeActs (p.lane i).params.stopMode level) :
    (changeStop p i level).lane i = { p.lane i with stopLevel := level } ∧ (changeStop p i level).attention = p.attention := by
  rw [changeStop_holds h hacts]
  exact ⟨modLane_lane_same _ _ _, rfl⟩

/-- Settles O7: the change of the stop input, and the end of its event. -/
theorem stopInputActsByMode : Obligations.StopInputActsByMode := by
  intro s i level
  have heq := changeStop_eq s.part i level
  have hsame := changeStop_same (p := s.part) (i := i) (level := level)
  have hacts := changeStop_held (p := s.part) (i := i) (level := level)
  have hlevel := changeStop_level (p := s.part) (i := i) (level := level)
  have hother (j : Lane) (hj : j ≠ i) := changeStop_otherLane s.part level hj
  have hsettle := settle_changeStop s.part i level
  have hexec : exec (.stopInputChange i level) s = .next { s with part := settle s.part (changeStop s.part i level) } := rfl
  generalize changeStop s.part i level = q at *
  refine ⟨_, q, hexec, ?_⟩
  dsimp only
  refine ⟨rfl, heq, hsame, fun hnew => ⟨hacts hnew, hlevel hnew⟩, hother, fun hwaiters => ?_⟩
  rw [hsettle hwaiters]
  exact ⟨rebuildNotified_eq q, fun hquiet => rebuildNotified_quiet q (quietPart_congr (congrArg Part.displays heq) hquiet)⟩

/-! ### The arbiter -/

/-- R151: counting upward from the last granted, a master stands at its distance. -/
theorem countingUp_getElem (last : Master) (k : Nat) (h : k < (countingUp last).length) :
    (countingUp last)[k] = last + 1 + ⟨k, by simpa [countingUp] using h⟩ := by
  simp [countingUp]

theorem countedAt (last m : Master) : last + 1 + (m - last - 1) = m := by
  revert last m
  decide

theorem distanceOf (last k : Master) : last + 1 + k - last - 1 = k := by
  revert last k
  decide

theorem mem_countingUp (last m : Master) : m ∈ countingUp last :=
  List.mem_map.mpr ⟨m - last - 1, List.mem_finRange _, countedAt last m⟩

/-- R151: the arbiter's next master is the first one requesting in counting order. -/
theorem nextMaster_of_nextOf {p : Part} {requests : BitVec 8} {c : GrantClass} {last m : Master}
    (h : NextOf p requests c last m) : nextMaster p requests c last = some m := by
  obtain ⟨hrequests, hclass, hfirst⟩ := h
  unfold nextMaster
  rw [List.find?_eq_some_iff_getElem]
  have hlength : (countingUp last).length = 8 := by simp [countingUp]
  refine ⟨by simp only [hrequests, hclass, beq_self_eq_true, Bool.and_self], (m - last - 1).val, by omega, ?_, fun k hk => ?_⟩
  · rw [countingUp_getElem]
    exact countedAt last m
  · rw [countingUp_getElem]
    by_contra hearlier
    simp only [Bool.not_eq_true', Bool.not_eq_false, Bool.and_eq_true, beq_iff_eq] at hearlier
    have hle := hfirst _ hearlier.1 hearlier.2
    rw [distanceOf] at hle
    exact absurd hk (Nat.not_lt.mpr hle)

theorem nextMaster_none {p : Part} {requests : BitVec 8} {c : GrantClass} {last : Master} (h : ¬ Requested p requests c) :
    nextMaster p requests c last = none := by
  unfold nextMaster
  refine List.find?_eq_none.mpr fun m _ hm => h ⟨m, ?_⟩
  simpa using hm

/-- R151: where a class is requested, some master of it is next. -/
theorem nextMaster_some {p : Part} {requests : BitVec 8} {c : GrantClass} (last : Master) (h : Requested p requests c) :
    ∃ m, nextMaster p requests c last = some m := by
  obtain ⟨m, hrequests, hclass⟩ := h
  refine Option.isSome_iff_exists.mp (List.find?_isSome.mpr ⟨m, mem_countingUp last m, ?_⟩)
  simp only [hrequests, hclass, beq_self_eq_true, Bool.and_self]

/-- Settles O8: the choice by its cases, from who is next in each class. -/
theorem arbiterGrantsByClassAndTurn : Obligations.ArbiterGrantsByClassAndTurn := by
  intro s requests
  refine ⟨fun hgrant => exec_grantChoice_busy requests s ?_, fun hgrant hlow => ?_⟩
  · cases hg : s.part.floor.grant with
    | none => exact absurd hg hgrant
    | some m => simp [busFree, hg]
  have hfree : busFree s.part = true := by simp [busFree, hgrant, hlow]
  have hexec : exec (.grantChoice requests) s = .next { s with part := chooseGrant s.part requests } := by
    rw [exec_grantChoice, if_pos hfree]
  rw [hexec]
  refine ⟨fun n hstreak hn => ⟨_, rfl, ?_⟩, fun h hh hnormal hstreak => ⟨_, rfl, ?_⟩, fun h hh hnormal => ⟨_, rfl, ?_⟩,
    fun n hn hhigh => ⟨_, rfl, ?_⟩, fun hhigh hnormal => ?_⟩
  · show chooseGrant s.part requests = _
    unfold chooseGrant
    rw [nextMaster_of_nextOf hn]
    cases nextMaster s.part requests .high s.part.floor.lastHigh with
    | none => rfl
    | some h => exact if_pos hstreak
  · show chooseGrant s.part requests = _
    obtain ⟨n, hn⟩ := nextMaster_some s.part.floor.lastNormal hnormal
    unfold chooseGrant
    rw [nextMaster_of_nextOf hh, hn]
    exact if_neg hstreak
  · show chooseGrant s.part requests = _
    unfold chooseGrant
    rw [nextMaster_of_nextOf hh, nextMaster_none hnormal]
    rfl
  · show chooseGrant s.part requests = _
    unfold chooseGrant
    rw [nextMaster_of_nextOf hn, nextMaster_none hhigh]
    rfl
  · have hnone : chooseGrant s.part requests = s.part := by
      unfold chooseGrant
      rw [nextMaster_none hhigh, nextMaster_none hnormal]
    rw [hnone]

/-- Settles O9: who may present decides; a write then meets the buffer, a read holds the bus. -/
theorem transactionIsAcceptedTurnedAwayOrHoldsTheBus : Obligations.TransactionIsAcceptedTurnedAwayOrHoldsTheBus := by
  refine ⟨fun s m address beats hform => ⟨fun hbus => ?_, fun hgrant hlow hread => ?_⟩,
    fun s m address n hform => ⟨fun hbus => ?_, fun hgrant hlow hread => ?_⟩⟩
  · exact exec_write_not_presented s address beats hform (presenter_none hbus)
  · rw [exec_write_presented s address beats hform, presenter_some hgrant hlow hread]
    refine ⟨_, rfl, fun hroom => ?_, fun hfull => ?_⟩
    · exact if_pos hroom
    · exact if_neg (Nat.not_lt.mpr hfull)
  · exact exec_read_not_presented s address n hform (presenter_none hbus)
  · rw [exec_read_presented s address n hform, presenter_some hgrant hlow hread]
    exact ⟨_, rfl, rfl⟩

end Sys2Proof.Machine
end

section
/-! PROOFS. Posted writes that are forwarded: the plain ones, LOT requests, DESK and BUYER writes. -/

namespace Sys2Proof.Machine

open Sys2Proof.Safety

/-! ### The head forwarded -/

/-- R154: the part with the head out of the buffer and in the forward path. -/
def headForwarded (p : Part) (w : PostedWrite) (listed : Option Nat) : Part :=
  { p with floor := headGone p, store := forwardedInto p w listed }

theorem forward_popWrite (p : Part) (w : PostedWrite) (listed : Option Nat) :
    forward w listed (popWrite p) = headForwarded p w listed := forward_eq w listed (popWrite p)

/-- An event that forwards the head alone ends as it stands. -/
theorem settle_headForwarded {p : Part} (hquiet : QuietPart p) (w : PostedWrite) (listed : Option Nat) :
    settle p (headForwarded p w listed) = headForwarded p w listed :=
  settle_of_slotsSame hquiet (.of_blocks rfl rfl rfl) rfl

/-- A write that passed its checks, of no window or of a GUARD window, is of the row of forwarded writes. -/
theorem isForwarded_of {p : Part} {w : PostedWrite} (hpass : w.cls.check = .pass)
    (hkind : w.cls.kind = none ∨ w.cls.kind = some .guard) : isForwarded p w = true := by
  rcases hkind with hkind | hkind <;> simp [isForwarded, hpass, hkind]

theorem isLot_of {p : Part} {w : PostedWrite} {r : LotRequest} (hpass : w.cls.check = .pass) (hkind : w.cls.kind = some .lot)
    (hrequest : lotRequest w = r) : isLot r p w = true := by
  simp [isLot, PostedWrite.into, hpass, hkind, hrequest]

/-- R5: a LOT write over owned bytes of a known lot ends dropped and reported. -/
theorem settle_takeLot_owned {p : Part} {w : PostedWrite} (hquiet : QuietPart p) (howned : lotOwned p w = true) :
    settle p (takeLot w (popWrite p)) = (popWrite p).report (errorOfWrite w .owned w.cls.window) := by
  have htake : takeLot w (popWrite p) = (popWrite p).report (errorOfWrite w .owned w.cls.window) := if_pos howned
  rw [htake, settle_report_popWrite hquiet]

theorem takeLot_forwarded {p : Part} {w : PostedWrite} (howned : lotOwned p w = false) :
    takeLot w (popWrite p) = takeLotRequest w (popWrite p) :=
  if_neg (by rw [show lotOwned (popWrite p) w = lotOwned p w from rfl, howned]; exact Bool.false_ne_true)

theorem exec_lotWrite_taken {s : State} {w : PostedWrite} {r : LotRequest} (hhead : HeadTakeable s.part w)
    (hpass : w.cls.check = .pass) (hkind : w.cls.kind = some .lot) (hrequest : lotRequest w = r) :
    takeWrite (isLot r) takeLot s.part = settle s.part (takeLot w (popWrite s.part)) :=
  takeWrite_of _ _ _ w hhead (isLot_of hpass hkind hrequest)

/-- What answers by an act on the part answers the part that the act makes. -/
theorem actOn_of {s : State} {f : Part → Part} {q : Part} (h : f s.part = q) : actOn s f = .next { s with part := q } := by
  rw [actOn, h]

/-- Settles O11: the head forwarded, or a LOT write over owned bytes dropped. -/
theorem plainWritesAreForwarded : Obligations.PlainWritesAreForwarded := by
  refine ⟨fun s w hquiet hhead hpass hkind => ?_, fun s w hquiet hhead hpass hkind hrequest => ?_⟩
  · have htaken : takeWrite isForwarded takeForwarded s.part = headForwarded s.part w none := by
      rw [takeWrite_of _ _ _ w hhead (isForwarded_of hpass hkind), takeForwarded, forward_popWrite, settle_headForwarded hquiet]
    exact ⟨_, actOn_of htaken, rfl⟩
  · have htaken := exec_lotWrite_taken hhead hpass hkind hrequest
    refine ⟨_, actOn_of htaken, fun howned => ?_, fun howned => ?_⟩
    · dsimp only
      rw [settle_takeLot_owned hquiet howned]
      exact ⟨Part.report_eq (popWrite s.part) _, Part.report_reported (popWrite s.part) _⟩
    · dsimp only
      rw [takeLot_forwarded howned, takeLotRequest, hrequest, forward_popWrite]
      exact settle_headForwarded hquiet w none

/-! ### LIST requests -/

theorem takeList_known {p : Part} {lot : Nat} {a : Address} (h : p.known lot = true) :
    takeList p lot a = noteRefusal p lot .alreadyKnown := if_pos h

theorem takeList_joins {p : Part} {lot : Nat} {a : Address} (h : p.known lot = false) (hroom : p.catalogue.listing.length < 8) :
    takeList p lot a = (p.setDigest lot (.atListing a)).setCatalogue { (p.setDigest lot (.atListing a)).catalogue with
      listing := p.catalogue.listing ++ [{ lot := lot, withdrawPending := false }] } := by
  have hlimit : p.catalogue.listing.length < Config.listingEntries := hroom
  unfold takeList
  rw [if_neg (by rw [h]; exact Bool.false_ne_true), if_pos hlimit]
  rfl

theorem takeList_busy {p : Part} {lot : Nat} {a : Address} (h : p.known lot = false) (hfull : 8 ≤ p.catalogue.listing.length) :
    takeList p lot a = refuseListing (p.setDigest lot (.atListing a)) lot .busy := by
  have hlimit : ¬ p.catalogue.listing.length < Config.listingEntries := Nat.not_lt.mpr hfull
  unfold takeList
  rw [if_neg (by rw [h]; exact Bool.false_ne_true), if_neg hlimit]

/-- R7: the lot that a taken LIST request's forwarded write is marked with. -/
def listedMark (p : Part) (w : PostedWrite) : Option Nat := if listJoins p w.record then some w.record else none

theorem listedMark_known {p : Part} {w : PostedWrite} (h : p.known w.record = true) : listedMark p w = none := by
  simp [listedMark, listJoins, h]

theorem listedMark_joins {p : Part} {w : PostedWrite} (h : p.known w.record = false) (hroom : p.catalogue.listing.length < 8) :
    listedMark p w = some w.record := by
  simp [listedMark, listJoins, h, Config.listingEntries, hroom]

theorem listedMark_busy {p : Part} {w : PostedWrite} (hfull : 8 ≤ p.catalogue.listing.length) : listedMark p w = none := by
  simp [listedMark, listJoins, Config.listingEntries, Nat.not_lt.mpr hfull]

/-- R7: a taken LIST request, its write forwarded. -/
def listTaken (p : Part) (w : PostedWrite) : Part :=
  takeList (headForwarded p w (listedMark p w)) w.record (BitVec.ofNat 36 (w.address.toNat / 128 * 128))

theorem takeLot_list {p : Part} {w : PostedWrite} (howned : lotOwned p w = false) (hrequest : lotRequest w = .list) :
    takeLot w (popWrite p) = listTaken p w := by
  rw [takeLot_forwarded howned, takeLotRequest, hrequest]
  simp only [forward_popWrite]
  rfl

theorem listTaken_frame (p : Part) (w : PostedWrite) :
    listTaken p w = { p with floor := headGone p, store := forwardedInto p w (listedMark p w),
                             catalogue := (listTaken p w).catalogue, attention := (listTaken p w).attention } := by
  apply Part.ext_blocks <;> simp [listTaken] <;> rfl

theorem settle_listTaken {p : Part} (hquiet : QuietPart p) (w : PostedWrite) : settle p (listTaken p w) = listTaken p w := by
  refine settle_of_slotsSame hquiet (.of_blocks ?_ ?_ ?_) ?_ <;> rw [listTaken_frame]

/-- R5: a lot that is not known owns no byte. -/
theorem lotOwned_unknown {p : Part} {w : PostedWrite} (h : p.known w.record = false) : lotOwned p w = false := by
  simp [lotOwned, h]

theorem listTaken_store (p : Part) (w : PostedWrite) : (listTaken p w).store = forwardedInto p w (listedMark p w) := by
  rw [listTaken_frame]

/-- Settles O12: a request over owned bytes is dropped; the others by the two conditions of R7. -/
theorem listRequestJoinsOrIsRefused : Obligations.ListRequestJoinsOrIsRefused := by
  intro s w hquiet hhead hpass hkind hrequest
  have htaken := exec_lotWrite_taken hhead hpass hkind hrequest
  cases howned : lotOwned s.part w with
  | true =>
    rw [settle_takeLot_owned hquiet howned] at htaken
    have hknown : s.part.known w.record = true := by_contra fun h => by
      rw [lotOwned_unknown (Bool.eq_false_iff.mpr h)] at howned
      cases howned
    refine ⟨_, actOn_of htaken, Part.report_eq (popWrite s.part) _, fun _ => ⟨rfl, rfl, Part.report_reported (popWrite s.part) _⟩,
      nofun, fun h => ?_, fun h => ?_⟩ <;>
    · rw [hknown] at h
      cases h
  | false =>
    rw [takeLot_list howned hrequest, settle_listTaken hquiet] at htaken
    have hstore := listTaken_store s.part w
    refine ⟨_, actOn_of htaken, ?_, nofun, fun _ hknown => ?_, fun hknown hroom => ?_, fun hknown hfull => ?_⟩
    · dsimp only
      rw [hstore]
      exact listTaken_frame _ _
    · dsimp only
      rw [hstore]
      unfold listTaken
      rw [listedMark_known hknown]
      refine ⟨rfl, ?_⟩
      rw [takeList_known (p := headForwarded s.part w none) hknown]
      exact ⟨rfl, AttentionUnit.raise_raised ..⟩
    · dsimp only
      rw [hstore]
      unfold listTaken
      rw [listedMark_joins hknown hroom]
      refine ⟨rfl, ?_⟩
      rw [takeList_joins (p := headForwarded s.part w (some w.record)) hknown hroom]
      exact ⟨digest_setDigest_same .., fun lot hlot => digest_setDigest_other _ _ _ _ hlot, rfl, rfl⟩
    · dsimp only
      rw [hstore]
      unfold listTaken
      rw [listedMark_busy hfull]
      refine ⟨rfl, ?_⟩
      rw [takeList_busy (p := headForwarded s.part w none) hknown hfull]
      obtain ⟨hlot, hothers, hjoined, hcatalogue, hraised⟩ :=
        refuseListing_law ((headForwarded s.part w none).setDigest w.record
          (.atListing (BitVec.ofNat 36 (w.address.toNat / 128 * 128)))) w.record .busy _ (digest_setDigest_same ..)
      exact ⟨hlot, fun lot hne => (hothers lot hne).trans (digest_setDigest_other _ _ _ _ hne), hjoined, hcatalogue, hraised⟩

/-! ### WITHDRAW requests -/

/-- R16: a taken WITHDRAW request, its write forwarded. -/
def withdrawTaken (p : Part) (w : PostedWrite) : Part := takeWithdraw (headForwarded p w none) w.record

theorem takeLot_withdraw {p : Part} {w : PostedWrite} (howned : lotOwned p w = false) (hrequest : lotRequest w = .withdraw) :
    takeLot w (popWrite p) = withdrawTaken p w := by
  rw [takeLot_forwarded howned, takeLotRequest, hrequest]
  simp only [forward_popWrite]
  rfl

theorem withdrawTaken_frame (p : Part) (w : PostedWrite) :
    withdrawTaken p w = { p with floor := headGone p, store := forwardedInto p w none,
                                 catalogue := (withdrawTaken p w).catalogue, displays := (withdrawTaken p w).displays } := by
  apply Part.ext_blocks <;> simp [withdrawTaken] <;> rfl

/-- R16: the end of the request's event rebuilds maps at most. -/
theorem settle_withdrawTaken (p : Part) (w : PostedWrite) : settle p (withdrawTaken p w) = rebuildNotified (withdrawTaken p w) := by
  refine settle_rebuilds _ _ (.of_blocks ?_ ?_ ?_) <;> rw [withdrawTaken_frame]

theorem rebuildNotified_withdrawTaken (p : Part) (w : PostedWrite) :
    rebuildNotified (withdrawTaken p w) =
      { p with floor := headGone p, store := forwardedInto p w none, catalogue := (withdrawTaken p w).catalogue,
               displays := (rebuildNotified (withdrawTaken p w)).displays } := by
  rw [rebuildNotified_eq, withdrawTaken_frame]

/-- R16: a request that tells the Display Mapper nothing leaves every map. -/
theorem rebuildNotified_withdrawTaken_quiet {p : Part} (hquiet : QuietPart p) {w : PostedWrite}
    (h : (withdrawTaken p w).displays = p.displays) : rebuildNotified (withdrawTaken p w) = withdrawTaken p w :=
  rebuildNotified_quiet _ (quietPart_congr h hquiet)

/-- R16: a lot not yet live becomes a passenger, and its lane's map waits for its rebuild. -/
theorem takeWithdraw_notYetLive {p : Part} {lot : Nat} {d : Digest} (hd : p.digest lot = some d)
    (hstate : d.owned.state.notYetLive = true) : takeWithdraw p lot = notifyLot (makePassenger p lot) lot := by
  have hlot : p.lotState lot = some d.owned.state := by
    unfold Part.lotState
    rw [hd]
    rfl
  unfold takeWithdraw
  rw [hlot]
  cases hs : d.owned.state with
  | expected | late | staged | atClock => rfl
  | empty | listing | live | closed | withdrawn | refused =>
    rw [hs] at hstate
    cases hstate

theorem toLane_eq_some_iff (n : Nat) (i : Lane) : toLane n = some i ↔ n = i.val := by
  unfold toLane
  split
  · rw [Option.some.injEq, Fin.ext_iff]
  · next hout => exact ⟨nofun, fun h => absurd (h ▸ i.isLt) hout⟩

/-- R141: a lot's lane is the one its host fields name. -/
theorem laneOfLot_eq_some_iff {p : Part} {lot : Nat} {d : Digest} (hd : p.digest lot = some d) (i : Lane) :
    laneOfLot p lot = some i ↔ ∃ h, d.host = some h ∧ h.lane = i.val := by
  have hhost : p.host lot = d.host := by
    unfold Part.host
    rw [hd]
    rfl
  unfold laneOfLot
  rw [hhost]
  simp [Option.bind_eq_some_iff, toLane_eq_some_iff]

theorem notifyLot_display (p : Part) (lot : Nat) (i : Lane) :
    (notifyLot p lot).display i = if laneOfLot p lot = some i then { p.display i with notified := true } else p.display i := by
  unfold notifyLot
  cases hlane : laneOfLot p lot with
  | none => rfl
  | some j =>
    by_cases hj : i = j
    · subst hj
      rw [if_pos rfl]
      exact Part.setDisplay_display_same ..
    · rw [if_neg fun h => hj (Option.some.inj h).symm]
      exact Part.setDisplay_display_other _ _ _ _ hj

/-- R142: a map is rebuilt from the part without its maps and from the map as it was, told of or not. -/
theorem mapRebuilt_congr {p q : Part} {i : Lane} {d : DisplayLane} {b : Bool} (hq : q = { p with displays := q.displays })
    (hdisplay : q.display i = { p.display i with notified := b }) (h : MapRebuilt q i d) : MapRebuilt p i d := by
  unfold MapRebuilt at h ⊢
  rw [hdisplay] at h
  rw [hq] at h
  exact h

/-- R16: a lot not yet live as a WITHDRAW request leaves it, and its lane's map. -/
theorem withdrawTaken_passenger {p : Part} {w : PostedWrite} {d : Digest} (hd : p.digest w.record = some d)
    (hstate : d.owned.state.notYetLive = true) :
    withdrawTaken p w = notifyLot (makePassenger (headForwarded p w none) w.record) w.record :=
  takeWithdraw_notYetLive (p := headForwarded p w none) hd hstate

/-- R142: a map told of is rebuilt from the maps as they were. -/
theorem rebuildNotified_map {q : Part} {displays : Vector DisplayLane 6} {i : Lane}
    (h : q.display i = { displays[i] with notified := true }) :
    MapRebuilt { rebuildNotified q with displays := displays } i ((rebuildNotified q).display i) := by
  have hrebuilt := rebuildNotified_rebuilt q i (by rw [h])
  have hframe := rebuildNotified_eq q
  generalize rebuildNotified q = r at hrebuilt hframe ⊢
  refine mapRebuilt_congr (p := { r with displays := displays }) ?_ h hrebuilt
  rw [hframe]

theorem laneOfLot_makePassenger {p : Part} {lot : Nat} {d : Digest} (hd : p.digest lot = some d) (i : Lane) :
    laneOfLot (makePassenger p lot) lot = some i ↔ ∃ h, d.host = some h ∧ h.lane = i.val := by
  obtain ⟨-, -, hlot, -⟩ := makePassenger_law p lot
  rw [hd] at hlot
  exact laneOfLot_eq_some_iff hlot i

theorem withdrawTaken_map {p : Part} (hquiet : QuietPart p) {w : PostedWrite} {d : Digest} (hd : p.digest w.record = some d)
    (hstate : d.owned.state.notYetLive = true) (i : Lane) :
    let q := rebuildNotified (withdrawTaken p w)
    let ofLane := ∃ h, d.host = some h ∧ h.lane = i.val
    (ofLane → MapRebuilt { q with displays := p.displays } i (q.display i)) ∧ (¬ ofLane → q.display i = p.display i) := by
  have hlane := laneOfLot_makePassenger (p := headForwarded p w none) hd i
  have hdisplay := notifyLot_display (makePassenger (headForwarded p w none) w.record) w.record i
  rw [← withdrawTaken_passenger hd hstate] at hdisplay
  have hbefore : (makePassenger (headForwarded p w none) w.record).display i = p.display i := by
    unfold Part.display
    rw [makePassenger_displays]
    rfl
  rw [hbefore] at hdisplay
  refine ⟨fun hof => ?_, fun hnot => ?_⟩
  · rw [if_pos (hlane.mpr hof)] at hdisplay
    exact rebuildNotified_map hdisplay
  · rw [if_neg (mt hlane.mp hnot)] at hdisplay
    rw [rebuildNotified_display _ i (by rw [hdisplay]; exact hquiet i), hdisplay]

theorem withdrawTaken_same {p : Part} {w : PostedWrite} (h : p.lotState w.record = none ∨ p.lotState w.record = some .closed ∨
    p.lotState w.record = some .withdrawn ∨ p.lotState w.record = some .refused) :
    withdrawTaken p w = headForwarded p w none := by
  have hstate : (headForwarded p w none).lotState w.record = p.lotState w.record := rfl
  unfold withdrawTaken takeWithdraw
  rw [hstate]
  rcases h with h | h | h | h <;> rw [h]

theorem withdrawTaken_listing {p : Part} {w : PostedWrite} (h : p.lotState w.record = some .listing) :
    withdrawTaken p w = markWithdraw (headForwarded p w none) w.record := by
  have hstate : (headForwarded p w none).lotState w.record = p.lotState w.record := rfl
  unfold withdrawTaken takeWithdraw
  rw [hstate, h]

theorem withdrawTaken_live {p : Part} {w : PostedWrite} (h : p.lotState w.record = some .live) :
    withdrawTaken p w = { headForwarded p w none with
      catalogue := { p.catalogue with withdrawRefusals := p.catalogue.withdrawRefusals + 1 } } := by
  have hstate : (headForwarded p w none).lotState w.record = p.lotState w.record := rfl
  unfold withdrawTaken takeWithdraw
  rw [hstate, h]
  rfl

/-- Settles O13: a request over owned bytes is dropped; the others by the lot's state. -/
theorem withdrawRequestActsByLotState : Obligations.WithdrawRequestActsByLotState := by
  intro s w hquiet hhead hpass hkind hrequest
  have htaken := exec_lotWrite_taken hhead hpass hkind hrequest
  cases howned : lotOwned s.part w with
  | true =>
    rw [settle_takeLot_owned hquiet howned] at htaken
    exact ⟨_, actOn_of htaken, fun _ => ⟨Part.report_eq (popWrite s.part) _, Part.report_reported (popWrite s.part) _⟩, nofun⟩
  | false =>
    rw [takeLot_withdraw howned hrequest, settle_withdrawTaken] at htaken
    refine ⟨_, actOn_of htaken, nofun, fun _ => ?_⟩
    dsimp only
    refine ⟨?_, fun hlot => ?_, fun d hd hstate => ?_, fun hlot => ?_, fun hlot => ?_⟩
    · rw [rebuildNotified_catalogue]
      exact rebuildNotified_withdrawTaken _ _
    · have hq := withdrawTaken_listing hlot
      rw [rebuildNotified_withdrawTaken_quiet hquiet (by rw [hq]; exact markWithdraw_displays ..), hq]
      exact ⟨markWithdraw_displays .., rfl⟩
    · have hq := withdrawTaken_passenger hd hstate
      obtain ⟨hframe, hjoined, hlot, hothers⟩ := makePassenger_law (headForwarded s.part w none) w.record
      have hcatalogue : (rebuildNotified (withdrawTaken s.part w)).catalogue =
          (makePassenger (headForwarded s.part w none) w.record).catalogue := by
        rw [rebuildNotified_catalogue, hq, notifyLot_catalogue]
      have hknown := congrArg CatalogueUnit.known hcatalogue
      refine ⟨?_, fun lot hne => ?_, ?_, ?_, withdrawTaken_map hquiet hd hstate⟩
      · rw [digest_congr hknown, hlot, show (headForwarded s.part w none).digest w.record = some d from hd]
        rfl
      · rw [digest_congr hknown]
        exact hothers lot hne
      · rw [hcatalogue, hjoined]
        exact joinWriteBacks_joined ..
      · rw [hcatalogue]
        exact congrArg Part.catalogue hframe
    · have hq := withdrawTaken_live hlot
      rw [rebuildNotified_withdrawTaken_quiet hquiet (by rw [hq]; rfl), hq]
      exact ⟨rfl, rfl⟩
    · have hq := withdrawTaken_same hlot
      rw [rebuildNotified_withdrawTaken_quiet hquiet (by rw [hq]; rfl), hq]
      exact ⟨rfl, rfl⟩

/-! ### DESK writes -/

/-- R77: the entry of a desk as a DESK write of `n` beats leaves it. -/
def deskAfter (w : PostedWrite) (n : Nat) (p : Part) (desk : Nat) : DeskEntry :=
  let bytes := offsetsFrom w.address.toNat w.bytes
  let value := candidate bytes (8 * (desk - w.record)) 2 (p.desk desk).buyer
  if w.record ≤ desk ∧ desk < w.record + n ∧ covers bytes (8 * (desk - w.record)) 2 = true then
    { p.desk desk with buyer := if value ≤ 2047 then value else 0 }
  else p.desk desk

/-- R77: the desks past the beats taken so far are as they were. -/
theorem deskAfter_next (w : PostedWrite) (n : Nat) (p : Part) : deskAfter w n p (w.record + n) = p.desk (w.record + n) :=
  if_neg fun h => absurd h.2.1 (Nat.lt_irrefl _)

theorem deskAfter_succ_other (w : PostedWrite) (n : Nat) (p : Part) {desk : Nat} (h : desk ≠ w.record + n) :
    deskAfter w (n + 1) p desk = deskAfter w n p desk := by
  have hiff : desk < w.record + (n + 1) ↔ desk < w.record + n := by omega
  simp only [deskAfter, hiff]

theorem takeDeskEntry_desk_other (w : PostedWrite) (p : Part) (k : Nat) {desk : Nat} (h : desk ≠ w.record + k) :
    (takeDeskEntry w p k).desk desk = p.desk desk := by
  unfold takeDeskEntry
  dsimp only
  split
  · exact desk_setDesk_other _ _ _ _ h
  · rfl

theorem takeDeskEntry_desk_same (w : PostedWrite) (p q : Part) (k : Nat)
    (h : q.desk (w.record + k) = p.desk (w.record + k)) :
    (takeDeskEntry w q k).desk (w.record + k) = deskAfter w (k + 1) p (w.record + k) := by
  have hbeat : w.record + k - w.record = k := Nat.add_sub_cancel_left ..
  have hrange : w.record ≤ w.record + k ∧ w.record + k < w.record + (k + 1) := by omega
  unfold takeDeskEntry deskAfter
  dsimp only
  rw [hbeat]
  split
  · next hcovers =>
    rw [if_pos ⟨hrange.1, hrange.2, hcovers⟩, desk_setDesk_same, h]
    rfl
  · next hcovers => rw [if_neg fun hin => hcovers hin.2.2, h]

theorem takeDeskEntry_eq (w : PostedWrite) (p : Part) (k : Nat) :
    takeDeskEntry w p k = { p with press := { p.press with desks := (takeDeskEntry w p k).press.desks } } := by
  unfold takeDeskEntry
  dsimp only
  split <;> rfl

/-- R77: the desks of a DESK write taken beat by beat. -/
theorem takeDeskEntries_law (w : PostedWrite) (p : Part) (n : Nat) :
    let q := (List.range n).foldl (takeDeskEntry w) p
    q = { p with press := { p.press with desks := q.press.desks } } ∧ ∀ desk, q.desk desk = deskAfter w n p desk := by
  induction n with
  | zero => exact ⟨rfl, fun desk => (if_neg fun h => by omega).symm⟩
  | succ n ih =>
    dsimp only at ih ⊢
    rw [List.range_succ, List.foldl_append, List.foldl_cons, List.foldl_nil]
    generalize (List.range n).foldl (takeDeskEntry w) p = q at ih ⊢
    obtain ⟨hframe, hdesks⟩ := ih
    refine ⟨?_, fun desk => ?_⟩
    · rw [takeDeskEntry_eq w q n, hframe]
    · by_cases hdesk : desk = w.record + n
      · subst hdesk
        exact takeDeskEntry_desk_same w p q n ((hdesks _).trans (deskAfter_next w n p))
      · rw [takeDeskEntry_desk_other w q n hdesk, hdesks, deskAfter_succ_other w n p hdesk]

/-- Settles O14: the head forwarded, and the desks of its beats. -/
theorem deskWriteSetsBuyers : Obligations.DeskWriteSetsBuyers := by
  intro s w hquiet hhead hpass hkind
  obtain ⟨hframe, hdesks⟩ := takeDeskEntries_law w (headForwarded s.part w none) w.beats.length
  have hrow : isDesk s.part w = true := by simp [isDesk, PostedWrite.into, hpass, hkind]
  have htaken : takeWrite isDesk takeDesk s.part =
      (List.range w.beats.length).foldl (takeDeskEntry w) (headForwarded s.part w none) := by
    rw [takeWrite_of _ _ _ w hhead hrow, takeDesk, forward_popWrite]
    refine settle_of_slotsSame hquiet (.of_blocks ?_ ?_ ?_) ?_ <;> rw [hframe] <;> rfl
  refine ⟨_, actOn_of htaken, ?_⟩
  dsimp only
  generalize (List.range w.beats.length).foldl (takeDeskEntry w) (headForwarded s.part w none) = q at *
  refine ⟨?_, ?_, hdesks⟩
  · rw [hframe]
    rfl
  · rw [hframe]
    rfl

/-! ### BUYER writes -/

/-- R106: a BUYER write's host fields leave the invoices. -/
theorem takeBuyerFields_slotsSame {p : Part} (hsorted : tableSorted p.account.buyers) (w : PostedWrite) :
    SlotsSame p (takeBuyerFields w p) := by
  unfold takeBuyerFields
  split
  · exact .of_blocks rfl rfl rfl
  · exact ⟨rfl, fun _ => ⟨rfl, rfl⟩, openInvoiceCount_setBuyer_same p _ _ hsorted rfl⟩

theorem takeBuyerFields_eq (w : PostedWrite) (p : Part) :
    takeBuyerFields w p = { p with account := { p.account with buyers := (takeBuyerFields w p).account.buyers } } := by
  unfold takeBuyerFields
  split <;> rfl

theorem takeBuyerFields_other (w : PostedWrite) (p : Part) {k : Nat} (h : k ≠ w.record) :
    (takeBuyerFields w p).buyer k = p.buyer k := by
  unfold takeBuyerFields
  split
  · rfl
  · exact buyer_setBuyer_other _ _ _ _ h

theorem takeBuyerFields_zero {w : PostedWrite} (p : Part) (h : w.record = 0) : takeBuyerFields w p = p := if_pos h

theorem takeBuyerFields_taken {w : PostedWrite} (p : Part) (h : w.record ≠ 0) :
    BuyerTaken (w.inBlock 64) (p.buyer w.record) ((takeBuyerFields w p).buyer w.record) := by
  rw [takeBuyerFields, if_neg h, buyer_setBuyer_same]
  exact BuyerEntry.written_taken _ _

/-- Settles O15: a write over owned bytes is dropped; the others are forwarded, their host fields taken. -/
theorem buyerWriteSetsHostFields : Obligations.BuyerWriteSetsHostFields := by
  intro s w htables hquiet hhead hpass hkind
  have hrow : isBuyer s.part w = true := by simp [isBuyer, PostedWrite.into, hpass, hkind]
  have htaken := takeWrite_of isBuyer takeBuyer s.part w hhead hrow
  cases howned : coversBuyerOwned (w.inBlock 64) with
  | true =>
    have htake : takeBuyer w (popWrite s.part) = (popWrite s.part).report (errorOfWrite w .owned w.cls.window) := if_pos howned
    rw [htake, settle_report_popWrite hquiet] at htaken
    exact ⟨_, actOn_of htaken, fun _ => ⟨Part.report_eq (popWrite s.part) _, Part.report_reported (popWrite s.part) _⟩, nofun⟩
  | false =>
    have htake : takeBuyer w (popWrite s.part) = takeBuyerFields w (headForwarded s.part w none) := by
      rw [← forward_popWrite]
      exact if_neg (by rw [show coversBuyerOwned (w.inBlock buyerRecordSize) = false from howned]; exact Bool.false_ne_true)
    obtain ⟨-, -, hsorted, -⟩ := htables
    have hslots := takeBuyerFields_slotsSame (p := headForwarded s.part w none) hsorted w
    have hframe := takeBuyerFields_eq w (headForwarded s.part w none)
    have hends : settle s.part (takeBuyerFields w (headForwarded s.part w none)) =
        takeBuyerFields w (headForwarded s.part w none) :=
      settle_of_slotsSame hquiet hslots (by rw [hframe]; rfl)
    rw [htake, hends] at htaken
    refine ⟨_, actOn_of htaken, nofun, fun _ => ?_⟩
    dsimp only
    refine ⟨?_, ?_, fun k hk => takeBuyerFields_other w _ hk, fun hzero => ?_, fun hrecord => takeBuyerFields_taken _ hrecord⟩
    · generalize takeBuyerFields w (headForwarded s.part w none) = q at hframe
      rw [hframe]
      rfl
    · exact congrArg Part.account hframe
    · rw [takeBuyerFields_zero _ hzero]
      rfl

end Sys2Proof.Machine
end

section
/-! PROOFS. The checks of a press, the judgement of a claim, and GATE passes. -/

namespace Sys2Proof.Machine

open Sys2Proof.Safety

/-! ### The checks of a press (R80 to R85) -/

/-- R80: the Press Unit changed by a duplicate alone. -/
theorem settle_countDuplicate {p : Part} (hquiet : QuietPart p) (desk : Nat) :
    settle p (countDuplicate (pressTaken p) desk) = countDuplicate (pressTaken p) desk :=
  settle_of_slotsSame hquiet (.of_blocks rfl rfl rfl) rfl

theorem judgePress_duplicate {p : Part} {c : PressIn} (hbuyer : (p.desk c.desk).buyer ≠ 0)
    (hsequence : (p.desk c.desk).lastSequence = some c.sequence) :
    judgePress (pressTaken p) c = countDuplicate (pressTaken p) c.desk := by
  simp [judgePress, hbuyer, hsequence]

theorem judgePress_blocked {p : Part} {c : PressIn} (hbuyer : (p.desk c.desk).buyer ≠ 0)
    (hsequence : (p.desk c.desk).lastSequence ≠ some c.sequence) (hmay : buyerMayBuy p (p.desk c.desk).buyer c.lane = false) :
    judgePress (pressTaken p) c =
      refusePress (pressTaken p) c .buyerBlocked 0 (p.buyer (p.desk c.desk).buyer).available := by
  simp [judgePress, hbuyer, hsequence, buyerMayBuy_pressTaken, hmay]

/-- R82: the refusal of a press into a lane that no press may enter. -/
def stateRefusal : LaneState → Option PressReason
  | .primed | .paused => some .notRunning
  | .idle | .closing => some .noLot
  | .held => some .held
  | .running | .struck => none

theorem pressByState_refused {p : Part} {c : PressIn} {reason : PressReason} (buyer : Nat)
    (h : stateRefusal (p.lane c.lane).state = some reason) :
    pressByState p c buyer = refusePress p c reason 0 (p.buyer buyer).available := by
  unfold pressByState
  cases hs : (p.lane c.lane).state with
  | running | struck =>
    rw [hs] at h
    cases h
  | primed | paused | idle | closing | held =>
    rw [hs] at h
    cases h
    rfl

theorem freeCount_pressTaken (p : Part) : freeCount (pressTaken p) = freeCount p := freeCount_congr rfl rfl rfl

/-- R83 to R85: a RUNNING lane's press whose claim is refused. -/
theorem pressByState_claimRefused {p : Part} {c : PressIn} {buyer lot units : Nat} {h : HostFields} {o : Owned} {reason : PressReason}
    (hrun : (p.lane c.lane).state = .running) (hlive : liveLot p c.lane = some (lot, h, o))
    (hclaim : judgeClaim (claimRequest p c.lane h o c.units) (p.buyer buyer) (freeCount p) = .refused reason units) :
    pressByState (pressTaken p) c buyer = refusePress (pressTaken p) c reason units (p.buyer buyer).available := by
  have hrequest : claimRequest (pressTaken p) c.lane h o c.units = claimRequest p c.lane h o c.units := rfl
  simp only [pressByState, pressTaken_lane, hrun, winnerPath, liveLot_pressTaken, hlive, hrequest, pressTaken_buyer,
    freeCount_pressTaken, hclaim]

/-- Settles O17: the checks of `judgePress` in their order, then the lane's state. -/
theorem pressIsStoppedByItsFirstFailingCheck : Obligations.PressIsStoppedByItsFirstFailingCheck := by
  intro s w c buyer hquiet htake hdesk hbuyer
  subst hdesk
  have hrefusal {reason : PressReason} {units : Nat}
      (h : judgePress (pressTaken s.part) c =
        refusePress (pressTaken s.part) c reason units (s.part.buyer (s.part.desk c.desk).buyer).available) :
      PressRefused s.part (settle s.part (judgePress (pressTaken s.part) c)) c reason units
        ((s.part.buyer (s.part.desk c.desk).buyer).limit - (s.part.buyer (s.part.desk c.desk).buyer).exposure) := by
    rw [h, settle_refusePress hquiet]
    exact refusePress_refused ..
  refine ⟨_, exec_press_taken htake, ?_⟩
  dsimp only
  refine ⟨fun hsequence => ?_, fun hsequence hmay => hrefusal (judgePress_blocked hbuyer hsequence hmay), fun hpass => ?_⟩
  · rw [judgePress_duplicate hbuyer hsequence, settle_countDuplicate hquiet]
    exact ⟨rfl, rfl, desk_setDesk_same .., fun k hk => desk_setDesk_other _ _ _ _ hk⟩
  · have hjudged := judgePress_passes hpass
    have hstate {reason : PressReason} (h : stateRefusal (s.part.lane c.lane).state = some reason) :=
      hrefusal (hjudged.trans (pressByState_refused (p := pressTaken s.part) _ h))
    refine ⟨fun h => hstate ?_, fun h => hstate ?_, fun h => hstate ?_, fun hrun lot h o reason units hlive hclaim =>
      hrefusal (hjudged.trans (pressByState_claimRefused hrun hlive hclaim))⟩
    · rcases h with h | h <;> rw [h] <;> rfl
    · rcases h with h | h <;> rw [h] <;> rfl
    · rw [h]
      rfl

/-! ### The judgement of a claim -/

/-- R84: the credit cut takes units away at most. -/
theorem ClaimRequest.cut_le (c : ClaimRequest) (available : Nat) : c.cut available ≤ c.clipped := by
  unfold ClaimRequest.cut
  split
  · next hshort => exact Nat.le_of_lt (Nat.div_lt_of_lt_mul hshort)
  · exact Nat.le_refl _

/-- R84: the units after the credit cut are within the available credit. -/
theorem ClaimRequest.amount_le (c : ClaimRequest) (available : Nat) : c.unitAmount * c.cut available ≤ available := by
  unfold ClaimRequest.cut
  split
  · exact Nat.mul_div_le _ _
  · omega

theorem ClaimRequest.clipped_le_remaining (c : ClaimRequest) : c.clipped ≤ c.remaining := Nat.min_le_right _ _

theorem ClaimRequest.clipped_le_units (c : ClaimRequest) (h : c.units ≠ 0) : c.clipped ≤ c.units := by
  rw [ClaimRequest.clipped, if_neg h]
  exact Nat.min_le_left _ _

/-- R84, R85: a granted claim takes the units after the credit cut, at least the minimum or all that remain. -/
theorem judgeClaim_granted {c : ClaimRequest} {b : BuyerEntry} {free units amount : Nat} (h : judgeClaim c b free = .granted units amount) :
    units = c.cut b.available ∧ amount = c.unitAmount * units ∧ min c.minimum c.remaining ≤ units := by
  unfold judgeClaim at h
  dsimp only at h
  split at h
  · cases h
  split at h
  · cases h
  split at h
  · cases h
  · next hmin _ =>
    cases h
    exact ⟨rfl, rfl, Nat.not_lt.mp hmin⟩

/-- R84: what is granted at a price above 0 is paid from credit that is there. -/
theorem granted_within_limit {c : ClaimRequest} {b : BuyerEntry} {units : Nat} (hprice : 0 < c.price) (hpieces : 0 < c.pieces)
    (hunits : 0 < units) (hamount : c.unitAmount * units ≤ b.available) : b.exposure + c.unitAmount * units ≤ b.limit := by
  have hpositive : 0 < c.unitAmount * units := Nat.mul_pos (Nat.mul_pos hprice hpieces) hunits
  unfold BuyerEntry.available at hamount
  omega

/-- Settles O18: the bounds of a granted claim, and the checks of `judgeClaim` in their order. -/
theorem claimsAreJudgedInOrder : Obligations.ClaimsAreJudgedInOrder := by
  intro c b free
  refine ⟨fun hminimum hremaining hprice hpieces units amount hgranted => ?_, fun hminimum => if_pos hminimum, fun hminimum =>
    ⟨fun hcredit => ?_, fun hcredit hinvoice hfree => ?_, fun hcredit hslot => ?_⟩⟩
  · obtain ⟨hunits, rfl, hleast⟩ := judgeClaim_granted hgranted
    have hpositive : 0 < units := Nat.lt_of_lt_of_le (Nat.lt_min.mpr ⟨hminimum, hremaining⟩) hleast
    have hclipped : units ≤ c.clipped := hunits ▸ c.cut_le _
    refine ⟨hpositive, hclipped.trans c.clipped_le_remaining, fun hasked => hclipped.trans (c.clipped_le_units hasked), rfl, ?_⟩
    exact granted_within_limit hprice hpieces hpositive (hunits ▸ c.amount_le _)
  · exact (if_neg hminimum).trans (if_pos hcredit)
  · exact (if_neg hminimum).trans ((if_neg (Nat.not_lt.mpr hcredit)).trans (if_pos ⟨hinvoice, hfree⟩))
  · have hroom : ¬ (b.invoice = 0 ∧ free = 0) := by
      rintro ⟨hinvoice, hfree⟩
      rcases hslot with h | h
      · exact h hinvoice
      · omega
    exact (if_neg hminimum).trans ((if_neg (Nat.not_lt.mpr hcredit)).trans (if_neg hroom))

/-! ### GATE passes: a trolley from the Late List (R25) -/

theorem stageFromLate_tracks (p : Part) (i : Lane) (y : Trolley) :
    (stageFromLate p i y).tracks = (p.setTrack i { p.track i with
      late := (p.track i).late.filter fun a => a.tag ≠ y.tag, staging := (p.track i).staging ++ [y] }).tracks := by
  simp [stageFromLate]

theorem stageFromLate_track_same (p : Part) (i : Lane) (y : Trolley) :
    (stageFromLate p i y).track i = { p.track i with
      late := (p.track i).late.filter fun a => a.tag ≠ y.tag, staging := (p.track i).staging ++ [y] } := by
  rw [Part.track, stageFromLate_tracks]
  exact Part.setTrack_track_same _ _ _

theorem stageFromLate_track_other (p : Part) (i j : Lane) (y : Trolley) (h : j ≠ i) :
    (stageFromLate p i y).track j = p.track j := by
  rw [Part.track, stageFromLate_tracks]
  exact Part.setTrack_track_other _ _ _ _ h

theorem stageFromLate_lotsSet (p : Part) (i : Lane) (y : Trolley) : LotsSet p (stageFromLate p i y) y.lots .staged :=
  (setLotStates_set (p.setTrack i _) y.lots .staged).1

theorem stageFromLate_catalogue (p : Part) (i : Lane) (y : Trolley) :
    (stageFromLate p i y).catalogue = { p.catalogue with known := (stageFromLate p i y).catalogue.known } :=
  congrArg Part.catalogue (setLotStates_set (p.setTrack i _) y.lots .staged).2

theorem stageFromLate_told (p : Part) (i : Lane) (y : Trolley) : Told p (stageFromLate p i y) i := notify_told i (by simp)

theorem stageFromLate_frame (p : Part) (i : Lane) (y : Trolley) :
    let q := stageFromLate p i y
    q = { p with tracks := q.tracks, catalogue := q.catalogue, displays := q.displays } := by
  apply Part.ext_blocks <;> simp [stageFromLate]

/-! ### GATE passes: a trolley from the lookahead (R26) -/

/-- R26, R28: the track as a trolley from the lookahead leaves it. -/
def trackAhead (p : Part) (i : Lane) (passed : List Trolley) (y : Trolley) : TrackLane :=
  { p.track i with
    late := passed.foldl (fun late a => insertLate p a late) (p.track i).late, staging := (p.track i).staging ++ [y] }

/-- R26: the part with the track and the Expected Queue of a trolley from the lookahead. -/
def movedAhead (p : Part) (i : Lane) (passed : List Trolley) (y : Trolley) : Part :=
  (p.setTrack i (trackAhead p i passed y)).setExpected i ((p.expected i).drop (lotCount passed + y.lots.length))

/-- R26: with the trolleys passed over LATE. -/
def passedLate (p : Part) (i : Lane) (passed : List Trolley) (y : Trolley) : Part :=
  setLotStates (movedAhead p i passed y) (passed.flatMap fun a => a.lots) .late

theorem stageFromLookahead_eq (p : Part) (i : Lane) (passed : List Trolley) (y : Trolley) :
    stageFromLookahead p i passed y = (setLotStates (passedLate p i passed y) y.lots .staged).notify i := rfl

theorem stageFromLookahead_tracks (p : Part) (i : Lane) (passed : List Trolley) (y : Trolley) :
    (stageFromLookahead p i passed y).tracks = (p.setTrack i (trackAhead p i passed y)).tracks := by
  simp [stageFromLookahead_eq, passedLate, movedAhead]

theorem stageFromLookahead_track_same (p : Part) (i : Lane) (passed : List Trolley) (y : Trolley) :
    (stageFromLookahead p i passed y).track i = trackAhead p i passed y := by
  rw [Part.track, stageFromLookahead_tracks]
  exact Part.setTrack_track_same _ _ _

theorem stageFromLookahead_track_other (p : Part) (i j : Lane) (passed : List Trolley) (y : Trolley) (h : j ≠ i) :
    (stageFromLookahead p i passed y).track j = p.track j := by
  rw [Part.track, stageFromLookahead_tracks]
  exact Part.setTrack_track_other _ _ _ _ h

theorem stageFromLookahead_catalogue (p : Part) (i : Lane) (passed : List Trolley) (y : Trolley) :
    (stageFromLookahead p i passed y).catalogue = { p.catalogue with
      known := (stageFromLookahead p i passed y).catalogue.known,
      expected := p.catalogue.expected.set i ((p.expected i).drop (lotCount passed + y.lots.length)) } := by
  have hstaged := congrArg Part.catalogue (setLotStates_set (passedLate p i passed y) y.lots .staged).2
  have hlate := congrArg Part.catalogue (setLotStates_set (movedAhead p i passed y) (passed.flatMap fun a => a.lots) .late).2
  exact hstaged.trans (congrArg (fun u => { u with known := (stageFromLookahead p i passed y).catalogue.known }) hlate)

theorem stageFromLookahead_expected_same (p : Part) (i : Lane) (passed : List Trolley) (y : Trolley) :
    (stageFromLookahead p i passed y).expected i = (p.expected i).drop (lotCount passed + y.lots.length) := by
  rw [Part.expected, stageFromLookahead_catalogue]
  exact Vector.getElem_set_self _

theorem stageFromLookahead_expected_other (p : Part) (i j : Lane) (passed : List Trolley) (y : Trolley) (h : j ≠ i) :
    (stageFromLookahead p i passed y).expected j = p.expected j := by
  rw [Part.expected, stageFromLookahead_catalogue]
  exact Vector.getElem_set_ne i.isLt j.isLt fun heq => h (Fin.ext heq.symm)

theorem stageFromLookahead_lotsSet (p : Part) (i : Lane) (passed : List Trolley) (y : Trolley) :
    LotsSet p (passedLate p i passed y) (passed.flatMap fun a => a.lots) .late ∧
      LotsSet (passedLate p i passed y) (stageFromLookahead p i passed y) y.lots .staged :=
  ⟨(setLotStates_set (movedAhead p i passed y) _ .late).1, (setLotStates_set (passedLate p i passed y) y.lots .staged).1⟩

theorem stageFromLookahead_told (p : Part) (i : Lane) (passed : List Trolley) (y : Trolley) :
    Told p (stageFromLookahead p i passed y) i := notify_told i (by simp)

theorem stageFromLookahead_frame (p : Part) (i : Lane) (passed : List Trolley) (y : Trolley) :
    let q := stageFromLookahead p i passed y
    q = { p with tracks := q.tracks, catalogue := q.catalogue, displays := q.displays } := by
  apply Part.ext_blocks <;> simp [stageFromLookahead]

/-- R15: the Expected Queue without the lots of its first trolleys. -/
theorem expected_drop {p : Part} {queue : List Nat} {passed rest : List Trolley} {y : Trolley}
    (h : trolleysOf p queue = passed ++ y :: rest) :
    queue.drop (lotCount passed + y.lots.length) = rest.flatMap fun a => a.lots := by
  have hlots := trolleysOf_lots p queue
  rw [h, List.flatMap_append, List.flatMap_cons, ← List.append_assoc] at hlots
  rw [← hlots]
  exact List.drop_left' (by rw [List.length_append, lotCount_length])

/-! ### GATE passes: which of its cases applies -/

section

variable {p : Part} {i : Lane} {pass : Pass} {y : Trolley} {passed rest : List Trolley}

theorem gatePass_late (hlate : (p.track i).late.find? (fun a => a.tag == pass.tag) = some y)
    (hroom : (p.track i).staging.length < 3) :
    gatePass p i pass = { part := stageFromLate p i y, arrived := false, faulted := false } := by
  have hstaging : ¬ Config.stagingTrolleys ≤ (p.track i).staging.length := Nat.not_le.mpr hroom
  simp only [gatePass, hlate, if_neg hstaging]

theorem gatePass_lateStagingFull (hlate : ∃ a ∈ (p.track i).late, a.tag = pass.tag) (hfull : 3 ≤ (p.track i).staging.length) :
    gatePass p i pass = faultPass p i pass (firstTag (p.track i).staging) .stagingFull := by
  obtain ⟨y, hy⟩ : ∃ y, (p.track i).late.find? (fun a => a.tag == pass.tag) = some y := by
    obtain ⟨a, hmem, htag⟩ := hlate
    exact Option.isSome_iff_exists.mp (List.find?_isSome.mpr ⟨a, hmem, beq_iff_eq.mpr htag⟩)
  have hstaging : Config.stagingTrolleys ≤ (p.track i).staging.length := hfull
  simp only [gatePass, hy, if_pos hstaging, headTag_eq]

theorem gatePass_notLate (hlate : ∀ a ∈ (p.track i).late, a.tag ≠ pass.tag) : gatePass p i pass = gateLookahead p i pass := by
  have hnone : (p.track i).late.find? (fun a => a.tag == pass.tag) = none :=
    List.find?_eq_none.mpr fun a ha => by simpa using hlate a ha
  simp only [gatePass, hnone]

/-- R27: no trolley of the lookahead carries the tag. -/
theorem gateLookahead_stray (hstray : ∀ a ∈ (trolleysOf p (p.expected i)).take 4, a.tag ≠ pass.tag) :
    gateLookahead p i pass =
      faultPass p i pass (if (p.track i).late = [] then firstTag (trolleysOf p (p.expected i)) else firstTag (p.track i).late)
        .stray := by
  have hdropped : (lookaheadOf p i).dropWhile (fun y => y.tag ≠ pass.tag) = [] :=
    List.dropWhile_eq_nil_iff.mpr fun a ha => by simpa using hstray a ha
  have hexpected : strayExpected p i =
      if (p.track i).late = [] then firstTag (trolleysOf p (p.expected i)) else firstTag (p.track i).late := by
    simp only [strayExpected, List.isEmpty_iff, headTag_eq]
  simp only [gateLookahead, hdropped, hexpected]

/-- R26: the trolleys that the lookahead passes over. -/
theorem lookahead_split (hqueue : trolleysOf p (p.expected i) = passed ++ y :: rest) (hlength : passed.length ≤ 3)
    (htag : y.tag = pass.tag) (hpassed : ∀ a ∈ passed, a.tag ≠ pass.tag) :
    (lookaheadOf p i).takeWhile (fun a => a.tag ≠ pass.tag) = passed ∧
      ∃ after, (lookaheadOf p i).dropWhile (fun a => a.tag ≠ pass.tag) = y :: after := by
  obtain ⟨after, hlook⟩ : ∃ after, lookaheadOf p i = passed ++ y :: after := by
    obtain ⟨n, hn⟩ : ∃ n, 4 - passed.length = n + 1 := ⟨3 - passed.length, by omega⟩
    refine ⟨rest.take n, ?_⟩
    unfold lookaheadOf
    rw [hqueue, show Config.lookahead = 4 from rfl, List.take_append, hn, List.take_succ_cons,
      List.take_of_length_le (by omega)]
  have hskip : ∀ a ∈ passed, decide (a.tag ≠ pass.tag) = true := fun a ha => decide_eq_true (hpassed a ha)
  have hstop : ¬ decide (y.tag ≠ pass.tag) = true := by simp [htag]
  rw [hlook]
  refine ⟨?_, after, ?_⟩
  · rw [List.takeWhile_append_of_pos hskip, List.takeWhile_cons, if_neg hstop, List.append_nil]
  · rw [List.dropWhile_append_of_pos hskip, List.dropWhile_cons, if_neg hstop]

theorem gateLookahead_lateFull (hqueue : trolleysOf p (p.expected i) = passed ++ y :: rest) (hlength : passed.length ≤ 3)
    (htag : y.tag = pass.tag) (hpassed : ∀ a ∈ passed, a.tag ≠ pass.tag)
    (hfull : 16 < lotCount (p.track i).late + lotCount passed) :
    gateLookahead p i pass = faultPass p i pass (firstTag (trolleysOf p (p.expected i))) .lateFull := by
  obtain ⟨htake, after, hdrop⟩ := lookahead_split hqueue hlength htag hpassed
  have hlots : Config.lateLots < lotCount (p.track i).late + lotCount passed := hfull
  simp only [gateLookahead, htake, hdrop, if_pos hlots, headTag_eq]

theorem gateLookahead_stagingFull (hqueue : trolleysOf p (p.expected i) = passed ++ y :: rest) (hlength : passed.length ≤ 3)
    (htag : y.tag = pass.tag) (hpassed : ∀ a ∈ passed, a.tag ≠ pass.tag)
    (hroom : lotCount (p.track i).late + lotCount passed ≤ 16) (hfull : 3 ≤ (p.track i).staging.length) :
    gateLookahead p i pass = faultPass p i pass (firstTag (p.track i).staging) .stagingFull := by
  obtain ⟨htake, after, hdrop⟩ := lookahead_split hqueue hlength htag hpassed
  have hlots : ¬ Config.lateLots < lotCount (p.track i).late + lotCount passed := Nat.not_lt.mpr hroom
  have hstaging : Config.stagingTrolleys ≤ (p.track i).staging.length := hfull
  simp only [gateLookahead, htake, hdrop, if_neg hlots, if_pos hstaging, headTag_eq]

theorem gateLookahead_stages (hqueue : trolleysOf p (p.expected i) = passed ++ y :: rest) (hlength : passed.length ≤ 3)
    (htag : y.tag = pass.tag) (hpassed : ∀ a ∈ passed, a.tag ≠ pass.tag)
    (hlate : lotCount (p.track i).late + lotCount passed ≤ 16) (hroom : (p.track i).staging.length < 3) :
    gateLookahead p i pass = { part := stageFromLookahead p i passed y, arrived := false, faulted := false } := by
  obtain ⟨htake, after, hdrop⟩ := lookahead_split hqueue hlength htag hpassed
  have hlots : ¬ Config.lateLots < lotCount (p.track i).late + lotCount passed := Nat.not_lt.mpr hlate
  have hstaging : ¬ Config.stagingTrolleys ≤ (p.track i).staging.length := Nat.not_le.mpr hroom
  simp only [gateLookahead, htake, hdrop, if_neg hlots, if_neg hstaging]

end

/-- Settles O22: a GATE pass is carried out by `gatePass`, whose outcomes are the statement's clauses. -/
theorem gatePassStagesItsTrolleyOrFaults : Obligations.GatePassStagesItsTrolleyOrFaults := by
  intro s w i pass hruns hst
  have hcarry : carryOut (popWrite s.part) i pass = gatePass (popWrite s.part) i pass := by simp only [carryOut, hst]
  have hcmd : passCommand pass.station = .gatePass := by rw [hst]; rfl
  have hqueue : trolleysOf (popWrite s.part) ((popWrite s.part).expected i) = trolleysOf s.part (s.part.expected i) :=
    trolleysOf_congr (p := s.part) (q := popWrite s.part) rfl _
  obtain ⟨t, hexec, hpart⟩ := exec_pass_runs hruns
  rw [hcmd] at hexec
  rw [hcarry] at hpart
  refine ⟨fun hroom => ⟨fun y hlate => ?_, fun passed y rest hlate hsplit hlength htag hpassed hlots => ?_⟩, t, hexec,
    fun hlate hfull => ?_, fun hlate => ⟨fun hstray => ?_, fun passed y rest hsplit hlength htag hpassed =>
      ⟨fun hfull => ?_, fun hlots hfull => ?_⟩⟩⟩
  · have htag : y.tag = pass.tag := by simpa using List.find?_some hlate
    rw [gatePass_late (p := popWrite s.part) hlate hroom] at hpart
    have htrack := stageFromLate_track_same (popWrite s.part) i y
    rw [htag] at htrack
    exact ⟨t, stageFromLate (popWrite s.part) i y, hexec, hpart, stageFromLate_frame (popWrite s.part) i y, htrack,
      fun j hj => stageFromLate_track_other _ _ _ _ hj, stageFromLate_lotsSet (popWrite s.part) i y,
      stageFromLate_catalogue (popWrite s.part) i y, stageFromLate_told (popWrite s.part) i y⟩
  · rw [gatePass_notLate (p := popWrite s.part) hlate,
      gateLookahead_stages (hqueue.trans hsplit) hlength htag hpassed hlots hroom] at hpart
    obtain ⟨hperm, hrising⟩ := insertLates (popWrite s.part) passed (s.part.track i).late
    have htrack := stageFromLookahead_track_same (popWrite s.part) i passed y
    have hcatalogue := stageFromLookahead_catalogue (popWrite s.part) i passed y
    have hexpected := (stageFromLookahead_expected_same (popWrite s.part) i passed y).trans (expected_drop hsplit)
    refine ⟨t, stageFromLookahead (popWrite s.part) i passed y, hexec, hpart, stageFromLookahead_frame (popWrite s.part) i passed y,
      ?_, ?_, ?_, fun j hj => stageFromLookahead_track_other _ _ _ _ _ hj, hexpected,
      fun j hj => stageFromLookahead_expected_other _ _ _ _ _ hj, ⟨_, stageFromLookahead_lotsSet (popWrite s.part) i passed y⟩, ?_,
      stageFromLookahead_told (popWrite s.part) i passed y⟩
    · rw [htrack]
      exact hperm
    · rw [htrack]
      exact hrising
    · rw [htrack]
      rfl
    · rw [hcatalogue]
      rfl
  · rw [gatePass_lateStagingFull (p := popWrite s.part) hlate hfull] at hpart
    exact ⟨_, hpart, faultPass_faulted ..⟩
  · rw [gatePass_notLate (p := popWrite s.part) hlate,
      gateLookahead_stray (p := popWrite s.part) (by rw [hqueue]; exact hstray), hqueue] at hpart
    exact ⟨_, hpart, faultPass_faulted ..⟩
  · rw [gatePass_notLate (p := popWrite s.part) hlate,
      gateLookahead_lateFull (hqueue.trans hsplit) hlength htag hpassed hfull, hqueue] at hpart
    exact ⟨_, hpart, faultPass_faulted ..⟩
  · rw [gatePass_notLate (p := popWrite s.part) hlate,
      gateLookahead_stagingFull (hqueue.trans hsplit) hlength htag hpassed hlots hfull] at hpart
    exact ⟨_, hpart, faultPass_faulted ..⟩

end Sys2Proof.Machine
end

section
/-! PROOFS. The lane commands and the lane parameters. -/

namespace Sys2Proof.Machine

open Sys2Proof.Safety

/-! ### The taking of a lane command -/

/-- R66: the taking of a lane command, as one event. -/
theorem exec_laneCommand_taken {s : State} {w : PostedWrite} {i : Lane} {c : LaneCommand} {cmd : Instr}
    (htaken : LaneCommandTaken s.part w i c) (hcmd : exec cmd s = actOn s (takeAnchor (isLaneCommand c))) :
    ∃ t, exec cmd s = .next t ∧ t.part = settle s.part (takeLaneCommand (anchorOnly s.part w) i c) := by
  refine ⟨_, hcmd, ?_⟩
  dsimp only
  rw [takeAnchor_laneCommand s.part w i c htaken, anchorBefore_only _ _ (bytes_of_setsOff htaken.2.1)]

theorem anchorOnly_laneSet (p : Part) (w : PostedWrite) (i : Lane) : Safety.LaneSet p (anchorOnly p w) i (p.lane i) :=
  ⟨rfl, fun _ _ => rfl⟩

/-- R157: beside what every Anchor write does, only the lanes differ. -/
theorem lanesOnly_anchorOnly {p q : Part} {w : PostedWrite} (h : q = { anchorOnly p w with lanes := q.lanes }) : LanesOnly p q w := by
  rw [h]
  exact ⟨⟨rfl, rfl, rfl, rfl, rfl⟩, rfl⟩

theorem laneSet_setCommandResult {p q : Part} {i : Lane} {l : LaneUnit} (h : Safety.LaneSet p q i l) (r : WordResult) :
    Safety.LaneSet p (setCommandResult q i r) i { l with commandResult := r } := laneSet_modLane h _

theorem defersHolds_iff (l : LaneUnit) : l.defersHolds = true ↔ l.state = .struck ∨ l.state = .closing := by
  simp [LaneUnit.defersHolds]

/-- Settles O25: HOST added and the result set. -/
theorem holdAddsHost : Obligations.HoldAddsHost := by
  intro s w i htaken
  obtain ⟨t, hexec, hpart⟩ := exec_laneCommand_taken htaken (cmd := .hold) rfl
  have hset := laneSet_setCommandResult (laneSet_modLane (anchorOnly_laneSet s.part w i) fun l => l.addHold .host)
    (if (s.part.lane i).defersHolds = true then .pending else .done)
  simp only [defersHolds_iff] at hset
  have heq : takeLaneCommand (anchorOnly s.part w) i .hold =
      setCommandResult (modLane (anchorOnly s.part w) i fun l => l.addHold .host) i
        (if (s.part.lane i).state = .struck ∨ (s.part.lane i).state = .closing then .pending else .done) := by
    simp only [takeLaneCommand, holdLane, addHold, defersHolds_iff]
    rfl
  rw [heq] at hpart
  exact ⟨t, _, (s.part.lane i).addHold .host, hexec, hpart, lanesOnly_anchorOnly rfl, addHold_added _ _, hset⟩

/-! ### RUNNING entries -/

/-- R45, R49: a due expiry, as one event. -/
theorem exec_expiry_taken {s : State} {i : Lane} {kind : TimerKind} {act : Part → Lane → Part} {cmd : Instr}
    (hdue : (s.part.lane i).timer = .counting kind 0) (hcmd : exec cmd s = actOn s fun p => takeExpiry p i kind act) :
    ∃ t, exec cmd s = .next t ∧ t.part = settle s.part (act s.part i) := by
  have hcounted : (s.part.lane i).timer.due kind = true := by simp [Timer.due, hdue]
  exact ⟨_, hcmd, if_pos hcounted⟩

/-- R50: the RUNNING entry changes the lanes, the ring and the Attention Unit alone. -/
theorem enterRunning_eq (p : Part) (i : Lane) (ret : ReturnState) :
    enterRunning p i ret = { p with lanes := (enterRunning p i ret).lanes, ring := (enterRunning p i ret).ring,
                                    attention := (enterRunning p i ret).attention } := by
  apply Part.ext_blocks <;> simp

theorem startLane_primed {p : Part} {i : Lane} (h : (p.lane i).state = .primed) :
    startLane p i = setCommandResult (enterRunning p i .primed) i .done := if_pos h

theorem startLane_refused {p : Part} {i : Lane} (h : (p.lane i).state ≠ .primed) :
    startLane p i = setCommandResult p i .refusedState := if_neg h

/-- Settles O26: START, and the expiries that enter RUNNING. -/
theorem startAndExpiriesEnterRunning : Obligations.StartAndExpiriesEnterRunning := by
  refine ⟨fun s w i htaken hprimed => ?_, fun s i hdue => ?_, fun s i hdue => ?_⟩
  · obtain ⟨t, hexec, hpart⟩ := exec_laneCommand_taken htaken (cmd := .start) rfl
    rw [takeLaneCommand, startLane_primed (p := anchorOnly s.part w) hprimed] at hpart
    have henters := entersRunning_congr s.part (anchorOnly s.part w) _ i .primed rfl rfl rfl rfl (enterRunning_enters _ i .primed)
    have hframe := enterRunning_eq (anchorOnly s.part w) i .primed
    generalize enterRunning (anchorOnly s.part w) i .primed = r at hpart henters hframe
    refine ⟨t, _, _, hexec, hpart, henters, ?_, ?_, ?_⟩
    · rw [hframe]
      exact ⟨rfl, rfl, rfl, rfl, rfl⟩
    · rw [hframe]
      rfl
    · exact laneSet_setCommandResult (q := r) (l := r.lane i) ⟨rfl, fun _ _ => rfl⟩ .done
  · obtain ⟨t, hexec, hpart⟩ := exec_expiry_taken (act := preRollExpiry) hdue (cmd := .preRollExpiry i) rfl
    exact ⟨t, _, hexec, hpart, enterRunning_enters ..⟩
  · obtain ⟨t, hexec, hpart⟩ := exec_expiry_taken (act := restartPauseExpiry) hdue (cmd := .restartPauseExpiry i) rfl
    exact ⟨t, _, hexec, hpart, enterRunning_enters ..⟩

/-! ### The simple commands -/

theorem mayDisable_iff (p : Part) (i : Lane) :
    mayDisable p i = true ↔ (p.lane i).state = .idle ∧ p.expected i = [] ∧ (p.track i).late = [] ∧ (p.track i).staging = [] ∧
      (p.track i).display = none := by
  simp [mayDisable, and_assoc]

/-- Settles O27: each command sets the lane's own fields and its result. -/
theorem simpleLaneCommandsSetTheirResult : Obligations.SimpleLaneCommandsSetTheirResult := by
  intro s w i
  have hbefore := anchorOnly_laneSet s.part w i
  refine ⟨fun htaken hstate => ?_, fun htaken => ?_, fun htaken => ?_, fun htaken => ?_⟩
  · obtain ⟨t, hexec, hpart⟩ := exec_laneCommand_taken htaken (cmd := .start) rfl
    rw [takeLaneCommand, startLane_refused (p := anchorOnly s.part w) hstate] at hpart
    exact ⟨t, _, hexec, hpart, lanesOnly_anchorOnly rfl, laneSet_setCommandResult hbefore _⟩
  · obtain ⟨t, hexec, hpart⟩ := exec_laneCommand_taken htaken (cmd := .enable) rfl
    exact ⟨t, _, hexec, hpart, lanesOnly_anchorOnly rfl, laneSet_setCommandResult (laneSet_modLane hbefore _) _⟩
  · obtain ⟨t, hexec, hpart⟩ := exec_laneCommand_taken htaken (cmd := .disable) rfl
    have hmay : mayDisable (anchorOnly s.part w) i = true ↔ _ := mayDisable_iff (anchorOnly s.part w) i
    rw [takeLaneCommand, disableLane] at hpart
    split at hpart
    · next hbare =>
      exact ⟨t, _, hexec, hpart, lanesOnly_anchorOnly rfl,
        fun _ => laneSet_setCommandResult (laneSet_modLane hbefore fun l => { l with enabled := false }) _,
        fun hnot => absurd (hmay.mp hbare) hnot⟩
    · next hnot =>
      exact ⟨t, _, hexec, hpart, lanesOnly_anchorOnly rfl, fun hbare => absurd (hmay.mpr hbare) hnot,
        fun _ => laneSet_setCommandResult hbefore _⟩
  · obtain ⟨t, hexec, hpart⟩ := exec_laneCommand_taken htaken (cmd := .unknownLaneCommand) rfl
    exact ⟨t, _, hexec, hpart, lanesOnly_anchorOnly rfl, laneSet_setCommandResult hbefore _⟩

/-! ### RESUME -/

/-- R67: the part with the reasons that RESUME takes away gone. -/
def resumedPart (p : Part) (w : PostedWrite) (i : Lane) : Part := modLane (anchorOnly p w) i LaneUnit.resumed

theorem resumedPart_laneSet (p : Part) (w : PostedWrite) (i : Lane) : Safety.LaneSet p (resumedPart p w i) i (laneResumed (p.lane i)) := by
  rw [← resumed_eq]
  exact laneSet_modLane (anchorOnly_laneSet p w i) _

theorem resumedPart_track (p : Part) (w : PostedWrite) (i j : Lane) : (resumedPart p w i).track j = p.track j := rfl

/-- R36, R67: a track of the resumed part, with the rest of it as RESUME leaves it. -/
theorem resumedPart_setTrack (p : Part) (w : PostedWrite) (i : Lane) (t : TrackLane) :
    let q := (resumedPart p w i).setTrack i t
    AnchorTaken p q w ∧ Safety.LaneSet p q i (laneResumed (p.lane i)) ∧
      q = { p with floor := q.floor, window := { p.window with shadow := q.window.shadow }, store := q.store,
                   lanes := q.lanes, tracks := q.tracks } ∧
      (∀ j, j ≠ i → q.track j = p.track j) ∧ q.track i = t :=
  ⟨⟨rfl, rfl, rfl, rfl, rfl⟩, resumedPart_laneSet p w i, rfl, fun _ hj => Part.setTrack_track_other _ _ _ _ hj,
    Part.setTrack_track_same _ _ _⟩

/-- R36: a RESUME whose track runs leaves the track, and the lane leaves HELD if nothing holds it. -/
theorem resumeLane_running {p : Part} {w : PostedWrite} {i : Lane} (d : Disposition) (h : (p.track i).fault.stopped = false) :
    resumeLane (anchorOnly p w) i d = leaveHeldIfFree (resumedPart p w i) i := by
  have hrun : ¬ ((resumedPart p w i).track i).fault.stopped = true := by
    rw [resumedPart_track, h]
    exact Bool.false_ne_true
  have hdispose : disposeTrack (resumedPart p w i) i d = { part := resumedPart p w i, arrived := false, faulted := false } := by
    cases d <;> exact if_neg hrun
  unfold resumeLane
  dsimp only
  rw [show modLane (anchorOnly p w) i LaneUnit.resumed = resumedPart p w i from rfl, hdispose]
  rfl

theorem resumeLane_flush {p : Part} {w : PostedWrite} {i : Lane} (h : (p.track i).fault.stopped = true) :
    resumeLane (anchorOnly p w) i .flush =
      leaveHeldIfFree ((resumedPart p w i).setTrack i { (p.track i).run with backlog := [] }) i := by
  have hdispose : disposeTrack (resumedPart p w i) i .flush =
      { part := (resumedPart p w i).setTrack i { (p.track i).run with backlog := [] }, arrived := false, faulted := false } :=
    if_pos h
  unfold resumeLane
  dsimp only
  rw [show modLane (anchorOnly p w) i LaneUnit.resumed = resumedPart p w i from rfl, hdispose]
  rfl

theorem resumeLane_discard {p : Part} {w : PostedWrite} {i : Lane} (h : (p.track i).fault.stopped = true) :
    resumeLane (anchorOnly p w) i .discard =
      let o := replay i (p.track i).backlog false ((resumedPart p w i).setTrack i (p.track i).run)
      let r := leaveHeldIfFree o.part i
      let r' := if o.arrived = true then look r i else r
      if o.faulted = true then addHold r' i .track else r' := by
  have hdispose : disposeTrack (resumedPart p w i) i .discard =
      replay i (p.track i).backlog false ((resumedPart p w i).setTrack i (p.track i).run) := if_pos h
  unfold resumeLane
  dsimp only
  rw [show modLane (anchorOnly p w) i LaneUnit.resumed = resumedPart p w i from rfl, hdispose]

/-- R36: the replay of a backlog, pass by pass. -/
theorem replay_cons_faulted {i : Lane} {pass : Pass} {p : Part} (rest : List Pass) (arrived : Bool)
    (h : (carryOut p i pass).faulted = true) :
    replay i (pass :: rest) arrived p =
      { part := (carryOut p i pass).part.setTrack i { (carryOut p i pass).part.track i with backlog := rest },
        arrived := arrived, faulted := true } := if_pos h

theorem replay_cons_carried {i : Lane} {pass : Pass} {p : Part} (rest : List Pass) (arrived : Bool)
    (h : (carryOut p i pass).faulted = false) :
    replay i (pass :: rest) arrived p = replay i rest (arrived || (carryOut p i pass).arrived) (carryOut p i pass).part :=
  if_neg (by rw [h]; exact Bool.false_ne_true)

/-- Settles O28: the track runs, is flushed or is replayed; and the replay, pass by pass. -/
theorem resumeClearsReasonsAndDisposesOfTheTrack : Obligations.ResumeClearsReasonsAndDisposesOfTheTrack := by
  refine ⟨fun s w i => ⟨fun htaken => ?_, fun htaken => ?_⟩, fun p i arrived => ⟨rfl, rfl, rfl, fun pass rest =>
    ⟨fun hfaulted => ?_, replay_cons_carried rest arrived⟩⟩⟩
  · obtain ⟨t, hexec, hpart⟩ := exec_laneCommand_taken htaken (cmd := .resumeFlush) rfl
    cases hstopped : (s.part.track i).fault.stopped with
    | false =>
      rw [takeLaneCommand, resumeLane_running _ hstopped] at hpart
      exact ⟨t, _, hexec, hpart, ⟨rfl, rfl, rfl, rfl, rfl⟩, resumedPart_laneSet .., rfl, fun _ _ => rfl, fun _ => rfl, nofun⟩
    | true =>
      rw [takeLaneCommand, resumeLane_flush hstopped] at hpart
      obtain ⟨hanchor, hlane, hframe, hothers, htrack⟩ :=
        resumedPart_setTrack s.part w i { (s.part.track i).run with backlog := [] }
      exact ⟨t, _, hexec, hpart, hanchor, hlane, hframe, hothers, nofun, fun _ => htrack⟩
  · obtain ⟨t, hexec, hpart⟩ := exec_laneCommand_taken htaken (cmd := .resumeDiscard) rfl
    cases hstopped : (s.part.track i).fault.stopped with
    | false =>
      rw [takeLaneCommand, resumeLane_running _ hstopped] at hpart
      exact ⟨t, resumedPart s.part w i, hexec, ⟨rfl, rfl, rfl, rfl, rfl⟩, resumedPart_laneSet .., rfl, fun _ _ => rfl,
        fun _ => ⟨rfl, hpart⟩, nofun⟩
    | true =>
      rw [takeLaneCommand, resumeLane_discard hstopped] at hpart
      obtain ⟨hanchor, hlane, hframe, hothers, htrack⟩ := resumedPart_setTrack s.part w i (s.part.track i).run
      generalize (resumedPart s.part w i).setTrack i (s.part.track i).run = q at *
      exact ⟨t, _, hexec, hanchor, hlane, hframe, hothers, nofun, fun _ => ⟨htrack, hpart⟩⟩
  · rw [replay_cons_faulted rest arrived hfaulted]
    exact ⟨rfl, rfl, rfl⟩

/-! ### WITHDRAW -/

/-- R68: the part in which WITHDRAW closes a HELD lane's lot: RING gone from its hold reasons, and its place among the Ring Waiters. -/
def ringGivenUp (p : Part) (w : PostedWrite) (i : Lane) : Part :=
  leaveWaiters (modLane (anchorOnly p w) i fun l => { l with holds := { l.holds with ring := false } }) i

theorem ringGivenUp_laneSet (p : Part) (w : PostedWrite) (i : Lane) :
    Safety.LaneSet p (ringGivenUp p w i) i { p.lane i with holds := { (p.lane i).holds with ring := false } } :=
  laneSet_modLane (anchorOnly_laneSet p w i) fun l => { l with holds := { l.holds with ring := false } }

/-- R55, R68: the close of a lane's live lot after an Anchor write, its lane and the Ring Waiters as `b` has them. -/
theorem closeLot_withdraws {p b : Part} {w : PostedWrite} {i : Lane} {l : LaneUnit} {lot : Nat} {d : Digest} {h : HostFields}
    (hb : b = { anchorOnly p w with lanes := b.lanes, ring := { p.ring with waiters := b.ring.waiters } })
    (hset : Safety.LaneSet p b i l) (hlive : l.live = some lot) (hd : p.digest lot = some d) (hh : d.host = some h) :
    let q := setCommandResult (closeLot b i) i .done
    AnchorTaken p q w ∧ LotCloses p q i lot d h ∧ q.ring.waiters = b.ring.waiters ∧
      Safety.LaneSet p q i { laneClosing l with commandResult := .done } ∧
      q = { p with floor := q.floor, window := { p.window with shadow := q.window.shadow }, store := q.store,
                   lanes := q.lanes, catalogue := q.catalogue, ring := q.ring } := by
  have hcatalogue : b.catalogue = p.catalogue := by rw [hb]; rfl
  have hticks : b.ticks = p.ticks := by rw [hb]; rfl
  have hring : ∃ ws, b.ring = { p.ring with waiters := ws } := ⟨b.ring.waiters, congrArg Part.ring hb⟩
  have hdb : b.digest lot = some d := (digest_congr (congrArg CatalogueUnit.known hcatalogue) lot).trans hd
  obtain ⟨hlane, hothers⟩ := hset
  obtain ⟨hframe, hcloses, hwaiters, hclosing⟩ := closeLot_law b i lot d h (by rw [hlane]; exact hlive) hdb hh
  have hcloses' := lotCloses_congr p b _ i lot d h hcatalogue hticks hring hcloses
  have hclosed : Safety.LaneSet p (closeLot b i) i (laneClosing l) :=
    ⟨hlane ▸ hclosing.1, fun j hj => (hclosing.2 j hj).trans (hothers j hj)⟩
  generalize closeLot b i = q at hframe hcloses' hwaiters hclosed ⊢
  refine ⟨?_, hcloses', hwaiters, laneSet_setCommandResult hclosed _, ?_⟩
  · rw [hframe, hb]
    exact ⟨rfl, rfl, rfl, rfl, rfl⟩
  · rw [hframe, hb]
    rfl

theorem withdrawLane_closes {p : Part} {i : Lane}
    (h : (p.lane i).state = .primed ∨ (p.lane i).state = .running ∨ (p.lane i).state = .paused) :
    withdrawLane p i = setCommandResult (closeLot p i) i .done := by
  unfold withdrawLane
  rcases h with h | h | h <;> rw [h]

theorem withdrawLane_held {p : Part} {i : Lane} (h : (p.lane i).state = .held) (hret : (p.lane i).ret ≠ .idle) :
    withdrawLane p i = setCommandResult (withdrawHeld p i) i .done := by
  unfold withdrawLane
  rw [h]
  cases hr : (p.lane i).ret with
  | idle => exact absurd hr hret
  | primed | paused => rfl

theorem withdrawLane_struck {p : Part} {i : Lane} (h : (p.lane i).state = .struck) :
    withdrawLane p i = setCommandResult (modLane p i fun l => { l with pendingWithdraw := true }) i .pending := by
  unfold withdrawLane
  rw [h]

theorem withdrawLane_noLot {p : Part} {i : Lane}
    (h : (p.lane i).state = .idle ∨ (p.lane i).state = .closing ∨ ((p.lane i).state = .held ∧ (p.lane i).ret = .idle)) :
    withdrawLane p i = setCommandResult p i .noLot := by
  unfold withdrawLane
  rcases h with h | h | ⟨h, hret⟩
  · rw [h]
  · rw [h]
  · rw [h, hret]

/-- Settles O29: the close by the lane's state, the pending withdraw, and NO-LOT. -/
theorem withdrawClosesTheLiveLot : Obligations.WithdrawClosesTheLiveLot := by
  intro s w i htaken
  obtain ⟨t, hexec, hpart⟩ := exec_laneCommand_taken htaken (cmd := .withdrawCommand) rfl
  rw [takeLaneCommand] at hpart
  refine ⟨fun lot d h hlive hd hh => ⟨fun hstate => ?_, fun hheld hret => ?_⟩, fun hstruck => ?_, fun hstate => ?_⟩
  · rw [withdrawLane_closes (p := anchorOnly s.part w) hstate] at hpart
    obtain ⟨hanchor, hcloses, hwaiters, hset, hframe⟩ :=
      closeLot_withdraws (b := anchorOnly s.part w) rfl (anchorOnly_laneSet s.part w i) hlive hd hh
    exact ⟨t, _, hexec, hpart, hanchor, hcloses, hwaiters, hset, hframe⟩
  · rw [withdrawLane_held (p := anchorOnly s.part w) hheld hret] at hpart
    obtain ⟨hanchor, hcloses, hwaiters, hset, hframe⟩ :=
      closeLot_withdraws (b := ringGivenUp s.part w i) rfl (ringGivenUp_laneSet s.part w i) hlive hd hh
    exact ⟨t, _, hexec, hpart, hanchor, hcloses, hwaiters, hset, hframe⟩
  · rw [withdrawLane_struck (p := anchorOnly s.part w) hstruck] at hpart
    exact ⟨t, _, hexec, hpart, lanesOnly_anchorOnly rfl,
      laneSet_setCommandResult (laneSet_modLane (anchorOnly_laneSet s.part w i) fun l => { l with pendingWithdraw := true }) _⟩
  · rw [withdrawLane_noLot (p := anchorOnly s.part w) hstate] at hpart
    exact ⟨t, _, hexec, hpart, lanesOnly_anchorOnly rfl, laneSet_setCommandResult (anchorOnly_laneSet s.part w i) _⟩

/-! ### Lane parameters -/

/-- R157: a write that sets off a lane's parameters alone does not cover its stop mode. -/
theorem stopMode_not_covered {p : Part} {w : PostedWrite} {i : Lane} (hs : SetsOff p w (.laneParams i)) :
    ¬ ParamCovered p w i .stopMode := by
  intro hcovered
  have hmem : .stopMode i ∈ laneActions (anchorBytes p w) i := by
    have hcontains : (coveredParams (anchorBytes p w) i).contains .stopMode = true :=
      List.contains_iff_mem.mpr ((coveredParams_iff p w i .stopMode).mpr hcovered)
    simp only [laneActions, hcontains]
    simp
  exact AnchorAction.noConfusion (setsOff_laneParams p w i _ hs _ hmem)

/-- R157: the covered parameters of such a write are all taken as lane parameters. -/
theorem mem_covered_iff {p : Part} {w : PostedWrite} {i : Lane} (hs : SetsOff p w (.laneParams i)) (k : LaneParam) :
    k ∈ (coveredParams (anchorBytes p w) i).filter (fun k => k ≠ .stopMode) ↔ ParamCovered p w i k := by
  rw [List.mem_filter, coveredParams_iff]
  refine ⟨fun h => h.1, fun h => ⟨h, decide_eq_true fun hk => ?_⟩⟩
  subst hk
  exact stopMode_not_covered hs h

/-- R46: the part with a lane's parameters and its parameter result as a write leaves them. -/
def paramsTaken (p : Part) (w : PostedWrite) (i : Lane) (params : LaneParams) : Part :=
  setParamResult (modLane (anchorOnly p w) i fun l => { l with params := params }) i
    (paramVerdict (anchorOnly p w) i (anchorBytes p w))

theorem paramsTaken_laneSet (p : Part) (w : PostedWrite) (i : Lane) (params : LaneParams) :
    Safety.LaneSet p (paramsTaken p w i params) i
      { p.lane i with params := params, parameterResult := paramVerdict (anchorOnly p w) i (anchorBytes p w) } :=
  laneSet_setParamResult (laneSet_modLane (anchorOnly_laneSet p w i) fun l => { l with params := params }) _

theorem paramsTaken_result (p : Part) (w : PostedWrite) (i : Lane) (params : LaneParams) :
    ((paramsTaken p w i params).lane i).parameterResult = paramVerdict (anchorOnly p w) i (anchorBytes p w) := by
  rw [(paramsTaken_laneSet p w i params).1]

/-- R46: the taking of a write of lane parameters, as one event. -/
theorem exec_laneParameterWrite_taken {s : State} {w : PostedWrite} {i : Lane} (hhead : HeadTakeable s.part w)
    (hs : SetsOff s.part w (.laneParams i)) :
    ∃ t params, exec .laneParameterWrite s = .next t ∧ t.part = settle s.part (paramsTaken s.part w i params) ∧
      ∀ k, (ParamCovered s.part w i k ∧ ParamFits s.part w i k → paramOf params k = paramAfter s.part w i k) ∧
        (¬ (ParamCovered s.part w i k ∧ ParamFits s.part w i k) → paramOf params k = paramOf (s.part.lane i).params k) := by
  obtain ⟨params, hparams, hlaw⟩ := takeParams_law s.part w i
    ((coveredParams (anchorBytes s.part w) i).filter fun k => k ≠ .stopMode) (anchorOnly s.part w) rfl
  have hperform : perform w (anchorBytes s.part w) (anchorOnly s.part w) (.laneParams i) = paramsTaken s.part w i params := by
    unfold paramsTaken
    rw [← hparams]
    rfl
  refine ⟨_, params, rfl, ?_, fun k => ?_⟩
  · exact (takeAnchor_only isLaneParams s.part w (.laneParams i) ⟨hhead, hs⟩ rfl (by simp)).trans (congrArg _ hperform)
  · rw [← mem_covered_iff hs k]
    exact hlaw k

/-- Settles O30: the covered parameters taken one after another, and the verdict on all of them. -/
theorem laneParametersTakeValuesInRange : Obligations.LaneParametersTakeValuesInRange := by
  intro s w i hhead hs
  obtain ⟨t, params, hexec, hpart, hlaw⟩ := exec_laneParameterWrite_taken hhead hs
  obtain ⟨hdone, hrefused⟩ := paramVerdict_law s.part w i (anchorOnly s.part w) rfl
  refine ⟨t, paramsTaken s.part w i params, params, hexec, hpart, lanesOnly_anchorOnly rfl, ?_, hlaw, ?_, ?_⟩
  · rw [paramsTaken_result]
    exact paramsTaken_laneSet ..
  · rw [paramsTaken_result]
    exact hdone
  · rw [paramsTaken_result]
    exact hrefused

end Sys2Proof.Machine
end

section
/-! PROOFS. The lane's own steps: looks, leaving HELD, timer expiries, and the service of the contenders. -/

namespace Sys2Proof.Machine

open Sys2Proof.Safety

/-! ### A lane's live lot -/

theorem liveLot_of {p : Part} {i : Lane} {lot : Nat} {d : Digest} {h : HostFields} (hlive : (p.lane i).live = some lot)
    (hd : p.digest lot = some d) (hh : d.host = some h) : liveLot p i = some (lot, h, d.owned) := by
  simp only [liveLot, hlive, hd, hh]

theorem live_of_liveLot {p : Part} {i : Lane} {lot : Nat} {h : HostFields} {o : Owned} (hlive : liveLot p i = some (lot, h, o)) :
    (p.lane i).live = some lot := by
  unfold liveLot at hlive
  split at hlive
  · next found hfound =>
    split at hlive
    · split at hlive
      · cases hlive
        exact hfound
      · cases hlive
    · cases hlive
  · cases hlive

/-! ### The step timer -/

theorem stepExpiry_lowers {p : Part} {i : Lane} {lot : Nat} {h : HostFields} {o : Owned} (hlive : liveLot p i = some (lot, h, o))
    (hprice : h.floorPrice < (p.lane i).price) :
    stepExpiry p i = modLane p i fun l =>
      { l with price := max h.floorPrice (l.price - stepOf l h), timer := .counting .step l.params.stepInterval } := by
  simp only [stepExpiry, hlive, if_pos hprice, lowered_eq, Timer.start]

theorem stepExpiry_atFloor {p : Part} {i : Lane} {lot : Nat} {h : HostFields} {o : Owned} (hlive : liveLot p i = some (lot, h, o))
    (hprice : (p.lane i).price ≤ h.floorPrice) : stepExpiry p i = closeLot p i := by
  simp only [stepExpiry, hlive, if_neg (Nat.not_lt.mpr hprice)]

/-- Settles O32: the price a step down, or the floor event. -/
theorem stepExpiryLowersThePriceOrClosesTheLot : Obligations.StepExpiryLowersThePriceOrClosesTheLot := by
  intro s i lot d h hdue hlive hd hh
  have hlot := liveLot_of hlive hd hh
  obtain ⟨t, hexec, hpart⟩ := exec_expiry_taken (act := stepExpiry) hdue (cmd := .stepTimerExpiry i) rfl
  refine ⟨t, stepExpiry s.part i, hexec, hpart, fun hprice => ?_, fun hprice => ?_⟩
  · rw [stepExpiry_lowers hlot hprice]
    exact ⟨rfl, modLane_laneSet ..⟩
  · rw [stepExpiry_atFloor hlot hprice]
    obtain ⟨hframe, hcloses, hwaiters, hset⟩ := closeLot_law s.part i lot d h hlive hd hh
    exact ⟨hframe, hcloses, hwaiters, hset⟩

/-! ### The service of a contender -/

section

variable {p : Part} {i : Lane} {position lot : Nat} {e : Contender} {h : HostFields} {o : Owned}

theorem serveContender_soldOut (hlive : liveLot p i = some (lot, h, o)) (hsold : o.remaining = 0) :
    serveContender p i position e = reportService p i e position .refused .soldOut 0 0 := by
  simp only [serveContender, hlive, if_pos hsold]

theorem serveContender_blocked (hlive : liveLot p i = some (lot, h, o)) (hleft : 0 < o.remaining)
    (hmay : buyerMayBuy p e.buyer i = false) :
    serveContender p i position e = reportService p i e position .refused .buyerBlocked 0 0 := by
  simp only [serveContender, hlive, if_neg (Nat.ne_of_gt hleft), hmay]
  rfl

theorem serveContender_claimRefused {reason : PressReason} {units : Nat} (hlive : liveLot p i = some (lot, h, o))
    (hleft : 0 < o.remaining) (hmay : buyerMayBuy p e.buyer i = true)
    (hclaim : judgeClaim (claimRequest p i h o e.units) (p.buyer e.buyer) (freeCount p) = .refused reason units) :
    serveContender p i position e = reportService p i e position .refused reason units 0 := by
  simp only [serveContender, hlive, if_neg (Nat.ne_of_gt hleft), hmay, hclaim]
  rfl

/-- R90: the purchase that a contender's service makes. -/
def contenderPurchase (p : Part) (i : Lane) (position : Nat) (e : Contender) (lot : Nat) (h : HostFields) (units amount : Nat) :
    Purchase :=
  { desk := e.desk, buyer := e.buyer, lot := lot, host := h, position := position, units := units, price := (p.lane i).price,
    amount := amount }

theorem serveContender_granted {units amount : Nat} (hlive : liveLot p i = some (lot, h, o)) (hleft : 0 < o.remaining)
    (hmay : buyerMayBuy p e.buyer i = true)
    (hclaim : judgeClaim (claimRequest p i h o e.units) (p.buyer e.buyer) (freeCount p) = .granted units amount) :
    serveContender p i position e =
      reportService (makePurchase p i (contenderPurchase p i position e lot h units amount)) i e position .accepted .none units
        amount := by
  simp only [serveContender, hlive, if_neg (Nat.ne_of_gt hleft), hmay, hclaim]
  rfl

/-- R93: a contender refused at its service. -/
theorem reportService_refused (hlive : (p.lane i).live = some lot) (reason : PressReason) (units : Nat) :
    let q := reportService p i e position .refused reason units 0
    q = { p with press := q.press } ∧
      q.desk e.desk = { p.desk e.desk with reply :=
        { count := (p.desk e.desk).reply.count + 1, lastAccepted := (p.desk e.desk).lastSequence.getD 0, reported := e.sequence,
          outcome := .refused, reason := reason, lane := i.val, lot := lot, units := units, position := position,
          price := (p.lane i).price, amount := 0, credit := (p.buyer e.buyer).limit - (p.buyer e.buyer).exposure } } ∧
      q.press = { p.press with desks := q.press.desks, refused := p.press.refused + 1 } := by
  obtain ⟨hframe, hdesk, -, hpress⟩ := reportService_law p i e position .refused reason units 0
  rw [hlive] at hdesk
  exact ⟨hframe, hdesk, hpress⟩

/-- R90, R93: a contender that has bought, reported with the credit left. -/
theorem reportService_bought {q : Part} {units amount : Nat} (hlive : (p.lane i).live = some lot)
    (hq : Purchased p q i (contenderPurchase p i position e lot h units amount)) :
    let r := reportService q i e position .accepted .none units amount
    r = { q with press := r.press } ∧
      r.desk e.desk = { p.desk e.desk with reply :=
        { count := (p.desk e.desk).reply.count + 1, lastAccepted := (p.desk e.desk).lastSequence.getD 0, reported := e.sequence,
          outcome := .accepted, reason := .none, lane := i.val, lot := lot, units := units, position := position,
          price := (p.lane i).price, amount := amount,
          credit := (p.buyer e.buyer).limit - ((p.buyer e.buyer).exposure + amount) } } ∧
      r.press = { p.press with desks := r.press.desks, accepted := p.press.accepted + 1 } := by
  obtain ⟨hframe, hdesk, -, hpress⟩ := reportService_law q i e position .accepted .none units amount
  obtain ⟨hparts, hbuyer, -, -, -, -, -, hlane, -⟩ := hq
  have hpressSame : q.press = p.press := by rw [hparts]
  have hdeskSame : q.desk e.desk = p.desk e.desk := desk_congr (congrArg PressUnit.desks hpressSame) _
  have hcredit : (q.buyer e.buyer).available = (p.buyer e.buyer).limit - ((p.buyer e.buyer).exposure + amount) := by
    rw [show q.buyer e.buyer = entryCharged p e.buyer amount from hbuyer, entryCharged_available]
  rw [hdeskSame, hlane, hcredit, hlive] at hdesk
  rw [hpressSame] at hpress
  exact ⟨hframe, hdesk, hpress⟩

theorem serveContender_otherDesks (p : Part) (i : Lane) (position : Nat) (e : Contender) {k : Nat} (hk : k ≠ e.desk) :
    (serveContender p i position e).desk k = p.desk k := by
  obtain ⟨q, outcome, reason, units, amount, heq, hq⟩ := serveContender_cases p i position e
  obtain ⟨-, -, hothers, -⟩ := reportService_law q i e position outcome reason units amount
  rw [heq, hothers k hk]
  rcases hq with rfl | ⟨c, rfl⟩
  · rfl
  · exact desk_congr (congrArg PressUnit.desks (congrArg Part.press (makePurchase_purchased p i c).1)) k

end

/-- Settles O33: the tests of `serveContender` in their order, each with its report. -/
theorem contenderServedForTheBuyerItCaptured : Obligations.ContenderServedForTheBuyerItCaptured := by
  intro p i position e lot h o hlot
  have hlive := live_of_liveLot hlot
  refine ⟨fun k hk => serveContender_otherDesks p i position e hk, fun hsold => ?_, fun hleft hmay => ?_,
    fun hleft hmay reason units hclaim => ?_, fun hleft hmay units amount hclaim => ?_⟩
  · dsimp only
    rw [serveContender_soldOut hlot hsold]
    exact reportService_refused hlive ..
  · dsimp only
    rw [serveContender_blocked hlot hleft hmay]
    exact reportService_refused hlive ..
  · dsimp only
    rw [serveContender_claimRefused hlot hleft hmay hclaim]
    exact reportService_refused hlive ..
  · dsimp only
    rw [serveContender_granted hlot hleft hmay hclaim]
    have hbought := makePurchase_purchased p i (contenderPurchase p i position e lot h units amount)
    exact ⟨_, hbought, reportService_bought hlive hbought⟩

/-! ### The contender window -/

/-- R53: the part with a lane's contenders served and its round ended. -/
def roundEnded (p : Part) (i : Lane) : Part := modLane p i fun l => { l.endRound with contenders := [] }

theorem roundEnded_laneSet (p : Part) (i : Lane) :
    Safety.LaneSet p (roundEnded p i) i { p.lane i with contenders := [], roundReserved := 0, timer := .stopped } :=
  modLane_laneSet p i fun l => { l.endRound with contenders := [] }

section

variable {p : Part} {i : Lane} {lot : Nat} {d : Digest} {h : HostFields}

theorem liveLot_roundEnded (hlive : (p.lane i).live = some lot) (hd : p.digest lot = some d) (hh : d.host = some h) :
    liveLot (roundEnded p i) i = some (lot, h, d.owned) := by
  refine liveLot_of (d := d) ?_ hd hh
  rw [(roundEnded_laneSet p i).1]
  exact hlive

/-- R53, R55: a lot sold out, or one with a withdraw pending, is closed after the service. -/
theorem afterService_closes (hlive : (p.lane i).live = some lot) (hd : p.digest lot = some d) (hh : d.host = some h)
    (hdone : d.owned.remaining = 0 ∨ (p.lane i).pendingWithdraw = true) :
    let q := afterService (roundEnded p i) i
    q = { p with lanes := q.lanes, catalogue := q.catalogue, ring := q.ring } ∧ LotCloses p q i lot d h ∧
      q.ring.waiters = p.ring.waiters ∧
      Safety.LaneSet p q i { laneClosing { p.lane i with contenders := [], roundReserved := 0, timer := .stopped } with
        pendingWithdraw := false } := by
  have hended := laneSet_modLane (roundEnded_laneSet p i) fun l => { l with pendingWithdraw := false }
  have hcloses : afterService (roundEnded p i) i =
      closeLot (modLane (roundEnded p i) i fun l => { l with pendingWithdraw := false }) i := by
    refine if_pos ?_
    rw [liveRemaining, liveLot_roundEnded hlive hd hh, (roundEnded_laneSet p i).1]
    exact hdone
  have hframe : modLane (roundEnded p i) i (fun l => { l with pendingWithdraw := false }) =
      { p with lanes := (modLane (roundEnded p i) i fun l => { l with pendingWithdraw := false }).lanes } := rfl
  dsimp only
  rw [hcloses]
  generalize modLane (roundEnded p i) i (fun l => { l with pendingWithdraw := false }) = b at hended hframe
  obtain ⟨hlane, hothers⟩ := hended
  have hcatalogue : b.catalogue = p.catalogue := by rw [hframe]
  have hring : b.ring = p.ring := by rw [hframe]
  obtain ⟨heq, hclosed, hwaiters, hset, hsetOthers⟩ := closeLot_law b i lot d h (by rw [hlane]; exact hlive)
    ((digest_congr (congrArg CatalogueUnit.known hcatalogue) lot).trans hd) hh
  refine ⟨?_, lotCloses_congr p b _ i lot d h hcatalogue (by rw [hframe]) ⟨p.ring.waiters, hring⟩ hclosed,
    hwaiters.trans (congrArg RingUnit.waiters hring), ?_, fun j hj => (hsetOthers j hj).trans (hothers j hj)⟩
  · generalize closeLot b i = q at heq
    rw [heq, hframe]
  · rw [hset, hlane]
    rfl

/-- R53: the part with the next-round price of the lane's lot set. -/
theorem setNextRound_roundEnded (hlive : (p.lane i).live = some lot) (hd : p.digest lot = some d) (hh : d.host = some h) :
    setNextRound (roundEnded p i) i = modLane (roundEnded p i) i fun l => { l with nextPrice := nextRoundPrice l h } := by
  simp only [setNextRound, liveLot_roundEnded hlive hd hh]

theorem afterService_goesOn (hlive : (p.lane i).live = some lot) (hd : p.digest lot = some d) (hh : d.host = some h)
    (hleft : d.owned.remaining ≠ 0) (hpending : (p.lane i).pendingWithdraw = false) :
    afterService (roundEnded p i) i =
      modLane (modLane (roundEnded p i) i fun l => { l with nextPrice := nextRoundPrice l h }) i
        (if (p.lane i).pendingHolds.isEmpty = true then LaneUnit.enterPaused else LaneUnit.holdPending) := by
  have hopen : ¬ (liveRemaining (roundEnded p i) i = 0 ∨ ((roundEnded p i).lane i).pendingWithdraw = true) := by
    rw [liveRemaining, liveLot_roundEnded hlive hd hh, (roundEnded_laneSet p i).1]
    rintro (h | h)
    · exact hleft h
    · exact absurd (hpending.symm.trans h) Bool.false_ne_true
  have hholds : ((roundEnded p i).lane i).pendingHolds = (p.lane i).pendingHolds := by rw [(roundEnded_laneSet p i).1]
  rw [afterService, if_neg hopen, setNextRound_roundEnded hlive hd hh, hholds]
  split <;> rfl

/-- R53: the lane after a service that leaves the lot open, with its next-round price set. -/
theorem nextRound_laneSet (p : Part) (i : Lane) (h : HostFields) (f : LaneUnit → LaneUnit) :
    let l := p.lane i
    Safety.LaneSet p (modLane (modLane (roundEnded p i) i fun l => { l with nextPrice := nextRoundPrice l h }) i f) i
      (f { l with
        contenders := [], roundReserved := 0, timer := .stopped,
        nextPrice := min h.startPrice (l.price + if h.bump = 0 then l.params.defaultBump else h.bump) }) :=
  laneSet_modLane (laneSet_modLane (roundEnded_laneSet p i) fun l => { l with nextPrice := nextRoundPrice l h }) f

end

theorem serveContenders_live (p : Part) (i : Lane) (position : Nat) (es : List Contender) :
    ((serveContenders i position es p).lane i).live = (p.lane i).live := by
  obtain ⟨r, hr⟩ := serveContenders_lane p i position es
  rw [hr]

/-- Settles O34: the service entry by entry, and what the lane does after it. -/
theorem contenderExpiryServesThenPausesHoldsOrCloses : Obligations.ContenderExpiryServesThenPausesHoldsOrCloses := by
  refine ⟨fun p i position => ⟨rfl, fun e rest => rfl⟩, fun s i lot d h hdue hlive hd hh => ?_⟩
  obtain ⟨t, hexec, hpart⟩ := exec_expiry_taken (act := contenderExpiry) hdue (cmd := .contenderWindowExpiry i) rfl
  have hlive' := (serveContenders_live s.part i 1 (s.part.lane i).contenders).trans hlive
  rw [contenderExpiry] at hpart
  dsimp only at hd ⊢
  generalize serveContenders i 1 (s.part.lane i).contenders s.part = served at hpart hd hlive' ⊢
  refine ⟨t, afterService (roundEnded served i) i, hexec, hpart, fun hdone => afterService_closes hlive' hd hh hdone,
    fun hleft hpending => ?_, fun hleft hpending hholds => ?_, fun hleft hpending hholds => ?_⟩
  · rw [afterService_goesOn hlive' hd hh hleft hpending]
    rfl
  · rw [afterService_goesOn hlive' hd hh hleft hpending, if_neg (mt (HoldSet.isEmpty_iff _).mp hholds)]
    exact nextRound_laneSet served i h _
  · rw [afterService_goesOn hlive' hd hh hleft hpending, if_pos ((HoldSet.isEmpty_iff _).mpr hholds)]
    exact nextRound_laneSet served i h _

/-! ### Looks -/

/-- R47: a lane in which a look may find a lot. -/
def mayLook (l : LaneUnit) : Prop := l.state = .idle ∧ l.holds = HoldSet.none ∧ l.pendingHolds = HoldSet.none

theorem lookLot_free {p : Part} {i : Lane} (h : mayLook (p.lane i)) : lookLot p i = atClockLot p i := by
  obtain ⟨hstate, hholds, hpending⟩ := h
  exact if_pos ⟨hstate, (HoldSet.isEmpty_iff _).mpr hholds, (HoldSet.isEmpty_iff _).mpr hpending⟩

theorem lookLot_held {p : Part} {i : Lane} (h : ¬ mayLook (p.lane i)) : lookLot p i = none := by
  refine if_neg fun hin => h ?_
  obtain ⟨hstate, hholds, hpending⟩ := hin
  exact ⟨hstate, (HoldSet.isEmpty_iff _).mp hholds, (HoldSet.isEmpty_iff _).mp hpending⟩

/-- R47: a look finds nothing in a lane that may not look, or without an AT-CLOCK lot. -/
theorem lookLot_none {p : Part} {i : Lane} (h : ¬ mayLook (p.lane i) ∨ ∀ lot, ¬ FirstAtClock p i lot) : lookLot p i = none := by
  by_cases hfree : mayLook (p.lane i)
  · rw [lookLot_free hfree]
    exact (atClockLot_none p i).mpr (h.resolve_left (not_not_intro hfree))
  · exact lookLot_held hfree

theorem look_finds {p : Part} {i : Lane} {lot : Nat} (h : lookLot p i = some lot) : look p i = prime p i lot := by
  simp only [look, h]

theorem look_nothing {p : Part} {i : Lane} (h : lookLot p i = none) : look p i = p := by
  simp only [look, h]

/-- Settles O35: the look's lot, primed with a slot or waiting for one. -/
theorem lookPutsUpTheFirstLotAtTheClock : Obligations.LookPutsUpTheFirstLotAtTheClock := by
  refine fun p i => ⟨fun lot d h hfree hfirst hd hh => ?_, fun hnone => look_nothing (lookLot_none hnone)⟩
  have hlook := look_finds ((lookLot_free hfree).trans ((atClockLot_first p i lot).mpr hfirst))
  refine ⟨fun hslot => ?_, fun hslot hgrant => ?_⟩
  · have hcan : ((p.lane i).closeReserved || grantable p 1) = true := by
      simpa only [Bool.or_eq_true, grantable_iff] using hslot
    rw [hlook, prime, if_pos hcan]
    exact putUp_putsUp p i lot d h hd hh
  · have hcannot : ¬ ((p.lane i).closeReserved || grantable p 1) = true := by
      rw [Bool.or_eq_true, grantable_iff, hslot]
      rintro (h | h)
      · exact Bool.false_ne_true h
      · exact hgrant h
    rw [hlook, prime, if_neg hcannot]
    exact waitOnRing_waits p i .idle 1

/-! ### Leaving HELD -/

/-- R61: a lane gone IDLE. -/
def goneIdle (p : Part) (i : Lane) : Part := modLane p i fun l => { l with state := .idle, timer := .stopped }

theorem goneIdle_laneSet (p : Part) (i : Lane) :
    Safety.LaneSet p (goneIdle p i) i { p.lane i with state := .idle, timer := .stopped } := modLane_laneSet p i _

theorem laneSet_notify {p q : Part} {i : Lane} {l : LaneUnit} (h : Safety.LaneSet p q i l) (j : Lane) :
    Safety.LaneSet p (q.notify j) i l := h

/-- R48: what is put up in a lane just gone IDLE is put up in the lane as it was. -/
theorem putsUp_of_goneIdle {p q : Part} {i : Lane} {lot : Nat} {d : Digest} {h : HostFields}
    (hq : PutsUp (goneIdle p i) q i lot d h) : PutsUp p q i lot d h := by
  obtain ⟨hframe, ⟨hlane, hothers⟩, hdigest, hdigests, hcatalogue, hdisplay, hdisplays⟩ := hq
  rw [(goneIdle_laneSet p i).1] at hlane
  exact ⟨hframe, ⟨hlane, fun j hj => (hothers j hj).trans ((goneIdle_laneSet p i).2 j hj)⟩, hdigest, hdigests, hcatalogue,
    hdisplay, hdisplays⟩

section

variable {p : Part} {i : Lane}

theorem leaveHeldIfFree_stays (h : (p.lane i).state ≠ .held ∨ (p.lane i).holds ≠ HoldSet.none) : leaveHeldIfFree p i = p := by
  refine if_neg fun hin => ?_
  obtain ⟨hstate, hholds⟩ := hin
  exact h.elim (fun hne => hne hstate) fun hne => hne ((HoldSet.isEmpty_iff _).mp hholds)

theorem leaveHeldIfFree_leaves (hstate : (p.lane i).state = .held) (hholds : (p.lane i).holds = HoldSet.none) :
    leaveHeldIfFree p i = leaveHeld p i := if_pos ⟨hstate, (HoldSet.isEmpty_iff _).mpr hholds⟩

theorem leaveHeld_idle (hret : (p.lane i).ret = .idle) (hslot : (p.lane i).closeReserved = false) :
    leaveHeld p i = look ((goneIdle p i).notify i) i := by
  simp only [leaveHeld, hret, hslot]
  rfl

theorem leaveHeld_slot (hret : (p.lane i).ret = .idle) (hslot : (p.lane i).closeReserved = true) :
    leaveHeld p i = lookWithSlot p i := by
  simp only [leaveHeld, hret, hslot]
  rfl

theorem leaveHeld_primed (hret : (p.lane i).ret = .primed) (hround : (p.lane i).roundReserved = 0) :
    leaveHeld p i = modLane p i fun l => { l with state := .primed, timer := preRollTimer l } := by
  simp only [leaveHeld, hret, hround]
  rfl

theorem leaveHeld_paused (hret : (p.lane i).ret = .paused) (hround : (p.lane i).roundReserved = 0) :
    leaveHeld p i = modLane p i LaneUnit.enterPaused := by
  simp only [leaveHeld, hret, hround]
  rfl

theorem leaveHeld_running (hret : (p.lane i).ret ≠ .idle) (hround : (p.lane i).roundReserved ≠ 0) :
    leaveHeld p i = enterRunning p i (p.lane i).ret := by
  unfold leaveHeld
  dsimp only
  cases hr : (p.lane i).ret with
  | idle => exact absurd hr hret
  | primed | paused => exact if_pos hround

/-- R65: a lane that goes IDLE with a close slot looks as any IDLE lane does. -/
theorem lookWithSlot_finds {lot : Nat} (hfree : mayLook ((goneIdle p i).lane i)) (hfirst : FirstAtClock p i lot) :
    lookWithSlot p i = putUp (goneIdle p i) i lot := by
  have hlook : lookLot (goneIdle p i) i = some lot :=
    (lookLot_free hfree).trans ((atClockLot_first (goneIdle p i) i lot).mpr hfirst)
  unfold lookWithSlot
  dsimp only
  rw [show (modLane p i fun l => { l with state := .idle, timer := .stopped }) = goneIdle p i from rfl, hlook]

theorem lookWithSlot_nothing (hnone : ¬ mayLook ((goneIdle p i).lane i) ∨ ∀ lot, ¬ FirstAtClock p i lot) :
    lookWithSlot p i = (modLane (goneIdle p i) i fun l => { l with closeReserved := false }).notify i := by
  have hlook : lookLot (goneIdle p i) i = none := lookLot_none hnone
  unfold lookWithSlot
  dsimp only
  rw [show (modLane p i fun l => { l with state := .idle, timer := .stopped }) = goneIdle p i from rfl, hlook]

/-- R65: a lane gone IDLE from HELD without a hold reason may look unless a hold is pending. -/
theorem mayLook_goneIdle (hholds : (p.lane i).holds = HoldSet.none) :
    mayLook ((goneIdle p i).lane i) ↔ (p.lane i).pendingHolds = HoldSet.none := by
  rw [(goneIdle_laneSet p i).1]
  exact ⟨fun h => h.2.2, fun h => ⟨rfl, hholds, h⟩⟩

end

/-- Settles O36: where a lane goes that nothing holds, by its return state and its reservations. -/
theorem laneLeavesHeldWhenNothingHoldsIt : Obligations.LaneLeavesHeldWhenNothingHoldsIt := by
  refine fun p i => ⟨leaveHeldIfFree_stays, fun hstate hholds => ?_⟩
  rw [leaveHeldIfFree_leaves hstate hholds]
  refine ⟨fun hret hslot => ?_, fun hret hslot => ⟨fun lot d h hpending hfirst hd hh => ?_, fun hnone => ?_⟩,
    fun hret hround => ?_, fun hret hround => ?_, fun hret hround => ?_⟩
  · exact ⟨(goneIdle p i).notify i, rfl, laneSet_notify (goneIdle_laneSet p i) i, notify_told i rfl, leaveHeld_idle hret hslot⟩
  · rw [leaveHeld_slot hret hslot, lookWithSlot_finds ((mayLook_goneIdle hholds).mpr hpending) hfirst]
    exact putsUp_of_goneIdle (putUp_putsUp (goneIdle p i) i lot d h hd hh)
  · rw [leaveHeld_slot hret hslot, lookWithSlot_nothing (hnone.imp_left fun h => mt (mayLook_goneIdle hholds).mp h)]
    exact ⟨rfl, laneSet_notify (laneSet_modLane (goneIdle_laneSet p i) fun l => { l with closeReserved := false }) i,
      notify_told i rfl⟩
  · rw [leaveHeld_primed hret hround]
    exact ⟨rfl, modLane_laneSet ..⟩
  · rw [leaveHeld_paused hret hround]
    exact ⟨rfl, modLane_laneSet ..⟩
  · rw [leaveHeld_running hret hround]
    exact enterRunning_enters ..

end Sys2Proof.Machine
end

section
/-! PROOFS. The account words, the ring words, and the end of the day. -/

namespace Sys2Proof.Machine

open Sys2Proof.Safety

/-! ### The taking of a command word -/

/-- R157: the taking of a command word, as one event. -/
theorem exec_word_taken {s : State} {w : PostedWrite} {a : AnchorAction} {cmd : Instr} (htaken : WordTaken s.part w a)
    (ha : a ≠ .threshold) (hcmd : exec cmd s = actOn s (takeAnchor (isAction a))) :
    ∃ t, exec cmd s = .next t ∧ t.part = settle s.part (perform w (anchorBytes s.part w) (anchorOnly s.part w) a) :=
  ⟨_, hcmd, takeAnchor_only (isAction a) s.part w a htaken (by simp [isAction]) ha⟩

/-- R157: such an event that only sets a result field ends as it stands. -/
theorem settle_anchorOnly {p q : Part} {w : PostedWrite} (hquiet : QuietPart p)
    (hring : q.ring = (anchorOnly p w).ring) (hlanes : q.lanes = (anchorOnly p w).lanes)
    (hbuyers : q.account.buyers = (anchorOnly p w).account.buyers) (hdisplays : q.displays = (anchorOnly p w).displays) :
    settle p q = q := settle_keeps p q hquiet hring hlanes hbuyers hdisplays

/-- An act on the part, with the part it makes named. -/
theorem actOn_taken {s : State} {f : Part → Part} {q : Part} (h : f s.part = q) : ∃ t, actOn s f = .next t ∧ t.part = q :=
  ⟨_, rfl, h⟩

/-! ### Payments -/

section

variable {p : Part} {buyer amount : Nat}

theorem takePayment_refusedBuyer (h : buyer = 0 ∨ inRange p buyer = false) :
    takePayment p buyer amount = setPaymentResult p .refusedBuyer 0 0 := by
  have hbuyer : buyer = 0 ∨ (!inRange p buyer) = true := h.imp_right fun h => by rw [h]; rfl
  exact if_pos hbuyer

theorem buyer_named (hbuyer : buyer ≠ 0) (hrange : inRange p buyer = true) : ¬ (buyer = 0 ∨ (!inRange p buyer) = true) := by
  rw [hrange]
  rintro (h | h)
  · exact hbuyer h
  · cases h

theorem takePayment_refusedRange (hbuyer : buyer ≠ 0) (hrange : inRange p buyer = true) (hamount : amount = 0 ∨ 2 ^ 47 ≤ amount) :
    takePayment p buyer amount = setPaymentResult p .refusedRange 0 0 :=
  (if_neg (buyer_named hbuyer hrange)).trans (if_pos hamount)

theorem amount_named (hpositive : amount ≠ 0) (hamount : amount < 2 ^ 47) : ¬ (amount = 0 ∨ 2 ^ 47 ≤ amount) := by
  omega

theorem takePayment_refusedRing (hbuyer : buyer ≠ 0) (hrange : inRange p buyer = true) (hpositive : amount ≠ 0)
    (hamount : amount < 2 ^ 47) (hfree : freeCount p = 0) : takePayment p buyer amount = setPaymentResult p .refusedRing 0 0 :=
  (if_neg (buyer_named hbuyer hrange)).trans ((if_neg (amount_named hpositive hamount)).trans (if_pos hfree))

theorem takePayment_applies (hbuyer : buyer ≠ 0) (hrange : inRange p buyer = true) (hpositive : amount ≠ 0)
    (hamount : amount < 2 ^ 47) (hfree : 0 < freeCount p) : takePayment p buyer amount = applyPayment p buyer amount :=
  (if_neg (buyer_named hbuyer hrange)).trans
    ((if_neg (amount_named hpositive hamount)).trans (if_neg (Nat.ne_of_gt hfree)))

end

/-- Settles O37: the first failing check answers with amounts of 0. -/
theorem paymentIsRefusedByItsFirstFailingCheck : Obligations.PaymentIsRefusedByItsFirstFailingCheck := by
  intro s w hquiet htaken
  obtain ⟨t, hexec, hpart⟩ := exec_word_taken htaken (by simp) (cmd := .payment) rfl
  have hanswered {outcome : WordResult}
      (h : takePayment (anchorOnly s.part w) (fieldAfter s.part w 0x0100 2) (fieldAfter s.part w 0x0108 8) =
        setPaymentResult (anchorOnly s.part w) outcome 0 0) : t.part = setPaymentResult (anchorOnly s.part w) outcome 0 0 := by
    have hperform : perform w (anchorBytes s.part w) (anchorOnly s.part w) .payment =
        setPaymentResult (anchorOnly s.part w) outcome 0 0 := h
    rw [hpart, hperform]
    exact settle_anchorOnly hquiet rfl rfl rfl rfl
  refine ⟨fun hbuyer => ⟨t, hexec, hanswered ?_⟩, fun hbuyer hrange hamount => ⟨t, hexec, hanswered ?_⟩,
    fun hbuyer hrange hpositive hamount hfree => ⟨t, hexec, hanswered ?_⟩⟩
  · exact takePayment_refusedBuyer hbuyer
  · exact takePayment_refusedRange hbuyer hrange hamount
  · exact takePayment_refusedRing hbuyer hrange hpositive hamount ((freeCount_anchorOnly s.part w).trans hfree)

/-- R113: a payment applied, block by block. -/
theorem applyPayment_law (p : Part) (buyer amount : Nat) :
    let b := p.buyer buyer
    let applied := min amount b.exposure
    let q := applyPayment p buyer amount
    q = { p with account := q.account, ring := q.ring, attention := q.attention } ∧
      q.buyer buyer = { b with exposure := b.exposure - applied } ∧ (∀ k, k ≠ buyer → q.buyer k = p.buyer k) ∧
      q.account = { p.account with
        buyers := q.account.buyers,
        paymentResult := { outcome := .done, applied := applied, exposureAfter := b.exposure - applied } } ∧
      q.ring = { p.ring with
        assigned := p.ring.assigned + 1, payments := p.ring.payments + 1,
        queue := p.ring.queue ++
          [{ index := p.ring.assigned, tick := p.ticks.count, body := .payment buyer amount applied (b.exposure - applied) }] } ∧
      (amount ≤ b.exposure → q.attention = p.attention) ∧ (b.exposure < amount → Raised p.attention q.attention .paymentExcess) := by
  have hsame (x : BuyerEntry) : (p.setBuyer buyer x).buyer buyer = x := buyer_setBuyer_same ..
  have hothers (x : BuyerEntry) (k : Nat) (hk : k ≠ buyer) : (p.setBuyer buyer x).buyer k = p.buyer k :=
    buyer_setBuyer_other _ _ _ _ hk
  by_cases hexcess : (p.buyer buyer).exposure < amount
  · simp only [applyPayment, if_pos hexcess]
    exact ⟨rfl, hsame _, hothers _, rfl, rfl, fun hle => absurd hexcess (Nat.not_lt.mpr hle), fun _ => AttentionUnit.raise_raised ..⟩
  · simp only [applyPayment, if_neg hexcess]
    exact ⟨rfl, hsame _, hothers _, rfl, rfl, fun _ => rfl, fun hlt => absurd hlt hexcess⟩

/-- Settles O38: past its checks a payment is applied. -/
theorem paymentLowersTheExposure : Obligations.PaymentLowersTheExposure := by
  intro s w buyer amount htaken hbuyerField hamountField hbuyer hrange hpositive hamount hfree
  obtain ⟨t, hexec, hpart⟩ := exec_word_taken htaken (by simp) (cmd := .payment) rfl
  have hperform : perform w (anchorBytes s.part w) (anchorOnly s.part w) .payment =
      applyPayment (anchorOnly s.part w) buyer amount := by
    rw [← hbuyerField, ← hamountField] at *
    exact takePayment_applies hbuyer hrange hpositive hamount (by rw [freeCount_anchorOnly]; exact hfree)
  rw [hperform] at hpart
  exact ⟨t, _, hexec, hpart, applyPayment_law (anchorOnly s.part w) buyer amount⟩

/-! ### The invoice-close word -/

section

variable {p : Part} {buyer : Nat}

theorem takeInvoiceClose_refusedBuyer (h : buyer = 0 ∨ inRange p buyer = false) :
    takeInvoiceClose p buyer = setCloseResult p { outcome := .refusedBuyer, number := 0, lines := 0, total := 0 } := by
  have hbuyer : buyer = 0 ∨ (!inRange p buyer) = true := h.imp_right fun h => by rw [h]; rfl
  exact if_pos hbuyer

theorem takeInvoiceClose_noInvoice (hbuyer : buyer ≠ 0) (hrange : inRange p buyer = true) (hnone : (p.buyer buyer).invoice = 0) :
    takeInvoiceClose p buyer = setCloseResult p { outcome := .noInvoice, number := 0, lines := 0, total := 0 } :=
  (if_neg (buyer_named hbuyer hrange)).trans (if_pos hnone)

theorem takeInvoiceClose_closes (hbuyer : buyer ≠ 0) (hrange : inRange p buyer = true) (hopen : (p.buyer buyer).invoice ≠ 0) :
    takeInvoiceClose p buyer = setCloseResult (closeInvoice p buyer)
      { outcome := .done, number := (p.buyer buyer).invoice, lines := (p.buyer buyer).lines, total := (p.buyer buyer).total } :=
  (if_neg (buyer_named hbuyer hrange)).trans (if_neg hopen)

end

/-- Settles O39: the two refusals, and the close of the open invoice. -/
theorem invoiceCloseWordClosesTheOpenInvoice : Obligations.InvoiceCloseWordClosesTheOpenInvoice := by
  intro s w buyer htaken hfield
  obtain ⟨t, hexec, hpart⟩ := exec_word_taken htaken (by simp) (cmd := .invoiceCloseWord) rfl
  have hperform : perform w (anchorBytes s.part w) (anchorOnly s.part w) .invoiceClose =
      takeInvoiceClose (anchorOnly s.part w) buyer := by
    rw [← hfield]
    rfl
  rw [hperform] at hpart
  refine ⟨fun hbuyer => ⟨t, hexec, ?_⟩, fun hbuyer hrange hnone => ⟨t, hexec, ?_⟩, fun hbuyer hrange hopen => ?_⟩
  · rw [hpart, takeInvoiceClose_refusedBuyer (p := anchorOnly s.part w) hbuyer]
    rfl
  · rw [hpart, takeInvoiceClose_noInvoice (p := anchorOnly s.part w) hbuyer hrange hnone]
    rfl
  · rw [takeInvoiceClose_closes (p := anchorOnly s.part w) hbuyer hrange hopen] at hpart
    obtain ⟨hframe, hclosed, hothers, hring, hraised⟩ := closeInvoice_closes (anchorOnly s.part w) buyer
    generalize closeInvoice (anchorOnly s.part w) buyer = q at hpart hframe hclosed hothers hring hraised
    refine ⟨t, _, hexec, hpart, ?_, hclosed, hothers, ?_, hring, hraised⟩
    · rw [hframe]
      rfl
    · rw [hframe]
      rfl

/-! ### Ring words -/

theorem takeConsumerIndex_within {w : PostedWrite} {p : Part} {value : Word32}
    (h : value - p.ring.consumer ≤ p.ring.assigned - p.ring.consumer) :
    takeConsumerIndex w p value = setConsumerResult (p.setRing { p.ring with consumer := value }) .done := if_pos h

theorem takeConsumerIndex_refused {w : PostedWrite} {p : Part} {value : Word32}
    (h : ¬ value - p.ring.consumer ≤ p.ring.assigned - p.ring.consumer) :
    takeConsumerIndex w p value =
      (setConsumerResult p .refusedIndex).report (errorOfWrite w .ringIndex (some 0)) := if_neg h

theorem judgeThreshold_low {p : Part} (h : freeCount p < p.ring.threshold) : judgeThreshold p = p.raise .ringLow := if_pos h

theorem judgeThreshold_enough {p : Part} (h : p.ring.threshold ≤ freeCount p) : judgeThreshold p = p :=
  if_neg (Nat.not_lt.mpr h)

/-- R119: the threshold is no part of the free count. -/
theorem freeCount_threshold (p : Part) (w : PostedWrite) (value : Nat) :
    freeCount { anchorOnly p w with ring := { p.ring with threshold := value } } = freeCount p := rfl

/-- Settles O40: the consumer index moved or refused; the threshold taken and judged. -/
theorem ringWordsMoveTheConsumerIndexAndTheThreshold : Obligations.RingWordsMoveTheConsumerIndexAndTheThreshold := by
  refine ⟨fun s w value htaken hvalue => ?_, fun s w hquiet htaken => ?_⟩
  · obtain ⟨t, hexec, hpart⟩ := exec_word_taken htaken (by simp) (cmd := .consumerIndexWord) rfl
    have hperform : perform w (anchorBytes s.part w) (anchorOnly s.part w) .consumerIndex =
        takeConsumerIndex w (anchorOnly s.part w) value := by
      rw [hvalue]
      rfl
    rw [hperform] at hpart
    refine ⟨t, _, hexec, hpart, fun hin => ?_, fun hout => ?_⟩
    · exact takeConsumerIndex_within (p := anchorOnly s.part w) hin
    · rw [takeConsumerIndex_refused (p := anchorOnly s.part w) hout]
      exact ⟨rfl, Part.report_reported (setConsumerResult (anchorOnly s.part w) .refusedIndex) _⟩
  · have htake := takeAnchor_threshold s.part w htaken hquiet
    have hexec : exec .ringLowThresholdWrite s = actOn s (takeAnchor (isAction .threshold)) := rfl
    refine ⟨fun hover => ?_, fun hfits hfree => ?_, fun hfits hfree => ?_⟩
    · rw [if_neg (Nat.not_le.mpr hover)] at htake
      exact ⟨_, hexec.trans (actOn_of htake), rfl⟩
    · rw [if_pos hfits, judgeThreshold_enough (by rw [freeCount_threshold]; exact hfree)] at htake
      exact ⟨_, hexec.trans (actOn_of htake), rfl⟩
    · rw [if_pos hfits, judgeThreshold_low (by rw [freeCount_threshold]; exact hfree)] at htake
      exact ⟨_, hexec.trans (actOn_of htake), rfl, AttentionUnit.raise_raised ..⟩

/-! ### The end of the day -/

theorem closeAllInvoices_eq (p : Part) : closeAllInvoices p = (openBuyers p).foldl closeInvoice p := rfl

/-- R193: the end of the day close, block by block. -/
theorem endDay_ends (p : Part) : DayEnds p (endDay p) := by
  refine ⟨closeAllInvoices p, closeAllInvoices_eq p, ?_, AttentionUnit.raise_raised ..⟩
  have hwindow : (closeAllInvoices p).window = p.window := closeAllInvoices_window p
  have hticks : (closeAllInvoices p).ticks = p.ticks := closeAllInvoices_ticks p
  unfold endDay createDayMark
  generalize closeAllInvoices p = r at hwindow hticks ⊢
  unfold dayMarked
  rw [← hwindow, ← hticks]
  rfl

theorem endDayIfDue_waits {p : Part} (h : liveLanes p ≠ 0) : endDayIfDue p = p := if_neg fun hdue => h hdue.2

theorem endDayIfDue_ends {p : Part} (hday : p.window.dayState = .closing) (h : liveLanes p = 0) : DayEnds p (endDayIfDue p) := by
  rw [endDayIfDue, if_pos ⟨hday, h⟩]
  exact endDay_ends p

theorem liveLanes_congr {p q : Part} (h : q.lanes = p.lanes) : liveLanes q = liveLanes p := by
  simp only [liveLanes, Part.lane, h]

theorem takeDayClose_refused {p : Part} (h : p.window.dayState ≠ .opened) : takeDayClose p = setDayResult p .refusedState := if_neg h

theorem takeDayClose_closes {p : Part} (h : p.window.dayState = .opened) : takeDayClose p = closeDay p := if_pos h

/-- Settles O42: DAY-CLOSE off an OPEN day, and the flush of an OPEN one, after which the day ends where no lane holds a live lot. -/
theorem dayCloseWithdrawsAndFlushes : Obligations.DayCloseWithdrawsAndFlushes := by
  intro s w htables htaken
  have htake := takeAnchor_dayWord htaken
  rw [takeDayWord] at htake
  refine ⟨fun hday => ?_, fun hday => ?_⟩
  · rw [takeDayClose_refused (p := anchorOnly s.part w) hday, setDayResult_anchorOnly] at htake
    exact actOn_taken htake
  · obtain ⟨hsorted, -, -⟩ := htables
    obtain ⟨r, order, hclose, hflushed⟩ := closeDay_flushed s.part w hsorted
    have hframe := hflushed.1
    have hlive : liveLanes r = liveLanes s.part := liveLanes_congr (by rw [hframe]; rfl)
    have hclosing : r.window.dayState = .closing := by rw [hframe]
    rw [takeDayClose_closes (p := anchorOnly s.part w) hday, hclose] at htake
    obtain ⟨t, hexec, hpart⟩ := actOn_taken htake
    exact ⟨t, r, endDayIfDue r, order, hexec, hpart, hflushed, fun h => endDayIfDue_waits (hlive ▸ h),
      fun h => endDayIfDue_ends hclosing (hlive.trans h)⟩

/-- Settles O43: the judgement of the day's end, the open buyers, and the close of an invoice. -/
theorem dayEndClosesInvoicesThenMarksTheDay : Obligations.DayEndClosesInvoicesThenMarksTheDay := by
  refine ⟨fun p hday => ⟨endDayIfDue_waits, endDayIfDue_ends hday⟩, fun p htables => ?_,
    fun p buyer _ => closeInvoice_closes p buyer⟩
  obtain ⟨-, -, hsorted, -⟩ := htables
  exact openBuyers_law p hsorted

end Sys2Proof.Machine
end

section
/-! PROOFS. The window and master words, and the words of the attention area. -/

namespace Sys2Proof.Machine

open Sys2Proof.Safety

/-! ### The taking of a word of a row -/

/-- R157: the taking of a word that a row names, as one event. -/
theorem exec_row_taken {s : State} {w : PostedWrite} {a : AnchorAction} {cmd : Instr} {row : List Host.Cell → AnchorAction → Bool}
    (htaken : WordTaken s.part w a) (hrow : row (shadowAfter s.part w) a = true) (ha : a ≠ .threshold)
    (hcmd : exec cmd s = actOn s (takeAnchor row)) :
    ∃ t, exec cmd s = .next t ∧ t.part = settle s.part (perform w (anchorBytes s.part w) (anchorOnly s.part w) a) :=
  ⟨_, hcmd, takeAnchor_only row s.part w a htaken hrow ha⟩

theorem shadowValid_iff {p : Part} {w : PostedWrite} {v : Window} :
    shadowValid (shadowAfter p w) v = true ↔ fieldAfter p w (descriptorAt v + 0x18) 1 ≠ 0 := by
  simp [shadowValid, fieldAfter]

/-! ### Window commits -/

theorem ringBusy_iff {p : Part} : ringBusy p = true ↔ RingHeld p := by
  simp [ringBusy, RingHeld, or_assoc]

theorem recordSize_iff {kind : WindowKind} : kind.recordSize.isSome = true ↔ kind = .lot ∨ kind = .buyer ∨ kind = .desk := by
  cases kind <;> simp [WindowKind.recordSize]

section

variable {p : Part} {v : Window} {kind : WindowKind} {d : Descriptor}

/-- R165: the reasons of a commit, in the table's order. -/
theorem commitReason_order (p : Part) (v : Window) (kind : WindowKind) (d : Descriptor) :
    let held := p.window.cache[v]
    let above := d.base + d.pages * 4096
    let badAlign := d.base % 4096 ≠ 0 ∨ 2 ^ 36 < above
    let badSize := kind.sizeAllowed d.pages = false
    let badLimit := kind.limitAllowed d.recordLimit = false
    let overlaps := OtherWindow p v (fun e => d.base < e.base + e.pages * 4096 ∧ e.base < above)
    let duplicate := kind ≠ .guard ∧ OtherWindow p v (fun e => e.kind = kind)
    let dayBound := (kind.dayBound = true ∨ (held.valid = true ∧ held.kind.dayBound = true)) ∧ p.window.dayState ≠ .closed
    let ringHeld := held.valid = true ∧ held.kind = .ring ∧ RingHeld p
    let reason := commitReason p v kind d
    (badAlign → reason = .align) ∧ (¬ badAlign → badSize → reason = .size) ∧
    (¬ badAlign → ¬ badSize → badLimit → reason = .limit) ∧
    (¬ badAlign → ¬ badSize → ¬ badLimit → overlaps → reason = .overlap) ∧
    (¬ badAlign → ¬ badSize → ¬ badLimit → ¬ overlaps → duplicate → reason = .duplicateKind) ∧
    (¬ badAlign → ¬ badSize → ¬ badLimit → ¬ overlaps → ¬ duplicate → dayBound → reason = .dayNotClosed) ∧
    (¬ badAlign → ¬ badSize → ¬ badLimit → ¬ overlaps → ¬ duplicate → ¬ dayBound → ringHeld → reason = .ringBusy) ∧
    (¬ badAlign → ¬ badSize → ¬ badLimit → ¬ overlaps → ¬ duplicate → ¬ dayBound → ¬ ringHeld → reason = .none) := by
  intro held above badAlign badSize badLimit overlaps duplicate dayBound ringHeld reason
  have hsize : (!kind.sizeAllowed d.pages) = true ↔ badSize := Eq.to_iff (Bool.not_eq_true' _)
  have hlimit : (!kind.limitAllowed d.recordLimit) = true ↔ badLimit := Eq.to_iff (Bool.not_eq_true' _)
  have hoverlap : otherWindow p v (fun e =>
      decide (d.base < e.base + e.pages * 4096) && decide (e.base < d.base + d.pages * 4096)) = true ↔ overlaps := by
    simp [otherWindow_iff, overlaps, above]
  have hduplicate : (kind ≠ .guard ∧ otherWindow p v (fun e => e.kind == kind) = true) ↔ duplicate := by
    simp [otherWindow_iff, duplicate]
  have hday : ((kind.dayBound || held.isValid WindowKind.dayBound) = true ∧ p.window.dayState ≠ .closed) ↔ dayBound := by
    simp [WindowEntry.isValid, dayBound]
  have hring : (held.isValid (· == .ring) = true ∧ ringBusy p = true) ↔ ringHeld := by
    simp [WindowEntry.isValid, ringBusy_iff, ringHeld, and_assoc]
  unfold reason commitReason
  refine ⟨?_, ?_, ?_, ?_, ?_, ?_, ?_, ?_⟩
  · intro h1
    exact if_pos h1
  · intro h1 h2
    exact (if_neg h1).trans (if_pos (hsize.mpr h2))
  · intro h1 h2 h3
    exact (if_neg h1).trans ((if_neg (mt hsize.mp h2)).trans (if_pos (hlimit.mpr h3)))
  · intro h1 h2 h3 h4
    rw [if_neg h1, if_neg (mt hsize.mp h2), if_neg (mt hlimit.mp h3), if_pos (hoverlap.mpr h4)]
  · intro h1 h2 h3 h4 h5
    rw [if_neg h1, if_neg (mt hsize.mp h2), if_neg (mt hlimit.mp h3), if_neg (mt hoverlap.mp h4), if_pos (hduplicate.mpr h5)]
  · intro h1 h2 h3 h4 h5 h6
    rw [if_neg h1, if_neg (mt hsize.mp h2), if_neg (mt hlimit.mp h3), if_neg (mt hoverlap.mp h4),
      if_neg (mt hduplicate.mp h5), if_pos (hday.mpr h6)]
  · intro h1 h2 h3 h4 h5 h6 h7
    rw [if_neg h1, if_neg (mt hsize.mp h2), if_neg (mt hlimit.mp h3), if_neg (mt hoverlap.mp h4),
      if_neg (mt hduplicate.mp h5), if_neg (mt hday.mp h6), if_pos (hring.mpr h7)]
  · intro h1 h2 h3 h4 h5 h6 h7
    rw [if_neg h1, if_neg (mt hsize.mp h2), if_neg (mt hlimit.mp h3), if_neg (mt hoverlap.mp h4),
      if_neg (mt hduplicate.mp h5), if_neg (mt hday.mp h6), if_neg (mt hring.mp h7)]

theorem commitWindow_badKind {m : Master} (h : WindowKind.ofCode (readDescriptor p.window.shadow v).kindCode = none ∨
      WindowKind.ofCode (readDescriptor p.window.shadow v).kindCode = some .anchor) :
    commitWindow p m v = refuseWindow p m v .badKind := by
  unfold commitWindow
  rcases h with h | h <;> simp only [h]

theorem commitWindow_known {m : Master} (hkind : WindowKind.ofCode (readDescriptor p.window.shadow v).kindCode = some kind)
    (hanchor : kind ≠ .anchor) :
    commitWindow p m v =
      if commitReason p v kind (readDescriptor p.window.shadow v) = .none then
        installWindow p v kind (readDescriptor p.window.shadow v)
      else refuseWindow p m v (commitReason p v kind (readDescriptor p.window.shadow v)) := by
  unfold commitWindow
  simp only [hkind]

theorem installWindow_entry (p : Part) (v : Window) (kind : WindowKind) (d : Descriptor) :
    installWindow p v kind d =
      let q := commitRing p p.window.cache[v] kind d
      let entry : WindowEntry :=
        { valid := true, kind := kind, base := d.base, pages := d.pages, readLevel := d.readLevel, writeLevel := d.writeLevel,
          recordLimit := if kind = .lot ∨ kind = .buyer ∨ kind = .desk then d.recordLimit else 0 }
      setWindowResult (q.setWindow { q.window with cache := q.window.cache.set v entry }) v .done .none := by
  simp only [installWindow, Descriptor.entry, recordSize_iff]

theorem commitRing_starts {held : WindowEntry} (hkind : kind = .ring) :
    commitRing p held kind d = { p with ring := ringAfresh p.ring (some { base := d.base, capacity := d.pages * 64 }) } :=
  if_pos hkind

theorem commitRing_ends {held : WindowEntry} (hkind : kind ≠ .ring) (hvalid : held.valid = true) (hheld : held.kind = .ring) :
    commitRing p held kind d = { p with ring := ringAfresh p.ring none } :=
  (if_neg hkind).trans (if_pos (by simp [WindowEntry.isValid, hvalid, hheld]))

theorem commitRing_keeps {held : WindowEntry} (hkind : kind ≠ .ring) (hheld : ¬ (held.valid = true ∧ held.kind = .ring)) :
    commitRing p held kind d = p :=
  (if_neg hkind).trans (if_neg (by simpa [WindowEntry.isValid] using hheld))

end

/-- R165, R166: a refused commit or removal, as one event. -/
theorem windowWord_refused {s : State} {w : PostedWrite} {v : Window} {cmd : Instr} {reason : CommitReason} {q : Part}
    (hexec : ∃ t, exec cmd s = .next t ∧ t.part = settle s.part q)
    (hq : q = refuseWindow (anchorOnly s.part w) w.master v reason) :
    ∃ t q, exec cmd s = .next t ∧ t.part = settle s.part q ∧
      q = { windowAnswered s.part w v .refusedMap reason with attention := q.attention } ∧
      MapRefused s.part q w (descriptorAt v + 0x18) := by
  obtain ⟨t, hexec, hpart⟩ := hexec
  refine ⟨t, q, hexec, hpart, ?_, ?_⟩
  · rw [hq]
    exact refuseWindow_frame _ _ _ _
  · rw [hq]
    exact refuseWindow_refused _ _ _ _ _ rfl rfl rfl

/-- R165: the taking of a window commit, as one event. -/
theorem exec_windowCommit {s : State} {w : PostedWrite} {v : Window} (htaken : WordTaken s.part w (.windowWord v))
    (hvalid : fieldAfter s.part w (descriptorAt v + 0x18) 1 ≠ 0) :
    ∃ t, exec .windowCommit s = .next t ∧ t.part = settle s.part (commitWindow (anchorOnly s.part w) w.master v) := by
  have hrow : isWindowWord true (shadowAfter s.part w) (.windowWord v) = true := beq_iff_eq.mpr (shadowValid_iff.mpr hvalid)
  obtain ⟨t, hexec, hpart⟩ := exec_row_taken htaken hrow nofun (cmd := .windowCommit) rfl
  rw [perform_windowWord, if_pos hvalid] at hpart
  exact ⟨t, hexec, hpart⟩

/-- R165: the taking of a window commit that passes, as one event. -/
theorem exec_windowCommit_installs {s : State} {w : PostedWrite} {v : Window} {kind : WindowKind}
    (htaken : WordTaken s.part w (.windowWord v)) (hvalid : fieldAfter s.part w (descriptorAt v + 0x18) 1 ≠ 0)
    (hkind : WindowKind.ofCode (readDescriptor (shadowAfter s.part w) v).kindCode = some kind) (hanchor : kind ≠ .anchor)
    (hreason : commitReason s.part v kind (readDescriptor (shadowAfter s.part w) v) = .none) :
    ∃ t, exec .windowCommit s = .next t ∧
      t.part = settle s.part (installWindow (anchorOnly s.part w) v kind (readDescriptor (shadowAfter s.part w) v)) := by
  obtain ⟨t, hexec, hpart⟩ := exec_windowCommit htaken hvalid
  rw [commitWindow_known (p := anchorOnly s.part w) hkind hanchor] at hpart
  exact ⟨t, hexec, hpart.trans (congrArg _ (if_pos hreason))⟩

/-- Settles O44: the reasons in the table's order (`commitReason_order`), and the entry that a commit without one installs. -/
theorem windowCommitChecksTheDescriptor : Obligations.WindowCommitChecksTheDescriptor := by
  intro s w v htaken hvalid d held above refused
  refine ⟨?_, ?_⟩
  · intro hbad
    exact windowWord_refused (exec_windowCommit htaken hvalid) (commitWindow_badKind hbad)
  · intro kind hkind hanchor badAlign badSize badLimit overlaps duplicate dayBound ringHeld
    have hrefused : ∀ reason, commitReason s.part v kind d = reason → reason ≠ .none → refused reason := by
      intro reason hreason hnone
      refine windowWord_refused (exec_windowCommit htaken hvalid) ?_
      rw [commitWindow_known (p := anchorOnly s.part w) hkind hanchor]
      subst hreason
      exact if_neg hnone
    obtain ⟨h1, h2, h3, h4, h5, h6, h7, h8⟩ := commitReason_order s.part v kind d
    refine ⟨?_, ?_, ?_, ?_, ?_, ?_, ?_, ?_⟩
    · intro g1; exact hrefused _ (h1 g1) nofun
    · intro g1 g2; exact hrefused _ (h2 g1 g2) nofun
    · intro g1 g2 g3; exact hrefused _ (h3 g1 g2 g3) nofun
    · intro g1 g2 g3 g4; exact hrefused _ (h4 g1 g2 g3 g4) nofun
    · intro g1 g2 g3 g4 g5; exact hrefused _ (h5 g1 g2 g3 g4 g5) nofun
    · intro g1 g2 g3 g4 g5 g6; exact hrefused _ (h6 g1 g2 g3 g4 g5 g6) nofun
    · intro g1 g2 g3 g4 g5 g6 g7; exact hrefused _ (h7 g1 g2 g3 g4 g5 g6 g7) nofun
    · intro g1 g2 g3 g4 g5 g6 g7
      obtain ⟨t, hexec, hpart⟩ :=
        exec_windowCommit_installs htaken hvalid hkind hanchor (h8 g1 g2 g3 g4 g5 g6 g7)
      rw [installWindow_entry] at hpart
      refine ⟨t, hexec, ?_, ?_, ?_⟩
      · intro hring
        rw [commitRing_starts hring] at hpart
        exact hpart
      · intro hring hheld hheldRing
        rw [commitRing_ends (held := (anchorOnly s.part w).window.cache[v]) hring hheld hheldRing] at hpart
        exact hpart
      · intro hring hheld
        rw [commitRing_keeps (held := (anchorOnly s.part w).window.cache[v]) hring hheld] at hpart
        exact hpart

/-! ### Window removals -/

section

variable {p : Part} {m : Master} {v : Window}

theorem removeWindow_absent (hvalid : p.window.cache[v].valid = false) :
    removeWindow p m v = setWindowResult p v .done .none := if_pos hvalid

theorem removeWindow_dayBound (hvalid : p.window.cache[v].valid = true) (hbound : p.window.cache[v].kind.dayBound = true)
    (hday : p.window.dayState ≠ .closed) : removeWindow p m v = refuseWindow p m v .dayNotClosed :=
  (if_neg (by rw [hvalid]; nofun)).trans (if_pos ⟨hbound, hday⟩)

theorem removeWindow_unbound (hvalid : p.window.cache[v].valid = true)
    (hbound : p.window.cache[v].kind.dayBound = false ∨ p.window.dayState = .closed) :
    removeWindow p m v =
      if p.window.cache[v].kind = .ring ∧ ringBusy p = true then refuseWindow p m v .ringBusy else clearWindow p v := by
  have hfree : ¬ (p.window.cache[v].kind.dayBound = true ∧ p.window.dayState ≠ .closed) := by
    rintro ⟨hb, hd⟩
    rcases hbound with h | h
    · rw [h] at hb; cases hb
    · exact hd h
  exact (if_neg (by rw [hvalid]; nofun)).trans (if_neg hfree)

theorem clearWindow_ring (hring : p.window.cache[v].kind = .ring) :
    clearWindow p v =
      let q : Part := { p with ring := ringAfresh p.ring none }
      setWindowResult (q.setWindow { q.window with cache := q.window.cache.set v { p.window.cache[v] with valid := false } })
        v .done .none := by
  simp only [clearWindow, if_pos hring]
  rfl

theorem clearWindow_other (hring : p.window.cache[v].kind ≠ .ring) :
    clearWindow p v =
      setWindowResult (p.setWindow { p.window with cache := p.window.cache.set v { p.window.cache[v] with valid := false } })
        v .done .none := by
  simp only [clearWindow, if_neg hring]

end

/-- R166: the taking of a window removal, as one event. -/
theorem exec_windowRemoval {s : State} {w : PostedWrite} {v : Window} (htaken : WordTaken s.part w (.windowWord v))
    (hvalid : fieldAfter s.part w (descriptorAt v + 0x18) 1 = 0) :
    ∃ t, exec .windowRemoval s = .next t ∧ t.part = settle s.part (removeWindow (anchorOnly s.part w) w.master v) := by
  have hrow : isWindowWord false (shadowAfter s.part w) (.windowWord v) = true :=
    beq_iff_eq.mpr (Bool.eq_false_iff.mpr fun h => shadowValid_iff.mp h hvalid)
  obtain ⟨t, hexec, hpart⟩ := exec_row_taken htaken hrow nofun (cmd := .windowRemoval) rfl
  rw [perform_windowWord, if_neg (not_not_intro hvalid)] at hpart
  exact ⟨t, hexec, hpart⟩

/-- Settles O45, by the checks of a removal in their order. -/
theorem windowRemovalMarksTheEntryNotValid : Obligations.WindowRemovalMarksTheEntryNotValid := by
  intro s w v htaken hrequest held removed refused
  obtain ⟨t, hexec, hpart⟩ := exec_windowRemoval htaken hrequest
  refine ⟨?_, ?_, ?_, ?_, ?_⟩
  · intro hvalid
    exact ⟨t, hexec, hpart.trans (congrArg _ (removeWindow_absent hvalid))⟩
  · intro hvalid hbound hday
    exact windowWord_refused ⟨t, hexec, hpart⟩ (removeWindow_dayBound hvalid hbound hday)
  · intro hvalid hring hday hheld
    refine windowWord_refused ⟨t, hexec, hpart⟩ ?_
    rw [removeWindow_unbound (p := anchorOnly s.part w) hvalid (.inr hday)]
    exact if_pos ⟨hring, ringBusy_iff.mpr hheld⟩
  · intro hvalid hring hday hheld
    have hfree : ¬ (held.kind = .ring ∧ ringBusy s.part = true) := fun h => hheld (ringBusy_iff.mp h.2)
    rw [removeWindow_unbound (p := anchorOnly s.part w) hvalid (.inr hday)] at hpart
    exact ⟨t, hexec, hpart.trans (congrArg _ ((if_neg hfree).trans (clearWindow_ring hring)))⟩
  · intro hvalid hring hbound
    have hother : ¬ (held.kind = .ring ∧ ringBusy s.part = true) := fun h => hring h.1
    rw [removeWindow_unbound (p := anchorOnly s.part w) hvalid hbound] at hpart
    exact ⟨t, hexec, hpart.trans (congrArg _ ((if_neg hother).trans (clearWindow_other hring)))⟩

/-! ### Master commits -/

section

variable {shadow : List Host.Cell} {m : Master}

/-- R159: a field of a master's descriptor in the shadow. -/
def masterField (shadow : List Host.Cell) (m : Master) (start size : Nat) : Nat := Memory.field shadow (masterAt m + start) size

/-- R159: the desk range of a master's descriptor is one that the DESK role takes. -/
def DesksFit (shadow : List Host.Cell) (m : Master) : Prop :=
  masterField shadow m 4 2 ≤ 511 ∧ 1 ≤ masterField shadow m 6 2 ∧ masterField shadow m 6 2 ≤ 512 ∧
    masterField shadow m 4 2 + masterField shadow m 6 2 ≤ 512

/-- R159: a descriptor of known codes, by its privilege and its desk range. -/
theorem readMaster_known {role : Role} {grantClass : GrantClass} (hrole : Role.ofCode (masterField shadow m 0 1) = some role)
    (hclass : GrantClass.ofCode (masterField shadow m 2 1) = some grantClass) :
    (3 < masterField shadow m 1 1 ∨ (role = .desk ∧ ¬ DesksFit shadow m) → readMaster shadow m = none) ∧
    (¬ (3 < masterField shadow m 1 1 ∨ (role = .desk ∧ ¬ DesksFit shadow m)) → readMaster shadow m = some
      { role := role, privilege := masterField shadow m 1 1, grantClass := grantClass,
        firstDesk := if role = .desk then masterField shadow m 4 2 else 0,
        deskCount := if role = .desk then masterField shadow m 6 2 else 0,
        laneMask := if role = .track ∨ role = .display then BitVec.ofNat 6 (masterField shadow m 3 1) else 0 }) := by
  unfold masterField at hrole hclass
  have hdesks : (!(decide (masterField shadow m 4 2 ≤ 511) && decide (1 ≤ masterField shadow m 6 2) &&
      decide (masterField shadow m 6 2 ≤ 512) && decide (masterField shadow m 4 2 + masterField shadow m 6 2 ≤ 512))) = true ↔
      ¬ DesksFit shadow m := by
    simp only [DesksFit, Bool.not_eq_true', Bool.eq_false_iff, ne_eq, Bool.and_eq_true, decide_eq_true_eq, and_assoc]
  unfold readMaster
  simp only [hrole, hclass]
  exact ⟨fun h => if_pos (h.imp_right fun h => ⟨h.1, hdesks.mpr h.2⟩),
    fun h => if_neg fun hbad => h (hbad.imp_right fun hbad => ⟨hbad.1, hdesks.mp hbad.2⟩)⟩

theorem readMaster_role (hrole : Role.ofCode (masterField shadow m 0 1) = none) : readMaster shadow m = none := by
  unfold masterField at hrole
  unfold readMaster
  simp only [hrole]

theorem readMaster_class (hclass : GrantClass.ofCode (masterField shadow m 2 1) = none) : readMaster shadow m = none := by
  unfold masterField at hclass
  unfold readMaster
  simp only [hclass]
  cases Role.ofCode (Memory.field shadow (masterAt m + 0) 1) <;> rfl

/-- R159: a descriptor out of its values or ranges is no entry. -/
theorem readMaster_unfit
    (h : Role.ofCode (masterField shadow m 0 1) = none ∨ GrantClass.ofCode (masterField shadow m 2 1) = none ∨
      3 < masterField shadow m 1 1 ∨ (Role.ofCode (masterField shadow m 0 1) = some .desk ∧ ¬ DesksFit shadow m)) :
    readMaster shadow m = none := by
  cases hrole : Role.ofCode (masterField shadow m 0 1) with
  | none => exact readMaster_role hrole
  | some role =>
    cases hclass : GrantClass.ofCode (masterField shadow m 2 1) with
    | none => exact readMaster_class hclass
    | some grantClass =>
      refine (readMaster_known hrole hclass).1 ?_
      rw [hrole, hclass] at h
      rcases h with h | h | h | ⟨hdesk, h⟩
      · cases h
      · cases h
      · exact .inl h
      · exact .inr ⟨Option.some.inj hdesk, h⟩

end

theorem commitMaster_refused {p : Part} {master m : Master} (h : m = 0 ∨ readMaster p.window.shadow m = none) :
    commitMaster p master m = refuseMaster p master m := by
  unfold commitMaster
  by_cases hzero : m = 0
  · exact if_pos hzero
  · rw [if_neg hzero]
    simp only [h.resolve_left hzero]

theorem commitMaster_installs {p : Part} {master m : Master} {e : MasterEntry} (hm : m ≠ 0)
    (h : readMaster p.window.shadow m = some e) :
    commitMaster p master m = setMasterResult (p.setWindow { p.window with masters := p.window.masters.set m e }) m .done .none := by
  unfold commitMaster
  rw [if_neg hm]
  simp only [h]

/-- R159: the taking of a master commit, as one event that ends as it stands. -/
theorem exec_masterCommit {s : State} {w : PostedWrite} {m : Master} {q : Part} (hquiet : QuietPart s.part)
    (htaken : WordTaken s.part w (.masterWord m)) (hq : commitMaster (anchorOnly s.part w) w.master m = q)
    (hring : q.ring = s.part.ring) (hlanes : q.lanes = s.part.lanes) (haccount : q.account = s.part.account)
    (hdisplays : q.displays = s.part.displays) : ∃ t, exec .masterCommit s = .next t ∧ t.part = q := by
  obtain ⟨t, hexec, hpart⟩ := exec_row_taken htaken (row := isMasterWord) rfl nofun (cmd := .masterCommit) rfl
  refine ⟨t, hexec, hpart.trans ?_⟩
  have hperform : perform w (anchorBytes s.part w) (anchorOnly s.part w) (.masterWord m) = q := hq
  rw [hperform]
  exact settle_anchorOnly (w := w) hquiet hring hlanes (congrArg _ haccount) hdisplays

/-- Settles O46, by the descriptor as it stands in the shadow (`readMaster_known`). -/
theorem masterCommitInstallsTheEntry : Obligations.MasterCommitInstallsTheEntry := by
  intro s w m hquiet htaken field desksFit answered
  refine ⟨?_, ?_⟩
  · intro hbad
    have hrefused : commitMaster (anchorOnly s.part w) w.master m = refuseMaster (anchorOnly s.part w) w.master m :=
      commitMaster_refused (hbad.imp_right readMaster_unfit)
    have hreported : MapRefused s.part (refuseMaster (anchorOnly s.part w) w.master m) w (masterAt m + 0x08) :=
      refuseMaster_refused _ _ _ _ rfl rfl rfl
    obtain ⟨t, hexec, hpart⟩ := exec_masterCommit hquiet htaken hrefused rfl rfl rfl rfl
    refine ⟨t, hexec, ?_, ?_⟩
    · rw [hpart]
      rfl
    · rw [hpart]
      exact hreported
  · intro role grantClass hm hrole hclass hprivilege hdesks
    have hfit : ¬ (3 < masterField (shadowAfter s.part w) m 1 1 ∨
        (role = .desk ∧ ¬ DesksFit (shadowAfter s.part w) m)) := by
      rintro (h | ⟨hdesk, h⟩)
      · exact absurd hprivilege (Nat.not_le.mpr h)
      · exact h (hdesks hdesk)
    have hentry := (readMaster_known (shadow := shadowAfter s.part w) hrole hclass).2 hfit
    obtain ⟨t, hexec, hpart⟩ := exec_masterCommit hquiet htaken
      (commitMaster_installs (p := anchorOnly s.part w) hm hentry) rfl rfl rfl rfl
    exact ⟨t, hexec, hpart⟩

/-! ### The words of the attention area -/

/-- R178, R180, R182, R183: the taking of a word that changes the Attention Unit alone. -/
theorem exec_attentionWord {s : State} {w : PostedWrite} {a : AnchorAction} {cmd : Instr} {u : AttentionUnit}
    (hquiet : QuietPart s.part) (htaken : WordTaken s.part w a) (ha : a ≠ .threshold)
    (hcmd : exec cmd s = actOn s (takeAnchor (isAction a)))
    (hperform : perform w (anchorBytes s.part w) (anchorOnly s.part w) a = { anchorOnly s.part w with attention := u }) :
    ∃ t, exec cmd s = .next t ∧ t.part = { anchorOnly s.part w with attention := u } := by
  obtain ⟨t, hexec, hpart⟩ := exec_word_taken htaken ha hcmd
  refine ⟨t, hexec, ?_⟩
  rw [hpart, hperform]
  exact settle_anchorOnly (w := w) hquiet rfl rfl rfl rfl

theorem release_locked {a : AttentionUnit} (h : a.capture.locked = true) :
    a.release = { a with capture := { a.capture with locked := false, lost := 0 },
                         releaseResult := { outcome := .done, lost := a.capture.lost } } := if_pos h

theorem release_free {a : AttentionUnit} (h : a.capture.locked = false) :
    a.release = { a with releaseResult := { outcome := .notLocked, lost := 0 } } := if_neg (by rw [h]; nofun)

/-- R182: the flags that a flag-clear word clears and those it gives. -/
theorem clearFlags_bits (a : AttentionUnit) (named : Nat) (k : Fin 18) :
    (a.clearFlags (BitVec.ofNat 18 named)).flags.getLsbD k.val = (a.flags.getLsbD k.val && !named.testBit k.val) ∧
      (a.clearFlags (BitVec.ofNat 18 named)).clearResult.cleared.getLsbD k.val =
        (a.flags.getLsbD k.val && named.testBit k.val) := by
  have hk := k.isLt
  have hnamed : (BitVec.ofNat 18 named).getLsbD k.val = named.testBit k.val := by
    rw [BitVec.getLsbD_ofNat, decide_eq_true hk, Bool.true_and]
  refine ⟨?_, ?_⟩
  · rw [AttentionUnit.clearFlags, BitVec.getLsbD_and, BitVec.getLsbD_not, hnamed, decide_eq_true hk, Bool.true_and]
  · rw [AttentionUnit.clearFlags, BitVec.getLsbD_and, hnamed]

theorem mapEntry_ofCode {value : Nat} {e : MapEntry} (h : value = e.code) : MapEntry.ofCode value = some e := by
  subst h
  cases e <;> rfl

theorem mapEntry_unknown : ∀ {value : Nat}, 2 < value → MapEntry.ofCode value = none
  | _ + 3, _ => rfl

/-- Settles O47, word by word. -/
theorem attentionWordsActOnTheirFieldsAlone : Obligations.AttentionWordsActOnTheirFieldsAlone := by
  intro s w hquiet a
  refine ⟨?_, ?_, ?_, ?_⟩
  · intro htaken named
    obtain ⟨t, hexec, hpart⟩ := exec_attentionWord hquiet htaken nofun (cmd := .flagClear)
      (u := a.clearFlags (BitVec.ofNat 18 named)) rfl rfl
    refine ⟨t, hexec, ?_, fun k => ?_⟩
    · rw [hpart]
      rfl
    · rw [hpart]
      exact clearFlags_bits a named k
  · intro htaken
    obtain ⟨t, hexec, hpart⟩ := exec_attentionWord hquiet htaken nofun (cmd := .captureRelease) (u := a.release) rfl rfl
    refine ⟨t, hexec, fun hlocked => ?_, fun hfree => ?_⟩
    · rw [hpart, release_locked hlocked]
    · rw [hpart, release_free hfree]
  · intro htaken
    obtain ⟨hframe, hentries⟩ := mapEntries_law (anchorBytes s.part w) (shadowAfter s.part w) (List.finRange 18)
      (List.nodup_finRange 18) a
    obtain ⟨t, hexec, hpart⟩ := exec_attentionWord hquiet htaken nofun (cmd := .eventMapWrite)
      (u := (List.finRange 18).foldl (AttentionUnit.mapEntry (anchorBytes s.part w) (shadowAfter s.part w)) a) rfl rfl
    generalize (List.finRange 18).foldl (AttentionUnit.mapEntry (anchorBytes s.part w) (shadowAfter s.part w)) a = u at *
    refine ⟨t, hexec, ?_, ?_⟩
    · rw [hpart]
      exact congrArg (fun u => { anchorOnly s.part w with attention := u }) hframe
    · intro k covered value
      refine ⟨fun e hk hcovered hvalue => ?_, fun hkept => ?_⟩
      · have hnamed : k ∈ List.finRange 18 ∧ k ≠ 7 ∧ covers (anchorBytes s.part w) (0x0340 + k.val) 1 = true :=
          ⟨List.mem_finRange k, hk, hcovered⟩
        have hentry := hentries k
        rw [if_pos hnamed] at hentry
        rw [hpart]
        exact hentry.trans (congrArg (fun o => Option.getD o a.map[k]) (mapEntry_ofCode hvalue))
      · rw [hpart]
        refine (hentries k).trans ?_
        split
        next hnamed =>
          obtain ⟨hmem, hk, hcovered⟩ := hnamed
          have hvalue : 2 < value := (hkept.resolve_left hk).resolve_left (not_not_intro hcovered)
          exact congrArg (fun o => Option.getD o a.map[k]) (mapEntry_unknown hvalue)
        next => rfl
  · intro htaken
    exact exec_attentionWord hquiet htaken nofun (cmd := .reportCorrectedSwitchWrite)
      (u := { a with reportCorrected := decide (fieldAfter s.part w 0x0339 1 = 1) }) rfl rfl

/-! ### The taking of an Anchor write -/

/-- R157: an Anchor write shadowed, forwarded and acted on, each of its commands once in the drawn order. -/
theorem takeAnchorWrite_eq (p : Part) (w : PostedWrite) :
    takeAnchorWrite w (popWrite p) =
      let q := (freelyOrdered p.freeDraws (anchorActions (anchorBytes p w))).foldl (perform w (anchorBytes p w)) (anchorBefore p w)
      if (anchorActions (anchorBytes p w)).length < 2 then q else { q with freeDraws := q.freeDraws + 1 } := rfl

/-- R157: but for the draws, it is its commands performed on the shadowed and forwarded write. -/
theorem takeAnchorWrite_popWrite (p : Part) (w : PostedWrite) :
    ∃ n, takeAnchorWrite w (popWrite p) =
      { (freelyOrdered p.freeDraws (anchorActions (anchorBytes p w))).foldl (perform w (anchorBytes p w)) (anchorBefore p w) with
        freeDraws := n } := by
  rw [takeAnchorWrite_eq]
  dsimp only
  split
  · exact ⟨_, rfl⟩
  · exact ⟨_, rfl⟩

/-- R157: a plain Anchor write is shadowed and forwarded. -/
theorem takeAnchorWrite_plain {p : Part} {w : PostedWrite} (h : anchorActions (anchorBytes p w) = []) :
    takeAnchorWrite w (popWrite p) = anchorBefore p w := by
  rw [takeAnchorWrite_eq, h]
  rfl

theorem into_of {w : PostedWrite} {kind : WindowKind} (hpass : w.cls.check = .pass) (hkind : w.cls.kind = some kind) :
    w.into kind = true := by
  simp [PostedWrite.into, hpass, hkind]

/-- R157: the taking of an allowed Anchor write by a row that names one of its commands. -/
theorem takeAnchor_row {row : List Host.Cell → AnchorAction → Bool} {p : Part} {w : PostedWrite} (hhead : HeadTakeable p w)
    (hpass : w.cls.check = .pass) (hkind : w.cls.kind = some .anchor)
    (hrow : (anchorActions (anchorBytes p w)).any (row (shadowAfter p w)) = true) :
    takeAnchor row p = settleAnchor w p (takeAnchorWrite w (popWrite p)) :=
  takeWriteThen_of _ _ _ p w hhead (by rw [anchorRow, into_of hpass hkind, hrow]; rfl)

theorem thresholdTaken_iff {p : Part} {w : PostedWrite} :
    thresholdTaken p w = true ↔
      AnchorAction.threshold ∈ anchorActions (anchorBytes p w) ∧ fieldAfter p w 0x0206 2 ≤ 4095 := by
  simp [thresholdTaken, thresholdFits, fieldAfter]

/-- Settles O48: the drawn order permutes the commands that the write covers (`freelyOrdered_perm`). -/
theorem anchorWriteIsShadowedForwardedAndActedOn : Obligations.AnchorWriteIsShadowedForwardedAndActedOn := by
  intro s w hhead hpass hkind
  refine ⟨fun hquiet hnone => ?_, ?_⟩
  · have hplain : isPlainAnchor s.part w = true := by
      rw [isPlainAnchor, into_of hpass hkind, hnone]
      rfl
    refine actOn_taken (f := takeWrite isPlainAnchor takeAnchorWrite) ?_
    rw [takeWrite_of _ _ s.part w hhead hplain, takeAnchorWrite_plain hnone, anchorBefore_form]
    exact settle_keeps s.part _ hquiet rfl rfl rfl rfl
  · refine ⟨freelyOrdered s.part.freeDraws (anchorActions (anchorBytes s.part w)), freelyOrdered_perm _ _, ?_⟩
    intro row hrow
    obtain ⟨n, hacted⟩ := takeAnchorWrite_popWrite s.part w
    rw [anchorBefore_form] at hacted
    refine ⟨n, ?_⟩
    rw [takeAnchor_row hhead hpass hkind hrow, hacted]
    intro q taken
    exact ⟨fun h => if_pos (thresholdTaken_iff.mpr h), fun h => if_neg (mt thresholdTaken_iff.mp h)⟩

end Sys2Proof.Machine
end

section
/-! PROOFS. The classification of accesses. -/

namespace Sys2Proof.Machine

open Sys2Proof.Safety

/-! ### The window that an access matches -/

theorem covers_iff {p : Part} {v : Window} {address : Nat} : p.window.cache[v].covers address = true ↔ InWindow p v address := by
  simp [WindowEntry.covers, InWindow, and_assoc]

theorem matchWindow_none {p : Part} {address : Nat} (h : ∀ v, ¬ InWindow p v address) : matchWindow p address = none :=
  List.find?_eq_none.mpr fun v _ => mt covers_iff.mp (h v)

/-- R160: the first window whose range holds the address is the one that is matched. -/
theorem matchWindow_first {p : Part} {v : Window} {address : Nat} (hv : InWindow p v address)
    (hfirst : ∀ x, x < v → ¬ InWindow p x address) : matchWindow p address = some v := by
  refine List.find?_eq_some_iff_getElem.mpr ⟨covers_iff.mpr hv, v.val, by simp, by simp, fun x hx => ?_⟩
  have hlt : x < 16 := Nat.lt_trans hx v.isLt
  simpa using mt covers_iff.mp (hfirst ⟨x, hlt⟩ hx)

/-! ### The checks of an access -/

theorem accessAllowed_iff {m : MasterEntry} {e : WindowEntry} {direction : Direction} :
    accessAllowed m e direction = true ↔ RoleAllows m e direction := by
  cases direction
  case read => cases hkind : e.kind <;> simp [accessAllowed, RoleAllows, hkind]
  case write => cases hkind : e.kind <;> simp [accessAllowed, RoleAllows, hkind]

/-- R164: the bytes of one slot are four successive ones, the first of them a multiple of 16. -/
theorem oneSlot_iff {bytes : List (Nat × Byte)} : oneSlot bytes = true ↔ ∃ slot, FirstFourOf slot bytes := by
  unfold oneSlot FirstFourOf
  split
  next a b c d hbytes =>
    rw [hbytes]
    simp only [Bool.and_eq_true, beq_iff_eq, List.cons.injEq, and_true]
    constructor
    · rintro ⟨⟨⟨ha, hb⟩, hc⟩, hd⟩
      exact ⟨a, ha, rfl, hb, hc, hd⟩
    · rintro ⟨slot, hslot, rfl, hb, hc, hd⟩
      exact ⟨⟨⟨hslot, hb⟩, hc⟩, hd⟩
  next hbytes =>
    simp only [Bool.false_eq_true, false_iff]
    rintro ⟨slot, hslot, hfour⟩
    exact hbytes _ _ _ _ hfour

theorem firstEnabled_of_firstFour {slot n : Nat} {bytes : List (Nat × Byte)} (h : FirstFourOf slot bytes) :
    firstEnabled bytes n = slot := by
  obtain ⟨_, hbytes⟩ := h
  cases bytes with
  | nil => cases hbytes
  | cons b bs => exact (List.cons.inj hbytes).1

theorem trackForm_iff {bytes : List (Nat × Byte)} :
    (oneSlot bytes && decide (firstEnabled bytes 0 / 64 < 6) && firstEnabled bytes 0 % 64 / 16 != 3 && enabledValue bytes != 0) = true ↔
      ∃ slot, FirstFourOf slot bytes ∧ slot / 64 < 6 ∧ slot % 64 / 16 ≠ 3 ∧ leNat (bytes.map Prod.snd) ≠ 0 := by
  simp only [Bool.and_eq_true, oneSlot_iff, decide_eq_true_eq, bne_iff_ne, enabledValue]
  constructor
  · rintro ⟨⟨⟨⟨slot, hslot⟩, hlane⟩, hplace⟩, hvalue⟩
    rw [firstEnabled_of_firstFour hslot] at hlane hplace
    exact ⟨slot, hslot, hlane, hplace, hvalue⟩
  · rintro ⟨slot, hslot, hlane, hplace, hvalue⟩
    rw [firstEnabled_of_firstFour hslot]
    exact ⟨⟨⟨⟨slot, hslot⟩, hlane⟩, hplace⟩, hvalue⟩

theorem formPasses_iff {kind : WindowKind} {direction : Direction} {bytes : List (Nat × Byte)} {crosses : Bool} :
    formPasses kind direction bytes crosses = true ↔ crosses = false ∧ FormFits kind direction bytes := by
  have hform : formPasses kind direction bytes false = true ↔ FormFits kind direction bytes := by
    cases direction
    case read => cases kind <;> simp [formPasses, FormFits]
    case write =>
      cases kind
      case press => simpa [formPasses, FormFits] using oneSlot_iff
      case track => simpa [formPasses, FormFits] using trackForm_iff
      all_goals simp [formPasses, FormFits]
  cases crosses
  · rw [hform]
    simp
  · simp [formPasses]

theorem hasDesk_iff {m : MasterEntry} {desk : Nat} : m.hasDesk desk = true ↔ InDesks m desk := by
  simp [MasterEntry.hasDesk, InDesks]

theorem rangePasses_iff {m : MasterEntry} {kind : WindowKind} {direction : Direction} {offset size : Nat}
    {bytes : List (Nat × Byte)} :
    rangePasses m kind direction offset size bytes = true ↔
      RangeFits m kind direction offset size (firstEnabled bytes offset) := by
  cases direction
  case read => cases kind <;> simp [rangePasses, RangeFits, hasDesk_iff, MasterEntry.hasLane, imp_iff_not_or]
  case write => cases kind <;> simp [rangePasses, RangeFits, hasDesk_iff, MasterEntry.hasLane]

theorem limitPasses_iff {e : WindowEntry} {offset size : Nat} : limitPasses e offset size = true ↔ LimitFits e offset size := by
  cases hkind : e.kind <;> simp [limitPasses, LimitFits, WindowKind.recordSize, hkind]

theorem placeOf_named (kind : WindowKind) (offset : Nat) (bytes : List (Nat × Byte)) :
    PlaceNamed kind offset (firstEnabled bytes offset) (placeOf kind offset bytes) := by
  cases kind <;> simp [PlaceNamed, placeOf]

/-- R162: the checks of an access into a window, in their order. -/
theorem checkAccess_order (m : MasterEntry) (e : WindowEntry) (direction : Direction) (address beats : Nat)
    (bytes : List (Nat × Byte)) :
    let offset := address - e.base
    let crosses := 64 < address % 64 + 8 * beats
    let check := checkAccess m e direction address beats bytes
    (¬ RoleAllows m e direction → check = .rights) ∧
    (RoleAllows m e direction →
      (crosses ∨ ¬ FormFits e.kind direction bytes → check = .format) ∧
      (¬ crosses → FormFits e.kind direction bytes →
        (¬ RangeFits m e.kind direction offset (8 * beats) (firstEnabled bytes offset) → check = .rights) ∧
        (RangeFits m e.kind direction offset (8 * beats) (firstEnabled bytes offset) →
          (¬ LimitFits e offset (8 * beats) → check = .limit) ∧ (LimitFits e offset (8 * beats) → check = .pass)))) := by
  intro offset crosses check
  have hrole : (!accessAllowed m e direction) = true ↔ ¬ RoleAllows m e direction := by
    rw [← accessAllowed_iff, Bool.not_eq_true', Bool.not_eq_true]
  have hform : (!formPasses e.kind direction bytes (crossesLine address beats)) = true ↔
      crosses ∨ ¬ FormFits e.kind direction bytes := by
    rw [Bool.not_eq_true', ← Bool.not_eq_true, formPasses_iff, crossesLine, decide_eq_false_iff_not]
    rw [Classical.not_and_iff_not_or_not, Classical.not_not]
  have hrange : (!rangePasses m e.kind direction offset (8 * beats) bytes) = true ↔
      ¬ RangeFits m e.kind direction offset (8 * beats) (firstEnabled bytes offset) := by
    rw [← rangePasses_iff, Bool.not_eq_true', Bool.not_eq_true]
  have hlimit : (!limitPasses e offset (8 * beats)) = true ↔ ¬ LimitFits e offset (8 * beats) := by
    rw [← limitPasses_iff, Bool.not_eq_true', Bool.not_eq_true]
  unfold check checkAccess
  refine ⟨fun h => if_pos (hrole.mpr h), fun h1 => ?_⟩
  rw [if_neg (mt hrole.mp (not_not_intro h1))]
  refine ⟨fun h => if_pos (hform.mpr h), fun h2 h3 => ?_⟩
  rw [if_neg (mt hform.mp (not_or.mpr ⟨h2, not_not_intro h3⟩))]
  refine ⟨fun h => if_pos (hrange.mpr h), fun h4 => ?_⟩
  rw [if_neg (mt hrange.mp (not_not_intro h4))]
  exact ⟨fun h => if_pos (hlimit.mpr h), fun h => if_neg (mt hlimit.mp (not_not_intro h))⟩

theorem classify_unmatched {p : Part} {m : Master} {direction : Direction} {address : Address} {n : Nat} {bytes : List (Nat × Byte)}
    (h : matchWindow p address.toNat = none) :
    classify p m direction address n bytes =
      { window := none, kind := none, check := if crossesLine address.toNat n then .format else .pass, place := .none } := by
  unfold classify
  simp only [h]

theorem classify_matched {p : Part} {m : Master} {direction : Direction} {address : Address} {n : Nat} {bytes : List (Nat × Byte)}
    {v : Window} (h : matchWindow p address.toNat = some v) :
    classify p m direction address n bytes =
      let e := p.window.cache[v]
      let inside := offsetsFrom e.base bytes
      { window := some v, kind := some e.kind, check := checkAccess p.window.masters[m] e direction address.toNat n inside,
        place := placeOf e.kind (address.toNat - e.base) inside } := by
  unfold classify
  simp only [h]

/-- Settles O49: the match by `matchWindow_first`, the checks by `checkAccess_order`. -/
theorem accessesAreMatchedAndCheckedInOrder : Obligations.AccessesAreMatchedAndCheckedInOrder := by
  intro p m direction address n bytes c crosses
  refine ⟨fun hnone => ?_, fun v hv hfirst => ?_⟩
  · have hc : c = _ := classify_unmatched (matchWindow_none hnone)
    rw [hc]
    exact ⟨rfl, rfl, rfl, fun h => if_pos (decide_eq_true h), fun h => if_neg (by rw [crossesLine, decide_eq_false h]; nofun)⟩
  · intro e master offset inside first
    have hc : c = _ := classify_matched (matchWindow_first hv hfirst)
    rw [hc]
    exact ⟨rfl, rfl, placeOf_named e.kind offset inside, checkAccess_order master e direction address.toNat n inside⟩

end Sys2Proof.Machine
end

section
/-! PROOFS. The reads that the part answers or forwards, and what an Anchor read shows. -/

namespace Sys2Proof.Machine

open Sys2Proof.Safety

/-! ### The taking of a read -/

/-- R155: the taking of a read of a row, as one event. -/
theorem exec_read_taken {s : State} {r : ReadInProgress} {row : ReadInProgress → Bool} {act : ReadInProgress → Part → Part}
    {cmd : Instr} (htake : ReadTakeable s.part r) (hrow : row r = true) (hcmd : exec cmd s = actOn s (takeRead row act)) :
    ∃ t, exec cmd s = .next t ∧ t.part = act r s.part :=
  ⟨_, hcmd, takeRead_of row act s.part r htake hrow⟩

/-- R155: a read that passed its checks into a window of a kind is its kind's row's. -/
theorem read_into_of {p : Part} {r : ReadInProgress} {kind : WindowKind} (h : ReadInto p r kind) : r.into kind = true := by
  obtain ⟨_, hpass, hkind⟩ := h
  simp [ReadInProgress.into, hpass, hkind]

theorem isForwardedRead_of {r : ReadInProgress} (hpass : r.cls.check = .pass)
    (hkind : r.cls.kind = none ∨ r.cls.kind = some .guard ∨ r.cls.kind = some .ring) : isForwardedRead r = true := by
  rcases hkind with hkind | hkind | hkind <;> simp [isForwardedRead, hpass, hkind]

/-! ### The areas of the Anchor (11.3) -/

/-- 11.3: a stretch of the Anchor's offsets whose bytes one layout gives, its fields apart from each other and within the stretch. -/
structure AreaAt (p : Part) (layout : List FieldAt) (lo hi : Nat) : Prop where
  gives : ∀ k, lo ≤ k → k < hi → anchorLayout p k = layout
  separate : (layout.map FieldAt.place).Pairwise apart
  within : ∀ f ∈ layout, lo ≤ f.offset ∧ f.offset + f.size ≤ hi

theorem AreaAt.shows {p : Part} {layout : List FieldAt} {lo hi offset size value : Nat} (h : AreaAt p layout lo hi)
    (hf : ⟨offset, size, value⟩ ∈ layout) : Shows p offset size value := by
  obtain ⟨hlo, hhi⟩ := h.within _ hf
  refine shows_of_layout p offset size value layout (fun k hk => ?_) h.separate hf
  dsimp only at hlo hhi
  exact h.gives _ (by omega) (by omega)

/-- 11.3: a field given by its offset from `start`, its size and its value, as a field of a layout. -/
def fieldFrom (start : Nat) (f : Nat × Nat × Nat) : FieldAt := ⟨start + f.1, f.2.1, f.2.2⟩

theorem AreaAt.showsAll {p : Part} {layout : List FieldAt} {lo hi start : Nat} {fields : List (Nat × Nat × Nat)}
    (h : AreaAt p layout lo hi) (hfields : ∀ f ∈ fields, fieldFrom start f ∈ layout) : ShowsAll p start fields :=
  fun f hf => h.shows (hfields f hf)

theorem showsAll_append {p : Part} {start : Nat} {xs ys : List (Nat × Nat × Nat)} :
    ShowsAll p start (xs ++ ys) ↔ ShowsAll p start xs ∧ ShowsAll p start ys := by
  simp only [ShowsAll, List.forall_mem_append]

theorem fieldFrom_mem_layoutFrom {start : Nat} {f : Nat × Nat × Nat} {fields : List FieldAt} (h : fieldFrom 0 f ∈ fields) :
    fieldFrom start f ∈ layoutFrom start fields :=
  List.mem_map.mpr ⟨_, h, by simp [fieldFrom, Nat.add_comm]⟩

section

variable (p : Part)

theorem dayArea : AreaAt p (dayLayout p) 0 0x0100 where
  gives _ _ h := if_pos h
  separate := dayLayout_apart p
  within := by simp [dayLayout, shadowField]

theorem accountArea : AreaAt p (accountLayout p) 0x0100 0x0200 where
  gives k _ _ := by rw [anchorLayout, if_neg (by omega), if_pos (by omega)]
  separate := accountLayout_apart p
  within := by simp [accountLayout, shadowField]

theorem ringArea : AreaAt p (ringLayout p) 0x0200 0x0300 where
  gives k _ _ := by rw [anchorLayout, if_neg (by omega), if_neg (by omega), if_pos (by omega)]
  separate := ringLayout_apart p
  within := by simp [ringLayout, waiterLayout, shadowField]

theorem attentionArea : AreaAt p (attentionLayout p) 0x0300 0x0800 where
  gives k _ _ := by rw [anchorLayout, if_neg (by omega), if_neg (by omega), if_neg (by omega), if_pos (by omega)]
  separate := attentionLayout_apart p
  within := by
    simp only [attentionLayout, List.forall_mem_append, List.forall_mem_map, List.forall_mem_cons, shadowField]
    refine ⟨⟨⟨by simp, fun k _ => ?_⟩, fun k _ => ?_⟩, by simp⟩
    · have := k.isLt
      omega
    · have := k.isLt
      omega

theorem laneArea (i : Lane) : AreaAt p (laneLayout p i) (laneAt i) (laneAt i + 0x0100) where
  gives k _ _ := by
    have h := anchorLayout_lane p i (k - laneAt i) (by omega)
    rwa [Nat.add_sub_of_le (by omega)] at h
  separate := laneLayout_apart p i
  within := by
    have hplaces : ∀ f ∈ laneWords p i ++ laneStatus p i ++ trackStatus p i ++ displayStatus p i, f.offset + f.size ≤ 0x0100 := by
      simp [laneWords, laneStatus, trackStatus, displayStatus]
    intro f hf
    obtain ⟨g, hg, rfl⟩ := List.mem_map.mp hf
    have := hplaces g hg
    dsimp only
    omega

theorem windowArea (v : Window) : AreaAt p (windowLayout p v) (descriptorAt v) (descriptorAt v + 0x20) where
  gives k _ _ := by
    have h := anchorLayout_window p v (k - descriptorAt v) (by omega)
    rwa [Nat.add_sub_of_le (by omega)] at h
  separate := windowLayout_apart p v
  within := by
    unfold windowLayout
    split
    · exact fun f hf => absurd hf List.not_mem_nil
    · simp [shadowField]

theorem masterArea (m : Master) : AreaAt p (masterLayout p m) (masterAt m) (masterAt m + 0x10) where
  gives k _ _ := by
    have h := anchorLayout_master p m (k - masterAt m) (by omega)
    rwa [Nat.add_sub_of_le (by omega)] at h
  separate := masterLayout_apart p m
  within := by simp [masterLayout, shadowField]

theorem catalogueArea : AreaAt p (catalogueLayout p) 0x1800 0x1900 where
  gives k _ _ := by
    rw [anchorLayout, if_neg (by omega), if_neg (by omega), if_neg (by omega), if_neg (by omega), if_neg (by omega),
      if_neg (by omega), if_neg (by omega), if_neg (by omega), if_neg (by omega), if_pos (by omega)]
  separate := catalogueLayout_apart p
  within := by simp [catalogueLayout]

theorem pressArea : AreaAt p (pressLayout p) 0x1900 0x2000 where
  gives k _ _ := by
    rw [anchorLayout, if_neg (by omega), if_neg (by omega), if_neg (by omega), if_neg (by omega), if_neg (by omega),
      if_neg (by omega), if_neg (by omega), if_neg (by omega), if_neg (by omega), if_neg (by omega)]
  separate := pressLayout_apart p
  within := by simp [pressLayout]

/-- R167: the area of one probe word. -/
theorem probeArea (m : Master) (v : Window) : AreaAt p (probeLayout p m v) (probeAt m v) (probeAt m v + 8) where
  gives k hlo hhi := by
    have hm := m.isLt
    have hv := v.isLt
    have hmaster : (k - 0x1400) / 0x80 = m.val := by unfold probeAt at hlo hhi; omega
    have hwindow : (k - 0x1400) % 0x80 / 0x08 = v.val := by unfold probeAt at hlo hhi; omega
    have habove : 0x1400 ≤ k := by unfold probeAt at hlo; omega
    have hbelow : k < 0x1800 := by unfold probeAt at hhi; omega
    rw [anchorLayout, if_neg (by omega), if_neg (by omega), if_neg (by omega), if_neg (by omega), if_neg (by omega),
      if_neg (by omega), if_neg (by omega), if_neg (by omega), if_pos (by omega), hmaster, hwindow]
    simp
  separate := by simp [probeLayout, FieldAt.place, apart]
  within := by simp [probeLayout]

/-! ### The values that are written otherwise in the two -/

theorem yes_eq (b : Bool) : yes b = flagNat b := rfl

theorem takingPaused_shown : (if 32 ≤ p.ring.queue.length then 1 else 0) = flagNat (takingPaused p) := by
  by_cases h : 32 ≤ p.ring.queue.length <;> simp [flagNat, takingPaused, Config.fullQueue, h]

theorem kind_shown (k : Option EventKind) : (k.map fun k => k.num.val).getD 255 = kindOrNone k := by
  cases k <;> rfl

theorem number_shown {n : Nat} (k : Option (Fin n)) : (k.map fun k => k.val).getD 255 = numberOrNone k := by
  cases k <;> rfl

theorem lot_shown (lot : Option Nat) : lot.getD 65535 = lotOrNone lot := by
  cases lot <;> rfl

theorem waiting_shown (i : Lane) : (if ∃ x ∈ p.ring.waiters, x.lane = i then 1 else 0) = flagNat (isWaiter p i) := by
  simp [flagNat, isWaiter]

theorem firstTag_eq (trolleys : List Trolley) : firstTag trolleys = headTag trolleys := by
  cases trolleys <;> rfl

/-! ### What each area shows -/

theorem wordResults_shown : ShowsAll p 0 (wordResults p) := by
  have hday : ∀ f ∈ (wordResults p).take 3, fieldFrom 0 f ∈ dayLayout p := by
    simp [wordResults, fieldFrom, dayLayout]
  have haccount : ∀ f ∈ ((wordResults p).drop 3).take 9, fieldFrom 0 f ∈ accountLayout p := by
    simp [wordResults, fieldFrom, accountLayout]
  have hring : ∀ f ∈ (wordResults p).drop 12, fieldFrom 0 f ∈ ringLayout p := by
    simp [wordResults, fieldFrom, ringLayout]
  have hsplit : wordResults p = (wordResults p).take 3 ++ (((wordResults p).drop 3).take 9 ++ (wordResults p).drop 12) := rfl
  rw [hsplit, showsAll_append, showsAll_append]
  exact ⟨(dayArea p).showsAll hday, (accountArea p).showsAll haccount, (ringArea p).showsAll hring⟩

theorem ringStatus_shown : ShowsAll p 0 (ringStatus p) := by
  refine (ringArea p).showsAll ?_
  simp only [ringStatus, List.forall_mem_append, List.forall_mem_map, takingPaused_shown, yes_eq]
  refine ⟨?_, fun k hk => ?_⟩
  · cases hgeometry : p.ring.geometry <;> simp [fieldFrom, ringLayout, ringCapacity, hgeometry]
  · have hwaiter : fieldFrom 0 (0x023C + k, 1, (p.ring.waiters[k]?.map fun w => w.lane.val + 16 * w.need).getD 0) ∈
        waiterLayout p := by
      refine List.mem_map.mpr ⟨k, hk, ?_⟩
      cases p.ring.waiters[k]? <;> simp [fieldFrom, Waiter.code]
    exact List.mem_append_left _ (List.mem_append_right _ hwaiter)

theorem attentionStatus_shown : ShowsAll p 0 (attentionStatus p) := by
  refine (attentionArea p).showsAll ?_
  simp only [attentionStatus, List.forall_mem_append, List.forall_mem_map, kind_shown, number_shown, yes_eq]
  refine ⟨⟨?_, fun k hk => ?_⟩, fun k hk => ?_⟩
  · simp [fieldFrom, attentionLayout]
  · refine List.mem_append_left _ (List.mem_append_left _ (List.mem_append_right _ (List.mem_map.mpr ⟨k, hk, ?_⟩)))
    simp [fieldFrom]
  · refine List.mem_append_left _ (List.mem_append_right _ (List.mem_map.mpr ⟨k, hk, ?_⟩))
    simp [fieldFrom]

theorem countersShown_shown : ShowsAll p 0 (countersShown p) := by
  have hcatalogue : ∀ f ∈ (countersShown p).take 6, fieldFrom 0 f ∈ catalogueLayout p := by
    simp [countersShown, fieldFrom, catalogueLayout]
  have hpress : ∀ f ∈ (countersShown p).drop 6, fieldFrom 0 f ∈ pressLayout p := by
    simp [countersShown, fieldFrom, pressLayout]
  have hsplit : countersShown p = (countersShown p).take 6 ++ (countersShown p).drop 6 := rfl
  rw [hsplit, showsAll_append]
  exact ⟨(catalogueArea p).showsAll hcatalogue, (pressArea p).showsAll hpress⟩

theorem laneFields_shown (i : Lane) :
    ShowsAll p (laneAt i) (laneShown (p.lane i)) ∧ ShowsAll p (laneAt i) (laneStatusShown p i) ∧
      ShowsAll p (laneAt i) (trackStatusShown (p.track i)) ∧ ShowsAll p (laneAt i) (displayStatusShown (p.display i)) := by
  have hwords : ∀ f ∈ laneShown (p.lane i), fieldFrom 0 f ∈ laneWords p i := by
    simp [laneShown, fieldFrom, laneWords, yes_eq]
  have hstatus : ∀ f ∈ laneStatusShown p i, fieldFrom 0 f ∈ laneStatus p i := by
    simp only [laneStatusShown, waiting_shown, lot_shown, yes_eq]
    cases htimer : (p.lane i).timer <;>
      simp [fieldFrom, laneStatus, LaneUnit.roundShown, Config.roundSlots, Timer.left, htimer]
  have htrack : ∀ f ∈ trackStatusShown (p.track i), fieldFrom 0 f ∈ trackStatus p i := by
    simp [trackStatusShown, fieldFrom, trackStatus, yes_eq, lotCount, firstTag_eq]
  have hdisplay : ∀ f ∈ displayStatusShown (p.display i), fieldFrom 0 f ∈ displayStatus p i := by
    simp [displayStatusShown, fieldFrom, displayStatus, ← lot_shown, slotLot]
  refine ⟨(laneArea p i).showsAll fun f hf => fieldFrom_mem_layoutFrom ?_,
    (laneArea p i).showsAll fun f hf => fieldFrom_mem_layoutFrom ?_,
    (laneArea p i).showsAll fun f hf => fieldFrom_mem_layoutFrom ?_,
    (laneArea p i).showsAll fun f hf => fieldFrom_mem_layoutFrom ?_⟩
  · exact List.mem_append_left _ (List.mem_append_left _ (List.mem_append_left _ (hwords f hf)))
  · exact List.mem_append_left _ (List.mem_append_left _ (List.mem_append_right _ (hstatus f hf)))
  · exact List.mem_append_left _ (List.mem_append_right _ (htrack f hf))
  · exact List.mem_append_right _ (hdisplay f hf)

theorem windowFields_shown {v : Window} (hv : v ≠ 0) : ShowsAll p (descriptorAt v) (windowShown p v) := by
  refine (windowArea p v).showsAll ?_
  rw [windowLayout, if_neg hv]
  simp [windowShown, fieldFrom, yes_eq]

theorem anchorWindow_shown : Shows p (descriptorAt 0) 32 0 := by
  intro k hk
  have hlayout := anchorLayout_window p 0 k hk
  rw [windowLayout, if_pos rfl] at hlayout
  rw [anchorByte, hlayout]
  simp [layoutByte]

theorem masterFields_shown (m : Master) : ShowsAll p (masterAt m) (masterShown p m) := by
  refine (masterArea p m).showsAll ?_
  simp [masterShown, fieldFrom, masterLayout]

/-! ### The command and request fields -/

/-- R158: an Anchor read shows a field as the shadow holds it. -/
def ShowsShadow (f : Nat × Nat) : Prop := Shows p f.1 f.2 (Memory.field p.window.shadow f.1 f.2)

variable {p}

theorem AreaAt.showsShadow {layout : List FieldAt} {lo hi : Nat} {fields : List (Nat × Nat)} (h : AreaAt p layout lo hi)
    (hfields : ∀ f ∈ fields, shadowField p f.1 f.2 ∈ layout) : ∀ f ∈ fields, ShowsShadow p f :=
  fun f hf => h.shows (hfields f hf)

variable (p)

theorem wordRequests_shown : ∀ f ∈ [(0x0000, 1), (0x0002, 2), (0x0100, 2), (0x0108, 8), (0x0128, 2), (0x0200, 4), (0x0324, 4),
    (0x0331, 1)], ShowsShadow p f := by
  have hday := (dayArea p).showsShadow (fields := [(0x0000, 1), (0x0002, 2)]) (by simp [dayLayout])
  have haccount := (accountArea p).showsShadow (fields := [(0x0100, 2), (0x0108, 8), (0x0128, 2)]) (by simp [accountLayout])
  have hring := (ringArea p).showsShadow (fields := [(0x0200, 4)]) (by simp [ringLayout])
  have hattention := (attentionArea p).showsShadow (fields := [(0x0324, 4), (0x0331, 1)]) (by simp [attentionLayout])
  exact List.forall_mem_append.mpr ⟨hday, List.forall_mem_append.mpr ⟨haccount, List.forall_mem_append.mpr ⟨hring, hattention⟩⟩⟩

theorem laneRequests_shown (i : Lane) : ∀ f ∈ [(laneAt i, 1), (laneAt i + 1, 1)], ShowsShadow p f :=
  (laneArea p i).showsShadow (by simp [laneLayout, layoutFrom, laneWords, shadowField, Nat.add_comm])

theorem windowRequests_shown {v : Window} (hv : v ≠ 0) : ∀ f ∈ [(descriptorAt v, 8), (descriptorAt v + 0x08, 4),
    (descriptorAt v + 0x0C, 2), (descriptorAt v + 0x0E, 1), (descriptorAt v + 0x0F, 1), (descriptorAt v + 0x10, 1),
    (descriptorAt v + 0x18, 1)], ShowsShadow p f := by
  refine (windowArea p v).showsShadow ?_
  rw [windowLayout, if_neg hv]
  simp

theorem masterRequests_shown (m : Master) : ∀ f ∈ [(masterAt m, 1), (masterAt m + 1, 1), (masterAt m + 2, 1),
    (masterAt m + 3, 1), (masterAt m + 4, 2), (masterAt m + 6, 2), (masterAt m + 8, 1)], ShowsShadow p f :=
  (masterArea p m).showsShadow (by simp [masterLayout])

theorem requestFields_shown : ∀ f ∈ requestFields, ShowsShadow p f := by
  simp only [requestFields, List.forall_mem_append, List.forall_mem_flatMap]
  refine ⟨⟨⟨wordRequests_shown p, fun i _ => laneRequests_shown p i⟩, fun v hv => ?_⟩, fun m _ => masterRequests_shown p m⟩
  exact windowRequests_shown p (of_decide_eq_true (List.mem_filter.mp hv).2)

end

/-! ### Probe words -/

theorem flag_shown {p : Part} {offset : Nat} {b : Bool} (h : Shows p offset 1 (flagNat b)) :
    (b = true → anchorByte p offset = 1) ∧ (b = false → anchorByte p offset = 0) := by
  have hbyte : anchorByte p offset = BitVec.ofNat 8 (flagNat b) := by simpa using h 0 Nat.one_pos
  rw [hbyte]
  refine ⟨?_, ?_⟩
  · rintro rfl
    rfl
  · rintro rfl
    rfl

/-- R167: a probe word's three bytes, by the conditions that they show. -/
theorem probe_bytes (p : Part) (m : Master) (v : Window) :
    let valid := p.window.cache[v].valid = true
    let allowed := fun direction => valid ∧ RoleAllows p.window.masters[m] p.window.cache[v] direction
    ((valid → anchorByte p (probeAt m v) = 1) ∧ (¬ valid → anchorByte p (probeAt m v) = 0)) ∧
    ((allowed .read → anchorByte p (probeAt m v + 1) = 1) ∧ (¬ allowed .read → anchorByte p (probeAt m v + 1) = 0)) ∧
    ((allowed .write → anchorByte p (probeAt m v + 2) = 1) ∧ (¬ allowed .write → anchorByte p (probeAt m v + 2) = 0)) := by
  intro valid allowed
  have hallowed : ∀ direction, probeAllowed p m v direction = true ↔ allowed direction := fun direction => by
    rw [probeAllowed, Bool.and_eq_true, accessAllowed_iff]
  have hvalid := flag_shown ((probeArea p m v).shows (offset := probeAt m v) (value := flagNat p.window.cache[v].valid)
    (by simp [probeLayout]))
  have hread := flag_shown ((probeArea p m v).shows (offset := probeAt m v + 1) (value := flagNat (probeAllowed p m v .read))
    (by simp [probeLayout]))
  have hwrite := flag_shown ((probeArea p m v).shows (offset := probeAt m v + 2) (value := flagNat (probeAllowed p m v .write))
    (by simp [probeLayout]))
  rw [← Bool.not_eq_true, hallowed] at hread hwrite
  rw [← Bool.not_eq_true] at hvalid
  exact ⟨hvalid, hread, hwrite⟩

/-- Settles O50: each kind of read is taken as its row says, and every field of an Anchor read stands in its area's layout. -/
theorem readsAreAnsweredOrForwarded : Obligations.ReadsAreAnsweredOrForwarded := by
  refine ⟨?_, ?_, ?_, ?_, ?_, ?_, ?_, ?_, ?_⟩
  · intro s r hread
    exact exec_read_taken hread.1 (read_into_of hread) (act := answerBuyer) rfl
  · intro s r hread
    exact exec_read_taken hread.1 (read_into_of hread) (act := answerDesk) rfl
  · intro s r hread
    exact exec_read_taken hread.1 (read_into_of hread) (act := answerReply) rfl
  · intro s r hread
    exact exec_read_taken hread.1 (read_into_of hread) (act := answerAnchor) rfl
  · intro s r hread
    exact exec_read_taken hread.1 (read_into_of hread) (act := forwardLot) rfl
  · intro s r htake hpass hkind
    exact exec_read_taken htake (isForwardedRead_of hpass hkind) (act := forwardPlain) rfl
  · intro f n
    simpa using beatsAt_bytes f n 0
  · intro p m v word valid allowed
    obtain ⟨⟨hvalid, hinvalid⟩, ⟨hread, hnoRead⟩, ⟨hwrite, hnoWrite⟩⟩ := probe_bytes p m v
    refine ⟨hvalid, fun h => ⟨hinvalid h, hnoRead fun ha => h ha.1, hnoWrite fun ha => h ha.1⟩, fun h => ?_⟩
    exact ⟨fun ha => hread ⟨h, ha⟩, fun ha => hnoRead fun hb => ha hb.2, fun ha => hwrite ⟨h, ha⟩,
      fun ha => hnoWrite fun hb => ha hb.2⟩
  · intro p
    exact ⟨wordResults_shown p, ringStatus_shown p, attentionStatus_shown p, countersShown_shown p, laneFields_shown p,
      fun v => windowFields_shown p, anchorWindow_shown p, masterFields_shown p, requestFields_shown p⟩

end Sys2Proof.Machine
end

section
/-! PROOFS. The Store Port's grant and retries, and the end of an event. -/

namespace Sys2Proof.Machine

open Sys2Proof.Safety

/-- An act that leaves the part as it stands leaves the state. -/
theorem actOn_same {s : State} {f : Part → Part} (h : f s.part = s.part) : actOn s f = .next s := by
  rw [actOn_of h]

/-! ### The requester that is granted (R168) -/

theorem mem_roundAfter (last r : Requester) : r ∈ roundAfter last := by
  cases last <;> cases r <;> decide

theorem roundAfter_ordered (last : Requester) : (roundAfter last).Pairwise fun x y => roundPlace last x < roundPlace last y := by
  cases last <;> decide

/-- R168: the requester that is chosen is the first of the round order that has a transaction ready. -/
theorem chosen_first {p : Part} {r : Requester} {x : Transaction} (hready : ready p r = some x)
    (hfirst : ∀ r', roundPlace p.store.lastGranted r' < roundPlace p.store.lastGranted r → ready p r' = none) :
    chosen p = some (r, x) := by
  obtain ⟨before, after, hsplit⟩ := List.append_of_mem (mem_roundAfter p.store.lastGranted r)
  have hordered := roundAfter_ordered p.store.lastGranted
  rw [hsplit] at hordered
  have hbefore : ∀ r' ∈ before, ready p r' = none := fun r' hr' =>
    hfirst r' ((List.pairwise_append.mp hordered).2.2 r' hr' r List.mem_cons_self)
  unfold chosen
  refine List.findSome?_eq_some_iff.mpr ⟨before, r, after, hsplit, ?_, fun r' hr' => ?_⟩
  · rw [hready]
    rfl
  · rw [hbefore r' hr']
    rfl

theorem chosen_none {p : Part} (h : ∀ r, ready p r = none) : chosen p = none := by
  unfold chosen
  refine List.findSome?_eq_none_iff.mpr fun r _ => ?_
  rw [h r]
  rfl

theorem ready_none_iff {p : Part} {r : Requester} : ready p r = none ↔ ∀ x, ¬ Presents p r x := by
  simp only [Option.eq_none_iff_forall_ne_some, ne_eq, ready_iff]

theorem grantStorePort_busy {p : Part} (h : p.store.inFlight ≠ none) : grantStorePort p = p :=
  if_pos (Option.isSome_iff_ne_none.mpr h)

theorem grantStorePort_free {p : Part} (h : p.store.inFlight = none) :
    grantStorePort p = (chosen p).elim p fun c => issue p c.1 c.2 := by
  unfold grantStorePort
  rw [h]
  cases chosen p <;> rfl

theorem issue_store (p : Part) (r : Requester) (x : Transaction) :
    (issue p r x).store = { p.store with lastGranted := r, inFlight := some { transaction := x, retries := 0 },
                                         turn := (issue p r x).store.turn } := rfl

/-- R168: a transaction that the Catalogue requester does not present changes the Store Port alone as it is issued. -/
theorem issue_other {p : Part} {r : Requester} {x : Transaction} (hx : Presents p r x) (hr : r ≠ .catalogue) :
    (issue p r x).store.turn = p.store.turn ∧ issue p r x = { p with store := (issue p r x).store } := by
  cases r
  case catalogue => exact absurd rfl hr
  case forward =>
    rcases hx with ⟨w, _, rfl⟩ | ⟨_, y, _, rfl⟩
    · exact ⟨rfl, rfl⟩
    · exact ⟨rfl, rfl⟩
  case ringWriter =>
    obtain ⟨y, rest, g, _, _, rfl⟩ := hx
    exact ⟨rfl, rfl⟩

theorem issue_writeBack (p : Part) (r : Requester) (e : WriteBackEntry) (address : Address) (data : List Beat) :
    issue p r (.writeBack e address data) =
      { p with
        store := (issue p r (.writeBack e address data)).store,
        catalogue := { p.catalogue with
          writeBackOut := some e,
          writeBacks := if p.catalogue.writeBackOut = none then p.catalogue.writeBacks.tail else p.catalogue.writeBacks } } := by
  unfold issue CatalogueUnit.issue
  cases hout : p.catalogue.writeBackOut <;> simp [Part.setCatalogue, Part.setStore]

/-- Settles O52, by the round order (`chosen_first`) and what each kind of transaction changes as it is issued. -/
theorem storePortGrantsInRoundOrder : Obligations.StorePortGrantsInRoundOrder := by
  intro s
  refine ⟨fun hbusy => actOn_same (grantStorePort_busy hbusy), fun hfree => ⟨fun hnone => ?_, fun r x hx hfirst => ?_⟩⟩
  · refine actOn_same (f := grantStorePort) ?_
    rw [grantStorePort_free hfree, chosen_none fun r => ready_none_iff.mpr (hnone r)]
    rfl
  · have hgrant : grantStorePort s.part = issue s.part r x := by
      rw [grantStorePort_free hfree,
        chosen_first ((ready_iff s.part r x).mpr hx) fun r' hr' => ready_none_iff.mpr (hfirst r' hr')]
      rfl
    obtain ⟨t, hexec, hpart⟩ := actOn_taken hgrant
    refine ⟨t, (issue s.part r x).store, hexec, issue_store s.part r x, fun hr => ?_, ?_, ?_⟩
    · obtain ⟨hturn, hframe⟩ := issue_other hx hr
      exact ⟨hturn, hpart.trans hframe⟩
    · rintro lot address rfl
      exact ⟨rfl, hpart⟩
    · rintro e address data rfl
      exact ⟨rfl, hpart.trans (issue_writeBack s.part r e address data)⟩

/-! ### RETRY and its exhaustion (R169, R170) -/

section

variable {p : Part} {f : InFlight}

theorem takeRetry_again (hflight : p.store.inFlight = some f) (h : f.retries < 63) :
    takeRetry p = { p with store := { p.store with inFlight := some { f with retries := f.retries + 1 } } } := by
  unfold takeRetry
  simp only [hflight]
  exact if_pos (Nat.succ_lt_succ h)

theorem takeRetry_exhausts (hflight : p.store.inFlight = some f) (h : 63 ≤ f.retries) : takeRetry p = exhaust p f.transaction := by
  unfold takeRetry
  simp only [hflight]
  exact if_neg (Nat.not_lt.mpr (Nat.succ_le_succ h))

theorem takeExhaustion_early (hflight : p.store.inFlight = some f) (h : f.retries < 63) : takeExhaustion p = p := by
  unfold takeExhaustion
  simp only [hflight]
  exact if_pos (Nat.succ_lt_succ h)

theorem takeExhaustion_exhausts (hflight : p.store.inFlight = some f) (h : 63 ≤ f.retries) :
    takeExhaustion p = exhaust p f.transaction := by
  unfold takeExhaustion
  simp only [hflight]
  exact if_neg (Nat.not_lt.mpr (Nat.succ_le_succ h))

end

/-- R169: the 64th RETRY, by either command, is the exhaustion. -/
theorem exec_exhausts {s : State} {f : InFlight} {c : Instr} (hflight : s.part.store.inFlight = some f) (h : 63 ≤ f.retries)
    (hc : c = .storePortRetry ∨ c = .retryExhausted) :
    ∃ t, exec c s = .next t ∧ t.part = exhaust s.part f.transaction := by
  rcases hc with rfl | rfl
  · exact actOn_taken (takeRetry_exhausts hflight h)
  · exact actOn_taken (takeExhaustion_exhausts hflight h)

/-- R8: the fetch of the Listing Queue's head completes once the port is free. -/
theorem completeFetch_portFreed {p : Part} {a : AttentionUnit} {e : ListingEntry} {rest : List ListingEntry} {d : Digest}
    (record : Option (List Beat)) (hlisting : p.catalogue.listing = e :: rest) (hdigest : p.digest e.lot = some d) :
    FetchCompletes (listingOut p a rest) (completeFetch (portFreed p a) record) e d (record.map hostOfBeats) :=
  completeFetch_completes (portFreed p a) (listingOut p a rest) e rest d record hlisting rfl hdigest

/-- The end of an event is judged against the part before the port was freed. -/
theorem settle_portFreed (p q : Part) (a : AttentionUnit) : settle (portFreed p a) q = settle p q := rfl

/-- Settles O53: below the 64th a RETRY counts; the 64th ends the transaction as `endExhausted` says of its kind. -/
theorem retriesAreExhaustedAtTheSixtyFourth : Obligations.RetriesAreExhaustedAtTheSixtyFourth := by
  intro s f hflight
  refine ⟨fun h => ⟨actOn_same (takeExhaustion_early hflight h), actOn_taken (takeRetry_again hflight h)⟩, fun h c hc => ?_⟩
  obtain ⟨t, hexec, hpart⟩ := exec_exhausts hflight h hc
  obtain ⟨a, hfreed, hreported⟩ := exhaust_reported s.part f.transaction
  rw [exhaust, hfreed] at hpart
  refine ⟨t, a, hexec, hreported, ?_, ?_, ?_, ?_, ?_, ?_⟩
  · intro w hw
    rw [hw] at hpart
    exact hpart
  · intro r hr
    rw [hr] at hpart
    exact hpart
  · intro r hr
    rw [hr] at hpart
    exact hpart
  · intro e address data he
    rw [he] at hpart
    exact hpart
  · intro x address data hx
    rw [hx] at hpart
    exact hpart
  · intro lot address e rest d hfetch hlisting hdigest
    rw [hfetch] at hpart
    exact ⟨_, hpart.trans (settle_portFreed _ _ _), completeFetch_portFreed none hlisting hdigest⟩

/-! ### The end of an event (R122, R133, R141) -/

theorem waitersFit_of_sound {p : Part} (h : WaitersSound p) : WaitersFit p := fun w hw => by
  obtain ⟨_, hwaiters⟩ := h
  obtain ⟨_, _, hneed⟩ := hwaiters w hw
  exact hneed

/-- R139 to R142: a rebuilt map does not rest on the Attention Unit. -/
theorem mapRebuilt_attention {r : Part} {a : AttentionUnit} {i : Lane} {d : DisplayLane}
    (h : MapRebuilt { r with attention := a } i d) : MapRebuilt r i d := h

/-- R133, R141: RING-LOW raised where it is due, and the maps that were told of a change rebuilt. -/
theorem eventEnds_rebuilt {r : Part} {a : AttentionUnit} {low : Prop} (hlow : low → Raised r.attention a .ringLow)
    (hnot : ¬ low → a = r.attention) : EventEnds r (rebuildNotified { r with attention := a }) low := by
  have hattention : (rebuildNotified { r with attention := a }).attention = a := rebuildNotified_attention _
  refine ⟨?_, ?_, ?_, rebuildNotified_clears _, fun i hquiet => ?_, fun i htold => ?_⟩
  · rw [hattention]
    exact rebuildNotified_eq _
  · rw [hattention]
    exact hlow
  · rw [hattention]
    exact hnot
  · exact rebuildNotified_display { r with attention := a } i hquiet
  · exact mapRebuilt_attention (rebuildNotified_rebuilt { r with attention := a } i htold)

/-- R133: a raise of RING-LOW where a condition holds, then the maps rebuilt. -/
theorem eventEnds_ite {r : Part} {low : Prop} [Decidable low] :
    EventEnds r (rebuildNotified (if low then r.raise .ringLow else r)) low := by
  split
  next h => exact eventEnds_rebuilt (fun _ => AttentionUnit.raise_raised _ _) (absurd h)
  next h => exact eventEnds_rebuilt (fun hlow => absurd hlow h) fun _ => rfl

theorem serveIfDue_threshold (before p : Part) : (serveIfDue before p).ring.threshold = p.ring.threshold := by
  obtain ⟨⟨waiters, hring⟩, _⟩ := serveIfDue_served before p
  rw [hring]

/-- Settles O57: the part that the waiters' service leaves is the one that RING-LOW and the maps are judged by. -/
theorem eventEndServesTheRingWaiters : Obligations.EventEndServesTheRingWaiters := by
  intro before p hsound
  refine ⟨serveIfDue before p, serveIfDue_threshold before p, by simp, by simp, by simp, by simp, by simp, by simp, by simp,
    fun hdue => ?_, fun hdue => if_neg hdue, ?_, ?_⟩
  · rw [serveIfDue, if_pos hdue]
    exact serveWaiters_inOrder _ p rfl (waitersFit_of_sound hsound)
  · have hends := eventEnds_ite (r := serveIfDue before p)
      (low := (serveIfDue before p).ring.threshold ≤ freeCount before ∧
        freeCount (serveIfDue before p) < (serveIfDue before p).ring.threshold)
    have hsettle : settle before p = rebuildNotified (judgeRingLow before (serveIfDue before p)) := rfl
    rw [hsettle, judgeRingLow, ← serveIfDue_threshold before p]
    exact hends
  · have hends := eventEnds_ite (r := serveIfDue before p)
      (low := freeCount (serveIfDue before p) < (serveIfDue before p).ring.threshold)
    have hsettle : settleThreshold before p = rebuildNotified (judgeThreshold (serveIfDue before p)) := rfl
    rw [hsettle, judgeThreshold, ← serveIfDue_threshold before p]
    exact hends

end Sys2Proof.Machine
end

section
/-! PROOFS. The ends of the Store Port's transactions. -/

namespace Sys2Proof.Machine

open Sys2Proof.Safety

/-! ### Forwarded reads and writes (R169, R170) -/

/-- R169: the answer that ends a transaction, noted as the port is freed. -/
theorem answer_noted (p : Part) (x : Transaction) (answer : FinalAnswer) :
    ∃ a, noteAnswer (freePort p) x answer = portFreed p a ∧ AnswerNoted p a x answer :=
  ⟨_, freePort_noteAnswer p x answer⟩

theorem byteOfBeats_take {beats : List Beat} {n k : Nat} (h : k < 8 * (beats.take n).length) :
    byteOfBeats (beats.take n) k = byteOfBeats beats k := by
  have hbeat : k / 8 < n := by
    rw [List.length_take] at h
    omega
  unfold byteOfBeats
  rw [List.getD_eq_getElem?_getD, List.getElem?_take_of_lt hbeat, ← List.getD_eq_getElem?_getD]

theorem readData_plain {r : ForwardedRead} (data : Vector Beat 8) (h : r.merge = none) :
    r.data data = data.toList.take r.beatCount := by
  unfold ForwardedRead.data
  rw [h]
  rfl

/-- R4: a LOT read's data, with the owned bytes that were captured merged into it. -/
theorem readData_merged {r : ForwardedRead} {o : Owned} (data : Vector Beat 8) (h : r.merge = some o) :
    (r.data data).length = (data.toList.take r.beatCount).length ∧
      ∀ k, k < 8 * (r.data data).length →
        let place := r.address.toNat % 128 + k
        (0x68 ≤ place ∧ place < 0x80 → byteOfBeats (r.data data) k = layoutByte o.layout place) ∧
        (¬ (0x68 ≤ place ∧ place < 0x80) → byteOfBeats (r.data data) k = byteOfBeats data.toList k) := by
  have hdata : r.data data = mergeOwned o (r.address.toNat % 128) (data.toList.take r.beatCount) := by
    unfold ForwardedRead.data
    rw [h]
    rfl
  obtain ⟨hlength, hbytes⟩ := mergeOwned_bytes o (r.address.toNat % 128) (data.toList.take r.beatCount)
  rw [hdata]
  refine ⟨hlength, fun k hk => ?_⟩
  rw [hlength] at hk
  intro place
  rw [hbytes k hk]
  exact ⟨fun hin => if_pos hin, fun hout => (if_neg hout).trans (byteOfBeats_take hk)⟩

theorem readAnswer_data {r : ForwardedRead} {data : Vector Beat 8} {answer : FinalAnswer} (h : answer ≠ .uncorrectable) :
    r.answer data answer = .done (r.data data) := by
  cases answer
  case uncorrectable => exact absurd rfl h
  all_goals rfl

/-- R169, R172: a forwarded read ended once the port is free. -/
theorem endForwardedRead_freed (p : Part) (a : AttentionUnit) (r : ForwardedRead) (answer : Answer) :
    endForwardedRead (portFreed p a) r false answer = readEnded p r answer a := rfl

/-- R169: the final answer to a forwarded read, as one event. -/
theorem exec_forwardedReadCompletion {s : State} {r : ForwardedRead} {abandoned : Bool} {n : Nat} (answer : FinalAnswer)
    (data : Vector Beat 8) (h : s.part.store.inFlight = some { transaction := .forwardRead r abandoned, retries := n }) :
    ∃ t a, exec (.forwardedReadCompletion answer data) s = .next t ∧ AnswerNoted s.part a (.forwardRead r abandoned) answer ∧
      t.part = endForwardedRead (portFreed s.part a) r abandoned (r.answer data answer) := by
  obtain ⟨a, hfreed, hnoted⟩ := answer_noted s.part (.forwardRead r abandoned) answer
  obtain ⟨t, hexec, hpart⟩ := actOn_taken (f := fun p => completeForwardedRead p answer data) (s := s) rfl
  refine ⟨t, a, hexec, hnoted, hpart.trans ?_⟩
  rw [← hfreed]
  simp only [completeForwardedRead, h]

/-- R170: the final answer to a forwarded write, as one event. -/
theorem exec_forwardedWriteCompletion {s : State} {w : ForwardedWrite} {n : Nat} (answer : FinalAnswer)
    (h : s.part.store.inFlight = some { transaction := .forwardWrite w, retries := n }) :
    ∃ t a, exec (.forwardedWriteCompletion answer) s = .next t ∧ AnswerNoted s.part a (.forwardWrite w) answer ∧
      t.part = freeWritePlace (portFreed s.part a) := by
  obtain ⟨a, hfreed, hnoted⟩ := answer_noted s.part (.forwardWrite w) answer
  obtain ⟨t, hexec, hpart⟩ := actOn_taken (f := fun p => completeForwardedWrite p answer) (s := s) rfl
  refine ⟨t, a, hexec, hnoted, hpart.trans ?_⟩
  rw [← hfreed]
  simp only [completeForwardedWrite, h]

/-- Settles O54, by the read's answer and data (`readAnswer_data`, `readData_merged`). -/
theorem forwardedTransactionsEndWithTheirAnswer : Obligations.ForwardedTransactionsEndWithTheirAnswer := by
  refine ⟨fun s r abandoned n answer data hflight => ?_, fun s w n answer hflight => ?_⟩
  · obtain ⟨t, a, hexec, hnoted, hpart⟩ := exec_forwardedReadCompletion answer data hflight
    refine ⟨t, a, hexec, hnoted, ?_, ?_, ?_⟩
    · rintro rfl
      exact hpart
    · rintro rfl rfl
      exact hpart
    · rintro rfl hgood
      rw [readAnswer_data hgood, endForwardedRead_freed] at hpart
      refine ⟨fun hplain => ?_, fun o hmerge => ?_⟩
      · rw [readData_plain data hplain] at hpart
        exact hpart
      · obtain ⟨hlength, hbytes⟩ := readData_merged data hmerge
        exact ⟨r.data data, hpart, hlength, hbytes⟩
  · exact exec_forwardedWriteCompletion answer hflight

/-! ### Fetch reads (R8) -/

theorem endFetchRead_good (p : Part) (data : Vector Beat 8) {answer : FinalAnswer} (h : answer ≠ .uncorrectable) :
    endFetchRead p data answer = keepLine p data := by
  cases answer
  case uncorrectable => exact absurd rfl h
  all_goals rfl

theorem keepLine_lower {p : Part} (data : Vector Beat 8) (h : p.catalogue.fetchLower = none) :
    keepLine p data = { p with catalogue := { p.catalogue with fetchLower := some data } } := by
  unfold keepLine
  simp only [h]
  rfl

theorem keepLine_upper {p : Part} {lower : Vector Beat 8} (data : Vector Beat 8) (h : p.catalogue.fetchLower = some lower) :
    keepLine p data = completeFetch p (some (lower.toList ++ data.toList)) := by
  unfold keepLine
  simp only [h]

/-- R8: the final answer to a fetch read, as one event. -/
theorem exec_fetchReadCompletion {s : State} {lot : Nat} {address : Address} {n : Nat} (answer : FinalAnswer)
    (data : Vector Beat 8) (h : s.part.store.inFlight = some { transaction := .fetch lot address, retries := n }) :
    ∃ t a, exec (.fetchReadCompletion answer data) s = .next t ∧ AnswerNoted s.part a (.fetch lot address) answer ∧
      t.part = settle s.part (endFetchRead (portFreed s.part a) data answer) := by
  obtain ⟨a, hfreed, hnoted⟩ := answer_noted s.part (.fetch lot address) answer
  obtain ⟨t, hexec, hpart⟩ := actOn_taken (f := fun p => completeFetchRead p answer data) (s := s) rfl
  refine ⟨t, a, hexec, hnoted, hpart.trans ?_⟩
  rw [← hfreed]
  simp only [completeFetchRead, h]

/-- Settles O55: a good answer keeps the line (`keepLine`); the upper line, or a failed answer, completes the fetch. -/
theorem fetchCompletionPlacesRefusesOrWithdraws : Obligations.FetchCompletionPlacesRefusesOrWithdraws := by
  intro s lot address n answer data hflight
  obtain ⟨t, a, hexec, hnoted, hpart⟩ := exec_fetchReadCompletion answer data hflight
  refine ⟨t, a, hexec, hnoted, ?_, ?_, ?_⟩
  · intro hgood hlower
    rw [endFetchRead_good _ data hgood, keepLine_lower (p := portFreed s.part a) data hlower] at hpart
    exact hpart
  · intro lower e rest d hgood hlower hlisting hdigest
    rw [endFetchRead_good _ data hgood, keepLine_upper (p := portFreed s.part a) data hlower] at hpart
    exact ⟨_, hpart, completeFetch_portFreed (some (lower.toList ++ data.toList)) hlisting hdigest⟩
  · rintro e rest d rfl hlisting hdigest
    exact ⟨_, hpart, completeFetch_portFreed none hlisting hdigest⟩

/-! ### Part-made writes (R18, R128, R170) -/

/-- R18, R58: the part once a write-back is out of flight and its lot's lane, where its close asked for it, has been told. -/
def writeBackTold (p : Part) (e : WriteBackEntry) : Part :=
  let q := { p with catalogue := { p.catalogue with writeBackOut := none } }
  if e.forClose = true then (closingLane q e.lot).elim q (leaveClosing q) else q

theorem completeWriteBack_eq (p : Part) (e : WriteBackEntry) :
    completeWriteBack p e = endDayIfDue (freeIfDone (writeBackTold p e) e.lot) := by
  have htold : (if e.forClose = true then
        match closingLane (p.setCatalogue { p.catalogue with writeBackOut := none }) e.lot with
        | some i => leaveClosing (p.setCatalogue { p.catalogue with writeBackOut := none }) i
        | none => p.setCatalogue { p.catalogue with writeBackOut := none }
      else p.setCatalogue { p.catalogue with writeBackOut := none }) = writeBackTold p e := by
    unfold writeBackTold
    congr 1
    change _ = (closingLane (p.setCatalogue { p.catalogue with writeBackOut := none }) e.lot).elim _ _
    cases closingLane (p.setCatalogue { p.catalogue with writeBackOut := none }) e.lot <;> rfl
  rw [← htold]
  rfl

theorem writeBackTold_none {p : Part} {e : WriteBackEntry}
    (h : e.forClose = false ∨ ∀ i, ¬ ((p.lane i).live = some e.lot ∧ (p.lane i).state = .closing)) :
    writeBackTold p e = { p with catalogue := { p.catalogue with writeBackOut := none } } := by
  unfold writeBackTold
  dsimp only
  split
  next hclose =>
    have hlanes := h.resolve_left (by rw [hclose]; nofun)
    rw [(closingLane_iff { p with catalogue := { p.catalogue with writeBackOut := none } } e.lot).1 hlanes]
    rfl
  next => rfl

theorem writeBackTold_leaves {p : Part} {e : WriteBackEntry} {i : Lane} (hclose : e.forClose = true)
    (hlive : (p.lane i).live = some e.lot) (hstate : (p.lane i).state = .closing)
    (hfirst : ∀ j, j < i → ¬ ((p.lane j).live = some e.lot ∧ (p.lane j).state = .closing)) :
    LeavesClosing { p with catalogue := { p.catalogue with writeBackOut := none } } (writeBackTold p e) i := by
  have hlane := (closingLane_iff { p with catalogue := { p.catalogue with writeBackOut := none } } e.lot).2 i hlive hstate hfirst
  have htold : writeBackTold p e = leaveClosing { p with catalogue := { p.catalogue with writeBackOut := none } } i := by
    unfold writeBackTold
    dsimp only
    rw [if_pos hclose, hlane]
    rfl
  rw [htold]
  exact leaveClosing_leaves _ i

/-- R170: an uncorrectable answer to a part-made write gives the port back. -/
theorem exec_partMadeWriteUncorrectable {s : State} {x : Transaction}
    (h : partMadeUncorrectable s.part = noteAnswer (freePort s.part) x .uncorrectable) :
    ∃ t a, exec .partMadeWriteUncorrectable s = .next t ∧ AnswerNoted s.part a x .uncorrectable ∧ t.part = portFreed s.part a := by
  obtain ⟨a, hfreed, hnoted⟩ := answer_noted s.part x .uncorrectable
  obtain ⟨t, hexec, hpart⟩ := actOn_taken (h.trans hfreed)
  exact ⟨t, a, hexec, hnoted, hpart⟩

theorem partMadeUncorrectable_writeBack {p : Part} {e : WriteBackEntry} {address : Address} {data : List Beat} {n : Nat}
    (h : p.store.inFlight = some { transaction := .writeBack e address data, retries := n }) :
    partMadeUncorrectable p = noteAnswer (freePort p) (.writeBack e address data) .uncorrectable := by
  unfold partMadeUncorrectable
  simp only [h]
  rfl

theorem partMadeUncorrectable_ringRecord {p : Part} {x : RingRecord} {address : Address} {data : List Beat} {n : Nat}
    (h : p.store.inFlight = some { transaction := .ringRecord x address data, retries := n }) :
    partMadeUncorrectable p = noteAnswer (freePort p) (.ringRecord x address data) .uncorrectable := by
  unfold partMadeUncorrectable
  simp only [h]
  rfl

/-- R18: a good answer to a write-back, as one event. -/
theorem exec_writeBackCompletion {s : State} {e : WriteBackEntry} {address : Address} {data : List Beat} {n : Nat}
    (corrected : Bool) (h : s.part.store.inFlight = some { transaction := .writeBack e address data, retries := n }) :
    ∃ t a, exec (.writeBackCompletion corrected) s = .next t ∧
      AnswerNoted s.part a (.writeBack e address data) (goodAnswer corrected) ∧
      t.part = settle s.part (endDayIfDue (freeIfDone (writeBackTold (portFreed s.part a) e) e.lot)) := by
  obtain ⟨a, hfreed, hnoted⟩ := answer_noted s.part (.writeBack e address data) (goodAnswer corrected)
  obtain ⟨t, hexec, hpart⟩ := actOn_taken (f := fun p => finishWriteBack p corrected) (s := s) rfl
  refine ⟨t, a, hexec, hnoted, hpart.trans ?_⟩
  rw [← completeWriteBack_eq, ← hfreed]
  simp only [finishWriteBack, h]

/-- R128: a record out of its queue and published. -/
def recordPublished (p : Part) : Part :=
  { p with ring := { p.ring with queue := p.ring.queue.tail, published := p.ring.published + 1 } }

theorem publishRecord_other {p : Part} {x : RingRecord} (h : ∀ f, x.body ≠ .lotClose f) : publishRecord p x = recordPublished p := by
  unfold publishRecord
  cases hbody : x.body
  case lotClose f => exact absurd hbody (h f)
  all_goals rfl

theorem publishRecord_lotClose {p : Part} {x : RingRecord} {f : LotCloseFields} (h : x.body = .lotClose f) :
    publishRecord p x = completeClose (recordPublished p) f.lane f.lot := by
  unfold publishRecord
  rw [h]
  rfl

/-- R128: a good answer to a ring record's write, as one event. -/
theorem exec_ringRecordCompletion {s : State} {x : RingRecord} {address : Address} {data : List Beat} {n : Nat}
    (corrected : Bool) (h : s.part.store.inFlight = some { transaction := .ringRecord x address data, retries := n }) :
    ∃ t a, exec (.ringRecordCompletion corrected) s = .next t ∧
      AnswerNoted s.part a (.ringRecord x address data) (goodAnswer corrected) ∧
      t.part = settle s.part (publishRecord (portFreed s.part a) x) := by
  obtain ⟨a, hfreed, hnoted⟩ := answer_noted s.part (.ringRecord x address data) (goodAnswer corrected)
  obtain ⟨t, hexec, hpart⟩ := actOn_taken (f := fun p => finishRingRecord p corrected) (s := s) rfl
  refine ⟨t, a, hexec, hnoted, hpart.trans ?_⟩
  rw [← hfreed]
  simp only [finishRingRecord, h]

/-- Settles O56: a write-back tells its lot's lane (`writeBackTold`); a record is published (`publishRecord`). -/
theorem partMadeWritesCompleteOrAreIssuedAfresh : Obligations.PartMadeWritesCompleteOrAreIssuedAfresh := by
  refine ⟨fun s e address data n hflight => ⟨?_, fun corrected => ?_⟩, fun s x address data n hflight => ⟨?_, fun corrected => ?_⟩⟩
  · exact exec_partMadeWriteUncorrectable (partMadeUncorrectable_writeBack hflight)
  · obtain ⟨t, a, hexec, hnoted, hpart⟩ := exec_writeBackCompletion corrected hflight
    refine ⟨t, a, writeBackTold (portFreed s.part a) e, _, hexec, hnoted, ?_, ?_, freeIfDone_freed _ _, hpart⟩
    · exact fun h => writeBackTold_none (p := portFreed s.part a) h
    · exact fun i hclose hlive hstate hfirst => writeBackTold_leaves (p := portFreed s.part a) hclose hlive hstate hfirst
  · exact exec_partMadeWriteUncorrectable (partMadeUncorrectable_ringRecord hflight)
  · obtain ⟨t, a, hexec, hnoted, hpart⟩ := exec_ringRecordCompletion corrected hflight
    refine ⟨t, a, _, hexec, hnoted, hpart, ?_⟩
    intro published
    refine ⟨fun hother => publishRecord_other hother, fun f d hclose hdigest => ?_⟩
    rw [publishRecord_lotClose hclose]
    exact completeClose_completes published f.lane f.lot d hdigest

end Sys2Proof.Machine
end
